-- ==== Sys2Proof/Word.lean ====
section
/-! DEFINITION. The byte and the 16-bit frame check, and the widths a number is sent in (11.1). -/

namespace Sys2Proof

/-- One byte on a station port. -/
abbrev Byte := BitVec 8

/-- The 16-bit cyclic code of a frame (R186). -/
abbrev Crc := BitVec 16

end Sys2Proof
end

