-- ==== Sys2Proof/Records.lean ====
section
/-! DEFINITION. The names and records of the register: lot states, holds, notices, roles, the lot record with its
index entry, recipes, ports. One type each, as the tables of the spec list them. -/

namespace Sys2Proof

/-- The eight states of a lot's life (R1). -/
inductive LotState
  | mixing | sealed | curing | cured | testing | cleared | rejected | extracted
  deriving DecidableEq, Repr

/-- The hold reasons (R1, section 1.3), in the order of their bits (section 11.5). -/
inductive Hold
  | dose | potLife | frost | sensor | audit | intake | manual
  deriving DecidableEq, Repr

/-- A hold set: bits 0 to 6 as section 11.5 numbers them (R5). -/
abbrev HoldSet := BitVec 7

/-- The notice kinds (R176), in the order of their bits (section 11.5). -/
inductive Notice
  | cured | cleared | rejected | hold | cellFault | potLife | orphan | corrected | worn | lost | restart
  deriving DecidableEq, Repr

/-- A set of notice kinds: bits 0 to 10 as section 11.5 numbers them (R176). -/
abbrev NoticeSet := BitVec 11

/-- The queue statuses a CURED lot may hold (R97). -/
inductive QueueStatus
  | queued | waiting | parked
  deriving DecidableEq, Repr

/-- Why a lot failed its test (R106). -/
inductive FailCause
  | strength | leach | both
  deriving DecidableEq, Repr

/-- The four station ports (R163). -/
inductive PortName
  | a | b | c | d
  deriving DecidableEq, Repr

/-- The role of a port (R163). -/
inductive Role
  | plant | mixer | lab | yard
  deriving DecidableEq, Repr

/-- The plant mode (R173). -/
inductive PlantMode
  | run | pause | service
  deriving DecidableEq, Repr

/-- A window: the first and last channel or cell a mixer or yard port may name (R163). -/
structure Window where
  first : Nat
  last : Nat
  deriving DecidableEq, Repr

/-- A recipe's name: its bank and its number (R133). -/
structure RecipeRef where
  bank : Nat
  number : Nat
  deriving DecidableEq, Repr

/-- The ten value fields of a recipe (R133). -/
structure RecipeValues where
  cementRatio : Nat
  waterRatio : Nat
  doseTolerance : Nat
  datum : Int
  frostLimit : Int
  potLife : Nat
  maturityTarget : Nat
  retestIncrement : Nat
  minStrength : Nat
  maxLeach : Nat
  deriving DecidableEq, Repr

/-- A lot's recipe snapshot: the nine value fields other than the water ratio (R144). -/
structure Snapshot where
  cementRatio : Nat
  doseTolerance : Nat
  datum : Int
  frostLimit : Int
  potLife : Nat
  maturityTarget : Nat
  retestIncrement : Nat
  minStrength : Nat
  maxLeach : Nat
  deriving DecidableEq, Repr

/-- A lot's recipe reference with its snapshot: the two are present together (R1). -/
structure LotRecipe where
  ref : RecipeRef
  snapshot : Snapshot
  deriving DecidableEq, Repr

/-- The dosed figures of a lot, in kg (R1). They are present together (section 11.3, bit 4). -/
structure Dosed where
  ash : Nat
  cement : Nat
  water : Nat
  deriving DecidableEq, Repr

/-- The results of a verdict (R1): strength and leach class are present together. -/
structure TestResult where
  strength : Nat
  leachClass : Nat
  deriving DecidableEq, Repr

/-- The lot record, field by field as the table of R1 lists it. A field that may be absent is an Option: an absent
field differs from one that holds zero. -/
structure LotRecord where
  number : Nat
  state : LotState
  holds : HoldSet
  recipe : Option LotRecipe
  generation : Nat
  parent : Option Nat
  reservation : Option Nat
  carriedAsh : Option Nat
  dosed : Option Dosed
  ashMass : Option Nat
  channel : Option Nat
  mixDeadline : Option Nat
  targetCell : Option Nat
  cell : Option Nat
  maturity : Option Nat
  target : Option Nat
  pendingTarget : Option Nat
  frostRun : Option Nat
  retests : Nat
  tester : Option PortName
  result : Option TestResult
  failCause : Option FailCause
  opened : Option Nat
  sealedAt : Option Nat
  placed : Option Nat
  cured : Option Nat
  queueStatus : Option QueueStatus
  deriving DecidableEq, Repr

/-- An index entry (R12). Its slot field is the slot it is kept with (R145), so it is not held twice. -/
structure IndexEntry where
  number : Nat
  state : LotState
  ash : Nat
  reservation : Option Nat
  deriving DecidableEq, Repr

/-- How the check code of a stored record or entry stands to its contents (R145, R146): it agrees; the contents are
wrong in one word, and the code repairs them to the contents given; or they are wrong in more than one word. -/
inductive CheckCode (α : Type)
  | agrees
  | oneWord (repaired : α)
  | beyond
  deriving DecidableEq, Repr

/-- A record or entry as it is stored: its contents as they stand and its check code (R145). -/
structure Stored (α : Type) where
  held : α
  code : CheckCode α
  deriving DecidableEq, Repr

/-- What a slot of the Lot Table holds for its lot: the record, the index entry kept with it, and the record's second
copy of the lot number, which is absent when it is not readable (R145). -/
structure Lot where
  record : Stored LotRecord
  entry : Stored IndexEntry
  numberCopy : Option Nat
  deriving DecidableEq, Repr

/-- A port's role and window, as the port setup keeps them (R163, R171). -/
structure PortRole where
  role : Role
  window : Option Window
  deriving DecidableEq, Repr

end Sys2Proof
end

