-- ==== Sys2Proof/Syntax.lean ====
section
/-! DEFINITION. The commands: one constructor for each row of spec/opcode_table.json. A request carries the port it
arrives on, its tag (R165) and the fields of its body as section 11.6 lists them, as carried on the wire. -/

namespace Sys2Proof

/-- A disturbance of stored contents since the last command that reports one (R145, R161, R177, R184; log entry 5). -/
inductive Upset
  /-- one word of the slot's record is disturbed; the contents now stand as given -/
  | recordWord (slot : Nat) (held : LotRecord)
  /-- two or more words of the slot's record are disturbed -/
  | recordWords (slot : Nat) (held : LotRecord)
  /-- the second copy of the lot number is no longer readable -/
  | numberCopy (slot : Nat)
  /-- one word of the slot's index entry is disturbed -/
  | entryWord (slot : Nat) (held : IndexEntry)
  /-- two or more words of the slot's index entry are disturbed -/
  | entryWords (slot : Nat) (held : IndexEntry)
  /-- the entry passes its own check and holds other contents than its record (R146) -/
  | entryDisagrees (slot : Nat) (held : IndexEntry)
  /-- the slot's entry in the slot health table fails its check (R161) -/
  | health (slot : Nat)
  /-- a total of the account fails its own check (R184) -/
  | total
  /-- the retention signature is no longer intact (R184) -/
  | signature
  /-- the port's notice mask fails its check (R177) -/
  | mask (p : PortName)
  /-- a stored recipe record fails its check (R143) -/
  | recipe (bank number : Nat)
  /-- the stored bank state fails its check (R134) -/
  | bankState
  /-- the stored port setup fails its check (R171) -/
  | portSetup
  deriving DecidableEq, Repr

/-- The commands of the register, in the order of the table. `p` is the port and `t` the tag of a request frame. -/
inductive Instr
  | intake (p : PortName) (t : Nat) (amount : Int)
  | account (p : PortName) (t : Nat)
  | lookup (p : PortName) (t : Nat) (lot : Nat)
  | scan (p : PortName) (t : Nat) (filter start : Nat)
  | amendTarget (p : PortName) (t : Nat) (part lot target : Nat)
  | amendRecipe (p : PortName) (t : Nat) (part lot bank number : Nat)
  | amendDosed (p : PortName) (t : Nat) (part lot ash cement water : Nat)
  | holdLot (p : PortName) (t : Nat) (lot : Nat)
  | clearHold (p : PortName) (t : Nat) (lot reasons : Nat)
  | withdraw (p : PortName) (t : Nat) (lot : Nat)
  | cellOpen (p : PortName) (t : Nat) (cell : Nat)
  | cellClose (p : PortName) (t : Nat) (cell : Nat)
  | cellStatus (p : PortName) (t : Nat) (cell : Nat)
  | queueStatus (p : PortName) (t : Nat)
  | recipeRead (p : PortName) (t : Nat) (bank number : Nat)
  | recipeWrite (p : PortName) (t : Nat) (bank number form : Nat) (values : Option RecipeValues)
  | bankSelect (p : PortName) (t : Nat) (bank : Nat)
  | mode (p : PortName) (t : Nat) (code : Nat)
  | portSetup (p : PortName) (t : Nat) (port role first last : Nat)
  | noticeMask (p : PortName) (t : Nat) (port kinds : Nat)
  | notices (p : PortName) (t : Nat)
  | slotHealth (p : PortName) (t : Nat)
  | reinstateSlot (p : PortName) (t : Nat) (slot : Nat)
  | clock (p : PortName) (t : Nat) (minute : Option Nat)
  | restart (p : PortName) (t : Nat)
  | clearRegister (p : PortName) (t : Nat) (count : Nat)
  | openLot (p : PortName) (t : Nat) (channel recipe planned : Nat)
  | remixOpen (p : PortName) (t : Nat) (channel recipe planned parent : Nat)
  | dose (p : PortName) (t : Nat) (channel ash cement water : Nat)
  | sealLot (p : PortName) (t : Nat) (channel cell : Nat)
  | stall (p : PortName) (t : Nat) (channel : Nat)
  | resume (p : PortName) (t : Nat) (channel : Nat)
  | rebind (p : PortName) (t : Nat) (lot channel : Nat)
  | channelStatus (p : PortName) (t : Nat) (channel : Nat)
  | take (p : PortName) (t : Nat)
  | returnLot (p : PortName) (t : Nat) (lot : Nat)
  | verdictResult (p : PortName) (t : Nat) (lot kind strength leachClass : Nat)
  | verdictRetest (p : PortName) (t : Nat) (lot kind : Nat)
  | place (p : PortName) (t : Nat) (lot cell : Nat)
  | release (p : PortName) (t : Nat) (lot cell : Nat)
  | extract (p : PortName) (t : Nat) (lot cell : Nat)
  /-- the bytes that arrive on the port: the row's own case is a complete frame, from its start mark to its check, whose
  check fails (R164; log entry 29) -/
  | frame (p : PortName) (bytes : List Byte)
  /-- a good frame with tag `t` arriving on a BUSY port (R166) -/
  | portBusy (p : PortName) (t : Nat)
  /-- a good frame whose request code or body length the part does not know (R165) -/
  | unknownRequestCode (p : PortName) (t code length : Nat)
  | frameGapTimeout (p : PortName)
  /-- the length bytes of a frame have been received, and hold `length` (R186) -/
  | bodyLengthAbandon (p : PortName) (length : Nat)
  | answerSent (p : PortName)
  | clockAdvance
  | conversionCompletion (cell : Nat) (reading : Int)
  | conversionTimeout
  | strayCompletion (cell : Nat) (reading : Int) (checkGood : Bool)
  | potLifeExpiry
  | idleTimerExpiry (p : PortName)
  | portSetupWriteEnd
  | bankStateWriteEnd
  | auditStep (upsets : List Upset)
  | recipeCommitCompletion
  | warmRestart
  | coldStart
  | resetLineAssert
  | resetLineRelease
  | startComplete
  | mainSupplyLoss
  | mainSupplyReturn (upsets : List Upset)
  deriving DecidableEq, Repr

end Sys2Proof
end

