-- ==== Sys2Proof/Decode.lean ====
section
/-! DEFINITION. The rows of spec/opcode_table.json give no bits: a command reaches the register as a request frame or
as an event, never as a word. So no word spells a command (log entry 28). Which bytes on a port carry which command is
`Sys2Proof.Machine.commandOfFrame` (Machine/Frames.lean). -/

namespace Sys2Proof

/-- The command that a word spells by the table's bits: the table gives no row bits. -/
def decodeTableWord (_nbits _w : Nat) : Option Instr := none

end Sys2Proof
end

