-- ==== Sys2Proof/Config.lean ====
section
/-! DEFINITION. The sizes and limits the spec fixes, and the free values it leaves open. -/

namespace Sys2Proof.Config

/-- The greatest lot number (R4, R11). -/
abbrev maxLot : Nat := 16777215

/-- The greatest minute of the register clock (R181). -/
abbrev maxClock : Nat := 4294967295

/-- The number of slots (R1). -/
abbrev slotCount : Nat := 512

/-- The number of cure cells (R56). -/
abbrev cellCount : Nat := 96

/-- The number of mixer channels (R27). -/
abbrev channelCount : Nat := 4

/-- The number of recipe records: two banks of eight (R133). -/
abbrev recipeCount : Nat := 16

/-- The most lots a lane and its reservation set may hold together (R59). -/
abbrev laneRoom : Nat := 6

/-- The limit of the queue count (R96). -/
abbrev queueLimit : Nat := 64

/-- The tally at which a slot becomes worn (R157). -/
abbrev wearTally : Nat := 4

/-- The greatest tally (R150). -/
abbrev maxTally : Nat := 15

/-- The greatest maturity, at which it saturates (R83). -/
abbrev maxMaturity : Nat := 16777215

/-- The bound of the account's totals, 10^12 kg (R21, R25). -/
abbrev maxTotal : Int := 1000000000000

/-- The margin an INTAKE keeps below the bound, 10^7 kg (R23). -/
abbrev intakeMargin : Int := 10000000

/-- The default port setup, port by port (R171). -/
def defaultSetup : PortName → PortRole
  | .a => ⟨.plant, none⟩
  | .b => ⟨.mixer, some ⟨0, 3⟩⟩
  | .c => ⟨.lab, none⟩
  | .d => ⟨.yard, some ⟨0, 95⟩⟩

/-- FREE VALUE. The code a VERDICT answer carries for its judgement, given whether the lot passed: R108 names the
judgement as a value of the answer and no table of section 11.5 encodes it (log entry 14). -/
opaque judgementCode : Bool → Nat

end Sys2Proof.Config
end

