-- ==== Sys2Proof/Machine/State.lean ====
section
/-! DEFINITION. The state of the register: every piece of state the spec names, as plain data, and the state after
reset. The blocks' rules of ownership are those of spec/00_scope.md. -/

namespace Sys2Proof.Machine

/-- The block stops for no fault: every refusal of the spec is an answer with an outcome code, and every fault of
memory is state that the audit and the start checks find. The type has no constructor, so nothing raises one. -/
inductive Fault
  deriving DecidableEq, Repr

/-- The reasons a command is refused by the model. -/
inductive Refusal
  /-- Raised by Dispatch.lean alone, for a command that has no meaning yet. Safe: the model says nothing of it. -/
  | notModelled (mnemonic : String)
  deriving DecidableEq, Repr

/-- The outcome codes of section 9.7, in the order that numbers them 0 to 23 (section 11.5). -/
inductive OutcomeCode
  | done | empty | emptyLot | frame | portBusy | role | window | mode | unknown | state | held | blocked | laneFull
  | cellClosed | channel | short | noSlot | numbers | noRecipe | busy | range | limit | notHolder | incomplete
  deriving DecidableEq, Repr

/-- One field of an answer's body: its width in bytes and its number (sections 11.1, 11.6). -/
inductive Field
  | u8 (n : Nat)
  | u16 (n : Nat)
  | u24 (n : Nat)
  | u32 (n : Nat)
  | u48 (n : Nat)
  | i16 (z : Int)
  deriving DecidableEq, Repr

/-- An answer frame's contents: the tag of the request answered, the outcome and the body's fields (section 11.2). -/
structure Answer where
  tag : Nat
  outcome : OutcomeCode
  body : List Field
  deriving DecidableEq, Repr

/-- The kinds of start a request's answer may begin once it has been sent (R182, R185). -/
inductive StartKind
  | warm | cold
  deriving DecidableEq, Repr

/-- A slot of the Lot Table with its entry of the slot health table (R1, R9, R157, R161). -/
structure Slot where
  contents : Option Lot
  tally : Nat
  worn : Bool
  reported : Bool
  waiting : Bool
  checkGood : Bool
  deriving DecidableEq, Repr

/-- The lot-number counter (R11). -/
structure Counter where
  next : Nat
  exhausted : Bool
  deriving DecidableEq, Repr

/-- The ash account: the eight totals (R21), and whether every total passes its own check (R184). The totals are
integers so that no movement is cut off at 0 (log entry 24). -/
structure Account where
  intake : Int
  balance : Int
  reserved : Int
  live : Int
  released : Int
  discard : Int
  unbooked : Int
  lost : Int
  checksGood : Bool
  deriving DecidableEq, Repr

/-- What an ACTIVE or STALLED channel holds (R27). -/
structure Binding where
  stalled : Bool
  holder : PortName
  lot : Nat
  doses : Nat
  deriving DecidableEq, Repr

/-- A mixer channel: none while FREE, with no holder, no bound lot and a dose count of 0 (R27). -/
abbrev Channel := Option Binding

/-- An entry of the pot-life list (R48). -/
structure PotEntry where
  lot : Nat
  deadline : Nat
  deriving DecidableEq, Repr

/-- A cell record (R56). The reservation set is kept in ascending number, so that equal sets are equal data; the
reservation count is its length. -/
structure Cell where
  lane : List Nat
  reservations : List Nat
  closed : Bool
  faulty : Bool
  lastValid : Option Int
  lastStamp : Nat
  misses : Nat
  deriving DecidableEq, Repr

/-- A round in progress: the cell whose conversion is in flight and the round's clock minute (R75). -/
structure Scan where
  cell : Nat
  minute : Nat
  deriving DecidableEq, Repr

/-- An entry of the bench list (R96). -/
structure BenchEntry where
  lot : Nat
  tester : PortName
  deriving DecidableEq, Repr

/-- A recipe record: VALID with its values, or INVALID with none, and its stored check (R133). -/
structure StoredRecipe where
  values : Option RecipeValues
  checkGood : Bool
  deriving DecidableEq, Repr

/-- The bank state (R134). -/
structure BankState where
  active : Nat
  pending : Option Nat
  deriving DecidableEq, Repr

/-- A recipe commit in flight: the record, and the values being written, none for RETIRE (R139). -/
structure Commit where
  recipe : RecipeRef
  values : Option RecipeValues
  deriving DecidableEq, Repr

/-- A loss record (R156): each lost slot with its lost number when known. -/
structure LossRecord where
  minute : Nat
  slots : List (Nat × Option Nat)
  ash : Int
  reservation : Int
  lostTotal : Int
  deriving DecidableEq, Repr

/-- A notice mask with the role it was set for and its own check (R177). -/
structure NoticeMask where
  kinds : NoticeSet
  role : Role
  checkGood : Bool
  deriving DecidableEq, Repr

/-- A port's request state (R163, R166). -/
inductive RequestState
  | ready
  | busy (tag : Nat)
  deriving DecidableEq, Repr

/-- A station port (R163). `idleTimer` is none while stopped; running, it holds the seconds it was last started at
(log entry 3). `answer` is the answer of the request in progress, `immediate` the FRAME and PORTBUSY answers that go
out before it (R164, R166). -/
structure Port where
  role : Role
  window : Option Window
  present : Bool
  idleTimer : Option Nat
  request : RequestState
  answer : Option Answer
  startAfter : Option StartKind
  immediate : List Answer
  partialFrame : List Byte
  notices : NoticeSet
  mask : NoticeMask
  deriving DecidableEq, Repr

/-- The four ports by name (R163). -/
structure Ports where
  a : Port
  b : Port
  c : Port
  d : Port
  deriving DecidableEq, Repr

/-- The port setup record of ports B, C and D (R171). -/
structure SetupRecord where
  b : PortRole
  c : PortRole
  d : PortRole
  deriving DecidableEq, Repr

/-- The port setup in the nonvolatile store: the stored record with its check, the record being written, and the
later one that replaces it when that write ends (R171). -/
structure SetupStore where
  stored : SetupRecord
  checkGood : Bool
  writing : Option SetupRecord
  next : Option SetupRecord
  deriving DecidableEq, Repr

/-- What began a start (R182 to R185). -/
inductive StartCause
  | restart | resetLine | powerUp | cold
  deriving DecidableEq, Repr

/-- Whether the part is at work, in a start not yet completed, or without its main supply (R183, R184). -/
inductive Phase
  | running
  | starting (cause : StartCause)
  | off
  deriving DecidableEq, Repr

/-- The state of the register. -/
structure State where
  pending : List Instr
  slots : Vector Slot Config.slotCount
  counter : Counter
  account : Account
  channels : Vector Channel Config.channelCount
  potLife : List PotEntry
  cells : Vector Cell Config.cellCount
  scan : Option Scan
  queue : List Nat
  bench : List BenchEntry
  recipes : Vector StoredRecipe Config.recipeCount
  bank : BankState
  bankStored : BankState
  bankCheckGood : Bool
  bankWrites : List BankState
  commit : Option Commit
  cyclePosition : Nat
  losses : List LossRecord
  ports : Ports
  setup : SetupStore
  mode : PlantMode
  clock : Nat
  phase : Phase
  resetLine : Bool
  signature : Bool
  warmDue : Bool
  coldDue : Bool
  deriving DecidableEq, Repr

/-- A free healthy slot with tally 0 and nothing to report. -/
def Slot.blank : Slot :=
  { contents := none, tally := 0, worn := false, reported := false, waiting := false, checkGood := true }

/-- A cell record after a cold start (R74). -/
def Cell.blank : Cell :=
  { lane := [], reservations := [], closed := false, faulty := false, lastValid := none, lastStamp := 0, misses := 0 }

/-- The account after a cold start (R21). -/
def Account.blank : Account :=
  { intake := 0, balance := 0, reserved := 0, live := 0, released := 0, discard := 0, unbooked := 0, lost := 0,
    checksGood := true }

/-- A recipe record that has never been written (R133). -/
def StoredRecipe.blank : StoredRecipe := { values := none, checkGood := true }

/-- The default mask of a role (R177), bits as section 11.5 numbers them. -/
def defaultMask : Role → NoticeSet
  | .plant => 0b11111111111#11
  | .mixer => 0b10001100000#11
  | .lab => 0b10000000001#11
  | .yard => 0b10000010110#11

/-- The pending set that every start leaves: RESTART alone (R183). -/
def restartOnly : NoticeSet := 0b10000000000#11

/-- The default setup record (R171). -/
def SetupRecord.default : SetupRecord :=
  { b := Config.defaultSetup .b, c := Config.defaultSetup .c, d := Config.defaultSetup .d }

/-- A port after a completed cold start with the given setup (R163, R177, R183). -/
def Port.fresh (r : PortRole) : Port :=
  { role := r.role, window := r.window, present := true, idleTimer := some 30, request := .ready, answer := none,
    startAfter := none, immediate := [], partialFrame := [], notices := restartOnly,
    mask := { kinds := defaultMask r.role, role := r.role, checkGood := true } }

/-- The machine right after reset: a new module whose first cold start has completed (R26, R27, R48, R74, R79, R114,
R133, R134, R161, R163, R171, R173, R181, R183, R185; log entry 1). -/
def State.reset : State where
  pending := []
  slots := Vector.replicate Config.slotCount Slot.blank
  counter := { next := 1, exhausted := false }
  account := Account.blank
  channels := Vector.replicate Config.channelCount none
  potLife := []
  cells := Vector.replicate Config.cellCount Cell.blank
  scan := none
  queue := []
  bench := []
  recipes := Vector.replicate Config.recipeCount StoredRecipe.blank
  bank := { active := 0, pending := none }
  bankStored := { active := 0, pending := none }
  bankCheckGood := true
  bankWrites := []
  commit := none
  cyclePosition := 0
  losses := []
  ports :=
    { a := Port.fresh (Config.defaultSetup .a), b := Port.fresh (Config.defaultSetup .b),
      c := Port.fresh (Config.defaultSetup .c), d := Port.fresh (Config.defaultSetup .d) }
  setup := { stored := SetupRecord.default, checkGood := true, writing := none, next := none }
  mode := .service
  clock := 0
  phase := .running
  resetLine := false
  signature := true
  warmDue := false
  coldDue := false

end Sys2Proof.Machine
end

