-- ==== Sys2Proof/Machine/Flags.lean ====
section
/-! DEFINITION. The computed flags and indications: hold sets and notice sets, the check codes' findings, the band
indication and running ratio, completeness of a record, the attention lines, the balance of the account. -/

namespace Sys2Proof.Machine

/-! ### Hold sets and notice sets (R5, R176, section 11.5) -/

/-- The bit of a hold reason in a hold set (section 11.5). -/
def holdBit : Hold → Nat
  | .dose => 0
  | .potLife => 1
  | .frost => 2
  | .sensor => 3
  | .audit => 4
  | .intake => 5
  | .manual => 6

/-- Whether a hold set holds a reason (R5). -/
def hasHold (h : HoldSet) (r : Hold) : Bool := h.getLsbD (holdBit r)

/-- The hold set with a reason added (R5). -/
def withHold (h : HoldSet) (r : Hold) : HoldSet := h ||| BitVec.twoPow 7 (holdBit r)

/-- The hold set with the listed reasons removed (R7). -/
def withoutHolds (h reasons : HoldSet) : HoldSet := h &&& ~~~reasons

/-- The bit of a notice kind in a notice set (section 11.5). -/
def noticeBit : Notice → Nat
  | .cured => 0
  | .cleared => 1
  | .rejected => 2
  | .hold => 3
  | .cellFault => 4
  | .potLife => 5
  | .orphan => 6
  | .corrected => 7
  | .worn => 8
  | .lost => 9
  | .restart => 10

/-- Whether a notice set holds a kind (R176). -/
def hasNotice (n : NoticeSet) (k : Notice) : Bool := n.getLsbD (noticeBit k)

/-- The notice set with a kind added (R176). -/
def withNotice (n : NoticeSet) (k : Notice) : NoticeSet := n ||| BitVec.twoPow 11 (noticeBit k)

/-! ### Check codes (R145, R146) -/

/-- What checking one item gives (R146). -/
inductive Finding
  | clean | correctable | damaged
  deriving DecidableEq, Repr

/-- A record or entry written with a fresh check code (R145). -/
def fresh {α : Type} (x : α) : Stored α := ⟨x, .agrees⟩

/-- The finding for one item by its own check (R146). -/
def findingOf {α : Type} (x : Stored α) : Finding :=
  match x.code with
  | .agrees => .clean
  | .oneWord _ => .correctable
  | .beyond => .damaged

/-- The contents of an item after the repair its code allows; those it holds where it needs or allows none (R146). -/
def repairedOf {α : Type} (x : Stored α) : α :=
  match x.code with
  | .agrees => x.held
  | .oneWord y => y
  | .beyond => x.held

/-- A change of the contents made without a check: a fault in them is still found at the next check (R148, log
entry 6). On contents whose code agrees this is a rewrite with a fresh code. -/
def modifyStored {α : Type} (f : α → α) (x : Stored α) : Stored α :=
  { held := f x.held,
    code := match x.code with
      | .agrees => .agrees
      | .oneWord y => .oneWord (f y)
      | .beyond => .beyond }

/-- The index entry that stands for a record (R12, R151). -/
def entryOf (r : LotRecord) : IndexEntry :=
  { number := r.number, state := r.state,
    ash := if r.state = .mixing then r.carriedAsh.getD 0 else r.ashMass.getD 0,
    reservation := if r.state = .mixing then r.reservation else none }

/-- The finding for an entry beside its record: an entry that disagrees with a record that is not damaged is taken
as damaged (R146). R146 states it for two items that each pass their own check; that the repaired contents of a
correctable item are compared too, within the same check, is the model's choice (log entry 35). -/
def entryFinding (l : Lot) : Finding :=
  if findingOf l.record ≠ .damaged ∧ findingOf l.entry ≠ .damaged ∧
      entryOf (repairedOf l.record) ≠ repairedOf l.entry then .damaged
  else findingOf l.entry

/-- The number of the lot that a slot holds, as a check of the slot would find it: the record's while the record is not
damaged, else the entry's while that is not damaged, else the record's readable second copy; none when nothing of the
slot can be trusted with it (R145, R146, R151, R152; log entry 8). -/
def lotNumber (l : Lot) : Option Nat :=
  if findingOf l.record ≠ .damaged then some (repairedOf l.record).number
  else if findingOf l.entry ≠ .damaged then some (repairedOf l.entry).number
  else l.numberCopy

/-- The state of the lot that a slot holds, as a check of the slot would find it; none when record and entry are both
damaged (R146, R152; log entry 15). -/
def lotState (l : Lot) : Option LotState :=
  if findingOf l.record ≠ .damaged then some (repairedOf l.record).state
  else if findingOf l.entry ≠ .damaged then some (repairedOf l.entry).state
  else none

/-- What a slot holds is clean: a check of it would change nothing (R146, R149). -/
def cleanBoth (l : Lot) : Bool := decide (findingOf l.record = .clean) && decide (entryFinding l = .clean)

/-! ### The dose band (R38) -/

/-- The band indication (R38). -/
inductive Band
  | none | inside | low | high
  deriving DecidableEq, Repr

/-- The band test of R38 over the whole ash `A` and the dosed cement `c`, in whole numbers. -/
def bandOver (k : Snapshot) (A c : Nat) : Band :=
  if A = 0 then .none
  else if 1000 * ((1000 * c : Int) - k.cementRatio * A).natAbs ≤ k.cementRatio * k.doseTolerance * A then .inside
  else if 1000 * c < k.cementRatio * A then .low
  else .high

/-- A lot's whole ash, carried ash plus dosed ash (R38); absent while the dosed figures are (log entry 22). -/
def wholeAsh (r : LotRecord) : Option Nat := r.dosed.map fun d => r.carriedAsh.getD 0 + d.ash

/-- A lot's band indication (R38); NONE without a snapshot or without dosed figures (R39, log entry 22). -/
def bandOf (r : LotRecord) : Band :=
  match r.recipe, r.dosed with
  | some k, some d => bandOver k.snapshot (r.carriedAsh.getD 0 + d.ash) d.cement
  | _, _ => .none

/-- A lot's running cement ratio in kg/t, rounded down, at most 65,535, absent when the whole ash is 0 (R38). -/
def ratioOf (r : LotRecord) : Option Nat :=
  match r.dosed with
  | some d =>
    let A := r.carriedAsh.getD 0 + d.ash
    if A = 0 then none else some (min 65535 (1000 * d.cement / A))
  | none => none

/-- The lower limit of the dose band, rounded down (R36). -/
def bandLower (k : Snapshot) : Nat := k.cementRatio * (1000 - k.doseTolerance) / 1000

/-- The upper limit of the dose band, rounded down (R36). -/
def bandUpper (k : Snapshot) : Nat := k.cementRatio * (1000 + k.doseTolerance) / 1000

/-! ### Completeness, standing, balance -/

/-- A record is complete for the purpose of clearing AUDIT (R8). -/
def complete (r : LotRecord) : Bool :=
  r.recipe.isSome && r.target.isSome && (r.state != .mixing || r.dosed.isSome)

/-- A lot stands in a lane exactly in these states (R57). -/
def standsInLane (x : LotState) : Bool :=
  match x with
  | .curing | .cured | .testing | .cleared | .rejected => true
  | .mixing | .sealed | .extracted => false

/-- The left side of the first equality of R22. -/
def bookedIn (a : Account) : Int := a.intake + a.unbooked

/-- The right side of the first equality of R22. -/
def bookedOut (a : Account) : Int := a.balance + a.reserved + a.live + a.released + a.discard + a.lost

/-- The first equality of R22. -/
def balanced (a : Account) : Bool := bookedIn a == bookedOut a

/-- The retention check at the return of the main supply (R184). -/
def retained (s : State) : Bool := s.signature && s.account.checksGood && balanced s.account

/-- A port's attention line: active while the main supply is held, a start is complete and the pending set is not
empty (R180). -/
def attention (s : State) (p : Port) : Bool := decide (s.phase = .running) && p.notices != 0

/-- A cell has room for a new reservation (R59). -/
def hasRoom (c : Cell) : Bool := c.lane.length + c.reservations.length < Config.laneRoom

end Sys2Proof.Machine
end

