-- ==== Sys2Proof/Machine/Ops.lean ====
section
/-! DEFINITION. The named operations over the state: the stores by number, notices, holds and the test queue, the
slots of the Lot Table, the places a lot holds, the account. The requests and events of the families are built from
these. -/

namespace Sys2Proof.Machine

/-! ### Lists in a fixed order -/

/-- Insert an element before the first that it comes before. -/
def insertBy {α : Type} (before : α → α → Bool) (x : α) : List α → List α
  | [] => [x]
  | y :: ys => if before x y then x :: y :: ys else y :: insertBy before x ys

/-- A list put in order. Elements neither of which comes before the other, as two records that a fault has given one
number, come out in the reverse of their order in the list, by the model's choice (log entry 12). -/
def sortBy {α : Type} (before : α → α → Bool) (l : List α) : List α := l.foldr (insertBy before) []

/-- A vector with a function applied to every element. -/
def mapVector {α : Type} {n : Nat} (f : α → α) (v : Vector α n) : Vector α n :=
  ⟨⟨v.toList.map f⟩, by simp⟩

/-! ### The ports -/

/-- A port by its name (R163). -/
def Ports.get (x : Ports) : PortName → Port
  | .a => x.a
  | .b => x.b
  | .c => x.c
  | .d => x.d

/-- The ports with one of them replaced. -/
def Ports.set (x : Ports) (p : PortName) (v : Port) : Ports :=
  match p with
  | .a => { x with a := v }
  | .b => { x with b := v }
  | .c => { x with c := v }
  | .d => { x with d := v }

/-- The ports, each changed by a function of its name and record. -/
def Ports.map (f : PortName → Port → Port) (x : Ports) : Ports :=
  { a := f .a x.a, b := f .b x.b, c := f .c x.c, d := f .d x.d }

/-- A port by its name (R163). -/
def State.port (s : State) (p : PortName) : Port := s.ports.get p

/-- The state with a port replaced. -/
def State.setPort (s : State) (p : PortName) (v : Port) : State := { s with ports := s.ports.set p v }

/-- A port receives a notice kind that its mask holds (R176). -/
def receive (k : Notice) (p : Port) : Port :=
  if hasNotice p.mask.kinds k then { p with notices := withNotice p.notices k } else p

/-- A block raises a notice kind: it joins the pending set of every port whose mask holds it (R176). -/
def State.raise (s : State) (k : Notice) : State := { s with ports := s.ports.map fun _ p => receive k p }

/-! ### Slots, records and entries -/

/-- A slot by its number (R1). -/
def State.slot (s : State) (k : Nat) : Slot := s.slots.toList.getD k Slot.blank

/-- The state with a slot replaced. -/
def State.setSlot (s : State) (k : Nat) (x : Slot) : State := { s with slots := s.slots.setIfInBounds k x }

/-- What a slot holds for its lot. -/
def State.lotAt (s : State) (k : Nat) : Option Lot := (s.slot k).contents

/-- The record a slot holds, as it stands. -/
def State.recordAt (s : State) (k : Nat) : Option LotRecord := (s.lotAt k).map fun l => l.record.held

/-- A slot holds the live lot with the number: the entry kept with the slot stands for that lot whatever fault lies in
it, since an entry is known by its slot (R12, R145; log entry 8). -/
def holdsNumber (n : Nat) (x : Slot) : Bool :=
  match x.contents with
  | some l => lotNumber l == some n
  | none => false

/-- The slot of the live lot with a number (R4, R12). R12 lets no two live lots share a number; where faults have made
two slots stand for one number the lowest-numbered slot is taken, by the model's choice (log entry 8). -/
def State.slotOf (s : State) (n : Nat) : Option Nat := s.slots.toList.findIdx? (holdsNumber n)

/-- The number of the lot in a slot, for the collections that name it: the number a check would find, or the one that
stands in the record where nothing of the slot can be trusted with it (R145; log entry 8). -/
def State.numberAt (s : State) (k : Nat) : Nat :=
  match s.lotAt k with
  | some l => (lotNumber l).getD l.record.held.number
  | none => 0

/-- A slot holds a lot that nothing in it names (R154). -/
def unnamed (x : Slot) : Bool :=
  match x.contents with
  | some l => (lotNumber l).isNone
  | none => false

/-- The lowest-numbered slot whose lot nothing in it names (R154). -/
def State.unnamedSlot (s : State) : Option Nat := s.slots.toList.findIdx? unnamed

/-- The slot of a lot that a collection names. A number that a collection names and no slot holds is that of a lot
which nothing in its slot names, as R154 attributes it; the check of any such slot finds the same loss (log entry 8). -/
def State.placedSlot (s : State) (n : Nat) : Option Nat :=
  match s.slotOf n with
  | some k => some k
  | none => s.unnamedSlot

/-- A slot holds the live lot with the number, clean. -/
def holdsClean (n : Nat) (x : Slot) : Bool :=
  match x.contents with
  | some l => lotNumber l == some n && cleanBoth l
  | none => false

/-- The slot and record of a live lot that has been checked: what a request acts on (R4, R148). -/
def State.cleanOf (s : State) (n : Nat) : Option (Nat × LotRecord) :=
  (s.slots.toList.findIdx? (holdsClean n)).bind fun k => (s.recordAt k).map fun r => (k, r)

/-- The record of the live lot with a number, as it stands. -/
def State.recordOf (s : State) (n : Nat) : Option LotRecord :=
  match s.slotOf n with
  | some k => s.recordAt k
  | none => none

/-- The occupied slots with their numbers, in ascending slot number. -/
def State.occupied (s : State) : List (Nat × Lot) :=
  s.slots.toList.zipIdx.filterMap fun x => x.1.contents.map fun l => (x.2, l)

/-- The number of live lots (R24). -/
def State.liveCount (s : State) : Nat := s.occupied.length

/-- A slot is free and healthy (R10). -/
def freeHealthy (x : Slot) : Bool := x.contents.isNone && !x.worn

/-- The lowest-numbered slot that is free and healthy (R10). -/
def State.lowestFree (s : State) : Option Nat := s.slots.toList.findIdx? freeHealthy

/-- A slot's record waits for relocation (R9, R157). -/
def awaits (x : Slot) : Bool := x.contents.isSome && x.waiting

/-- The lowest-numbered slot whose record waits for relocation (R9). -/
def State.lowestWaiting (s : State) : Option Nat := s.slots.toList.findIdx? awaits

/-- A record and its entry written with fresh codes, the entry standing for the record (R13, R145). -/
def freshLot (r : LotRecord) : Lot :=
  { record := fresh r, entry := fresh (entryOf r), numberCopy := some r.number }

/-- Put a lot into a slot, which becomes occupied. -/
def State.putLot (s : State) (k : Nat) (l : Lot) : State := s.setSlot k { s.slot k with contents := some l }

/-- A record rewritten with a change that its entry mirrors: the entry is rewritten with it (R13). -/
def State.writeLot (s : State) (k : Nat) (r : LotRecord) : State := s.putLot k (freshLot r)

/-- A change of record fields that the entry does not mirror (R13). -/
def State.changeRecord (s : State) (k : Nat) (f : LotRecord → LotRecord) : State :=
  match s.lotAt k with
  | some l => s.putLot k { l with record := modifyStored f l.record }
  | none => s

/-- A change of index entry fields made without a check (R148). -/
def State.changeEntry (s : State) (k : Nat) (f : IndexEntry → IndexEntry) : State :=
  match s.lotAt k with
  | some l => s.putLot k { l with entry := modifyStored f l.entry }
  | none => s

/-- Take the record out of a slot; its waiting ends (R3, R158). -/
def State.emptySlot (s : State) (k : Nat) : State :=
  s.setSlot k { s.slot k with contents := none, waiting := false }

/-- A relocated record and entry are written with fresh codes (R145, R158; log entry 7). The second copy of the number
is moved as it stands: no rule has an unreadable copy rewritten here (log entry 7). -/
def relocated (l : Lot) : Lot := { l with record := fresh l.record.held, entry := fresh l.entry.held }

/-- Move the record of slot `w` into slot `k`; slot `w` becomes free (R9, R158). -/
def State.moveLot (s : State) (w k : Nat) : State :=
  match s.lotAt w with
  | some l => (s.putLot k (relocated l)).emptySlot w
  | none => s

/-- A freed slot is disposed of: a healthy one is offered to the lowest-numbered waiting slot (R9). -/
def State.offerSlot (s : State) (k : Nat) : State :=
  if (s.slot k).worn then s
  else match s.lowestWaiting with
    | some w => s.moveLot w k
    | none => s

/-- Remove the record from a slot, free the slot and dispose of it (R3, R9). -/
def State.freeSlot (s : State) (k : Nat) : State := (s.emptySlot k).offerSlot k

/-- An occupied slot that has become worn has its record moved into the lowest-numbered free healthy slot, or waits
(R158). -/
def State.relocate (s : State) (k : Nat) : State :=
  match s.lotAt k with
  | none => s
  | some _ =>
    match s.lowestFree with
    | some f => s.moveLot k f
    | none => s.setSlot k { s.slot k with waiting := true }

/-! ### The test queue and holds -/

/-- The queue count: queued lots plus TESTING lots (R96). -/
def State.queueCount (s : State) : Nat := s.queue.length + s.bench.length

/-- The room of the queue (R96). -/
def State.queueRoom (s : State) : Nat := Config.queueLimit - s.queueCount

/-- A WAITING lot as the choice of R100 sees it. -/
structure WaitingLot where
  slot : Nat
  stamp : Nat
  number : Nat
  deriving DecidableEq, Repr

/-- The order of the choice: the earlier cured stamp, and among equal stamps the lower lot number (R100). -/
def waitsBefore (x y : WaitingLot) : Bool := x.stamp < y.stamp || (x.stamp == y.stamp && x.number < y.number)

/-- The WAITING lots among the CURED lots of the register, in the order of the choice (R100). -/
def State.waitingLots (s : State) : List WaitingLot :=
  sortBy waitsBefore (s.occupied.filterMap fun x =>
    let r := x.2.record.held
    if r.state = .cured ∧ r.queueStatus = some .waiting then some ⟨x.1, r.cured.getD 0, r.number⟩ else none)

/-- Set a lot's queue status (R97). -/
def State.setStatus (s : State) (k : Nat) (q : QueueStatus) : State :=
  s.changeRecord k fun r => { r with queueStatus := some q }

/-- A freed place is given to the waiting lot that is earliest, by the records as they stand (R100, R148). -/
def State.giveRoom (s : State) : State :=
  if s.queueCount < Config.queueLimit then
    match s.waitingLots.head? with
    | some w => ({ s with queue := s.queue ++ [s.numberAt w.slot] }).setStatus w.slot .queued
    | none => s
  else s

/-- Several freed places are given one after another (R100). -/
def State.giveRooms (s : State) : Nat → State
  | 0 => s
  | n + 1 => (s.giveRoom).giveRooms n

/-- An admission attempt for the CURED lot in a slot (R98). -/
def State.admitLot (s : State) (k : Nat) : State :=
  match s.recordAt k with
  | none => s
  | some r =>
    if r.holds ≠ 0 then s.setStatus k .parked
    else if r.queueStatus = some .queued then s
    else if s.queueCount < Config.queueLimit then
      ({ s with queue := s.queue ++ [r.number] }).setStatus k .queued
    else s.setStatus k .waiting

/-- A lot leaves the test queue, and the entries behind it close up (R101, R112). -/
def State.leaveQueue (s : State) (n : Nat) : State := { s with queue := s.queue.filter (· != n) }

/-- A lot leaves the bench list (R104, R108, R112). -/
def State.leaveBench (s : State) (n : Nat) : State := { s with bench := s.bench.filter (·.lot != n) }

/-- The effect of an added hold on a CURED lot's queue status (R101). -/
def State.parkHeld (s : State) (k : Nat) : State :=
  match s.recordAt k with
  | none => s
  | some r =>
    if r.state = .cured ∧ r.queueStatus = some .queued then
      ((s.leaveQueue (s.numberAt k)).setStatus k .parked).giveRoom
    else if r.state = .cured ∧ r.queueStatus = some .waiting then s.setStatus k .parked
    else s

/-- A block adds a reason to the hold set of the lot in a slot: a reason not already there joins the set, HOLD is
raised, and a CURED lot is parked (R5, R101). -/
def State.addHold (s : State) (k : Nat) (h : Hold) : State :=
  match s.recordAt k with
  | none => s
  | some r =>
    if hasHold r.holds h then s
    else ((s.changeRecord k fun r => { r with holds := withHold r.holds h }).raise .hold).parkHeld k

/-- `addHold` for the live lot with a number; a number that no slot stands for changes no record and raises nothing, by
the model's choice (log entry 36). -/
def State.addHoldTo (s : State) (n : Nat) (h : Hold) : State :=
  match s.slotOf n with
  | some k => s.addHold k h
  | none => s

/-! ### Cells -/

/-- A cell by its number (R56). -/
def State.cell (s : State) (c : Nat) : Cell := s.cells.toList.getD c Cell.blank

/-- The state with a cell replaced. -/
def State.setCell (s : State) (c : Nat) (x : Cell) : State := { s with cells := s.cells.setIfInBounds c x }

/-- A position counted from 1 at the front (R57). -/
def positionIn (n : Nat) (l : List Nat) : Option Nat := (l.findIdx? (· == n)).map (· + 1)

/-- Append a lot at the back of a lane (R57). -/
def appendLane (n : Nat) (c : Cell) : Cell := { c with lane := c.lane ++ [n] }

/-- Take a lot out of a lane; the entries behind it move one position towards the front (R57). -/
def leaveLane (n : Nat) (c : Cell) : Cell := { c with lane := c.lane.filter (· != n) }

/-- A lot joins a reservation set (R58). -/
def reserveIn (n : Nat) (c : Cell) : Cell :=
  { c with reservations := insertBy (fun x y => decide (x ≤ y)) n (c.reservations.filter (· != n)) }

/-- A lot leaves a reservation set (R58). -/
def leaveReservation (n : Nat) (c : Cell) : Cell := { c with reservations := c.reservations.filter (· != n) }

/-- Removal in place: a lot leaves whatever lane or reservation set holds it (R69). -/
def State.removeInPlace (s : State) (n : Nat) : State :=
  { s with cells := mapVector (fun c => leaveReservation n (leaveLane n c)) s.cells }

/-- Where a lot stands: its cell and its position there (R57). -/
def State.lanePosition (s : State) (r : LotRecord) : Option Nat :=
  match r.cell with
  | some c => positionIn r.number (s.cell c).lane
  | none => none

/-- The place of a QUEUED lot in the test queue, counted 1 at the front (R14). -/
def State.queuePosition (s : State) (r : LotRecord) : Option Nat :=
  if r.queueStatus = some .queued then positionIn r.number s.queue else none

/-! ### Channels and the pot-life list -/

/-- A channel by its number (R27). -/
def State.channel (s : State) (c : Nat) : Channel := s.channels.toList.getD c none

/-- The state with a channel replaced. -/
def State.setChannel (s : State) (c : Nat) (x : Channel) : State :=
  { s with channels := s.channels.setIfInBounds c x }

/-- The channel whose bound lot is the lot (R152). -/
def State.channelOf (s : State) (n : Nat) : Option Nat :=
  s.channels.toList.findIdx? fun c => match c with
    | some b => b.lot == n
    | none => false

/-- A channel bound to the lot becomes FREE (R54). -/
def freeIfBound (n : Nat) (c : Channel) : Channel :=
  match c with
  | some b => if b.lot = n then none else some b
  | none => none

/-- Free the channel of a lot, if it has one (R54). -/
def State.freeChannelOf (s : State) (n : Nat) : State := { s with channels := mapVector (freeIfBound n) s.channels }

/-- The order of the pot-life list: ascending deadline, and ascending lot number among equal deadlines (R48). -/
def potBefore (x y : PotEntry) : Bool := x.deadline < y.deadline || (x.deadline == y.deadline && x.lot < y.lot)

/-- A lot joins the pot-life list at its OPEN (R48). -/
def State.joinPot (s : State) (e : PotEntry) : State := { s with potLife := insertBy potBefore e s.potLife }

/-- A lot leaves the pot-life list (R48). -/
def State.leavePot (s : State) (n : Nat) : State := { s with potLife := s.potLife.filter (·.lot != n) }

/-- One pot-life expiry: the lot gains POTLIFE and the notice kind POTLIFE is raised (R49). -/
def State.expireOne (s : State) (e : PotEntry) : State := (s.addHoldTo e.lot .potLife).raise .potLife

/-- The pot-life list is judged: every entry at the front whose deadline the clock has reached is expired and leaves
the list (R49). -/
def State.judgePotLife (s : State) : State :=
  (s.potLife.takeWhile fun e => decide (e.deadline ≤ s.clock)).foldl State.expireOne
    { s with potLife := s.potLife.dropWhile fun e => decide (e.deadline ≤ s.clock) }

/-- A lot loses its channel field (R27, R50). A number that no slot stands for changes no record, by the model's choice
(log entry 36). -/
def State.clearChannelField (s : State) (n : Nat) : State :=
  match s.slotOf n with
  | some k => s.changeRecord k fun r => { r with channel := none }
  | none => s

/-- The channels, by number, whose binding meets a condition. -/
def State.channelsWhere (s : State) (q : Nat → Binding → Bool) : List Nat :=
  s.channels.toList.zipIdx.filterMap fun x => match x.1 with
    | some b => if q x.2 b then some x.2 else none
    | none => none

/-- Free one channel, its lot becoming an orphan (R50). -/
def State.orphanChannel (s : State) (c : Nat) : State :=
  match s.channel c with
  | some b => (s.setChannel c none).clearChannelField b.lot
  | none => s

/-- Free the listed channels, their lots becoming orphans; ORPHAN is raised once when any was freed (R50, R52). -/
def State.orphanChannels (s : State) (cs : List Nat) : State :=
  if cs = [] then s else (cs.foldl State.orphanChannel s).raise .orphan

/-! ### Lab ports that leave -/

/-- The lots on the bench list under a port, in take order (R110). -/
def State.benchOf (s : State) (p : PortName) : List Nat := (s.bench.filter (·.tester == p)).map (·.lot)

/-- Whether a returned lot goes back to the queue: it is live and its hold set is empty (R110). -/
def State.returnsToQueue (s : State) (n : Nat) : Bool :=
  match s.recordOf n with
  | some r => r.holds == 0
  | none => false

/-- A TESTING lot becomes CURED without a check, QUEUED or PARKED as its hold set stands: what a later repair makes of
the record keeps that status (R110, R148; log entry 6). A number that no slot stands for changes no record, by the
model's choice (log entry 36). -/
def State.uncheckedReturn (s : State) (n : Nat) : State :=
  match s.slotOf n with
  | some k =>
    let status := if s.returnsToQueue n then QueueStatus.queued else .parked
    (s.changeRecord k fun r => { r with state := .cured, tester := none, queueStatus := some status }).changeEntry k
      fun e => { e with state := .cured }
  | none => s

/-- A lab port's lots are handed back in one change: those without holds to the front of the queue in take order, the
others PARKED, their places given under R100 (R110, R111). -/
def State.returnBench (s : State) (p : PortName) : State :=
  let lots := s.benchOf p
  let back := lots.filter s.returnsToQueue
  let s1 := lots.foldl State.uncheckedReturn
    { s with bench := s.bench.filter (·.tester != p), queue := back ++ s.queue }
  s1.giveRooms (lots.length - back.length)

/-! ### The account (R21, R22) -/

/-- What a settlement returns to the balance, draws from it and books as unbooked (R42, R44). -/
structure Settlement where
  returned : Int
  drawn : Int
  unbooked : Int
  deriving DecidableEq, Repr

/-- The settlement of a reservation `R` against dosed ash `D` with the balance as it stands (R42). In the third case the
amount drawn and the amount unbooked may both be above 0, as R42 has it, though R44 says that two of the three are 0 in
any settlement; the model follows R42, by its choice (log entry 47). -/
def settlement (balance : Int) (R D : Nat) : Settlement :=
  if D ≤ R then ⟨(R : Int) - D, 0, 0⟩
  else if (D : Int) - R ≤ balance then ⟨0, (D : Int) - R, 0⟩
  else ⟨0, balance, (D : Int) - R - balance⟩

/-- The account after a settlement (R42). -/
def settle (a : Account) (R D : Nat) : Account :=
  let x := settlement a.balance R D
  { a with
    balance := a.balance + x.returned - x.drawn
    unbooked := a.unbooked + x.unbooked
    reserved := a.reserved - R
    live := a.live + D }

/-- A settlement would bring intake total plus unbooked total above 10^12 (R25). -/
def settlementPasses (a : Account) (R D : Nat) : Bool :=
  decide (Config.maxTotal < bookedIn a + (settlement a.balance R D).unbooked)

/-- INTAKE of a positive amount, or of the amount debited taken negative (R23). -/
def book (a : Account) (x : Int) : Account := { a with intake := a.intake + x, balance := a.balance + x }

/-- OPEN reserves the planned ash (R35). -/
def reserveAsh (a : Account) (P : Nat) : Account := { a with balance := a.balance - P, reserved := a.reserved + P }

/-- An empty lot's reservation returns to the balance (R41). -/
def returnReservation (a : Account) (R : Nat) : Account :=
  { a with balance := a.balance + R, reserved := a.reserved - R }

/-- RELEASE moves a lot's ash mass to the released total (R116). -/
def releaseAsh (a : Account) (M : Nat) : Account := { a with live := a.live - M, released := a.released + M }

/-- WITHDRAW moves a lot's ash to the discard total (R122). -/
def discardAsh (a : Account) (M : Nat) : Account := { a with live := a.live - M, discard := a.discard + M }

/-- A loss moves the lost ash and the lost reservation to the lost total (R155). -/
def loseAsh (a : Account) (ash reservation : Int) : Account :=
  { a with live := a.live - ash, reserved := a.reserved - reservation, lost := a.lost + ash + reservation }

/-- The state with a changed account. The mark of the totals' own checks stands: no rule says that a movement gives a
disturbed total a good check again, and by the model's choice it does not (R184; log entry 37). -/
def State.withAccount (s : State) (a : Account) : State := { s with account := a }

/-! ### Recipes and banks -/

/-- A recipe record by its name (R133). -/
def State.recipe (s : State) (r : RecipeRef) : StoredRecipe :=
  s.recipes.toList.getD (8 * r.bank + r.number) StoredRecipe.blank

/-- The state with a recipe record replaced. -/
def State.setRecipe (s : State) (r : RecipeRef) (x : StoredRecipe) : State :=
  { s with recipes := s.recipes.setIfInBounds (8 * r.bank + r.number) x }

/-- The snapshot copied from a recipe's values (R144). -/
def snapshotOf (v : RecipeValues) : Snapshot :=
  { cementRatio := v.cementRatio, doseTolerance := v.doseTolerance, datum := v.datum, frostLimit := v.frostLimit,
    potLife := v.potLife, maturityTarget := v.maturityTarget, retestIncrement := v.retestIncrement,
    minStrength := v.minStrength, maxLeach := v.maxLeach }

/-- A commit of the record is in flight (R140). -/
def State.committing (s : State) (r : RecipeRef) : Bool :=
  match s.commit with
  | some c => c.recipe == r
  | none => false

/-- A change of the bank state is in force at once, and its write begins (R134; log entry 19). A bank state that is
not changed is not written. -/
def State.changeBank (s : State) (b : BankState) : State :=
  if b = s.bank then s else { s with bank := b, bankWrites := s.bankWrites ++ [b] }

end Sys2Proof.Machine
end

