-- ==== Sys2Proof/Machine/Audit.lean ====
section
/-! DEFINITION. The Record Audit's check of a slot: repair, entry rebuild, skeleton, loss, wear and relocation
(R145 to R158). -/

namespace Sys2Proof.Machine

/-! ### Tally and wear -/

/-- A slot whose tally has reached the wear threshold becomes worn, and WORN is raised when it does (R157). -/
def State.judgeWear (s : State) (k : Nat) : State :=
  let x := s.slot k
  if !x.worn && decide (Config.wearTally ≤ x.tally) then (s.setSlot k { x with worn := true }).raise .worn else s

/-- CORRECTED is raised and the reported flag set when the flag is clear (R150). -/
def State.reportRepair (s : State) (k : Nat) : State :=
  let x := s.slot k
  if x.reported then s else (s.setSlot k { x with reported := true }).raise .corrected

/-- The tally after one repair: it rises by one and stops at 15 (R150). -/
def tallyRepair (t : Nat) : Nat := min Config.maxTally (t + 1)

/-- The tally after a rebuild or a loss: 4 when it was below 4, otherwise one more, stopping at 15 (R153, R155). -/
def tallyRebuild (t : Nat) : Nat := if t < Config.wearTally then Config.wearTally else min Config.maxTally (t + 1)

/-- The state with a slot's tally changed and its wear judged (R150, R153, R155, R157). The health entry's own check
stands as it stood: whether a rewritten entry gains a good check is open, and by the model's choice it does not (R161; log
entry 38). -/
def State.countFault (s : State) (k : Nat) (f : Nat → Nat) : State :=
  (s.setSlot k { s.slot k with tally := f (s.slot k).tally }).judgeWear k

/-- One repair is counted against a slot and reported (R150). -/
def State.countRepair (s : State) (k : Nat) : State := (s.reportRepair k).countFault k tallyRepair

/-! ### Repairs and rebuilds -/

/-- The record of a slot rewritten as its code repairs it (R150). The second copy of the number stays as it stands: no
rule has an unreadable copy rewritten by a repair, or a fault in the copy alone found (R145; log entry 7). -/
def State.repairRecord (s : State) (k : Nat) : State :=
  match s.lotAt k with
  | some l => (s.putLot k { l with record := fresh (repairedOf l.record) }).countRepair k
  | none => s

/-- The index entry of a slot rewritten as its code repairs it (R150). -/
def State.repairEntry (s : State) (k : Nat) : State :=
  match s.lotAt k with
  | some l => (s.putLot k { l with entry := fresh (repairedOf l.entry) }).countRepair k
  | none => s

/-- The index entry of a slot rebuilt from its record, which counts as one repair (R151). -/
def State.rebuildEntry (s : State) (k : Nat) : State :=
  match s.lotAt k with
  | some l => (s.putLot k { l with entry := fresh (entryOf l.record.held) }).countRepair k
  | none => s

/-- The cell whose reservation set holds a lot (R58, R152), the lowest-numbered of several (log entry 45). -/
def State.reservedCell (s : State) (n : Nat) : Option Nat := s.cells.toList.findIdx? fun c => c.reservations.contains n

/-- The cell whose lane holds a lot (R57, R152), the lowest-numbered of several (log entry 45). -/
def State.laneCell (s : State) (n : Nat) : Option Nat := s.cells.toList.findIdx? fun c => c.lane.contains n

/-- The state a skeleton takes from its entry (R152). -/
def skeletonState (x : LotState) : LotState := if x = .testing then .cured else x

/-- The skeleton of a lot, from its index entry and the collections that name the lot (R152). The table gives the cured
stamp for CURED: in every other state, CLEARED, REJECTED and EXTRACTED among them, the skeleton has none, by the model's
reading (log entry 45). -/
def State.skeleton (s : State) (e : IndexEntry) : LotRecord :=
  let st := skeletonState e.state
  let mixing := decide (st = .mixing)
  { number := e.number
    state := st
    holds := withHold 0 .audit
    recipe := none
    generation := if mixing && e.ash == 0 then 0 else 2
    parent := none
    reservation := if mixing then e.reservation else none
    carriedAsh := if mixing && e.ash != 0 then some e.ash else none
    dosed := none
    ashMass := if mixing then none else some e.ash
    channel := if mixing then s.channelOf e.number else none
    mixDeadline := none
    targetCell := if st = .sealed then s.reservedCell e.number else none
    cell := if standsInLane st then s.laneCell e.number else none
    maturity := if standsInLane st || decide (st = .extracted) then some 0 else none
    target := none
    pendingTarget := none
    frostRun := if st = .curing then some 0 else none
    retests := if mixing || decide (st = .sealed) then 0 else 2
    tester := none
    result := none
    failCause := none
    opened := none
    sealedAt := none
    placed := none
    cured := if st = .cured then some s.clock else none
    queueStatus := if st = .cured then some .parked else none }

/-- The places in the queue count that a lot holds (R96). -/
def State.placesHeld (s : State) (n : Nat) : Nat :=
  (s.queue.filter (· == n)).length + (s.bench.filter (·.lot == n)).length

/-- A lot leaves the test queue and the bench list, and each place it freed is given under R100 (R112). -/
def State.giveUpQueue (s : State) (n : Nat) : State :=
  ((s.leaveQueue n).leaveBench n).giveRooms (s.placesHeld n)

/-- The record of a slot rebuilt as a skeleton from its entry, with what the rebuild does in the other blocks (R152,
R153). -/
def State.rebuildRecord (s : State) (k : Nat) : State :=
  match s.lotAt k with
  | none => s
  | some l =>
    let e := l.entry.held
    let r := s.skeleton e
    let s1 := (s.putLot k { record := fresh r, entry := fresh { e with state := r.state }, numberCopy := some e.number }).raise .hold
    let s2 := if r.state = .cured then s1.giveUpQueue e.number else s1
    (s2.reportRepair k).countFault k tallyRebuild

/-- The relocation of a slot that became worn since `before` (R149, R158; log entry 9). -/
def State.relocateNewlyWorn (s before : State) (k : Nat) : State :=
  if !(before.slot k).worn && (s.slot k).worn then s.relocate k else s

/-- The repair of a record that needs one (R149). -/
def State.mendRecord (s : State) (k : Nat) (f : Finding) : State := if f = .correctable then s.repairRecord k else s

/-- The repair of an entry that needs one (R149). -/
def State.mendEntry (s : State) (k : Nat) (f : Finding) : State := if f = .correctable then s.repairEntry k else s

/-- The audit's action on the findings for the record and the entry of one slot (R149); none when both are damaged,
which is a loss. -/
def State.checkItems (s : State) (k : Nat) : Option State :=
  match s.lotAt k with
  | none => some s
  | some l =>
    match findingOf l.record, entryFinding l with
    | .damaged, .damaged => none
    | .damaged, fe => some (((s.mendEntry k fe).rebuildRecord k).relocateNewlyWorn s k)
    | fr, .damaged => some (((s.mendRecord k fr).rebuildEntry k).relocateNewlyWorn s k)
    | fr, fe => some (((s.mendRecord k fr).mendEntry k fe).relocateNewlyWorn s k)

/-! ### Lost lots -/

/-- One slot of the loss check: it is checked, and joins the lost set when its record and entry are both damaged
(R154). -/
def lossCheckOne (x : State × List Nat) (k : Nat) : State × List Nat :=
  match x.1.checkItems k with
  | some s => (s, x.2)
  | none => (x.1, x.2 ++ [k])

/-- The loss check begun by slot `k`: every other occupied slot in ascending number, with the lost set (R154). A queue
place that a rebuild within it frees may go to a WAITING lot whose slot has joined the lost set, by that lot's record as
it stands (R148); the retirement takes it out again. The spec is silent on it, and the model chooses so (log entry
11). -/
def State.lossCheck (s : State) (k : Nat) : State × List Nat :=
  let x := ((List.range Config.slotCount).filter (· != k)).foldl lossCheckOne (s, [])
  (x.1, insertBy (fun a b => decide (a ≤ b)) k x.2)

/-- Every lot number that a lane, a reservation set, the test queue, the bench list, the channel table or the pot-life
list names (R154). -/
def State.namedNumbers (s : State) : List Nat :=
  (s.cells.toList.flatMap fun c => c.lane ++ c.reservations) ++ s.queue ++ s.bench.map (·.lot) ++
    (s.channels.toList.filterMap fun c => c.map (·.lot)) ++ s.potLife.map (·.lot)

/-- The occupied slots outside the lost set. -/
def State.keptLots (s : State) (lost : List Nat) : List (Nat × Lot) := s.occupied.filter fun x => !lost.contains x.1

/-- The lost slots, each with the readable lot number of its record (R154). -/
def State.readableLost (s : State) (lost : List Nat) : List (Nat × Option Nat) :=
  lost.map fun k => (k, match s.lotAt k with
    | some l => l.numberCopy
    | none => none)

/-- The numbers named in a collection that no occupied slot outside the lost set holds (R154). -/
def State.orphanedNumbers (s : State) (lost : List Nat) : List Nat :=
  let kept := (s.keptLots lost).map fun x => x.2.entry.held.number
  (s.namedNumbers.filter fun n => !kept.contains n).dedup

/-- The lost numbers, each counted once (R154). -/
def State.lostNumbers (s : State) (lost : List Nat) : List Nat :=
  ((s.readableLost lost).filterMap (·.2) ++ s.orphanedNumbers lost).dedup

/-- The lost slots with their lost numbers where they are known: by the readable copy, or because one slot and one
number alone remain (R156; log entry 10). -/
def State.attributed (s : State) (lost : List Nat) : List (Nat × Option Nat) :=
  let read := s.readableLost lost
  let known := read.filterMap (·.2)
  match (s.orphanedNumbers lost).filter (fun n => !known.contains n), (read.filter (·.2.isNone)).map (·.1) with
  | [n], [k] => read.map fun x => if x.1 = k then (k, some n) else x
  | _, _ => read

/-- The lost ash (R155). -/
def State.lostAsh (s : State) (lost : List Nat) : Int :=
  s.account.live - ((s.keptLots lost).map fun x => (x.2.entry.held.ash : Int)).sum

/-- The lost reservation (R155). -/
def State.lostReservation (s : State) (lost : List Nat) : Int :=
  s.account.reserved - ((s.keptLots lost).map fun x => ((x.2.entry.held.reservation.getD 0 : Nat) : Int)).sum

/-- A lost slot's record and entry are removed, its tally rises as at a rebuild, and it is worn (R155). -/
def State.loseSlot (s : State) (k : Nat) : State := (s.emptySlot k).countFault k tallyRebuild

/-- A lost number leaves every place that holds it, but for the rooms it frees in the queue (R155). -/
def State.loseNumber (s : State) (n : Nat) : State :=
  ((((s.removeInPlace n).leaveQueue n).leaveBench n).freeChannelOf n).leavePot n

/-- The loss list holds at most 8 records: the oldest leaves as a ninth joins (R156). -/
def appendLoss (l : List LossRecord) (x : LossRecord) : List LossRecord :=
  if l.length < 8 then l ++ [x] else l.drop (l.length - 7) ++ [x]

/-- The retirement of the lost set in one change (R155, R156; log entry 11). -/
def State.retireLost (s : State) (lost : List Nat) : State :=
  let numbers := s.lostNumbers lost
  let named := s.attributed lost
  let ash := s.lostAsh lost
  let reservation := s.lostReservation lost
  let freed := (numbers.map s.placesHeld).sum
  let s1 := s.withAccount (loseAsh s.account ash reservation)
  let s2 := lost.foldl State.loseSlot s1
  let s3 := (numbers.foldl State.loseNumber s2).giveRooms freed
  let entry : LossRecord :=
    { minute := s3.clock, slots := named, ash := ash, reservation := reservation, lostTotal := s3.account.lost }
  ({ s3 with losses := appendLoss s3.losses entry }).raise .lost

/-! ### The check -/

/-- The Record Audit's check of one slot, whole with any loss it finds; the cycle position does not move (R147,
R148). -/
def State.checkSlot (s : State) (k : Nat) : State :=
  match s.checkItems k with
  | some t => t
  | none =>
    let x := s.lossCheck k
    x.1.retireLost x.2

/-- The check of a live lot by its number, where a collection names it (R29, R71, R81, R102, R113). A number that no slot
stands for, while every lot has a number, has nothing checked, by the model's choice (log entry 44). -/
def State.checkLot (s : State) (n : Nat) : State :=
  match s.placedSlot n with
  | some k => s.checkSlot k
  | none => s

/-- The check of a lot that nothing in its slot names: it is lost (R154). -/
def State.checkUnnamed (s : State) : State :=
  match s.unnamedSlot with
  | some k => s.checkSlot k
  | none => s

/-! ### Disturbances (log entry 5) -/

/-- The contents disturbed in one word, to the contents given. A further disturbance of contents already wrong in one word
is taken to strike another word, so that the fault is beyond repair: whether it struck the same word, which the code could
still repair, is not held, by the model's choice (R145; log entry 5). -/
def disturbWord {α : Type} (x : Stored α) (y : α) : Stored α :=
  match x.code with
  | .agrees => ⟨y, .oneWord x.held⟩
  | .oneWord _ => ⟨y, .beyond⟩
  | .beyond => ⟨y, .beyond⟩

/-- A change of what a slot holds, where it holds a lot. -/
def State.disturbLot (s : State) (k : Nat) (f : Lot → Lot) : State :=
  match s.lotAt k with
  | some l => s.putLot k (f l)
  | none => s

/-- One disturbance takes its effect on the stored contents (R145, R161, R177, R184). -/
def State.disturb (s : State) (u : Upset) : State :=
  match u with
  | .recordWord k r => s.disturbLot k fun l => { l with record := disturbWord l.record r }
  | .recordWords k r => s.disturbLot k fun l => { l with record := ⟨r, .beyond⟩ }
  | .numberCopy k => s.disturbLot k fun l => { l with numberCopy := none }
  | .entryWord k e => s.disturbLot k fun l => { l with entry := disturbWord l.entry e }
  | .entryWords k e => s.disturbLot k fun l => { l with entry := ⟨e, .beyond⟩ }
  | .entryDisagrees k e => s.disturbLot k fun l => { l with entry := fresh e }
  | .health k => s.setSlot k { s.slot k with checkGood := false }
  | .total => { s with account := { s.account with checksGood := false } }
  | .signature => { s with signature := false }
  | .mask p => s.setPort p { s.port p with mask := { (s.port p).mask with checkGood := false } }
  | .recipe b n => s.setRecipe ⟨b, n⟩ { s.recipe ⟨b, n⟩ with checkGood := false }
  | .bankState => { s with bankCheckGood := false }
  | .portSetup => { s with setup := { s.setup with checkGood := false } }

/-- Several disturbances, in their order. -/
def State.disturbAll (s : State) (us : List Upset) : State := us.foldl State.disturb s

end Sys2Proof.Machine
end

