-- ==== Sys2Proof/Machine/Wire.lean ====
section
/-! DEFINITION. The numbers that stand for names (section 11.5) and the fields of answers: the lot record and summary
(section 11.3), recipes and port setup (section 11.4), values that may be absent (section 11.6). -/

namespace Sys2Proof.Machine

/-! ### Encodings (section 11.5) -/

/-- Lot state codes. -/
def stateCode : LotState → Nat
  | .mixing => 1
  | .sealed => 2
  | .curing => 3
  | .cured => 4
  | .testing => 5
  | .cleared => 6
  | .rejected => 7
  | .extracted => 8

/-- Queue status codes, NONE when the record has none. -/
def queueStatusCode : Option QueueStatus → Nat
  | none => 0
  | some .queued => 1
  | some .waiting => 2
  | some .parked => 3

/-- Fail cause codes. -/
def failCauseCode : FailCause → Nat
  | .strength => 1
  | .leach => 2
  | .both => 3

/-- Port codes. -/
def portCode : PortName → Nat
  | .a => 0
  | .b => 1
  | .c => 2
  | .d => 3

/-- The port a code names. -/
def portOfCode : Nat → Option PortName
  | 0 => some .a
  | 1 => some .b
  | 2 => some .c
  | 3 => some .d
  | _ => none

/-- Role codes. -/
def roleCode : Role → Nat
  | .plant => 0
  | .mixer => 1
  | .lab => 2
  | .yard => 3

/-- The role a code names. -/
def roleOfCode : Nat → Option Role
  | 0 => some .plant
  | 1 => some .mixer
  | 2 => some .lab
  | 3 => some .yard
  | _ => none

/-- Plant mode codes. -/
def modeCode : PlantMode → Nat
  | .run => 0
  | .pause => 1
  | .service => 2

/-- The plant mode a code names. -/
def modeOfCode : Nat → Option PlantMode
  | 0 => some .run
  | 1 => some .pause
  | 2 => some .service
  | _ => none

/-- Channel state codes: FREE, ACTIVE, STALLED. -/
def channelCode : Channel → Nat
  | none => 0
  | some b => if b.stalled then 2 else 1

/-- Band indication codes. -/
def bandCode : Band → Nat
  | .none => 0
  | .inside => 1
  | .low => 2
  | .high => 3

/-- Outcome codes, 0 to 23 in the order of the table of section 9.7. -/
def outcomeCode : OutcomeCode → Nat
  | .done => 0
  | .empty => 1
  | .emptyLot => 2
  | .frame => 3
  | .portBusy => 4
  | .role => 5
  | .window => 6
  | .mode => 7
  | .unknown => 8
  | .state => 9
  | .held => 10
  | .blocked => 11
  | .laneFull => 12
  | .cellClosed => 13
  | .channel => 14
  | .short => 15
  | .noSlot => 16
  | .numbers => 17
  | .noRecipe => 18
  | .busy => 19
  | .range => 20
  | .limit => 21
  | .notHolder => 22
  | .incomplete => 23

/-- A flag or mark: 0 clear, 1 set (section 11.6). -/
def flag (b : Bool) : Field := .u8 (if b then 1 else 0)

/-- A hold set as a byte. -/
def holdsField (h : HoldSet) : Field := .u8 h.toNat

/-- A notice set as two bytes. -/
def noticesField (n : NoticeSet) : Field := .u16 n.toNat

/-- A value that may be absent: a byte that is 1 when it is present and 0 when it is absent, then the value, sent as 0
when absent (section 11.6). -/
def optField (f : Nat → Field) : Option Nat → List Field
  | some n => [.u8 1, f n]
  | none => [.u8 0, f 0]

/-- A lot number that may be absent: 0 stands for "no lot" (section 11.1). -/
def lotField (n : Option Nat) : Field := .u24 (n.getD 0)

/-- A list in an answer, preceded by the number of its entries in 2 bytes (section 11.6). -/
def listField {α : Type} (f : α → List Field) (l : List α) : List Field := .u16 l.length :: l.flatMap f

/-- A total of the ash account: 6 bytes (section 11.6). -/
def totalField (x : Int) : Field := .u48 x.toNat

/-- A mass: 4 bytes (section 11.6). -/
def massField (x : Int) : Field := .u32 x.toNat

/-! ### The lot record and the lot summary (section 11.3, R187) -/

/-- The number whose bit `i` is the `i`-th flag. -/
def bitsOf : List Bool → Nat
  | [] => 0
  | b :: bs => (if b then 1 else 0) + 2 * bitsOf bs

/-- The presence word: one bit for each optional part the record holds (R187). -/
def presenceWord (r : LotRecord) (lanePos queuePos : Option Nat) : Nat :=
  bitsOf [r.recipe.isSome, r.parent.isSome, r.reservation.isSome, r.carriedAsh.isSome, r.dosed.isSome, r.ashMass.isSome,
    r.channel.isSome, r.mixDeadline.isSome, r.targetCell.isSome, r.cell.isSome, r.maturity.isSome, r.target.isSome,
    r.pendingTarget.isSome, r.frostRun.isSome, r.tester.isSome, r.result.isSome, r.failCause.isSome, r.opened.isSome,
    r.sealedAt.isSome, r.placed.isSome, r.cured.isSome, r.queueStatus.isSome, lanePos.isSome, queuePos.isSome]

/-- The snapshot's bytes, sent as 0 when the record has none (section 11.3, R187). -/
def snapshotFields (x : Option LotRecipe) : List Field :=
  match x with
  | some ⟨_, k⟩ =>
    [.u16 k.cementRatio, .u8 k.doseTolerance, .i16 k.datum, .i16 k.frostLimit, .u8 k.potLife, .u32 k.maturityTarget,
      .u32 k.retestIncrement, .u16 k.minStrength, .u8 k.maxLeach]
  | none => [.u16 0, .u8 0, .i16 0, .i16 0, .u8 0, .u32 0, .u32 0, .u16 0, .u8 0]

/-- The full record answered by LOOKUP and AMEND: 105 bytes (section 11.3, R187). -/
def recordFields (r : LotRecord) (slot : Nat) (lanePos queuePos : Option Nat) : List Field :=
  let bank := (r.recipe.map fun x => x.ref.bank).getD 0
  let number := (r.recipe.map fun x => x.ref.number).getD 0
  let dosed := r.dosed.getD ⟨0, 0, 0⟩
  [.u24 r.number, .u8 (stateCode r.state), holdsField r.holds, .u32 (presenceWord r lanePos queuePos), .u8 bank, .u8 number]
    ++ snapshotFields r.recipe ++
    [.u8 r.generation, .u24 (r.parent.getD 0), .u32 (r.reservation.getD 0), .u32 (r.carriedAsh.getD 0), .u32 dosed.ash,
      .u32 dosed.cement, .u32 dosed.water, .u32 (r.ashMass.getD 0), .u8 (r.channel.getD 0), .u32 (r.mixDeadline.getD 0),
      .u8 (r.targetCell.getD 0), .u8 (r.cell.getD 0), .u32 (r.maturity.getD 0), .u32 (r.target.getD 0),
      .u32 (r.pendingTarget.getD 0), .u8 (r.frostRun.getD 0), .u8 r.retests, .u8 ((r.tester.map portCode).getD 0),
      .u16 ((r.result.map fun x => x.strength).getD 0), .u8 ((r.result.map fun x => x.leachClass).getD 0),
      .u8 ((r.failCause.map failCauseCode).getD 0), .u32 (r.opened.getD 0), .u32 (r.sealedAt.getD 0),
      .u32 (r.placed.getD 0), .u32 (r.cured.getD 0), .u8 (queueStatusCode r.queueStatus), .u16 slot,
      .u8 (lanePos.getD 0), .u8 (queuePos.getD 0)]

/-- The full record of the lot in a slot with its lane and queue positions (R14). -/
def State.fullRecord (s : State) (k : Nat) : List Field :=
  match s.recordAt k with
  | some r => recordFields r k (s.lanePosition r) (s.queuePosition r)
  | none => []

/-- The hold set of the lot in a slot, for an answer. -/
def State.holdsAt (s : State) (k : Nat) : Field :=
  match s.recordAt k with
  | some r => holdsField r.holds
  | none => .u8 0

/-- The ash figure of a lot: carried ash while MIXING, ash mass after (R12, R15). -/
def ashFigure (r : LotRecord) : Nat := (entryOf r).ash

/-- The lot summary: 13 bytes (section 11.3). -/
def summaryFields (r : LotRecord) : List Field :=
  [.u24 r.number, .u8 (stateCode r.state), holdsField r.holds, .u32 (ashFigure r), .u8 r.generation,
    .u8 (r.cell.getD 255), .u8 (queueStatusCode r.queueStatus), .u8 r.retests]

/-! ### Recipes, ports, channels and cells in answers -/

/-- The 21 value bytes of a recipe, sent as 0 for an INVALID record (section 11.4). -/
def valueFields (v : Option RecipeValues) : List Field :=
  match v with
  | some x =>
    [.u16 x.cementRatio, .u16 x.waterRatio, .u8 x.doseTolerance, .i16 x.datum, .i16 x.frostLimit, .u8 x.potLife,
      .u32 x.maturityTarget, .u32 x.retestIncrement, .u16 x.minStrength, .u8 x.maxLeach]
  | none => [.u16 0, .u16 0, .u8 0, .i16 0, .i16 0, .u8 0, .u32 0, .u32 0, .u16 0, .u8 0]

/-- A pending bank, 255 for none (section 11.4). -/
def pendingField (b : Option Nat) : Field := .u8 (b.getD 255)

/-- A port's role, first and last in a port setup answer; 0 and 0 for no window (section 11.4). -/
def setupFields (p : Port) : List Field :=
  match p.window with
  | some w => [.u8 (roleCode p.role), .u8 w.first, .u8 w.last]
  | none => [.u8 (roleCode p.role), .u8 0, .u8 0]

/-- The four ports of a PORT SETUP answer (R170, section 11.4), with no count before them, by the model's choice (log entry
13). -/
def State.setupList (s : State) : List Field :=
  setupFields s.ports.a ++ setupFields s.ports.b ++ setupFields s.ports.c ++ setupFields s.ports.d

/-- The four ports of a MODE answer, each with its presence (R173, section 11.4), with no count before them, by the model's
choice (log entry 13). -/
def State.portList (s : State) : List Field :=
  setupFields s.ports.a ++ [flag s.ports.a.present] ++ setupFields s.ports.b ++ [flag s.ports.b.present] ++
    setupFields s.ports.c ++ [flag s.ports.c.present] ++ setupFields s.ports.d ++ [flag s.ports.d.present]

/-- A port's role with its window, in a refusal (R167; log entry 13). -/
def roleFields (p : Port) : List Field :=
  match p.window with
  | some w => [.u8 (roleCode p.role), .u8 1, .u8 w.first, .u8 w.last]
  | none => [.u8 (roleCode p.role), .u8 0, .u8 0, .u8 0]

/-- A channel's state and holder, in a CHANNEL refusal (R28). -/
def channelRefusal (c : Channel) : List Field :=
  .u8 (channelCode c) :: optField .u8 (c.map fun b => portCode b.holder)

/-- A channel record: state, holder, bound lot and dose count (R27, R46, R55). -/
def channelFields (c : Channel) : List Field :=
  channelRefusal c ++ [lotField (c.map (·.lot)), .u16 ((c.map (·.doses)).getD 0)]

/-- A cell's lane length and reservation count, each a number of lots: 2 bytes (R40, section 11.6; log entry 13). -/
def laneFields (c : Cell) : List Field := [.u16 c.lane.length, .u16 c.reservations.length]

/-- The number, state and hold set of the lot at the front of a lane, or the empty lane indication (R115, R116). The
front lot is not checked; where no slot holds its number, the state and the hold set are marked absent, by the model's
choice (log entry 27). -/
def State.frontFields (s : State) (c : Nat) : List Field :=
  match (s.cell c).lane with
  | n :: _ =>
    let r := s.recordOf n
    .u24 n :: (optField .u8 (r.map fun x => stateCode x.state) ++ optField .u8 (r.map fun x => x.holds.toNat))
  | [] => .u24 0 :: (optField .u8 none ++ optField .u8 none)

/-- A lot's dosed figures, each of which may be absent (R53, R55). -/
def dosedFields (r : LotRecord) : List Field :=
  optField .u32 (r.dosed.map (·.ash)) ++ optField .u32 (r.dosed.map (·.cement)) ++
    optField .u32 (r.dosed.map (·.water))

/-- A lot's running ratio and band indication (R38). -/
def ratioFields (r : LotRecord) : List Field := optField .u16 (ratioOf r) ++ [.u8 (bandCode (bandOf r))]

/-- A settlement: returned, drawn and unbooked (R44). -/
def settlementFields (x : Settlement) : List Field :=
  [massField x.returned, massField x.drawn, massField x.unbooked]

end Sys2Proof.Machine
end

