-- ==== Sys2Proof/Machine/Operands.lean ====
section
/-! DEFINITION. How a request is received, gated and answered: the Port Unit's checks (R164 to R169, R174), the checks
of a lot named by number (R4), of a channel (R28) and of its bound lot (R29), and the ranges of the fields. -/

namespace Sys2Proof.Machine

/-! ### Requests, roles, windows, modes -/

/-- The requests of the part (R168). AMEND, VERDICT and OPEN are one request each. -/
inductive Request
  | intake | account | lookup | scan | amend | holdLot | clearHold | withdraw | cellOpen | cellClose | cellStatus
  | queueStatus | recipeRead | recipeWrite | bankSelect | mode | portSetup | noticeMask | notices | slotHealth
  | reinstateSlot | clock | restart | clearRegister | openLot | dose | sealLot | stall | resume | rebind
  | channelStatus | take | returnLot | verdict | place | release | extract
  deriving DecidableEq, Repr

/-- Which requests a role may make (R168). -/
def roleAllows (r : Role) (q : Request) : Bool :=
  match q with
  | .intake | .account | .amend | .holdLot | .clearHold | .withdraw => r == .plant
  | .cellOpen | .cellClose | .recipeWrite | .bankSelect | .mode | .portSetup | .noticeMask => r == .plant
  | .slotHealth | .reinstateSlot | .clock | .restart | .clearRegister => r == .plant
  | .openLot | .dose | .sealLot | .stall | .resume | .rebind | .channelStatus => r == .mixer
  | .take | .returnLot | .verdict => r == .lab
  | .place | .release | .extract => r == .yard
  | .cellStatus => r == .plant || r == .yard
  | .queueStatus => r == .plant || r == .lab
  | .recipeRead => r == .plant || r == .mixer
  | .scan => r == .plant || r == .lab || r == .yard
  | .lookup | .notices => true

/-- A value lies in the port's window; the plant and lab roles carry no window field (R169). -/
def inWindow (p : Port) (v : Nat) : Bool :=
  match p.role with
  | .plant | .lab => true
  | .mixer | .yard =>
    match p.window with
    | some w => decide (w.first ≤ v) && decide (v ≤ w.last)
    | none => false

/-- The requests the Port Unit bars in a plant mode (R174). -/
def modeAllows (m : PlantMode) (q : Request) : Bool :=
  match q with
  | .openLot | .release => m == .run
  | .sealLot | .place | .extract | .take => m != .service
  | .portSetup | .clearRegister => m == .service
  | .intake | .account | .lookup | .scan | .amend | .holdLot | .clearHold | .withdraw | .cellOpen | .cellClose
  | .cellStatus | .queueStatus | .recipeRead | .recipeWrite | .bankSelect | .mode | .noticeMask | .notices
  | .slotHealth | .reinstateSlot | .clock | .restart | .dose | .stall | .resume | .rebind | .channelStatus
  | .returnLot | .verdict => true

/-- The Port Unit's checks of role, window and mode in their order: the refusal, or none when the request passes
(R167). `field` is the channel or cell checked against the window (R169). -/
def State.gate (s : State) (p : PortName) (q : Request) (field : Option Nat) : Option (OutcomeCode × List Field) :=
  let port := s.port p
  if !roleAllows port.role q then some (.role, roleFields port)
  else if !(field.all (inWindow port)) then some (.window, roleFields port)
  else if !modeAllows s.mode q then some (.mode, [.u8 (modeCode s.mode)])
  else none

/-! ### Frames and answers -/

/-- What a request answers: its outcome, the body, and the start that begins once it has been sent (R182, R185). -/
structure Reply where
  outcome : OutcomeCode
  body : List Field
  start : Option StartKind
  deriving DecidableEq, Repr

/-- A request carried out. -/
def doneWith (body : List Field) : Reply := ⟨.done, body, none⟩

/-- A refusal with the values its rule names. -/
def refuse (o : OutcomeCode) (body : List Field) : Reply := ⟨o, body, none⟩

/-- A good frame restarts the port's idle timer at 30 s and makes an ABSENT port PRESENT (R164, R172). -/
def State.goodFrame (s : State) (p : PortName) : State :=
  s.setPort p { s.port p with present := true, idleTimer := some 30, partialFrame := [] }

/-- The answer of the request in progress is formed: the port is BUSY until it has been sent (R166). -/
def State.answer (s : State) (p : PortName) (t : Nat) (r : Reply) : State :=
  s.setPort p { s.port p with request := .busy t, answer := some ⟨t, r.outcome, r.body⟩, startAfter := r.start }

/-- An answer given at once, before the answer of a request in progress (R164, R166). -/
def State.answerAtOnce (s : State) (p : PortName) (x : Answer) : State :=
  s.setPort p { s.port p with immediate := (s.port p).immediate ++ [x] }

/-- A good frame on a READY port: the timer restarts, the port is PRESENT, and it is BUSY with the frame's tag (R164,
R166). -/
def State.received (s : State) (p : PortName) (t : Nat) : State :=
  let s1 := s.goodFrame p
  s1.setPort p { s1.port p with request := .busy t }

/-- A request frame is taken: while the part is at work, a good frame restarts the timer; a BUSY port answers
PORTBUSY; otherwise the Port Unit's checks are made, then the owning block's, and the answer is formed at that moment
(R164, R166, R167). `body` is the owning block's part. -/
def State.takeRequest (s : State) (p : PortName) (t : Nat) (q : Request) (field : Option Nat)
    (body : State → State × Reply) : State :=
  if s.phase = .running then
    match (s.port p).request with
    | .busy _ => (s.goodFrame p).answerAtOnce p ⟨t, .portBusy, []⟩
    | .ready =>
      let s2 := s.received p t
      match s2.gate p q field with
      | some (o, b) => s2.answer p t (refuse o b)
      | none => (body s2).1.answer p t (body s2).2
  else s

/-! ### The checks of a lot named by number (R4) -/

/-- The Record Audit's check of a live lot that a request names, and its slot and record after it (R4, R148): none when
no live lot has the number, before the check or after it. What is given is checked and clean wherever the check has
left it. -/
def State.checkedLot (s : State) (n : Nat) : State × Option (Nat × LotRecord) :=
  match s.slotOf n with
  | none => (s, none)
  | some k => (s.checkSlot k, (s.checkSlot k).cleanOf n)

/-- `checkedLot` for a lot that a channel, a lane or the queue names (R29, R81, R102). -/
def State.checkedPlaced (s : State) (n : Nat) : State × Option (Nat × LotRecord) := (s.checkLot n, (s.checkLot n).cleanOf n)

/-- The checks of R4 on a lot number: RANGE, UNKNOWN, then the request goes on with the lot's slot and record. -/
def State.onLot (s : State) (n : Nat) (body : State → Nat → LotRecord → State × Reply) : State × Reply :=
  if n = 0 ∨ Config.maxLot < n then (s, refuse .range [])
  else
    match (s.checkedLot n).2 with
    | none => ((s.checkedLot n).1, refuse .unknown [])
    | some (k, r) => body (s.checkedLot n).1 k r

/-! ### The checks of a channel and its bound lot (R28, R29) -/

/-- The refusal CHANNEL, with the channel's state and holder as they stand (R28). -/
def State.refuseChannel (s : State) (c : Nat) : State × Reply := (s, refuse .channel (channelRefusal (s.channel c)))

/-- The channel checks of R28 for a request taken while the channel is ACTIVE (`active`) or STALLED (`stalled`), then
the record check of R29: a lost lot leaves the channel FREE and the request is refused CHANNEL. Where no slot stands for
the bound number though no lot was lost, the channel stays as it is, ACTIVE or STALLED, and its holder's request is
refused CHANNEL, by the model's choice (log entry 40). -/
def State.onChannel (s : State) (p : PortName) (c : Nat) (active stalled : Bool)
    (body : State → Binding → Nat → LotRecord → State × Reply) : State × Reply :=
  match s.channel c with
  | none => s.refuseChannel c
  | some b =>
    if b.holder = p ∧ (if b.stalled then stalled else active) = true then
      match (s.checkedPlaced b.lot).2 with
      | none => (s.checkedPlaced b.lot).1.refuseChannel c
      | some (k, r) => body (s.checkedPlaced b.lot).1 b k r
    else s.refuseChannel c

/-! ### Ranges -/

/-- Every value field of a recipe lies in its range (R133). -/
def valuesInRange (v : RecipeValues) : Bool :=
  decide (50 ≤ v.cementRatio ∧ v.cementRatio ≤ 800) && decide (100 ≤ v.waterRatio ∧ v.waterRatio ≤ 900) &&
    decide (5 ≤ v.doseTolerance ∧ v.doseTolerance ≤ 200) && decide (-100 ≤ v.datum ∧ v.datum ≤ 50) &&
    decide (-200 ≤ v.frostLimit ∧ v.frostLimit ≤ 50) && decide (10 ≤ v.potLife ∧ v.potLife ≤ 240) &&
    decide (1000 ≤ v.maturityTarget ∧ v.maturityTarget ≤ 16000000) && decide (v.retestIncrement ≤ 4000000) &&
    decide (100 ≤ v.minStrength ∧ v.minStrength ≤ 20000) && decide (1 ≤ v.maxLeach ∧ v.maxLeach ≤ 4)

/-- A window that a PORT SETUP of a role may carry, as the setup keeps it; none when the fields are out of range
(R170). -/
def setupOf (r : Role) (first last : Nat) : Option PortRole :=
  match r with
  | .mixer => if first ≤ last ∧ last ≤ 3 then some ⟨.mixer, some ⟨first, last⟩⟩ else none
  | .yard => if first ≤ last ∧ last ≤ 95 then some ⟨.yard, some ⟨first, last⟩⟩ else none
  | .plant => if first = 0 ∧ last = 0 then some ⟨.plant, none⟩ else none
  | .lab => if first = 0 ∧ last = 0 then some ⟨.lab, none⟩ else none

end Sys2Proof.Machine
end

