-- ==== Sys2Proof/Machine/AuditRequests.lean ====
section
/-! DEFINITION. The requests and the event of the Record Audit (08_record_audit.md): SLOT HEALTH, REINSTATE SLOT, the
audit step. -/

namespace Sys2Proof.Machine

/-- A slot of the health table in the answer of SLOT HEALTH (R160). Section 11.5 gives wear and occupancy no codes: the
model sends 1 for worn and 1 for occupied (log entry 13). -/
def healthFields (x : Slot × Nat) : List Field :=
  [.u16 x.2, .u8 x.1.tally, flag x.1.worn, flag x.1.contents.isSome, flag x.1.waiting, flag x.1.reported]

/-- A loss record in the answer of SLOT HEALTH (R156, R160). -/
def lossFields (x : LossRecord) : List Field :=
  .u32 x.minute :: (listField (fun y => [.u16 y.1, lotField y.2]) x.slots ++
    [massField x.ash, massField x.reservation, totalField x.lostTotal])

/-- The answer of SLOT HEALTH (R160). -/
def State.healthTable (s : State) : List Field :=
  let all := s.slots.toList
  let count (f : Slot → Bool) : Field := .u16 (all.filter f).length
  [.u16 s.cyclePosition, count freeHealthy, count fun x => x.contents.isNone && x.worn,
    count fun x => x.contents.isSome && !x.worn, count awaits] ++
    listField healthFields (all.zipIdx.filter fun x => decide (0 < x.1.tally) || x.1.worn) ++
    listField lossFields s.losses

/-- The slots with every reported flag cleared (R160); an entry's own check stands as it stood (log entry 38). -/
def State.clearReported (s : State) : State := { s with slots := mapVector (fun x => { x with reported := false }) s.slots }

/-- SLOT HEALTH: the table is answered as it stood, and every reported flag is cleared (R160). -/
def slotHealthBody (s : State) : State × Reply := (s.clearReported, doneWith s.healthTable)

/-- What a taken REINSTATE SLOT changes: the slot is healthy and offered as a freed slot (R159); its entry's own check
stands as it stood (log entry 38). -/
def State.reinstateInto (s : State) (k : Nat) : State :=
  (s.setSlot k { s.slot k with tally := 0, worn := false, reported := false }).offerSlot k

/-- REINSTATE SLOT (R159). Whether a record moved, and from which slot, is sent as one slot number that may be absent,
by the model's choice (log entry 13). -/
def reinstateBody (k : Nat) (s : State) : State × Reply :=
  if 511 < k then (s, refuse .range [])
  else if s.mode ≠ .service then (s, refuse .mode [.u8 (modeCode s.mode)])
  else if (s.slot k).contents ≠ none ∨ (s.slot k).worn = false then (s, refuse .state [])
  else
    let t := s.reinstateInto k
    (t, doneWith (.u16 k :: (optField .u16 s.lowestWaiting ++ [.u16 (t.slots.toList.filter freeHealthy).length])))

def execSlotHealth (p : PortName) (t : Nat) (s : State) : Host.Outcome State Fault Refusal :=
  .next (s.takeRequest p t .slotHealth none slotHealthBody)

def execReinstateSlot (p : PortName) (t : Nat) (slot : Nat) (s : State) : Host.Outcome State Fault Refusal :=
  .next (s.takeRequest p t .reinstateSlot none (reinstateBody slot))

/-- AUDIT STEP: while the part is at work, the disturbances since the last report take their effect, the slot at the
cycle position is checked, and the position advances (R147; log entry 5). -/
def execAuditStep (upsets : List Upset) (s : State) : Host.Outcome State Fault Refusal :=
  .next (if s.phase = .running then
      { (s.disturbAll upsets).checkSlot s.cyclePosition with
        cyclePosition := (s.cyclePosition + 1) % Config.slotCount }
    else s)

end Sys2Proof.Machine
end

