-- ==== Sys2Proof/Machine/Cells.lean ====
section
/-! DEFINITION. The requests of the Cell Map (03_cure_cells_and_lanes.md): CELL OPEN, CELL CLOSE, PLACE, CELL STATUS. -/

namespace Sys2Proof.Machine

/-! ### CELL OPEN and CELL CLOSE (R60) -/

/-- Set or clear a cell's closed flag, and answer the cell (R60). -/
def closeBody (mark : Bool) (cell : Nat) (s : State) : State × Reply :=
  if 95 < cell then (s, refuse .range [])
  else
    let c := { s.cell cell with closed := mark }
    (s.setCell cell c, doneWith ([.u8 cell, flag c.closed, flag c.faulty] ++ laneFields c))

def execCellOpen (p : PortName) (t : Nat) (cell : Nat) (s : State) : Host.Outcome State Fault Refusal :=
  .next (s.takeRequest p t .cellOpen none (closeBody false cell))

def execCellClose (p : PortName) (t : Nat) (cell : Nat) (s : State) : Host.Outcome State Fault Refusal :=
  .next (s.takeRequest p t .cellClose none (closeBody true cell))

/-! ### PLACE (R63 to R66) -/

/-- The record of a placed lot (R2, R66). -/
def placedRecord (r : LotRecord) (cell minute : Nat) : LotRecord :=
  { r with
    state := .curing, targetCell := none, cell := some cell, maturity := some 0, frostRun := some 0,
    placed := some minute }

/-- A lot that becomes CURING in a cell whose fault flag is set gains SENSOR (R62, R88). -/
def State.sensorHold (s : State) (k cell : Nat) : State := if (s.cell cell).faulty then s.addHold k .sensor else s

/-- What a taken PLACE changes: the lot leaves its target cell's reservation set and joins the lane (R64 to R66). -/
def State.placeInto (s : State) (k cell : Nat) (r : LotRecord) : State :=
  let s1 := s.writeLot k (placedRecord r cell s.clock)
  let s2 := match r.targetCell with
    | some c => s1.setCell c (leaveReservation r.number (s1.cell c))
    | none => s1
  (s2.setCell cell (appendLane r.number (s2.cell cell))).sensorHold k cell

/-- The answer of a taken PLACE (R66). -/
def placeFields (t : State) (k cell : Nat) (r : LotRecord) : List Field :=
  [.u24 r.number, .u8 cell, .u8 (t.cell cell).lane.length] ++ laneFields (t.cell cell) ++
    optField .u8 (r.targetCell.filter (· != cell)) ++ [t.holdsAt k]

/-- The named cell's lane length, reservation count and closed flag, in a refusal (R63). -/
def cellRefusal (c : Cell) : List Field := laneFields c ++ [flag c.closed]

/-- The state of a lot, and its cell when it has one, in a STATE refusal (R63, R115). -/
def stateRefusal (r : LotRecord) : List Field := .u8 (stateCode r.state) :: optField .u8 r.cell

/-- PLACE: steps 4 to 8 of R63, and the placing (R64 to R66). -/
def placeBody (lot cell : Nat) (s : State) : State × Reply :=
  s.onLot lot fun s k r =>
    if r.state ≠ .sealed then (s, refuse .state (stateRefusal r))
    else if (s.cell cell).closed then (s, refuse .cellClosed (cellRefusal (s.cell cell)))
    else if r.targetCell ≠ some cell ∧ hasRoom (s.cell cell) = false then
      (s, refuse .laneFull (cellRefusal (s.cell cell)))
    else
      let t := s.placeInto k cell r
      (t, doneWith (placeFields t k cell r))

def execPlace (p : PortName) (t : Nat) (lot cell : Nat) (s : State) : Host.Outcome State Fault Refusal :=
  .next (s.takeRequest p t .place (some cell) (placeBody lot cell))

/-! ### CELL STATUS (R71, R72) -/

/-- A lane entry with its position, as CELL STATUS lists it (R71). An entry whose number no slot stands for, which R57
rules out but for faults, is answered with zeros and absent values, by the model's choice (log entry 27). -/
def laneEntryFields (s : State) (x : Nat × Nat) : List Field :=
  match s.recordOf x.1 with
  | some r =>
    [.u8 (x.2 + 1), .u24 x.1, .u8 (stateCode r.state), holdsField r.holds, .u32 (r.maturity.getD 0)] ++
      optField .u32 r.target ++ optField .u32 r.pendingTarget ++ [.u8 (queueStatusCode r.queueStatus)]
  | none => [.u8 (x.2 + 1), .u24 x.1, .u8 0, .u8 0, .u32 0] ++ optField .u32 none ++ optField .u32 none ++ [.u8 0]

/-- A lot is blocked: CLEARED, without holds, at position 2 or behind (R72). An entry whose number no slot stands for is
not listed, by the model's choice (log entry 44). -/
def State.blockedIn (s : State) (x : Nat × Nat) : Bool :=
  match s.recordOf x.1 with
  | some r => decide (r.state = .cleared) && r.holds == 0 && decide (1 ≤ x.2)
  | none => false

/-- The blocking view of a lane (R72). -/
def State.blockingFields (s : State) (cell : Nat) : List Field :=
  let blocked := ((s.cell cell).lane.zipIdx.filter s.blockedIn).map (·.1)
  listField (fun n => [Field.u24 n]) blocked ++
    (if blocked = [] then .u24 0 :: (optField .u8 none ++ optField .u8 none) else s.frontFields cell)

/-- The answer of CELL STATUS (R71). -/
def State.cellFields (s : State) (cell : Nat) : List Field :=
  let c := s.cell cell
  [.u8 cell, flag c.closed, flag c.faulty] ++ laneFields c ++
    [.u16 (Config.laneRoom - (c.lane.length + c.reservations.length))] ++
    listField (fun n => [Field.u24 n]) c.reservations ++
    (match c.lastValid with
      | some x => [.u8 1, .i16 x]
      | none => [.u8 0, .i16 0]) ++
    [.u32 c.lastStamp, .u8 c.misses] ++ listField (laneEntryFields s) c.lane.zipIdx ++ s.blockingFields cell

/-- CELL STATUS: the lots of the cell are checked, then the cell is answered (R71). The rule gives no order of the
checks: the model takes the lane front to back, then the reservation set in ascending number (log entry 34). -/
def cellStatusBody (cell : Nat) (s : State) : State × Reply :=
  if 95 < cell then (s, refuse .range [])
  else
    let t := ((s.cell cell).lane ++ (s.cell cell).reservations).foldl State.checkLot s
    (t, doneWith (t.cellFields cell))

def execCellStatus (p : PortName) (t : Nat) (cell : Nat) (s : State) : Host.Outcome State Fault Refusal :=
  .next (s.takeRequest p t .cellStatus (some cell) (cellStatusBody cell))

end Sys2Proof.Machine
end

