-- ==== Sys2Proof/Machine/LotRegister.lean ====
section
/-! DEFINITION. The requests of the Lot Table (01_the_lot_register.md): INTAKE, ACCOUNT, LOOKUP, SCAN, AMEND, HOLD LOT,
CLEAR HOLD. -/

namespace Sys2Proof.Machine

/-! ### INTAKE and ACCOUNT -/

/-- INTAKE: a positive amount is booked, a negative one debited from the balance as far as it reaches (R23). -/
def intakeBody (amount : Int) (s : State) : State × Reply :=
  if amount = 0 ∨ 200000 < amount ∨ amount < -200000 then (s, refuse .range [])
  else if 0 < amount then
    if Config.maxTotal - Config.intakeMargin < bookedIn s.account + amount then (s, refuse .range [])
    else (s.withAccount (book s.account amount), doneWith [massField amount])
  else
    let debit := min (-amount) s.account.balance
    (s.withAccount (book s.account (-debit)), doneWith [massField debit])

/-- ACCOUNT: the totals, the counts, the counter and the clock (R24). -/
def accountBody (s : State) : State × Reply :=
  let a := s.account
  let free := (s.slots.toList.filter freeHealthy).length
  let waiting := (s.slots.toList.filter awaits).length
  (s, doneWith
    [totalField a.intake, totalField a.balance, totalField a.reserved, totalField a.live, totalField a.released,
      totalField a.discard, totalField a.unbooked, totalField a.lost, .u16 s.liveCount, .u16 free, .u16 waiting,
      .u24 s.counter.next, flag s.counter.exhausted, .u32 s.clock])

def execIntake (p : PortName) (t : Nat) (amount : Int) (s : State) : Host.Outcome State Fault Refusal :=
  .next (s.takeRequest p t .intake none (intakeBody amount))

def execAccount (p : PortName) (t : Nat) (s : State) : Host.Outcome State Fault Refusal :=
  .next (s.takeRequest p t .account none accountBody)

/-! ### LOOKUP and SCAN -/

/-- LOOKUP: the lot's full record with its lane and queue positions (R14). -/
def lookupBody (n : Nat) (s : State) : State × Reply :=
  s.onLot n fun s k _ => (s, doneWith (s.fullRecord k))

/-- A state filter holds a lot state: bit `code - 1` (section 11.5). -/
def filterHolds (filter : Nat) (x : LotState) : Bool := filter.testBit (stateCode x - 1)

/-- An entry that SCAN takes: the number the entry holds, and the number of its lot. -/
structure ScanEntry where
  held : Nat
  lot : Option Nat
  deriving DecidableEq, Repr

/-- The entries of the index at or above a number whose state is in the filter, in ascending order of the numbers they
hold: the index as it stands (R15, R16, R145). R12 has no two entries hold one number; where a fault has made two
numbers equal, the entry in the higher slot is walked first, by the model's choice (log entry 12). -/
def State.indexFrom (s : State) (filter start : Nat) : List ScanEntry :=
  sortBy (fun x y => decide (x.held < y.held)) ((s.occupied.filter fun x =>
    decide (start ≤ x.2.entry.held.number) && filterHolds filter x.2.entry.held.state).map fun x =>
      ⟨x.2.entry.held.number, lotNumber x.2⟩)

/-- The check of the lot of one entry that SCAN takes, and its record after it; none for a lot lost by the check (R15). -/
def State.checkEntry (s : State) (x : ScanEntry) : State × Option (Nat × LotRecord) :=
  match x.lot with
  | some n => s.checkedPlaced n
  | none => (s.checkUnnamed, none)

/-- The walk of SCAN over the entries of the index as it stood when the request was taken: each entry taken is checked, a
lot lost by the check is passed over, and the walk ends at the seventeenth lot taken (R15, R16; log entry 12). Each
summary shows its lot as its own check leaves it, whatever a later check of the walk does to it, by the model's choice
(log entry 12). -/
def scanWalk : List ScanEntry → State → List LotRecord → State × List LotRecord
  | [], s, taken => (s, taken)
  | x :: xs, s, taken =>
    if 17 ≤ taken.length then (s, taken)
    else match (s.checkEntry x).2 with
      | some (_, r) => scanWalk xs (s.checkEntry x).1 (taken ++ [r])
      | none => scanWalk xs (s.checkEntry x).1 taken

/-- The answer of SCAN: the first sixteen lots taken, in ascending number, and the seventeenth's number (R15). Summaries
that a fault has given one number stand in the reverse of the order in which they were taken (log entry 12). -/
def scanFields (taken : List LotRecord) : List Field :=
  let shown := sortBy (fun x y => decide (x.number < y.number)) (taken.take 16)
  .u8 shown.length :: (shown.flatMap summaryFields ++ [lotField ((taken.drop 16).head?.map (·.number))])

/-- SCAN: up to sixteen summaries and the next number (R15). -/
def scanBody (filter start : Nat) (s : State) : State × Reply :=
  if filter = 0 ∨ 255 < filter ∨ start = 0 ∨ Config.maxLot < start then (s, refuse .range [])
  else
    let w := scanWalk (s.indexFrom filter start) s []
    (w.1, doneWith (scanFields w.2))

def execLookup (p : PortName) (t : Nat) (lot : Nat) (s : State) : Host.Outcome State Fault Refusal :=
  .next (s.takeRequest p t .lookup none (lookupBody lot))

def execScan (p : PortName) (t : Nat) (filter start : Nat) (s : State) : Host.Outcome State Fault Refusal :=
  .next (s.takeRequest p t .scan none (scanBody filter start))

/-! ### AMEND (R17 to R20) -/

/-- A taken AMEND answers DONE with the record as it stands after the change (R17). -/
def State.amended (s : State) (k : Nat) : State × Reply := (s, doneWith (s.fullRecord k))

/-- AMEND TARGET: an absent target is loaded; otherwise the lot's state decides (R18). -/
def amendTargetBody (part lot target : Nat) (s : State) : State × Reply :=
  if part ≠ 1 ∨ target < 1000 ∨ 16000000 < target then (s, refuse .range [])
  else s.onLot lot fun s k r =>
    let load := (s.changeRecord k fun r => { r with target := some target }).amended k
    if r.target = none then load
    else match r.state with
      | .mixing | .sealed | .cured | .extracted => load
      | .curing => (s.changeRecord k fun r => { r with pendingTarget := some target }).amended k
      | .testing | .cleared | .rejected => (s, refuse .state [])

/-- AMEND RECIPE: a lot without a snapshot takes one from a VALID recipe with no commit in flight (R19). -/
def amendRecipeBody (part lot bank number : Nat) (s : State) : State × Reply :=
  if part ≠ 2 ∨ 1 < bank ∨ 7 < number then (s, refuse .range [])
  else s.onLot lot fun s k r =>
    if r.recipe ≠ none then (s, refuse .state [])
    else match (s.recipe ⟨bank, number⟩).values with
      | none => (s, refuse .noRecipe [])
      | some v =>
        if s.committing ⟨bank, number⟩ then (s, refuse .busy [])
        else (s.changeRecord k fun r => { r with recipe := some ⟨⟨bank, number⟩, snapshotOf v⟩ }).amended k

/-- AMEND DOSED: the three figures of a MIXING lot are replaced (R20). -/
def amendDosedBody (part lot ash cement water : Nat) (s : State) : State × Reply :=
  if part ≠ 3 ∨ 120000 < ash ∨ 120000 < cement ∨ 120000 < water then (s, refuse .range [])
  else s.onLot lot fun s k r =>
    if r.state = .mixing then
      (s.changeRecord k fun r => { r with dosed := some ⟨ash, cement, water⟩ }).amended k
    else (s, refuse .state [])

def execAmendTarget (p : PortName) (t : Nat) (part lot target : Nat) (s : State) : Host.Outcome State Fault Refusal :=
  .next (s.takeRequest p t .amend none (amendTargetBody part lot target))

def execAmendRecipe (p : PortName) (t : Nat) (part lot bank number : Nat) (s : State) :
    Host.Outcome State Fault Refusal :=
  .next (s.takeRequest p t .amend none (amendRecipeBody part lot bank number))

def execAmendDosed (p : PortName) (t : Nat) (part lot ash cement water : Nat) (s : State) :
    Host.Outcome State Fault Refusal :=
  .next (s.takeRequest p t .amend none (amendDosedBody part lot ash cement water))

/-! ### HOLD LOT and CLEAR HOLD -/

/-- HOLD LOT: MANUAL is added (R6). -/
def holdLotBody (lot : Nat) (s : State) : State × Reply :=
  s.onLot lot fun s k _ =>
    let t := s.addHold k .manual
    (t, doneWith [.u24 lot, t.holdsAt k])

/-- The record with the listed reasons removed; removing FROST from a CURING lot sets its frost run to 0 (R7). -/
def clearedRecord (reasons : HoldSet) (r : LotRecord) : LotRecord :=
  { r with
    holds := withoutHolds r.holds reasons
    frostRun := if hasHold reasons .frost && hasHold r.holds .frost && decide (r.state = .curing) then some 0
      else r.frostRun }

/-- CLEAR HOLD: the listed reasons are removed, AUDIT only from a complete record; a CURED lot whose hold set becomes
empty is given an admission attempt (R7, R99). -/
def clearHoldBody (lot reasons : Nat) (s : State) : State × Reply :=
  if reasons = 0 ∨ 127 < reasons then (s, refuse .range [])
  else s.onLot lot fun s k r =>
    let list : HoldSet := BitVec.ofNat 7 reasons
    if hasHold list .audit && hasHold r.holds .audit && !complete r then (s, refuse .incomplete [])
    else
      let s1 := s.changeRecord k (clearedRecord list)
      let s2 := if r.state = .cured ∧ r.holds ≠ 0 ∧ withoutHolds r.holds list = 0 then s1.admitLot k else s1
      (s2, doneWith [s2.holdsAt k])

def execHoldLot (p : PortName) (t : Nat) (lot : Nat) (s : State) : Host.Outcome State Fault Refusal :=
  .next (s.takeRequest p t .holdLot none (holdLotBody lot))

def execClearHold (p : PortName) (t : Nat) (lot reasons : Nat) (s : State) : Host.Outcome State Fault Refusal :=
  .next (s.takeRequest p t .clearHold none (clearHoldBody lot reasons))

end Sys2Proof.Machine
end

