-- ==== Sys2Proof/Machine/Mixing.lean ====
section
/-! DEFINITION. The requests and the event of the Batch Channel Unit (02_intake_and_mixing.md): OPEN, the remix OPEN,
DOSE, SEAL, STALL, RESUME, REBIND, CHANNEL STATUS, the pot-life expiry. -/

namespace Sys2Proof.Machine

/-! ### OPEN (R30 to R36) -/

/-- The parent of a remix, as the child takes it (R34, R35). -/
structure Parent where
  slot : Nat
  number : Nat
  generation : Nat
  ash : Nat
  deriving DecidableEq, Repr

/-- The mix deadline of a lot opened now: it stops at the greatest clock value (R34). -/
def deadlineOf (clock potLife : Nat) : Nat := min Config.maxClock (clock + potLife)

/-- The record of a new lot (R34). -/
def openedRecord (s : State) (number channel planned : Nat) (ref : RecipeRef) (k : Snapshot) (parent : Option Parent) :
    LotRecord :=
  { number := number
    state := .mixing
    holds := 0
    recipe := some ⟨ref, k⟩
    generation := (parent.map fun x => x.generation + 1).getD 0
    parent := parent.map (·.number)
    reservation := some planned
    carriedAsh := parent.map (·.ash)
    dosed := some ⟨0, 0, 0⟩
    ashMass := none
    channel := some channel
    mixDeadline := some (deadlineOf s.clock k.potLife)
    targetCell := none
    cell := none
    maturity := none
    target := some k.maturityTarget
    pendingTarget := none
    frostRun := none
    retests := 0
    tester := none
    result := none
    failCause := none
    opened := some s.clock
    sealedAt := none
    placed := none
    cured := none
    queueStatus := none }

/-- The counter after a number has been given (R11). -/
def advanceCounter (c : Counter) : Counter :=
  if c.next = Config.maxLot then { c with exhausted := true } else { c with next := c.next + 1 }

/-- What a taken OPEN changes: the lot in its slot, the counter, the account, the channel, the pot-life list, and for a
remix the parent's retirement after the child has its slot (R34, R35, R128). -/
def State.openInto (s : State) (p : PortName) (slot channel planned : Nat) (ref : RecipeRef) (k : Snapshot)
    (parent : Option Parent) : State :=
  let n := s.counter.next
  let s1 := s.writeLot slot (openedRecord s n channel planned ref k parent)
  let s2 := { s1 with counter := advanceCounter s1.counter, account := reserveAsh s1.account planned }
  let s3 := (s2.setChannel channel (some ⟨false, p, n, 0⟩)).joinPot ⟨n, deadlineOf s.clock k.potLife⟩
  let s4 := match parent with
    | some x => s3.freeSlot x.slot
    | none => s3
  s4.judgePotLife

/-- The answer of a taken OPEN (R36). -/
def openFields (s : State) (ref : RecipeRef) (k : Snapshot) (parent : Option Parent) : List Field :=
  [.u24 s.counter.next, .u8 ref.bank, .u8 ref.number, .u16 k.cementRatio, .u16 (bandLower k), .u16 (bandUpper k),
    .u32 (deadlineOf s.clock k.potLife)] ++ optField .u32 (parent.map (·.ash))

/-- Steps 8 to 12 of R31, and the OPEN that passes them. -/
def State.openRecipe (s : State) (p : PortName) (channel planned : Nat) (ref : RecipeRef) (parent : Option Parent) :
    State × Reply :=
  match (s.recipe ref).values with
  | none => (s, refuse .noRecipe [])
  | some v =>
    if s.committing ref then (s, refuse .busy [])
    else if s.account.balance < planned then (s, refuse .short [])
    else match s.lowestFree with
      | none => (s, refuse .noSlot [])
      | some slot =>
        if s.counter.exhausted then (s, refuse .numbers [])
        else (s.openInto p slot channel planned ref (snapshotOf v) parent,
          doneWith (openFields s ref (snapshotOf v) parent))

/-- A first-mix OPEN applies a pending bank (R32). -/
def State.applyPendingBank (s : State) : State :=
  match s.bank.pending with
  | some b => s.changeBank { active := b, pending := none }
  | none => s

/-- OPEN of a first mix (R30 to R32, R34 to R36). -/
def openBody (p : PortName) (channel recipe planned : Nat) (s : State) : State × Reply :=
  if 3 < channel ∨ 7 < recipe ∨ planned < 100 ∨ 60000 < planned then (s, refuse .range [])
  else if s.channel channel ≠ none then s.refuseChannel channel
  else
    let t := s.applyPendingBank
    t.openRecipe p channel planned ⟨t.bank.active, recipe⟩ none

/-- The parent's bank names the recipe of a remix; a parent without a recipe reference names none (R33, R136; log
entry 27). -/
def State.openRemix (s : State) (p : PortName) (channel recipe planned : Nat) (slot : Nat) (r : LotRecord) :
    State × Reply :=
  match r.recipe with
  | some x => s.openRecipe p channel planned ⟨x.ref.bank, recipe⟩ (some ⟨slot, r.number, r.generation, r.ashMass.getD 0⟩)
  | none => (s, refuse .noRecipe [])

/-- OPEN of a remix: the parent checks of R33 stand between the channel check and the recipe (R31). -/
def remixBody (p : PortName) (channel recipe planned parent : Nat) (s : State) : State × Reply :=
  if 3 < channel ∨ 7 < recipe ∨ 60000 < planned ∨ parent = 0 ∨ Config.maxLot < parent then (s, refuse .range [])
  else if s.channel channel ≠ none then s.refuseChannel channel
  else s.onLot parent fun s k r =>
    if r.state ≠ .extracted then (s, refuse .state [])
    else if hasHold r.holds .audit then (s, refuse .held [holdsField r.holds])
    else if 1 < r.generation then (s, refuse .limit [])
    else if 60000 < r.ashMass.getD 0 then (s, refuse .range [])
    else s.openRemix p channel recipe planned k r

def execOpenLot (p : PortName) (t : Nat) (channel recipe planned : Nat) (s : State) : Host.Outcome State Fault Refusal :=
  .next (s.takeRequest p t .openLot (some channel) (openBody p channel recipe planned))

def execRemixOpen (p : PortName) (t : Nat) (channel recipe planned parent : Nat) (s : State) :
    Host.Outcome State Fault Refusal :=
  .next (s.takeRequest p t .openLot (some channel) (remixBody p channel recipe planned parent))

/-! ### DOSE (R37) -/

/-- The dosed figures after a DOSE. -/
def addDose (d : Dosed) (ash cement water : Nat) : Dosed := ⟨d.ash + ash, d.cement + cement, d.water + water⟩

/-- None of the dosed figures passes 120,000 kg (R37). -/
def doseFits (d : Dosed) : Bool := decide (d.ash ≤ 120000 ∧ d.cement ≤ 120000 ∧ d.water ≤ 120000)

/-- The binding after a DOSE: the dose count rises and saturates at 65,535 (R27, R37). -/
def countDose (b : Binding) : Binding := { b with doses := min 65535 (b.doses + 1) }

/-- The answer of a DOSE: the running figures, the dose count, the running ratio and the band indication (R37). -/
def doseFields (r : LotRecord) (d : Dosed) (b : Binding) : List Field :=
  [.u32 d.ash, .u32 d.cement, .u32 d.water, .u16 b.doses] ++ ratioFields { r with dosed := some d }

/-- DOSE adds its figures to the bound lot of an ACTIVE channel (R37, R39). -/
def doseBody (p : PortName) (channel ash cement water : Nat) (s : State) : State × Reply :=
  if 20000 < ash ∨ 20000 < cement ∨ 20000 < water then (s, refuse .range [])
  else s.onChannel p channel true false fun s b k r =>
    match r.dosed with
    | none => (s, refuse .state [])
    | some d =>
      let d' := addDose d ash cement water
      if doseFits d' then
        ((s.changeRecord k fun r => { r with dosed := some d' }).setChannel channel (some (countDose b)),
          doneWith (doseFields r d' (countDose b)))
      else (s, refuse .range [])

def execDose (p : PortName) (t : Nat) (channel ash cement water : Nat) (s : State) :
    Host.Outcome State Fault Refusal :=
  .next (s.takeRequest p t .dose (some channel) (doseBody p channel ash cement water))

/-! ### SEAL (R40 to R44) -/

/-- A SEAL of a lot with no ash retires it as an empty lot (R41). -/
def State.sealEmpty (s : State) (n k R : Nat) : State × Reply :=
  ((((s.withAccount (returnReservation s.account R)).leavePot n).freeChannelOf n).freeSlot k,
    refuse .emptyLot [.u24 n, .u32 R])

/-- The record of a sealed lot (R2, R44). -/
def sealedRecord (r : LotRecord) (mass cell minute : Nat) : LotRecord :=
  { r with
    state := .sealed, reservation := none, channel := none, mixDeadline := none, ashMass := some mass,
    targetCell := some cell, sealedAt := some minute }

/-- The holds a SEAL may add: INTAKE when ash was drawn uncovered (R42), DOSE when the mix is not inside its band
(R43). -/
def State.sealHolds (s : State) (k : Nat) (uncovered : Bool) (band : Band) : State :=
  let t := if uncovered then s.addHold k .intake else s
  if band = .inside then t else t.addHold k .dose

/-- What a taken SEAL changes (R42 to R44). -/
def State.sealInto (s : State) (k cell : Nat) (r : LotRecord) (d : Dosed) : State :=
  let R := r.reservation.getD 0
  let x := settlement s.account.balance R d.ash
  let s1 := (s.withAccount (settle s.account R d.ash)).writeLot k
    (sealedRecord r (r.carriedAsh.getD 0 + d.ash) cell s.clock)
  let s2 := ((s1.leavePot r.number).setCell cell (reserveIn r.number (s1.cell cell))).freeChannelOf r.number
  s2.sealHolds k (decide (0 < x.unbooked)) (bandOf r)

/-- The answer of a taken SEAL (R44). The lot's ash is above 0, so its ratio is never absent and carries no presence
byte (R41; log entry 13). -/
def sealFields (s t : State) (k : Nat) (r : LotRecord) (d : Dosed) : List Field :=
  [.u24 r.number, .u32 (r.carriedAsh.getD 0 + d.ash), .u16 ((ratioOf r).getD 0), .u8 (bandCode (bandOf r))] ++
    settlementFields (settlement s.account.balance (r.reservation.getD 0) d.ash) ++ [t.holdsAt k]

/-- SEAL ends the mix of an ACTIVE or STALLED channel (R40). -/
def sealBody (p : PortName) (channel cell : Nat) (s : State) : State × Reply :=
  if 95 < cell then (s, refuse .range [])
  else s.onChannel p channel true true fun s _ k r =>
    match r.dosed with
    | none => (s, refuse .state [])
    | some d =>
      if r.carriedAsh.getD 0 + d.ash = 0 then s.sealEmpty r.number k (r.reservation.getD 0)
      else if (s.cell cell).closed then (s, refuse .cellClosed (laneFields (s.cell cell)))
      else if !hasRoom (s.cell cell) then (s, refuse .laneFull (laneFields (s.cell cell)))
      else if settlementPasses s.account (r.reservation.getD 0) d.ash then (s, refuse .range [])
      else
        let t := s.sealInto k cell r d
        (t, doneWith (sealFields s t k r d))

def execSealLot (p : PortName) (t : Nat) (channel cell : Nat) (s : State) : Host.Outcome State Fault Refusal :=
  .next (s.takeRequest p t .sealLot (some channel) (sealBody p channel cell))

/-! ### STALL, RESUME, REBIND, CHANNEL STATUS -/

/-- The channel's stalled mark is set and its record answered (R46, R47). -/
def State.markStalled (s : State) (channel : Nat) (b : Binding) (mark : Bool) : State × Reply :=
  let x : Channel := some { b with stalled := mark }
  (s.setChannel channel x, doneWith (channelFields x))

/-- STALL makes an ACTIVE channel STALLED (R46). -/
def stallBody (p : PortName) (channel : Nat) (s : State) : State × Reply :=
  s.onChannel p channel true false fun s b _ _ => s.markStalled channel b true

/-- RESUME makes a STALLED channel ACTIVE (R47). -/
def resumeBody (p : PortName) (channel : Nat) (s : State) : State × Reply :=
  s.onChannel p channel false true fun s b _ _ => s.markStalled channel b false

/-- REBIND binds an orphan to a FREE channel (R53). -/
def rebindBody (p : PortName) (lot channel : Nat) (s : State) : State × Reply :=
  if lot = 0 ∨ Config.maxLot < lot ∨ 3 < channel then (s, refuse .range [])
  else if s.channel channel ≠ none then s.refuseChannel channel
  else s.onLot lot fun s k r =>
    if r.state ≠ .mixing ∨ r.channel ≠ none then (s, refuse .state [])
    else
      let b : Channel := some ⟨false, p, lot, 0⟩
      ((s.changeRecord k fun r => { r with channel := some channel }).setChannel channel b,
        doneWith (channelFields b ++ dosedFields r ++ ratioFields r ++ optField .u32 r.mixDeadline))

/-- The orphans of the register, MIXING lots without a channel, in ascending number (R55). R148 lists no check for them:
state, channel and number are those of the records as they stand, by the model's choice (log entry 39). -/
def State.orphans (s : State) : List LotRecord :=
  sortBy (fun x y => decide (x.number < y.number)) ((s.occupied.map fun x => x.2.record.held).filter fun r =>
    decide (r.state = .mixing) && r.channel.isNone)

/-- What CHANNEL STATUS answers of the bound lot, absent throughout for a FREE channel (R55). The band indication of a
FREE channel is sent as NONE, with no presence byte, while each other value carries one, by the model's choice (log
entry 13). A bound channel for whose number no slot stands is answered in the same way, by the model's choice (log
entry 40). -/
def boundFields (s : State) (r : Option LotRecord) : List Field :=
  match r with
  | some r =>
    dosedFields r ++ optField .u32 r.carriedAsh ++ optField .u32 r.reservation ++ ratioFields r ++
      optField .u32 r.mixDeadline ++ optField .u32 (r.mixDeadline.map (· - s.clock)) ++ [.u8 1, holdsField r.holds]
  | none =>
    optField .u32 none ++ optField .u32 none ++ optField .u32 none ++ optField .u32 none ++ optField .u32 none ++
      optField .u16 none ++ [.u8 0] ++ optField .u32 none ++ optField .u32 none ++ optField .u8 none

/-- The orphan list of CHANNEL STATUS: the number of orphans and the sixteen lowest (R55). -/
def State.orphanFields (s : State) : List Field :=
  .u16 s.orphans.length :: listField (fun r => .u24 r.number :: (optField .u32 r.mixDeadline ++
    [flag (hasHold r.holds .potLife)])) (s.orphans.take 16)

/-- CHANNEL STATUS: the channel record, its bound lot and the orphan list (R55). A channel that its check leaves bound
to a number no slot stands for is answered as bound, its lot's values absent, by the model's choice (log entry 40). -/
def channelStatusBody (channel : Nat) (s : State) : State × Reply :=
  let t := match s.channel channel with
    | some b => s.checkLot b.lot
    | none => s
  let x := t.channel channel
  let r := match x with
    | some b => t.recordOf b.lot
    | none => none
  (t, doneWith (channelFields x ++ boundFields t r ++ t.orphanFields))

def execStall (p : PortName) (t : Nat) (channel : Nat) (s : State) : Host.Outcome State Fault Refusal :=
  .next (s.takeRequest p t .stall (some channel) (stallBody p channel))

def execResume (p : PortName) (t : Nat) (channel : Nat) (s : State) : Host.Outcome State Fault Refusal :=
  .next (s.takeRequest p t .resume (some channel) (resumeBody p channel))

def execRebind (p : PortName) (t : Nat) (lot channel : Nat) (s : State) : Host.Outcome State Fault Refusal :=
  .next (s.takeRequest p t .rebind (some channel) (rebindBody p lot channel))

def execChannelStatus (p : PortName) (t : Nat) (channel : Nat) (s : State) : Host.Outcome State Fault Refusal :=
  .next (s.takeRequest p t .channelStatus (some channel) (channelStatusBody channel))

/-! ### The pot-life expiry -/

/-- POT-LIFE EXPIRY: the list is judged while the part is at work (R49, R183). -/
def execPotLifeExpiry (s : State) : Host.Outcome State Fault Refusal :=
  .next (if s.phase = .running then s.judgePotLife else s)

end Sys2Proof.Machine
end

