-- ==== Sys2Proof/Machine/Frames.lean ====
section
/-! DEFINITION. The bytes of frames (11_frame_and_record_formats.md): the check, the bytes of an answer, and which
command a complete request frame carries (R164, R165, R186, sections 11.2, 11.5, 11.6). -/

namespace Sys2Proof.Machine

/-! ### The check (R186) -/

/-- One bit into the code register, generator x^16 + x^12 + x^5 + 1 (R186). -/
def crcBit (c : Crc) (b : Bool) : Crc := if (c.getMsbD 0 ^^ b) then (c <<< 1) ^^^ 0x1021#16 else c <<< 1

/-- One byte into the code register, most significant bit first (R186). -/
def crcByte (c : Crc) (b : Byte) : Crc :=
  crcBit (crcBit (crcBit (crcBit (crcBit (crcBit (crcBit (crcBit c (b.getMsbD 0)) (b.getMsbD 1)) (b.getMsbD 2))
    (b.getMsbD 3)) (b.getMsbD 4)) (b.getMsbD 5)) (b.getMsbD 6)) (b.getMsbD 7)

/-- The check over the bytes from the tag to the last body byte: the register starts at all ones and is sent without
inversion (R186). -/
def crcOf (bytes : List Byte) : Crc := bytes.foldl crcByte 0xFFFF#16

/-! ### Numbers (section 11.1) -/

/-- A number as bytes, most significant first. -/
def bytesOf : Nat → Nat → List Byte
  | 0, _ => []
  | w + 1, n => BitVec.ofNat 8 (n / 256 ^ w) :: bytesOf w n

/-- The number that bytes stand for, most significant first. -/
def numberOf (bytes : List Byte) : Nat := bytes.foldl (fun n b => 256 * n + b.toNat) 0

/-- The two's complement number that bytes stand for. -/
def signedOf (bytes : List Byte) : Int :=
  let n := numberOf bytes
  if 2 * n < 256 ^ bytes.length then n else (n : Int) - 256 ^ bytes.length

/-- The bytes of one field of an answer. -/
def fieldBytes : Field → List Byte
  | .u8 n => bytesOf 1 n
  | .u16 n => bytesOf 2 n
  | .u24 n => bytesOf 3 n
  | .u32 n => bytesOf 4 n
  | .u48 n => bytesOf 6 n
  | .i16 z => bytesOf 2 (z % 65536).toNat

/-! ### Frames (section 11.2) -/

/-- The start mark. -/
def startMark : Byte := 195#8

/-- The start mark, the bytes from the tag to the last body byte, and the check. -/
def frameBytes (inner : List Byte) : List Byte := startMark :: (inner ++ bytesOf 2 (crcOf inner).toNat)

/-- The bytes of an answer frame: start mark, tag, outcome, body length, body, check. -/
def answerBytes (a : Answer) : List Byte :=
  let body := a.body.flatMap fieldBytes
  frameBytes (bytesOf 1 a.tag ++ bytesOf 1 (outcomeCode a.outcome) ++ bytesOf 2 body.length ++ body)

/-- The bytes of a complete request frame from the tag to the last body byte. -/
def innerBytes (bytes : List Byte) : List Byte := ((bytes.drop 1).dropLast).dropLast

/-- A complete frame is a good frame when its check agrees with its contents (R164). -/
def frameGood (bytes : List Byte) : Bool := bytes == frameBytes (innerBytes bytes)

/-! ### Requests (sections 11.5, 11.6) -/

/-- The body lengths a request code allows (R165, section 11.6); none for an unknown code. -/
def allowedLengths : Nat → List Nat
  | 1 => [4]
  | 2 => [0]
  | 3 => [3]
  | 4 => [4]
  | 5 => [8, 6, 16]
  | 6 => [3]
  | 7 => [4]
  | 8 => [3]
  | 9 => [1]
  | 10 => [1]
  | 11 => [1]
  | 12 => [0]
  | 13 => [2]
  | 14 => [24, 3]
  | 15 => [1]
  | 16 => [1]
  | 17 => [4]
  | 18 => [3]
  | 19 => [0]
  | 20 => [0]
  | 21 => [2]
  | 22 => [0, 4]
  | 23 => [0]
  | 24 => [2]
  | 32 => [6, 9]
  | 33 => [13]
  | 34 => [2]
  | 35 => [1]
  | 36 => [1]
  | 37 => [4]
  | 38 => [1]
  | 48 => [0]
  | 49 => [3]
  | 50 => [4, 7]
  | 64 => [4]
  | 65 => [4]
  | 66 => [4]
  | _ => []

/-- A request code is known and allows the body length (R165). -/
def knownRequest (code length : Nat) : Bool := (allowedLengths code).contains length

/-- The bytes of a body from one place, `w` of them, as a number. -/
def fieldAt (body : List Byte) (i w : Nat) : Nat := numberOf ((body.drop i).take w)

/-- The ten value fields of a recipe from 21 bytes (section 11.4). -/
def valuesAt (body : List Byte) (i : Nat) : RecipeValues :=
  { cementRatio := fieldAt body i 2, waterRatio := fieldAt body (i + 2) 2, doseTolerance := fieldAt body (i + 4) 1,
    datum := signedOf ((body.drop (i + 5)).take 2), frostLimit := signedOf ((body.drop (i + 7)).take 2),
    potLife := fieldAt body (i + 9) 1, maturityTarget := fieldAt body (i + 10) 4,
    retestIncrement := fieldAt body (i + 14) 4, minStrength := fieldAt body (i + 18) 2,
    maxLeach := fieldAt body (i + 20) 1 }

/-- The plant's requests by code and body (sections 11.5, 11.6). The body has an allowed length. -/
def plantRequest (p : PortName) (t code : Nat) (body : List Byte) : Option Instr :=
  let f := fieldAt body
  match code with
  | 1 => some (.intake p t (signedOf body))
  | 2 => some (.account p t)
  | 3 => some (.lookup p t (f 0 3))
  | 4 => some (.scan p t (f 0 1) (f 1 3))
  | 5 =>
    if body.length = 8 then some (.amendTarget p t (f 0 1) (f 1 3) (f 4 4))
    else if body.length = 6 then some (.amendRecipe p t (f 0 1) (f 1 3) (f 4 1) (f 5 1))
    else some (.amendDosed p t (f 0 1) (f 1 3) (f 4 4) (f 8 4) (f 12 4))
  | 6 => some (.holdLot p t (f 0 3))
  | 7 => some (.clearHold p t (f 0 3) (f 3 1))
  | 8 => some (.withdraw p t (f 0 3))
  | 9 => some (.cellOpen p t (f 0 1))
  | 10 => some (.cellClose p t (f 0 1))
  | 11 => some (.cellStatus p t (f 0 1))
  | 12 => some (.queueStatus p t)
  | 13 => some (.recipeRead p t (f 0 1) (f 1 1))
  | 14 => some (.recipeWrite p t (f 0 1) (f 1 1) (f 2 1) (if body.length = 24 then some (valuesAt body 3) else none))
  | 15 => some (.bankSelect p t (f 0 1))
  | 16 => some (.mode p t (f 0 1))
  | 17 => some (.portSetup p t (f 0 1) (f 1 1) (f 2 1) (f 3 1))
  | 18 => some (.noticeMask p t (f 0 1) (f 1 2))
  | 19 => some (.notices p t)
  | 20 => some (.slotHealth p t)
  | 21 => some (.reinstateSlot p t (f 0 2))
  | 22 => some (.clock p t (if body.length = 4 then some (f 0 4) else none))
  | 23 => some (.restart p t)
  | 24 => some (.clearRegister p t (f 0 2))
  | _ => none

/-- The requests of the mixer, lab and yard by code and body (sections 11.5, 11.6). -/
def stationRequest (p : PortName) (t code : Nat) (body : List Byte) : Option Instr :=
  let f := fieldAt body
  match code with
  | 32 =>
    if body.length = 9 then some (.remixOpen p t (f 0 1) (f 1 1) (f 2 4) (f 6 3))
    else some (.openLot p t (f 0 1) (f 1 1) (f 2 4))
  | 33 => some (.dose p t (f 0 1) (f 1 4) (f 5 4) (f 9 4))
  | 34 => some (.sealLot p t (f 0 1) (f 1 1))
  | 35 => some (.stall p t (f 0 1))
  | 36 => some (.resume p t (f 0 1))
  | 37 => some (.rebind p t (f 0 3) (f 3 1))
  | 38 => some (.channelStatus p t (f 0 1))
  | 48 => some (.take p t)
  | 49 => some (.returnLot p t (f 0 3))
  | 50 =>
    if body.length = 7 then some (.verdictResult p t (f 0 3) (f 3 1) (f 4 2) (f 6 1))
    else some (.verdictRetest p t (f 0 3) (f 3 1))
  | 64 => some (.place p t (f 0 3) (f 3 1))
  | 65 => some (.release p t (f 0 3) (f 3 1))
  | 66 => some (.extract p t (f 0 3) (f 3 1))
  | _ => none

/-- The command a good frame carries (R165). -/
def requestOf (p : PortName) (t code : Nat) (body : List Byte) : Instr :=
  if knownRequest code body.length then
    match plantRequest p t code body with
    | some i => i
    | none => (stationRequest p t code body).getD (.unknownRequestCode p t code body.length)
  else .unknownRequestCode p t code body.length

/-- The command that the bytes of a frame on a port carry, from its start mark on: the frame is abandoned at a body
length above 1,024, answered FRAME when its check fails, and otherwise carries a request (R164, R165, R186). None while
the bytes are not a complete frame. Machine/Arrival.lean assembles frames by it. -/
def commandOfFrame (p : PortName) (bytes : List Byte) : Option Instr :=
  match bytes with
  | m :: t :: code :: h :: l :: rest =>
    let n := numberOf [h, l]
    if m ≠ startMark then none
    else if 1024 < n then some (.bodyLengthAbandon p n)
    else if rest.length ≠ n + 2 then none
    else if frameGood bytes then some (requestOf p t.toNat code.toNat (rest.take n))
    else some (.frame p bytes)
  | _ => none

end Sys2Proof.Machine
end

