-- ==== Sys2Proof/Machine/PortUnit.lean ====
section
/-! DEFINITION. The requests and events of the Port Unit (09_station_ports_roles_and_plant_modes.md and
10_notices_restarts_and_the_register_clock.md): MODE, PORT SETUP, NOTICE MASK, NOTICES, the frames that carry no
request, the end of an answer, the idle timer, the end of a setup write. -/

namespace Sys2Proof.Machine

/-! ### MODE (R173) -/

/-- MODE makes the named mode current and answers the ports (R173). -/
def modeBody (code : Nat) (s : State) : State × Reply :=
  match modeOfCode code with
  | none => (s, refuse .range [])
  | some m => ({ s with mode := m }, doneWith ([.u8 (modeCode s.mode), .u8 code] ++ s.portList))

def execMode (p : PortName) (t : Nat) (code : Nat) (s : State) : Host.Outcome State Fault Refusal :=
  .next (s.takeRequest p t .mode none (modeBody code))

/-! ### PORT SETUP (R170, R171) -/

/-- The port setup record that stands in force. -/
def setupRecordOf (x : Ports) : SetupRecord :=
  { b := ⟨x.b.role, x.b.window⟩, c := ⟨x.c.role, x.c.window⟩, d := ⟨x.d.role, x.d.window⟩ }

/-- The writing of a setup record begins, or it waits to replace the one being written (R171). R171 speaks of a second
PORT SETUP; the record of a third replaces the one that waits, by the model's choice (log entry 41). -/
def beginSetupWrite (x : SetupStore) (r : SetupRecord) : SetupStore :=
  match x.writing with
  | none => { x with writing := some r }
  | some _ => { x with next := some r }

/-- A port with a new role and window; a changed role takes its default mask (R170, R177). -/
def assignRole (x : Port) (r : PortRole) : Port :=
  { x with
    role := r.role, window := r.window
    mask := if r.role = x.role then x.mask else { kinds := defaultMask r.role, role := r.role, checkGood := true } }

/-- The channels a port holds that its present role or window excludes (R52). -/
def State.excludedChannels (s : State) (p : PortName) : List Nat :=
  s.channelsWhere fun c b => decide (b.holder = p) && !(decide ((s.port p).role = .mixer) && inWindow (s.port p) c)

/-- The lots a setup returns: those on the bench list under a lab port that is lab no longer (R111). -/
def State.setupReturns (s t : State) (p : PortName) : List Nat :=
  if (s.port p).role = .lab ∧ (t.port p).role ≠ .lab then s.benchOf p else []

/-- What a taken PORT SETUP changes (R52, R111, R170, R171; log entry 21). -/
def State.setupInto (s : State) (p : PortName) (r : PortRole) : State :=
  let s1 := s.setPort p (assignRole (s.port p) r)
  let s2 := { s1 with setup := beginSetupWrite s1.setup (setupRecordOf s1.ports) }
  let s3 := s2.orphanChannels (s2.excludedChannels p)
  if s.setupReturns s1 p = [] then s3 else s3.returnBench p

/-- The channels a setup frees, for its answer (R170). -/
def State.setupFrees (s : State) (p : PortName) (r : PortRole) : List Nat :=
  (s.setPort p (assignRole (s.port p) r)).excludedChannels p

/-- PORT SETUP: the checks of R170 in their order. The answer lists the channels freed in ascending number and the lots
returned in the order they were taken, by the model's choice (log entry 43). -/
def portSetupBody (port role first last : Nat) (s : State) : State × Reply :=
  match portOfCode port, roleOfCode role with
  | none, _ => (s, refuse .range [])
  | some .a, _ => (s, refuse .range [])
  | _, none => (s, refuse .range [])
  | some q, some r =>
    match setupOf r first last with
    | none => (s, refuse .range [])
    | some x =>
      let t := s.setupInto q x
      (t, doneWith (t.setupList ++ listField (fun c => [.u8 c]) (s.setupFrees q x) ++
        listField (fun n => [.u24 n]) (s.setupReturns t q)))

def execPortSetup (p : PortName) (t : Nat) (port role first last : Nat) (s : State) :
    Host.Outcome State Fault Refusal :=
  .next (s.takeRequest p t .portSetup none (portSetupBody port role first last))

/-- PORT SETUP WRITE END: the record is stored with a good check, and a later setup's record replaces it (R171). -/
def execPortSetupWriteEnd (s : State) : Host.Outcome State Fault Refusal :=
  .next (match s.setup.writing with
    | some r => { s with setup := { stored := r, checkGood := true, writing := s.setup.next, next := none } }
    | none => s)

/-! ### NOTICE MASK and NOTICES (R178, R179) -/

/-- NOTICE MASK sets a port's mask, RESTART always included, kept with the port's role (R178). -/
def noticeMaskBody (port kinds : Nat) (s : State) : State × Reply :=
  match portOfCode port with
  | none => (s, refuse .range [])
  | some q =>
    if 2047 < kinds then (s, refuse .range [])
    else
      let m := withNotice (BitVec.ofNat 11 kinds) .restart
      (s.setPort q { s.port q with mask := { kinds := m, role := (s.port q).role, checkGood := true } },
        doneWith [.u8 port, .u8 (roleCode (s.port q).role), noticesField m])

/-- NOTICES answers and empties the requesting port's pending set (R179). -/
def noticesBody (p : PortName) (s : State) : State × Reply :=
  (s.setPort p { s.port p with notices := 0 }, doneWith [noticesField (s.port p).notices, .u32 s.clock])

def execNoticeMask (p : PortName) (t : Nat) (port kinds : Nat) (s : State) : Host.Outcome State Fault Refusal :=
  .next (s.takeRequest p t .noticeMask none (noticeMaskBody port kinds))

def execNotices (p : PortName) (t : Nat) (s : State) : Host.Outcome State Fault Refusal :=
  .next (s.takeRequest p t .notices none (noticesBody p))

/-! ### Frames that carry no request -/

/-- A complete frame whose check fails is answered at once with tag 0 and has no other effect (R164). -/
def State.answerFrame (s : State) (p : PortName) : State :=
  (s.setPort p { s.port p with partialFrame := [] }).answerAtOnce p ⟨0, .frame, []⟩

/-- PORTBUSY: a good frame on a BUSY port restarts the timer, is answered PORTBUSY and is not acted on (R166). -/
def execPortBusy (p : PortName) (t : Nat) (s : State) : Host.Outcome State Fault Refusal :=
  .next (if s.phase = .running ∧ (s.port p).request ≠ .ready then
      (s.goodFrame p).answerAtOnce p ⟨t, .portBusy, []⟩
    else s)

/-- UNKNOWN REQUEST CODE: a good frame with an unknown code or a disallowed length is answered RANGE and handed to no
block; on a BUSY port it is answered PORTBUSY (R165, R166). -/
def execUnknownRequestCode (p : PortName) (t code length : Nat) (s : State) : Host.Outcome State Fault Refusal :=
  .next (if s.phase = .running ∧ knownRequest code length = false then
      match (s.port p).request with
      | .busy _ => (s.goodFrame p).answerAtOnce p ⟨t, .portBusy, []⟩
      | .ready => (s.goodFrame p).answer p t (refuse .range [])
    else s)

/-- FRAME GAP TIMEOUT: the partial frame is abandoned, with no answer (R164). -/
def execFrameGapTimeout (p : PortName) (s : State) : Host.Outcome State Fault Refusal :=
  .next (if s.phase = .running then s.setPort p { s.port p with partialFrame := [] } else s)

/-- BODY LENGTH ABANDON: a body length above 1,024 abandons the frame (R186). -/
def execBodyLengthAbandon (p : PortName) (length : Nat) (s : State) : Host.Outcome State Fault Refusal :=
  .next (if s.phase = .running ∧ 1024 < length then s.setPort p { s.port p with partialFrame := [] } else s)

/-- ANSWER SENT: the port becomes READY; the start that the answered request asked for is due (R166, R182, R185). -/
def execAnswerSent (p : PortName) (s : State) : Host.Outcome State Fault Refusal :=
  .next (if s.phase = .running then
      let x := s.port p
      { s.setPort p { x with request := .ready, answer := none, startAfter := none, immediate := [] } with
        warmDue := s.warmDue || decide (x.startAfter = some .warm)
        coldDue := s.coldDue || decide (x.startAfter = some .cold) }
    else s)

/-! ### Presence (R172) -/

/-- A port becomes ABSENT, and what it held is handed back: a mixer port's channels, and the lots on the bench list under
the port. A port holds such lots as lab, or as the tester it stays after a start that loaded another role for it (R50,
R110, R114, R172; log entry 32). -/
def State.makeAbsent (s : State) (p : PortName) : State :=
  let t := s.setPort p { s.port p with present := false, idleTimer := none }
  let u := if (s.port p).role = .mixer then t.orphanChannels (t.channelsWhere fun _ b => decide (b.holder = p)) else t
  u.returnBench p

/-- IDLE TIMER EXPIRY: the running timer of a PRESENT port runs out (R172). -/
def execIdleTimerExpiry (p : PortName) (s : State) : Host.Outcome State Fault Refusal :=
  .next (if s.phase = .running ∧ (s.port p).present = true ∧ (s.port p).idleTimer ≠ none then s.makeAbsent p else s)

end Sys2Proof.Machine
end

