-- ==== Sys2Proof/Machine/Recipes.lean ====
section
/-! DEFINITION. The requests and events of the Recipe Store (07_recipes_and_recipe_banks.md): RECIPE READ, RECIPE
WRITE, BANK SELECT, the commit completion and the end of a bank state write. -/

namespace Sys2Proof.Machine

/-- RECIPE READ: the current record, the committing mark and the bank state (R137, section 11.4). -/
def recipeReadBody (bank number : Nat) (s : State) : State × Reply :=
  if 1 < bank ∨ 7 < number then (s, refuse .range [])
  else
    let x := (s.recipe ⟨bank, number⟩).values
    let mark := s.committing ⟨bank, number⟩
    let form := match s.commit with
      | some c => if mark then (if c.values = none then 2 else 1) else 0
      | none => 0
    (s, doneWith ([.u8 bank, .u8 number, flag x.isSome] ++ valueFields x ++
      [flag mark, .u8 form, .u8 s.bank.active, pendingField s.bank.pending]))

/-- The form of a RECIPE WRITE with its contents in their ranges: CONTENTS 1 with values, RETIRE 2 with none (R138;
log entry 25). -/
def writeForm (form : Nat) (values : Option RecipeValues) : Bool :=
  match values with
  | some v => form == 1 && valuesInRange v
  | none => form == 2

/-- RECIPE WRITE: the checks of R138 in their order; a write taken begins a commit (R139). -/
def recipeWriteBody (bank number form : Nat) (values : Option RecipeValues) (s : State) : State × Reply :=
  if 1 < bank ∨ 7 < number then (s, refuse .range [])
  else if bank = s.bank.active ∧ s.mode ≠ .service then (s, refuse .mode [.u8 (modeCode s.mode)])
  else if !writeForm form values then (s, refuse .range [])
  else match s.commit with
    | some c => (s, refuse .busy [.u8 c.recipe.bank, .u8 c.recipe.number])
    | none => ({ s with commit := some ⟨⟨bank, number⟩, values⟩ },
        doneWith [.u8 bank, .u8 number, .u8 form, flag true])

/-- The number of VALID records in a bank (R135). -/
def State.validIn (s : State) (bank : Nat) : Nat :=
  ((List.range 8).filter fun n => (s.recipe ⟨bank, n⟩).values.isSome).length

/-- The bank state after a BANK SELECT (R135). -/
def selectedBank (b : BankState) (bank : Nat) : BankState :=
  { b with pending := if bank = b.active then none else some bank }

/-- BANK SELECT sets or clears the pending bank (R135). -/
def bankSelectBody (bank : Nat) (s : State) : State × Reply :=
  if 1 < bank then (s, refuse .range [])
  else
    let t := s.changeBank (selectedBank s.bank bank)
    (t, doneWith [.u8 t.bank.active, pendingField t.bank.pending, .u8 (t.validIn bank)])

def execRecipeRead (p : PortName) (t : Nat) (bank number : Nat) (s : State) : Host.Outcome State Fault Refusal :=
  .next (s.takeRequest p t .recipeRead none (recipeReadBody bank number))

def execRecipeWrite (p : PortName) (t : Nat) (bank number form : Nat) (values : Option RecipeValues) (s : State) :
    Host.Outcome State Fault Refusal :=
  .next (s.takeRequest p t .recipeWrite none (recipeWriteBody bank number form values))

def execBankSelect (p : PortName) (t : Nat) (bank : Nat) (s : State) : Host.Outcome State Fault Refusal :=
  .next (s.takeRequest p t .bankSelect none (bankSelectBody bank))

/-- RECIPE COMMIT COMPLETION: the record takes the new validity and contents, and the commit state is IDLE (R141). -/
def execRecipeCommitCompletion (s : State) : Host.Outcome State Fault Refusal :=
  .next (match s.commit with
    | some c => { s.setRecipe c.recipe { values := c.values, checkGood := true } with commit := none }
    | none => s)

/-- BANK STATE WRITE END: the bank state at the front of the writes is stored with a fresh check (R134). -/
def execBankStateWriteEnd (s : State) : Host.Outcome State Fault Refusal :=
  .next (match s.bankWrites with
    | b :: rest => { s with bankStored := b, bankCheckGood := true, bankWrites := rest }
    | [] => s)

end Sys2Proof.Machine
end

