-- ==== Sys2Proof/Machine/Release.lean ====
section
/-! DEFINITION. The requests of the Release Unit (06_release_rejection_and_remix.md): RELEASE, EXTRACT, WITHDRAW. -/

namespace Sys2Proof.Machine

/-! ### RELEASE and EXTRACT -/

/-- The lot stands at position 1 of the lane of the cell (R68). -/
def State.atFront (s : State) (n cell : Nat) : Bool := (s.cell cell).lane.head? == some n

/-- The refusal BLOCKED: the front lot's number, state and hold set, and the position of the named lot (R115). A lane
without a front lot, or a front lot without a record, answers zeros (log entry 27). -/
def State.blockedFields (s : State) (cell : Nat) (r : LotRecord) : List Field :=
  let front := (s.cell cell).lane.head?
  let f := front.bind s.recordOf
  [lotField front, .u8 ((f.map fun x => stateCode x.state).getD 0), .u8 ((f.map fun x => x.holds.toNat).getD 0),
    .u8 ((s.lanePosition r).getD 0)]

/-- Front removal (R68). -/
def State.frontRemoval (s : State) (n cell : Nat) : State := s.setCell cell (leaveLane n (s.cell cell))

/-- What a taken RELEASE changes (R116). -/
def State.releaseInto (s : State) (k cell : Nat) (r : LotRecord) : State :=
  ((s.frontRemoval r.number cell).withAccount (releaseAsh s.account (r.ashMass.getD 0))).freeSlot k

/-- A released lot's recipe reference; every lot that RELEASE takes holds one (R7, R8, R116; log entry 27). -/
def refFields (r : LotRecord) : List Field :=
  [.u8 ((r.recipe.map fun x => x.ref.bank).getD 0), .u8 ((r.recipe.map fun x => x.ref.number).getD 0)]

/-- The answer of a taken RELEASE (R116). -/
def releaseFields (t : State) (cell : Nat) (r : LotRecord) : List Field :=
  [.u24 r.number, .u32 (r.ashMass.getD 0)] ++ refFields r ++
    [.u8 r.generation, .u8 cell, .u32 t.clock, totalField t.account.released] ++ t.frontFields cell

/-- RELEASE: steps 4 to 7 of R115, and the release (R116). -/
def releaseBody (lot cell : Nat) (s : State) : State × Reply :=
  s.onLot lot fun s k r =>
    if r.state ≠ .cleared ∨ r.cell ≠ some cell then (s, refuse .state (stateRefusal r))
    else if r.holds ≠ 0 then (s, refuse .held [holdsField r.holds])
    else if !s.atFront r.number cell then (s, refuse .blocked (s.blockedFields cell r))
    else
      let t := s.releaseInto k cell r
      (t, doneWith (releaseFields t cell r))

/-- The record of an extracted lot (R2, R119). -/
def extractedRecord (r : LotRecord) : LotRecord := { r with state := .extracted, cell := none }

/-- What a taken EXTRACT changes (R119). -/
def State.extractInto (s : State) (k cell : Nat) (r : LotRecord) : State :=
  (s.frontRemoval r.number cell).writeLot k (extractedRecord r)

/-- The answer of a taken EXTRACT (R119). -/
def extractFields (t : State) (cell : Nat) (r : LotRecord) : List Field :=
  [.u24 r.number, .u32 (r.ashMass.getD 0), .u8 r.generation] ++ optField .u8 (r.failCause.map failCauseCode) ++
    [holdsField r.holds, .u8 cell] ++ t.frontFields cell

/-- EXTRACT: steps 4 to 6 of R118, and the extraction (R119). -/
def extractBody (lot cell : Nat) (s : State) : State × Reply :=
  s.onLot lot fun s k r =>
    if r.state ≠ .rejected ∨ r.cell ≠ some cell then (s, refuse .state (stateRefusal r))
    else if !s.atFront r.number cell then (s, refuse .blocked (s.blockedFields cell r))
    else
      let t := s.extractInto k cell r
      (t, doneWith (extractFields t cell r))

def execRelease (p : PortName) (t : Nat) (lot cell : Nat) (s : State) : Host.Outcome State Fault Refusal :=
  .next (s.takeRequest p t .release (some cell) (releaseBody lot cell))

def execExtract (p : PortName) (t : Nat) (lot cell : Nat) (s : State) : Host.Outcome State Fault Refusal :=
  .next (s.takeRequest p t .extract (some cell) (extractBody lot cell))

/-! ### WITHDRAW (R122 to R126) -/

/-- The dosed ash a withdrawn lot is settled with: 0 while its dosed figures are absent (R123). -/
def settledAsh (r : LotRecord) : Nat := (r.dosed.map (·.ash)).getD 0

/-- The ash a withdrawal discards: carried ash plus dosed ash for a MIXING lot, the ash mass otherwise (R122 to
R126). -/
def discardedAsh (r : LotRecord) : Nat :=
  if r.state = .mixing then r.carriedAsh.getD 0 + settledAsh r else r.ashMass.getD 0

/-- The account after a withdrawal: a MIXING lot is settled first (R123 to R126). -/
def withdrawAccount (a : Account) (r : LotRecord) : Account :=
  discardAsh (if r.state = .mixing then settle a (r.reservation.getD 0) (settledAsh r) else a) (discardedAsh r)

/-- The places a withdrawn lot held are given up by their owners (R54, R69, R112). -/
def State.giveUpPlaces (s : State) (n : Nat) : State :=
  ((((s.removeInPlace n).freeChannelOf n).leavePot n).leaveQueue n).leaveBench n

/-- What a taken WITHDRAW changes (R122). The rooms freed in the queue are given once the lot is gone (R112). -/
def State.withdrawInto (s : State) (k : Nat) (r : LotRecord) : State :=
  ((((s.withAccount (withdrawAccount s.account r)).giveUpPlaces r.number).freeSlot k)).giveRooms (s.placesHeld r.number)

/-- The answer of a taken WITHDRAW (R122; log entry 13). -/
def withdrawFields (s t : State) (r : LotRecord) : List Field :=
  let mixing := decide (r.state = .mixing)
  let x := settlement s.account.balance (r.reservation.getD 0) (settledAsh r)
  let amount (v : Int) : List Field := optField .u32 (if mixing then some v.toNat else none)
  let lane := standsInLane r.state
  let tested := decide (r.state = .testing) || (decide (r.state = .cured) && decide (r.queueStatus = some .queued))
  [.u24 r.number, .u8 (stateCode r.state), .u32 (discardedAsh r), totalField t.account.discard] ++
    amount x.returned ++ amount x.drawn ++ amount x.unbooked ++
    optField .u8 (if mixing then r.channel else none) ++
    optField .u8 (if r.state = .sealed then r.targetCell else none) ++
    optField .u8 (if lane then r.cell else none) ++ optField .u8 (if lane then s.lanePosition r else none) ++
    optField .u8 (if tested then some t.queue.length else none) ++
    optField .u8 (if tested then some t.bench.length else none)

/-- WITHDRAW retires a lot in any state; a MIXING lot whose settlement would pass the account's bound is refused RANGE
(R122, R123). -/
def withdrawBody (lot : Nat) (s : State) : State × Reply :=
  s.onLot lot fun s k r =>
    if r.state = .mixing ∧ settlementPasses s.account (r.reservation.getD 0) (settledAsh r) = true then
      (s, refuse .range [])
    else
      let t := s.withdrawInto k r
      (t, doneWith (withdrawFields s t r))

def execWithdraw (p : PortName) (t : Nat) (lot : Nat) (s : State) : Host.Outcome State Fault Refusal :=
  .next (s.takeRequest p t .withdraw none (withdrawBody lot))

end Sys2Proof.Machine
end

