-- ==== Sys2Proof/Machine/Maturity.lean ====
section
/-! DEFINITION. The events of the Maturity Engine (04_maturity.md): sample events with a valid reading and misses, the
conversions of a round, the outage rule. -/

namespace Sys2Proof.Machine

/-! ### A valid reading (R80 to R86) -/

/-- The first step: a pending target is applied (R82). -/
def applyPending (r : LotRecord) : LotRecord :=
  match r.pendingTarget with
  | some t => { r with target := some t, pendingTarget := none }
  | none => r

/-- The gain of one reading over a datum (R83). -/
def gainOf (reading datum : Int) : Nat := (reading - datum).toNat

/-- The second step: the maturity gained, saturating (R83). -/
def accumulate (reading : Int) (r : LotRecord) : LotRecord :=
  match r.recipe with
  | some x => { r with maturity := some (min Config.maxMaturity (r.maturity.getD 0 + gainOf reading x.snapshot.datum)) }
  | none => r

/-- A reading lies below the frost limit of the lot's snapshot (R84). -/
def belowFrost (reading : Int) (r : LotRecord) : Bool :=
  match r.recipe with
  | some x => decide (reading < x.snapshot.frostLimit)
  | none => false

/-- The third step: the frost run (R84). -/
def stepFrost (reading : Int) (r : LotRecord) : LotRecord :=
  match r.recipe with
  | some _ => { r with frostRun := some (if belowFrost reading r then min 10 (r.frostRun.getD 0 + 1) else 0) }
  | none => r

/-- The reading completes a frost run of ten, which sets FROST (R84). -/
def completesFrost (reading : Int) (r : LotRecord) : Bool := belowFrost reading r && r.frostRun.getD 0 == 9

/-- The lot's maturity is at or above its target (R85). -/
def reachesTarget (r : LotRecord) : Bool :=
  match r.target with
  | some t => decide (t ≤ r.maturity.getD 0)
  | none => false

/-- The record of a lot at its cure decision (R2, R85). -/
def curedRecord (r : LotRecord) (minute : Nat) : LotRecord :=
  { r with state := .cured, frostRun := none, pendingTarget := none, cured := some minute }

/-- The four steps for one CURING lot (R81 to R85), and whether it cured. -/
def State.treatLot (s : State) (k : Nat) (r : LotRecord) (reading : Int) (minute : Nat) : State × Bool :=
  let s1 := s.changeRecord k fun r => stepFrost reading (accumulate reading (applyPending r))
  let s2 := if completesFrost reading r then s1.addHold k .frost else s1
  match s2.recordAt k with
  | some r' => if reachesTarget r' then ((s2.writeLot k (curedRecord r' minute)).admitLot k, true) else (s2, false)
  | none => (s2, false)

/-- A slot may hold a CURING lot: a check of it would find the lot CURING, or would find it lost (R81; log entry
15). -/
def mayBeCuring (l : Lot) : Bool :=
  match lotState l with
  | some x => decide (x = .curing)
  | none => true

/-- One entry of the lane at a valid reading: a CURING lot is checked, and treated when it still stands in the lane,
CURING (R78, R81, R86). Whether a lot is CURING is told by what a check would find, so that a fault in the word that
holds its state keeps no lot from its treatment (R94, R146; log entry 15). An entry whose number no slot stands for, where
no lot is one that nothing in its slot names, or whose number the check leaves without a clean lot, is passed over
untreated and stays in the lane, by the model's choice (log entry 44). -/
def sampleLot (cell : Nat) (reading : Int) (minute : Nat) (x : State × Bool) (n : Nat) : State × Bool :=
  match (x.1.placedSlot n).bind x.1.lotAt with
  | some l =>
    if (x.1.cell cell).lane.contains n ∧ mayBeCuring l = true then
      let c := x.1.checkedPlaced n
      match c.2 with
      | some (k, r') =>
        if (c.1.cell cell).lane.contains n ∧ r'.state = .curing then
          let y := c.1.treatLot k r' reading minute
          (y.1, x.2 || y.2)
        else (c.1, x.2)
      | none => (c.1, x.2)
    else x
  | none => x

/-- The cell record after a valid reading (R80). -/
def cellValid (reading : Int) (minute : Nat) (c : Cell) : Cell :=
  { c with lastValid := some reading, lastStamp := minute, misses := 0, faulty := false }

/-- A sample event with a valid reading (R80, R81, R85). -/
def State.sampleValid (s : State) (cell : Nat) (reading : Int) (minute : Nat) : State :=
  let s1 := s.setCell cell (cellValid reading minute (s.cell cell))
  let x := (s.cell cell).lane.foldl (sampleLot cell reading minute) (s1, false)
  if x.2 then x.1.raise .cured else x.1

/-! ### A miss (R87) and the outage rule (R90) -/

/-- The CURING lots of a lane gain SENSOR (R87, R90). An entry whose number no slot stands for is passed over, by the
model's choice (log entry 44). -/
def State.sensorLane (s : State) (lane : List Nat) : State :=
  lane.foldl (fun s n => match s.recordOf n with
    | some r => if r.state = .curing then s.addHoldTo n .sensor else s
    | none => s) s

/-- The cell record after a miss: the fifth sets the fault flag (R87). -/
def cellMiss (minute : Nat) (c : Cell) : Cell :=
  { c with lastStamp := minute, misses := min 255 (c.misses + 1), faulty := c.faulty || c.misses == 4 }

/-- A sample event that is a miss (R87). -/
def State.sampleMiss (s : State) (cell minute : Nat) : State :=
  let c := s.cell cell
  let s1 := s.setCell cell (cellMiss minute c)
  if c.misses = 4 then (s1.sensorLane c.lane).raise .cellFault else s1

/-- The outage rule reaches a cell last sampled more than 5 minutes before the clock (R90). -/
def State.outageReaches (s : State) (c : Nat) : Bool := decide ((s.cell c).lastStamp + 5 < s.clock)

/-- The outage rule at one cell (R90). -/
def State.outageCell (s : State) (c : Nat) : State :=
  let x := s.cell c
  (s.setCell c { x with faulty := true, misses := 5 }).sensorLane x.lane

/-- The outage rule: each cell it reaches, and CELLFAULT once when it reached any (R90). -/
def State.outageRule (s : State) : State :=
  let cells := (List.range Config.cellCount).filter s.outageReaches
  if cells = [] then s else (cells.foldl State.outageCell s).raise .cellFault

/-! ### The conversions of a round (R75 to R77) -/

/-- The next conversion request of the round is sent, or the round ends (R75, R76). -/
def nextScan (x : Scan) : Option Scan := if x.cell < 95 then some { x with cell := x.cell + 1 } else none

/-- A reading lies in the valid range (R76). -/
def validReading (reading : Int) : Bool := decide (-400 ≤ reading) && decide (reading ≤ 900)

/-- The conversion in flight ends in a sample event, and the next request is sent (R76). -/
def State.endConversion (s : State) (x : Scan) (reading : Option Int) : State :=
  let t := match reading with
    | some y => if validReading y then s.sampleValid x.cell y x.minute else s.sampleMiss x.cell x.minute
    | none => s.sampleMiss x.cell x.minute
  { t with scan := nextScan x }

/-- A completion on the bus: taken when it carries the number asked and its check is good, otherwise not (R76, R77). -/
def State.completion (s : State) (cell : Nat) (reading : Int) (checkGood : Bool) : State :=
  match s.scan with
  | some x => if x.cell = cell ∧ checkGood = true then s.endConversion x (some reading) else s
  | none => s

/-- CONVERSION COMPLETION: a completion with a good check (R76). -/
def execConversionCompletion (cell : Nat) (reading : Int) (s : State) : Host.Outcome State Fault Refusal :=
  .next (s.completion cell reading true)

/-- STRAY COMPLETION: a completion that is not the one asked for is not taken (R77; log entry 30). -/
def execStrayCompletion (cell : Nat) (reading : Int) (checkGood : Bool) (s : State) :
    Host.Outcome State Fault Refusal :=
  .next (s.completion cell reading checkGood)

/-- CONVERSION TIMEOUT: 40 ms have passed, and the sample is a miss (R76, R77). -/
def execConversionTimeout (s : State) : Host.Outcome State Fault Refusal :=
  .next (match s.scan with
    | some x => s.endConversion x none
    | none => s)

end Sys2Proof.Machine
end

