-- ==== Sys2Proof/Machine/Starts.lean ====
section
/-! DEFINITION. The register clock and the starts (10_notices_restarts_and_the_register_clock.md): CLOCK, RESTART, CLEAR
REGISTER, the clock's advance, warm restart, cold start, the reset line, the main supply, and the completion of a
start. -/

namespace Sys2Proof.Machine

/-! ### The register clock (R181) -/

/-- CLOCK reads the clock, or sets it forward; the entries the new value reaches are expired at once (R181). -/
def clockBody (minute : Option Nat) (s : State) : State × Reply :=
  match minute with
  | none => (s, doneWith [.u32 s.clock])
  | some m =>
    if m < s.clock ∨ Config.maxClock < m then (s, refuse .range [])
    else (({ s with clock := m }).judgePotLife, doneWith [.u32 s.clock, .u32 m])

def execClock (p : PortName) (t : Nat) (minute : Option Nat) (s : State) : Host.Outcome State Fault Refusal :=
  .next (s.takeRequest p t .clock none (clockBody minute))

/-- CLOCK ADVANCE: one minute more, unless the clock holds its greatest value; while the part is at work a round
begins and the pot-life list is judged (R75, R181; log entry 23). -/
def execClockAdvance (s : State) : Host.Outcome State Fault Refusal :=
  .next (if s.clock < Config.maxClock then
      let t := { s with clock := s.clock + 1 }
      if s.phase = .running then ({ t with scan := some ⟨0, s.clock + 1⟩ }).judgePotLife else t
    else s)

/-! ### RESTART and CLEAR REGISTER -/

/-- RESTART is answered DONE; a warm restart begins once the answer has been sent (R182). -/
def restartBody (s : State) : State × Reply := (s, ⟨.done, [], some .warm⟩)

/-- CLEAR REGISTER, with the number of live lots repeated, is answered DONE; a cold start begins once the answer has
been sent (R185). A count above 512, which differs from the number of live lots as well, is refused RANGE with no value,
by the model's choice (log entry 46). -/
def clearRegisterBody (count : Nat) (s : State) : State × Reply :=
  if 512 < count then (s, refuse .range [])
  else if count ≠ s.liveCount then (s, refuse .range [.u16 s.liveCount])
  else (s, ⟨.done, [.u16 count], some .cold⟩)

def execRestart (p : PortName) (t : Nat) (s : State) : Host.Outcome State Fault Refusal :=
  .next (s.takeRequest p t .restart none restartBody)

def execClearRegister (p : PortName) (t : Nat) (count : Nat) (s : State) : Host.Outcome State Fault Refusal :=
  .next (s.takeRequest p t .clearRegister none (clearRegisterBody count))

/-! ### What a start and a loss of supply cut off -/

/-- A port's working memory as a start or a loss of supply leaves it: no request, no answer, no partial frame, the
timer stopped (R166, R183, R184). -/
def quietPort (x : Port) : Port :=
  { x with request := .ready, answer := none, startAfter := none, immediate := [], partialFrame := [], idleTimer := none }

/-- A port setup write cut off leaves a record whose check fails (R171). -/
def cutSetup (x : SetupStore) : SetupStore :=
  { x with checkGood := x.checkGood && x.writing.isNone, writing := none, next := none }

/-- A commit cut off leaves a record whose check fails (R143). -/
def State.cutCommit (s : State) : State :=
  match s.commit with
  | some c => { s.setRecipe c.recipe { s.recipe c.recipe with checkGood := false } with commit := none }
  | none => s

/-- Work in flight is cut off: requests and answers, the round, the timers, and the writes into the nonvolatile store,
a bank state write leaving the state stored before it (R79, R134, R143, R166, R171, R183, R184). A stored bank state that
was disturbed before that keeps its failing check, by the model's choice (log entry 20). -/
def State.cutOff (s : State) : State :=
  { s.cutCommit with
    ports := s.ports.map fun _ x => quietPort x
    scan := none
    setup := cutSetup s.setup
    bank := if s.bankWrites = [] then s.bank else s.bankStored
    bankWrites := [] }

/-! ### The start rules of the blocks -/

/-- The setup a start loads: the stored one when its check is good, otherwise the default; port A is plant (R171). -/
def loadedSetup (x : SetupStore) : PortName → PortRole :=
  let r := if x.checkGood then x.stored else SetupRecord.default
  fun p => match p with
    | .a => ⟨.plant, none⟩
    | .b => r.b
    | .c => r.c
    | .d => r.d

/-- The mask a start gives a port of a role: kept at a warm start while its check is good and the role is the one it
was set for, otherwise the role's default (R177). -/
def startMask (keep : Bool) (m : NoticeMask) (r : Role) : NoticeMask :=
  if keep && m.checkGood && decide (m.role = r) then m else { kinds := defaultMask r, role := r, checkGood := true }

/-- A port at a start: its role, window and mask, PRESENT and READY, RESTART alone pending (R163, R171, R177, R183). -/
def startPort (keep : Bool) (r : PortRole) (x : Port) : Port :=
  { quietPort x with
    role := r.role, window := r.window, present := true, notices := restartOnly
    mask := startMask keep x.mask r.role }

/-- A recipe record at a start: one whose check fails becomes INVALID (R143). -/
def startRecipe (x : StoredRecipe) : StoredRecipe := if x.checkGood then x else { values := none, checkGood := false }

/-- The bank state a start takes: the stored one when its check is good, otherwise active bank 0 and none pending; a
cold start clears the pending bank (R134). -/
def startBank (cold : Bool) (s : State) : BankState :=
  let b := if s.bankCheckGood then s.bankStored else { active := 0, pending := none }
  if cold then { b with pending := none } else b

/-- The Port Unit and the Recipe Store at a start, after work in flight has been cut off (R134, R143, R171, R177,
R183; log entry 20). -/
def State.startStores (s : State) (cold : Bool) : State :=
  { s with
    ports := s.ports.map fun p x => startPort (!cold) (loadedSetup s.setup p) x
    recipes := mapVector startRecipe s.recipes
    bank := startBank cold s
    bankStored := startBank cold s
    bankCheckGood := true
    cyclePosition := 0 }

/-- A health table entry at a start: one whose check fails is set to tally 4, worn, with its reported flag clear
(R161). -/
def startHealth (x : Slot) : Slot :=
  if x.checkGood then x
  else { x with tally := Config.wearTally, worn := true, reported := false, waiting := false, checkGood := true }

/-- The slots whose health entry fails its check, in ascending number (R161). -/
def State.failedHealth (s : State) : List Nat :=
  (s.slots.toList.zipIdx.filter fun x => !x.1.checkGood).map (·.2)

/-- The slot health table at a warm start: the failing entries are set, WORN is raised, and the records of occupied
slots so set are relocated or begin to wait (R161). -/
def State.startAudit (s : State) : State :=
  let failed := s.failedHealth
  let t := { s with slots := mapVector startHealth s.slots }
  if failed = [] then t else failed.foldl State.relocate (t.raise .worn)

/-- The channels at a warm start: all FREE, their lots orphaned, ORPHAN raised when there was one (R51). -/
def State.startChannels (s : State) : State := s.orphanChannels (s.channelsWhere fun _ _ => true)

/-- A warm start begins: everything but its cause (R26, R51, R73, R79, R114, R143, R161, R173, R183). -/
def State.warmStart (s : State) : State :=
  { ((s.cutOff.startStores false).startChannels).startAudit with mode := .pause }

/-- A slot at a cold start: free, its tally and wear kept, nothing reported and nothing waiting (R26, R161). -/
def coldSlot (x : Slot) : Slot := { startHealth x with contents := none, reported := false, waiting := false }

/-- A cold start begins: the signature is erased, the register is emptied, the clock set to 0 (R26, R27, R48, R74,
R79, R114, R134, R143, R156, R161, R173, R177, R185). -/
def State.coldBegin (s : State) : State :=
  let failed := s.failedHealth
  let t : State := { s.cutOff.startStores true with
    slots := mapVector coldSlot s.slots
    counter := { next := 1, exhausted := false }
    account := Account.blank
    channels := Vector.replicate Config.channelCount none
    potLife := []
    cells := Vector.replicate Config.cellCount Cell.blank
    queue := []
    bench := []
    losses := []
    mode := .service
    clock := 0
    phase := .starting .cold
    signature := false }
  if failed = [] then t else t.raise .worn

/-! ### The events -/

/-- WARM RESTART: due once RESTART's answer has been sent. A start in progress begins afresh, with the same effect as
a single start (R182; log entry 16). -/
def execWarmRestart (s : State) : Host.Outcome State Fault Refusal :=
  .next (if s.warmDue then
      match s.phase with
      | .running => { s.warmStart with phase := .starting .restart, warmDue := false }
      | .starting _ => { s with warmDue := false }
      | .off => { s with warmDue := false }
    else s)

/-- COLD START: due once CLEAR REGISTER's answer has been sent (R185; log entry 16). -/
def execColdStart (s : State) : Host.Outcome State Fault Refusal :=
  .next (if s.coldDue then
      match s.phase with
      | .running => { s.coldBegin with coldDue := false }
      | .starting _ => { s.coldBegin with coldDue := false }
      | .off => { s with coldDue := false }
    else s)

/-- The cause of a start in progress when the reset line begins it afresh: a cold start stays cold (R182; log entry
16). -/
def resetCause (c : StartCause) : StartCause := if c = .cold then .cold else .resetLine

/-- RESET LINE ASSERT: the line has been held active for 20 ms, and a warm restart begins (R182). While the main supply is
off the line's level alone is kept, so that a start at its return waits for the release, by the model's choice (log entry
42). -/
def execResetLineAssert (s : State) : Host.Outcome State Fault Refusal :=
  .next (match s.phase with
    | .running => { s.warmStart with phase := .starting .resetLine, resetLine := true }
    | .starting c => { s with phase := .starting (resetCause c), resetLine := true }
    | .off => { s with resetLine := true })

/-- RESET LINE RELEASE: the line is released, and the outage rule is applied to the warm start that it held (R90,
R182); START COMPLETE applies it again, for the minutes that end in between (log entry 17). -/
def execResetLineRelease (s : State) : Host.Outcome State Fault Refusal :=
  .next (if s.resetLine then
      let t := { s with resetLine := false }
      match s.phase with
      | .starting c => if c = .cold then t else t.outageRule
      | .running => t
      | .off => t
    else s)

/-- A port at the completion of a start: its idle timer starts at 30 s (R183). -/
def startTimer (x : Port) : Port := { x with idleTimer := some 30 }

/-- START COMPLETE: the idle timers start, frames are received again and overtaken expiries are taken; a cold start
has written its signature afresh; a start by the reset line has the outage rule applied to the clock as it stands here
(R90, R182, R183, R185; log entries 17 and 18). A start does not complete while the reset line is held
(R182). -/
def execStartComplete (s : State) : Host.Outcome State Fault Refusal :=
  .next (match s.phase with
    | .starting c =>
      if s.resetLine then s
      else
        let t : State := { s with
          phase := .running
          signature := s.signature || decide (c = StartCause.cold)
          ports := s.ports.map fun _ x => startTimer x }
        (if c = StartCause.resetLine then t.outageRule else t).judgePotLife
    | .running => s
    | .off => s)

/-- MAIN SUPPLY LOSS: the part stops and work in flight is cut off (R184). -/
def execMainSupplyLoss (s : State) : Host.Outcome State Fault Refusal :=
  .next (match s.phase with
    | .off => s
    | .running | .starting _ => { s.cutOff with phase := .off, warmDue := false, coldDue := false })

/-- MAIN SUPPLY RETURN: the retention check chooses a warm power-up, with the outage rule, or a cold start (R90,
R184). The disturbances retained memory suffered are given (log entry 5). -/
def execMainSupplyReturn (upsets : List Upset) (s : State) : Host.Outcome State Fault Refusal :=
  .next (match s.phase with
    | .off =>
      let t := s.disturbAll upsets
      if retained t then ({ t.warmStart with phase := .starting .powerUp }).outageRule else t.coldBegin
    | .running => s
    | .starting _ => s)

end Sys2Proof.Machine
end

