-- ==== Sys2Proof/Machine/TestQueue.lean ====
section
/-! DEFINITION. The requests of the Test Queue Unit (05_the_test_queue_and_verdicts.md): TAKE, RETURN, VERDICT, QUEUE
STATUS. -/

namespace Sys2Proof.Machine

/-! ### TAKE (R102) -/

/-- The record of a lot taken for test (R2, R102). -/
def testingRecord (r : LotRecord) (p : PortName) : LotRecord :=
  { r with state := .testing, queueStatus := none, tester := some p }

/-- The front lot leaves the queue and joins the bench list (R102). -/
def State.takeInto (s : State) (p : PortName) (k : Nat) (r : LotRecord) : State :=
  let s1 := (s.leaveQueue r.number).writeLot k (testingRecord r p)
  { s1 with bench := s1.bench ++ [⟨r.number, p⟩] }

/-- A snapshot's limits, for the answer of TAKE. -/
def limitFields (r : LotRecord) : List Field :=
  [.u16 ((r.recipe.map fun x => x.snapshot.minStrength).getD 0),
    .u8 ((r.recipe.map fun x => x.snapshot.maxLeach).getD 0)]

/-- The answer of a TAKE that takes a lot (R102). -/
def takeFields (t : State) (r : LotRecord) : List Field :=
  summaryFields r ++ [.u8 (r.cell.getD 0), .u8 ((t.lanePosition r).getD 0), .u32 (r.maturity.getD 0),
    .u32 (r.target.getD 0), .u32 (r.cured.getD 0)] ++ limitFields r ++
    [.u8 r.retests, .u8 t.queue.length, .u8 t.bench.length]

/-- TAKE considers the front lot after its check: a lot rebuilt or lost by the check has left the queue, and the new
front lot is considered in the same way (R102). A front entry that stays after its check, because no slot stands for its
number or the lot checked is not CURED, is considered until no try is left, and EMPTY is answered, by the model's choice
(log entry 40). -/
def takeFront (p : PortName) : Nat → State → State × Reply
  | 0, s => (s, refuse .empty [])
  | fuel + 1, s =>
    match s.queue with
    | [] => (s, refuse .empty [])
    | n :: _ =>
      let c := s.checkedPlaced n
      match c.2 with
      | some (k, r) =>
        if c.1.queue.head? = some n ∧ r.state = .cured then
          let t := c.1.takeInto p k r
          (t, doneWith (takeFields t (testingRecord r p)))
        else takeFront p fuel c.1
      | none => takeFront p fuel c.1

/-- TAKE: at most every live lot is passed over (R102). -/
def takeBody (p : PortName) (s : State) : State × Reply := takeFront p (Config.slotCount + 1) s

def execTake (p : PortName) (t : Nat) (s : State) : Host.Outcome State Fault Refusal :=
  .next (s.takeRequest p t .take none (takeBody p))

/-! ### RETURN (R104) -/

/-- The lot's state, and its tester port when it has one, in a NOTHOLDER refusal (R104, R105). -/
def notHolderFields (r : LotRecord) : List Field :=
  .u8 (stateCode r.state) :: optField .u8 (r.tester.map portCode)

/-- The lot is TESTING with the requesting port as its tester (R104, R105). -/
def testedBy (r : LotRecord) (p : PortName) : Bool := decide (r.state = .testing) && decide (r.tester = some p)

/-- The record of a lot handed back (R2, R104). -/
def returnedRecord (r : LotRecord) (q : QueueStatus) : LotRecord :=
  { r with state := .cured, tester := none, queueStatus := some q }

/-- What a taken RETURN changes: the lot goes to the front of the queue, or is PARKED and its place given (R104). -/
def State.returnInto (s : State) (k : Nat) (r : LotRecord) : State :=
  let s1 := s.leaveBench r.number
  if r.holds = 0 then
    ({ s1 with queue := r.number :: s1.queue }).writeLot k (returnedRecord r .queued)
  else (s1.writeLot k (returnedRecord r .parked)).giveRoom

/-- RETURN hands an untested lot back (R104). -/
def returnBody (p : PortName) (lot : Nat) (s : State) : State × Reply :=
  s.onLot lot fun s k r =>
    if testedBy r p then
      let q := if r.holds = 0 then QueueStatus.queued else .parked
      (s.returnInto k r, doneWith ([.u24 lot, .u8 (queueStatusCode (some q))] ++
        optField .u8 (if r.holds = 0 then some 1 else none)))
    else (s, refuse .notHolder (notHolderFields r))

def execReturnLot (p : PortName) (t : Nat) (lot : Nat) (s : State) : Host.Outcome State Fault Refusal :=
  .next (s.takeRequest p t .returnLot none (returnBody p lot))

/-! ### VERDICT (R105 to R108) -/

/-- The judgement of a RESULT against the lot's snapshot: none when the lot passes, otherwise the fail cause (R106). -/
def judge (k : Snapshot) (x : TestResult) : Option FailCause :=
  if k.minStrength ≤ x.strength then
    if x.leachClass ≤ k.maxLeach then none else some .leach
  else
    if x.leachClass ≤ k.maxLeach then some .strength else some .both

/-- The record of a judged lot (R2, R106). -/
def judgedRecord (r : LotRecord) (x : TestResult) (f : Option FailCause) : LotRecord :=
  { r with
    state := if f = none then .cleared else .rejected
    tester := none
    result := some x
    failCause := if f = none then r.failCause else f }

/-- What a taken RESULT changes (R106, R108). -/
def State.judgeInto (s : State) (k : Nat) (r : LotRecord) (x : TestResult) (f : Option FailCause) : State :=
  (((s.leaveBench r.number).writeLot k (judgedRecord r x f)).raise
    (if f = none then Notice.cleared else Notice.rejected)).giveRoom

/-- The record of a lot sent back to cure further (R2, R107). -/
def retestRecord (r : LotRecord) : LotRecord :=
  { r with
    state := .curing, tester := none, frostRun := some 0, pendingTarget := none, retests := r.retests + 1
    target := r.target.map fun t =>
      min 16000000 (t + ((r.recipe.map fun x => x.snapshot.retestIncrement).getD 0)) }

/-- What a taken RETEST changes (R107, R108). -/
def State.retestInto (s : State) (k : Nat) (r : LotRecord) : State :=
  let s1 := (s.leaveBench r.number).writeLot k (retestRecord r)
  (match r.cell with
    | some c => s1.sensorHold k c
    | none => s1).giveRoom

/-- The values of a VERDICT's answer that follow the judgement (R108). -/
def verdictTail (t : State) (k : Nat) (r : LotRecord) : List Field :=
  [.u8 r.retests, .u32 (r.target.getD 0), t.holdsAt k, .u8 (r.cell.getD 0), .u8 ((t.lanePosition r).getD 0)]

/-- VERDICT of kind RESULT (R105, R106, R108). Section 11.6 gives the judgement no width: the model sends it in 1 byte
(log entry 13). A lot without a snapshot, which R105 rules out, is refused STATE (log
entry 27). -/
def resultBody (p : PortName) (lot kind strength leachClass : Nat) (s : State) : State × Reply :=
  if kind ≠ 1 ∨ leachClass = 0 ∨ 4 < leachClass ∨ 65535 < strength then (s, refuse .range [])
  else s.onLot lot fun s k r =>
    if testedBy r p then
      match r.recipe with
      | some x =>
        let f := judge x.snapshot ⟨strength, leachClass⟩
        let r' := judgedRecord r ⟨strength, leachClass⟩ f
        let t := s.judgeInto k r ⟨strength, leachClass⟩ f
        (t, doneWith ([.u24 lot, .u8 (stateCode r'.state), .u8 1, .u8 (Config.judgementCode (decide (f = none)))] ++
          optField .u8 (f.map failCauseCode) ++ verdictTail t k r'))
      | none => (s, refuse .state [])
    else (s, refuse .notHolder (notHolderFields r))

/-- VERDICT of kind RETEST (R105, R107, R108). -/
def retestBody (p : PortName) (lot kind : Nat) (s : State) : State × Reply :=
  if kind ≠ 2 then (s, refuse .range [])
  else s.onLot lot fun s k r =>
    if testedBy r p then
      if 2 ≤ r.retests then (s, refuse .limit [])
      else
        let t := s.retestInto k r
        (t, doneWith ([.u24 lot, .u8 (stateCode .curing)] ++ optField .u8 none ++ optField .u8 none ++
          verdictTail t k (retestRecord r)))
    else (s, refuse .notHolder (notHolderFields r))

def execVerdictResult (p : PortName) (t : Nat) (lot kind strength leachClass : Nat) (s : State) :
    Host.Outcome State Fault Refusal :=
  .next (s.takeRequest p t .verdict none (resultBody p lot kind strength leachClass))

def execVerdictRetest (p : PortName) (t : Nat) (lot kind : Nat) (s : State) : Host.Outcome State Fault Refusal :=
  .next (s.takeRequest p t .verdict none (retestBody p lot kind))

/-! ### QUEUE STATUS (R113) -/

/-- A queued lot with its position (R113). Where no slot stands for the number, the cell and the cured stamp are sent as 0,
by the model's choice (log entry 44). -/
def queuedFields (s : State) (x : Nat × Nat) : List Field :=
  let r := s.recordOf x.1
  [.u8 (x.2 + 1), .u24 x.1, .u8 ((r.bind (·.cell)).getD 0), .u32 ((r.bind (·.cured)).getD 0)]

/-- A lot on the bench list (R113). Where no slot stands for the number, the cell is sent as 0, by the model's choice (log
entry 44). -/
def benchFields (s : State) (b : BenchEntry) : List Field :=
  [.u24 b.lot, .u8 (((s.recordOf b.lot).bind (·.cell)).getD 0), .u8 (portCode b.tester)]

/-- The PARKED lots in ascending number (R113). R148 lists no check for them: state, queue status, number and hold set are
those of the records as they stand, by the model's choice (log entry 39). -/
def State.parkedLots (s : State) : List LotRecord :=
  sortBy (fun x y => decide (x.number < y.number)) ((s.occupied.map fun x => x.2.record.held).filter fun r =>
    decide (r.state = .cured) && decide (r.queueStatus = some .parked))

/-- The answer of QUEUE STATUS (R113). The WAITING lots, like the PARKED ones, are listed by the records as they stand, by
the model's choice (log entry 39). -/
def State.queueFields (s : State) : List Field :=
  [.u8 s.queue.length, .u8 s.bench.length, .u16 s.queueRoom] ++ listField (queuedFields s) s.queue.zipIdx ++
    listField (benchFields s) s.bench ++
    (.u16 s.waitingLots.length :: listField (fun w => [.u24 w.number, .u32 w.stamp]) (s.waitingLots.take 16)) ++
    (.u16 s.parkedLots.length :: listField (fun r => [.u24 r.number, holdsField r.holds]) (s.parkedLots.take 16))

/-- QUEUE STATUS: the queued lots and the lots on the bench are checked, then answered (R113). The lots that stand in
the queue and on the bench when the request is taken are checked, front to back and then in take order; a WAITING lot
that one of these checks admits is not, by the model's choice (log entry 34). -/
def queueStatusBody (s : State) : State × Reply :=
  let t := (s.queue ++ s.bench.map (·.lot)).foldl State.checkLot s
  (t, doneWith t.queueFields)

def execQueueStatus (p : PortName) (t : Nat) (s : State) : Host.Outcome State Fault Refusal :=
  .next (s.takeRequest p t .queueStatus none queueStatusBody)

end Sys2Proof.Machine
end

