-- ==== Sys2Proof/Machine/Arrival.lean ====
section
/-! DEFINITION. The assembly of frames from the bytes that arrive on a port, and what each complete frame carries out
(R164 to R166, R186; log entry 29). -/

namespace Sys2Proof.Machine

/-- What the command that a complete frame carries does: a request or an unknown request code is taken by its own row's
meaning, a failing check is answered FRAME, a body length above 1,024 abandons the frame (R164, R165, R186). -/
def carryOut (c : Instr) (s : State) : Host.Outcome State Fault Refusal :=
  match c with
  | .intake p t amount => execIntake p t amount s
  | .account p t => execAccount p t s
  | .lookup p t lot => execLookup p t lot s
  | .scan p t filter start => execScan p t filter start s
  | .amendTarget p t part lot target => execAmendTarget p t part lot target s
  | .amendRecipe p t part lot bank number => execAmendRecipe p t part lot bank number s
  | .amendDosed p t part lot ash cement water => execAmendDosed p t part lot ash cement water s
  | .holdLot p t lot => execHoldLot p t lot s
  | .clearHold p t lot reasons => execClearHold p t lot reasons s
  | .withdraw p t lot => execWithdraw p t lot s
  | .cellOpen p t cell => execCellOpen p t cell s
  | .cellClose p t cell => execCellClose p t cell s
  | .cellStatus p t cell => execCellStatus p t cell s
  | .queueStatus p t => execQueueStatus p t s
  | .recipeRead p t bank number => execRecipeRead p t bank number s
  | .recipeWrite p t bank number form values => execRecipeWrite p t bank number form values s
  | .bankSelect p t bank => execBankSelect p t bank s
  | .mode p t code => execMode p t code s
  | .portSetup p t port role first last => execPortSetup p t port role first last s
  | .noticeMask p t port kinds => execNoticeMask p t port kinds s
  | .notices p t => execNotices p t s
  | .slotHealth p t => execSlotHealth p t s
  | .reinstateSlot p t slot => execReinstateSlot p t slot s
  | .clock p t minute => execClock p t minute s
  | .restart p t => execRestart p t s
  | .clearRegister p t count => execClearRegister p t count s
  | .openLot p t channel recipe planned => execOpenLot p t channel recipe planned s
  | .remixOpen p t channel recipe planned parent => execRemixOpen p t channel recipe planned parent s
  | .dose p t channel ash cement water => execDose p t channel ash cement water s
  | .sealLot p t channel cell => execSealLot p t channel cell s
  | .stall p t channel => execStall p t channel s
  | .resume p t channel => execResume p t channel s
  | .rebind p t lot channel => execRebind p t lot channel s
  | .channelStatus p t channel => execChannelStatus p t channel s
  | .take p t => execTake p t s
  | .returnLot p t lot => execReturnLot p t lot s
  | .verdictResult p t lot kind strength leachClass => execVerdictResult p t lot kind strength leachClass s
  | .verdictRetest p t lot kind => execVerdictRetest p t lot kind s
  | .place p t lot cell => execPlace p t lot cell s
  | .release p t lot cell => execRelease p t lot cell s
  | .extract p t lot cell => execExtract p t lot cell s
  | .unknownRequestCode p t code length => execUnknownRequestCode p t code length s
  | .frame p _ => .next (s.answerFrame p)
  | .bodyLengthAbandon p length => execBodyLengthAbandon p length s
  | _ => .next s

/-- One byte joins the frame being assembled on a port: bytes before a start mark are passed over, and a frame that the
byte completes, or abandons by its length, leaves the port (R164, R186). -/
def State.assemble (s : State) (p : PortName) (b : Byte) : State × Option Instr :=
  let x := s.port p
  match commandOfFrame p (x.partialFrame ++ [b]) with
  | some c => (s.setPort p { x with partialFrame := [] }, some c)
  | none =>
    (s.setPort p { x with
      partialFrame := if x.partialFrame = [] ∧ b ≠ startMark then [] else x.partialFrame ++ [b] }, none)

/-- One byte arrives on a port of a part at work (R164, R183). -/
def takeByte (p : PortName) (b : Byte) (s : State) : Host.Outcome State Fault Refusal :=
  if s.phase = .running then
    match s.assemble p b with
    | (t, some c) => carryOut c t
    | (t, none) => .next t
  else .next s

/-- Bytes arrive on a port one after another, less than 5 ms apart (R164). -/
def takeBytes (p : PortName) : List Byte → State → Host.Outcome State Fault Refusal
  | [], s => .next s
  | b :: bs, s =>
    match takeByte p b s with
    | .next t => takeBytes p bs t
    | o => o

/-- FRAME: bytes arrive on a port and join the frame being assembled there. A complete frame whose check fails is
answered at once with tag 0 and FRAME and has no other effect; a good frame carries out its request; a frame not yet
complete stays on the port (R164, R186; log entry 29). -/
def execFrame (p : PortName) (bytes : List Byte) (s : State) : Host.Outcome State Fault Refusal := takeBytes p bytes s

end Sys2Proof.Machine
end

