-- ==== Sys2Proof/Machine/Dispatch.lean ====
section
/-! DEFINITION. The dispatch: one arm for each command, each one call of its meaning. -/

namespace Sys2Proof.Machine

def exec (i : Instr) (s : State) : Host.Outcome State Fault Refusal :=
  match i with
  | .intake p t amount => Sys2Proof.Machine.execIntake p t amount s
  | .account p t => Sys2Proof.Machine.execAccount p t s
  | .lookup p t lot => Sys2Proof.Machine.execLookup p t lot s
  | .scan p t filter start => Sys2Proof.Machine.execScan p t filter start s
  | .amendTarget p t part lot target => Sys2Proof.Machine.execAmendTarget p t part lot target s
  | .amendRecipe p t part lot bank number => Sys2Proof.Machine.execAmendRecipe p t part lot bank number s
  | .amendDosed p t part lot ash cement water => Sys2Proof.Machine.execAmendDosed p t part lot ash cement water s
  | .holdLot p t lot => Sys2Proof.Machine.execHoldLot p t lot s
  | .clearHold p t lot reasons => Sys2Proof.Machine.execClearHold p t lot reasons s
  | .withdraw p t lot => Sys2Proof.Machine.execWithdraw p t lot s
  | .cellOpen p t cell => Sys2Proof.Machine.execCellOpen p t cell s
  | .cellClose p t cell => Sys2Proof.Machine.execCellClose p t cell s
  | .cellStatus p t cell => Sys2Proof.Machine.execCellStatus p t cell s
  | .queueStatus p t => Sys2Proof.Machine.execQueueStatus p t s
  | .recipeRead p t bank number => Sys2Proof.Machine.execRecipeRead p t bank number s
  | .recipeWrite p t bank number form values => Sys2Proof.Machine.execRecipeWrite p t bank number form values s
  | .bankSelect p t bank => Sys2Proof.Machine.execBankSelect p t bank s
  | .mode p t code => Sys2Proof.Machine.execMode p t code s
  | .portSetup p t port role first last => Sys2Proof.Machine.execPortSetup p t port role first last s
  | .noticeMask p t port kinds => Sys2Proof.Machine.execNoticeMask p t port kinds s
  | .notices p t => Sys2Proof.Machine.execNotices p t s
  | .slotHealth p t => Sys2Proof.Machine.execSlotHealth p t s
  | .reinstateSlot p t slot => Sys2Proof.Machine.execReinstateSlot p t slot s
  | .clock p t minute => Sys2Proof.Machine.execClock p t minute s
  | .restart p t => Sys2Proof.Machine.execRestart p t s
  | .clearRegister p t count => Sys2Proof.Machine.execClearRegister p t count s
  | .openLot p t channel recipe planned => Sys2Proof.Machine.execOpenLot p t channel recipe planned s
  | .remixOpen p t channel recipe planned parent => Sys2Proof.Machine.execRemixOpen p t channel recipe planned parent s
  | .dose p t channel ash cement water => Sys2Proof.Machine.execDose p t channel ash cement water s
  | .sealLot p t channel cell => Sys2Proof.Machine.execSealLot p t channel cell s
  | .stall p t channel => Sys2Proof.Machine.execStall p t channel s
  | .resume p t channel => Sys2Proof.Machine.execResume p t channel s
  | .rebind p t lot channel => Sys2Proof.Machine.execRebind p t lot channel s
  | .channelStatus p t channel => Sys2Proof.Machine.execChannelStatus p t channel s
  | .take p t => Sys2Proof.Machine.execTake p t s
  | .returnLot p t lot => Sys2Proof.Machine.execReturnLot p t lot s
  | .verdictResult p t lot kind strength leachClass => Sys2Proof.Machine.execVerdictResult p t lot kind strength leachClass s
  | .verdictRetest p t lot kind => Sys2Proof.Machine.execVerdictRetest p t lot kind s
  | .place p t lot cell => Sys2Proof.Machine.execPlace p t lot cell s
  | .release p t lot cell => Sys2Proof.Machine.execRelease p t lot cell s
  | .extract p t lot cell => Sys2Proof.Machine.execExtract p t lot cell s
  | .frame p bytes => Sys2Proof.Machine.execFrame p bytes s
  | .portBusy p t => Sys2Proof.Machine.execPortBusy p t s
  | .unknownRequestCode p t code length => Sys2Proof.Machine.execUnknownRequestCode p t code length s
  | .frameGapTimeout p => Sys2Proof.Machine.execFrameGapTimeout p s
  | .bodyLengthAbandon p length => Sys2Proof.Machine.execBodyLengthAbandon p length s
  | .answerSent p => Sys2Proof.Machine.execAnswerSent p s
  | .clockAdvance => Sys2Proof.Machine.execClockAdvance s
  | .conversionCompletion cell reading => Sys2Proof.Machine.execConversionCompletion cell reading s
  | .conversionTimeout => Sys2Proof.Machine.execConversionTimeout s
  | .strayCompletion cell reading checkGood => Sys2Proof.Machine.execStrayCompletion cell reading checkGood s
  | .potLifeExpiry => Sys2Proof.Machine.execPotLifeExpiry s
  | .idleTimerExpiry p => Sys2Proof.Machine.execIdleTimerExpiry p s
  | .portSetupWriteEnd => Sys2Proof.Machine.execPortSetupWriteEnd s
  | .bankStateWriteEnd => Sys2Proof.Machine.execBankStateWriteEnd s
  | .auditStep upsets => Sys2Proof.Machine.execAuditStep upsets s
  | .recipeCommitCompletion => Sys2Proof.Machine.execRecipeCommitCompletion s
  | .warmRestart => Sys2Proof.Machine.execWarmRestart s
  | .coldStart => Sys2Proof.Machine.execColdStart s
  | .resetLineAssert => Sys2Proof.Machine.execResetLineAssert s
  | .resetLineRelease => Sys2Proof.Machine.execResetLineRelease s
  | .startComplete => Sys2Proof.Machine.execStartComplete s
  | .mainSupplyLoss => Sys2Proof.Machine.execMainSupplyLoss s
  | .mainSupplyReturn upsets => Sys2Proof.Machine.execMainSupplyReturn upsets s

end Sys2Proof.Machine
end

