-- ==== Sys2Proof/Machine/Step.lean ====
section
/-! DEFINITION. One step of the register: the command at the front of the queue, or idling (log entries 2 and 3). -/

namespace Sys2Proof.Machine

/-- One step: the command that arrived first is taken and carried out whole; with none waiting the register idles. -/
def step (s : State) : Host.Outcome State Fault Refusal :=
  match s.pending with
  | [] => .next s
  | c :: rest => exec c { s with pending := rest }

/-- The state with a command put at the front of the queue. -/
def State.withCommand (s : State) (c : Instr) : State := { s with pending := c :: s.pending }

/-- The state with the command that a word spells put at the front of the queue; unchanged where the word spells none
(log entry 28). -/
def State.withFetchWord (s : State) (nbits w : Nat) : State :=
  match decodeTableWord nbits w with
  | some c => s.withCommand c
  | none => s

end Sys2Proof.Machine
end

