-- ==== Sys2Proof/Safety.lean ====
section
/-! DEFINITION. The predicates that claims about the register are stated in: a port ready for a request, the ports once
a request has been answered, a lot that a check finds clean, and the invariants. -/

namespace Sys2Proof.Machine

/-! ### Ports and answers -/

/-- The part is at work, and the port is READY and has the role (R163, R166). -/
abbrev ready (s : State) (p : PortName) (r : Role) : Prop :=
  s.phase = .running ∧ (s.port p).request = .ready ∧ (s.port p).role = r

/-- A channel or cell lies in the port's window (R169). -/
abbrev windowed (s : State) (p : PortName) (v : Nat) : Prop := inWindow (s.port p) v = true

/-- A port once its request has been taken and its answer formed (R164, R166). -/
def answeredPort (x : Port) (t : Nat) (o : OutcomeCode) (body : List Field) (start : Option StartKind) : Port :=
  { x with
    present := true, idleTimer := some 30, partialFrame := [], request := .busy t, answer := some ⟨t, o, body⟩,
    startAfter := start }

/-- The ports once a request on port `p` has been answered: that port is BUSY with the answer, and no other port
changes. -/
def replied (s : State) (p : PortName) (t : Nat) (o : OutcomeCode) (body : List Field) : Ports :=
  s.ports.set p (answeredPort (s.port p) t o body none)

/-- `replied` for an answer after which a start begins (R182, R185). -/
def repliedStart (s : State) (p : PortName) (t : Nat) (body : List Field) (k : StartKind) : Ports :=
  s.ports.set p (answeredPort (s.port p) t .done body (some k))

/-- The reply of the owning block as an outcome of a step: the changed state with the port answered. -/
def repliedWith (s : State) (p : PortName) (t : Nat) (o : OutcomeCode) (body : List Field) : State :=
  { s with ports := replied s p t o body }

/-- Every port is as before but for its pending notice set (R176). -/
abbrev portsKept (s s' : State) : Prop := ∀ q, { s'.port q with notices := (s.port q).notices } = s.port q

/-- Port `p` has been answered, and every port's pending notice set may have grown; nothing else changes in the ports
(R166, R176). -/
abbrev answeredAs (s s' : State) (p : PortName) (t : Nat) (o : OutcomeCode) (body : List Field) : Prop :=
  (∀ q, q ≠ p → { s'.port q with notices := (s.port q).notices } = s.port q) ∧
    { s'.port p with notices := (s.port p).notices } = answeredPort (s.port p) t o body none

/-- What the Port Unit checks of a request: its port and tag, the roles that may make it (R168), the channel or cell
checked against the window (R169), and the plant modes in which the Port Unit lets it pass (R174). -/
structure Asked where
  port : PortName
  tag : Nat
  roles : List Role
  field : Option Nat
  modes : List PlantMode
  deriving DecidableEq, Repr

/-- Every plant mode. -/
def anyMode : List PlantMode := [.run, .pause, .service]

/-- A request of the plant role alone, taken in every mode. -/
def plantAsked (p : PortName) (t : Nat) : Option Asked := some ⟨p, t, [.plant], none, anyMode⟩

/-- A request of the mixer role naming a channel. -/
def mixerAsked (p : PortName) (t channel : Nat) (modes : List PlantMode) : Option Asked :=
  some ⟨p, t, [.mixer], some channel, modes⟩

/-- A request of the yard role naming a cell. -/
def yardAsked (p : PortName) (t cell : Nat) (modes : List PlantMode) : Option Asked :=
  some ⟨p, t, [.yard], some cell, modes⟩

/-- The tables of R168, R169 and R174, request by request; none for a command that is no request. -/
def askedOf : Instr → Option Asked
  | .intake p t _ => plantAsked p t
  | .account p t => plantAsked p t
  | .lookup p t _ => some ⟨p, t, [.plant, .mixer, .lab, .yard], none, anyMode⟩
  | .scan p t _ _ => some ⟨p, t, [.plant, .lab, .yard], none, anyMode⟩
  | .amendTarget p t _ _ _ => plantAsked p t
  | .amendRecipe p t _ _ _ _ => plantAsked p t
  | .amendDosed p t _ _ _ _ _ => plantAsked p t
  | .holdLot p t _ => plantAsked p t
  | .clearHold p t _ _ => plantAsked p t
  | .withdraw p t _ => plantAsked p t
  | .cellOpen p t _ => plantAsked p t
  | .cellClose p t _ => plantAsked p t
  | .cellStatus p t cell => some ⟨p, t, [.plant, .yard], some cell, anyMode⟩
  | .queueStatus p t => some ⟨p, t, [.plant, .lab], none, anyMode⟩
  | .recipeRead p t _ _ => some ⟨p, t, [.plant, .mixer], none, anyMode⟩
  | .recipeWrite p t _ _ _ _ => plantAsked p t
  | .bankSelect p t _ => plantAsked p t
  | .mode p t _ => plantAsked p t
  | .portSetup p t _ _ _ _ => some ⟨p, t, [.plant], none, [.service]⟩
  | .noticeMask p t _ _ => plantAsked p t
  | .notices p t => some ⟨p, t, [.plant, .mixer, .lab, .yard], none, anyMode⟩
  | .slotHealth p t => plantAsked p t
  | .reinstateSlot p t _ => plantAsked p t
  | .clock p t _ => plantAsked p t
  | .restart p t => plantAsked p t
  | .clearRegister p t _ => some ⟨p, t, [.plant], none, [.service]⟩
  | .openLot p t channel _ _ => mixerAsked p t channel [.run]
  | .remixOpen p t channel _ _ _ => mixerAsked p t channel [.run]
  | .dose p t channel _ _ _ => mixerAsked p t channel anyMode
  | .sealLot p t channel _ => mixerAsked p t channel [.run, .pause]
  | .stall p t channel => mixerAsked p t channel anyMode
  | .resume p t channel => mixerAsked p t channel anyMode
  | .rebind p t _ channel => mixerAsked p t channel anyMode
  | .channelStatus p t channel => mixerAsked p t channel anyMode
  | .take p t => some ⟨p, t, [.lab], none, [.run, .pause]⟩
  | .returnLot p t _ => some ⟨p, t, [.lab], none, anyMode⟩
  | .verdictResult p t _ _ _ _ => some ⟨p, t, [.lab], none, anyMode⟩
  | .verdictRetest p t _ _ => some ⟨p, t, [.lab], none, anyMode⟩
  | .place p t _ cell => yardAsked p t cell [.run, .pause]
  | .release p t _ cell => yardAsked p t cell [.run]
  | .extract p t _ cell => yardAsked p t cell [.run, .pause]
  | _ => none

/-! ### Lots that a check finds clean -/

/-- What a slot holds is clean: record and entry agree with their codes, and the entry stands for the record (R146). -/
abbrev cleanLot (l : Lot) : Prop :=
  l.record.code = .agrees ∧ l.entry.code = .agrees ∧ l.entry.held = entryOf l.record.held

/-- The live lot with number `n` stands in slot `k` with the record `r`, and a check of the slot finds it clean. -/
abbrev liveLot (s : State) (n k : Nat) (r : LotRecord) : Prop :=
  1 ≤ n ∧ n ≤ Config.maxLot ∧ s.slotOf n = some k ∧ ∃ l, s.lotAt k = some l ∧ cleanLot l ∧ l.record.held = r

/-- The state with the record of a slot replaced, its code fresh and its entry left (R13, R145). -/
def recordNow (s : State) (k : Nat) (r : LotRecord) : State :=
  s.setSlot k { s.slot k with contents := (s.slot k).contents.map fun l => { l with record := fresh r } }

/-- Every slot but one holds what it held. -/
abbrev slotsKept (s s' : State) (k : Nat) : Prop := ∀ j, j ≠ k → s'.slot j = s.slot j

/-- The queue count is below its limit of 64 (R96, R98). -/
abbrev queueOpen (s : State) : Prop := s.queue.length + s.bench.length < 64

/-- No entry of the pot-life list is due at the clock's minute (R49). -/
abbrev nothingDue (s : State) : Prop := ∀ e ∈ s.potLife, s.clock < e.deadline

/-- Every occupied slot is clean. -/
abbrev allClean (s : State) : Prop := ∀ k l, s.lotAt k = some l → cleanLot l

/-- No two live lots share a number (R12). -/
abbrev numbersDiffer (s : State) : Prop :=
  ∀ j k q r, s.recordAt j = some q → s.recordAt k = some r → q.number = r.number → j = k

/-! ### Pot lives and samples -/

/-- What a judgement of the pot-life list tells the ports: HOLD when a due entry's lot does not hold POTLIFE yet, and
POTLIFE when any entry is due (R5, R49). -/
def potLifeTold (s : State) : State :=
  let due := s.potLife.filter fun e => decide (e.deadline ≤ s.clock)
  let gains (e : PotEntry) : Bool := ((s.recordOf e.lot).map fun r => !hasHold r.holds .potLife).getD false
  if due = [] then s else (if due.any gains then s.raise .hold else s).raise .potLife

/-- The pot-life list of `s` has been judged at its clock: the due entries have left it, and where they name clean
MIXING lots, each of these has gained POTLIFE, the notices are raised, and no other slot changes (R49). -/
def potLifeJudged (s s' : State) : Prop :=
  s'.potLife = s.potLife.filter (fun e => s.clock < e.deadline) ∧
  ((∀ e ∈ s.potLife, e.deadline ≤ s.clock → ∃ k r, liveLot s e.lot k r ∧ r.state = .mixing) →
    s'.queue = s.queue ∧ (∀ q, (s'.port q).notices = ((potLifeTold s).port q).notices) ∧
    (∀ e ∈ s.potLife, e.deadline ≤ s.clock → ∀ k r, liveLot s e.lot k r →
      s'.slot k = (recordNow s k { r with holds := withHold r.holds .potLife }).slot k) ∧
    ∀ k, (∀ e ∈ s.potLife, e.deadline ≤ s.clock → s.slotOf e.lot ≠ some k) → s'.slot k = s.slot k)

/-- A valid reading completes a run of ten below the lot's frost limit (R84). -/
def frostCompleted (y : Int) (r : LotRecord) : Bool :=
  match r.recipe with
  | some x => decide (y < x.snapshot.frostLimit) && decide (r.frostRun.getD 0 = 9)
  | none => false

/-- A CURING lot after the first three steps of a valid reading: the pending target, the maturity and the frost run, the
last two for a lot that holds a snapshot (R82 to R84). -/
def sampledRecord (y : Int) (r : LotRecord) : LotRecord :=
  { r with
    target := if r.pendingTarget = none then r.target else r.pendingTarget
    pendingTarget := none
    maturity := match r.recipe with
      | some x => some (min 16777215 (r.maturity.getD 0 + (y - x.snapshot.datum).toNat))
      | none => r.maturity
    frostRun := match r.recipe with
      | some x => some (if y < x.snapshot.frostLimit then min 10 (r.frostRun.getD 0 + 1) else 0)
      | none => r.frostRun
    holds := if frostCompleted y r then withHold r.holds .frost else r.holds }

/-- A valid reading gives the lot FROST, which it did not hold (R84). -/
def sampleFrosts (y : Int) (r : LotRecord) : Bool := frostCompleted y r && !hasHold r.holds .frost

/-- A valid reading brings the lot to its target (R85). -/
def sampleCures (y : Int) (r : LotRecord) : Bool :=
  ((sampledRecord y r).target.map fun a => decide (a ≤ (sampledRecord y r).maturity.getD 0)).getD false

/-! ### What the audit makes of a slot -/

/-- A lot with a fault that repairs mend, what it is once mended, and how many repairs that counts: a record or an entry
wrong in one word is rewritten, an entry that is damaged or disagrees is rebuilt from the record (R149 to R151). -/
def mended (l left : Lot) (rise : Nat) : Prop :=
  (∃ q, l.record.code = .oneWord q ∧ l.entry = fresh (entryOf q) ∧ left = { l with record := fresh q } ∧ rise = 1) ∨
  (l.record.code = .agrees ∧ l.entry.code = .oneWord (entryOf l.record.held) ∧
    left = { l with entry := fresh (entryOf l.record.held) } ∧ rise = 1) ∨
  (∃ q, l.record.code = .oneWord q ∧ l.entry.code = .oneWord (entryOf q) ∧
    left = { l with record := fresh q, entry := fresh (entryOf q) } ∧ rise = 2) ∨
  (l.record.code = .agrees ∧ (l.entry.code = .beyond ∨ l.entry.code = .agrees ∧ l.entry.held ≠ entryOf l.record.held) ∧
    left = { l with entry := fresh (entryOf l.record.held) } ∧ rise = 1) ∨
  (∃ q, l.record.code = .oneWord q ∧
    (l.entry.code = .beyond ∨ l.entry.code = .agrees ∧ l.entry.held ≠ entryOf q) ∧
    left = { l with record := fresh q, entry := fresh (entryOf q) } ∧ rise = 2)

/-- The skeleton of a lot in a state, field by field as the table of R152 gives it; a field that the table gives for
some states is absent in the others, the cured stamp by the model's reading (log entry 45). -/
def skeletonFrom (s : State) (e : IndexEntry) (state : LotState) : LotRecord :=
  { number := e.number, state := state, holds := withHold 0 .audit, recipe := none
    generation := if state = .mixing ∧ e.ash = 0 then 0 else 2
    parent := none
    reservation := if state = .mixing then e.reservation else none
    carriedAsh := if state = .mixing ∧ 0 < e.ash then some e.ash else none
    dosed := none
    ashMass := if state = .mixing then none else some e.ash
    channel := if state = .mixing then s.channelOf e.number else none
    mixDeadline := none
    targetCell := if state = .sealed then s.reservedCell e.number else none
    cell := if state ∈ [LotState.curing, .cured, .testing, .cleared, .rejected] then s.laneCell e.number else none
    maturity := if state = .mixing ∨ state = .sealed then none else some 0
    target := none, pendingTarget := none
    frostRun := if state = .curing then some 0 else none
    retests := if state = .mixing ∨ state = .sealed then 0 else 2
    tester := none, result := none, failCause := none, opened := none, sealedAt := none, placed := none
    cured := if state = .cured then some s.clock else none
    queueStatus := if state = .cured then some .parked else none }

/-- A lot number is lost with the lot of a slot: the second copy of the lot's record names it, or no other occupied
slot's entry holds it (R154). -/
def lostWith (s : State) (k : Nat) (l : Lot) (n : Nat) : Bool :=
  l.numberCopy == some n || !(s.occupied.any fun x => x.1 != k && x.2.entry.held.number == n)

/-! ### Pending notice sets -/

/-- A pending set after an event that raises a kind when `raised`: the kind joins it where the mask holds the kind
(R176). -/
def heard (mask : NoticeSet) (k : Notice) (raised : Bool) (n : NoticeSet) : NoticeSet :=
  if raised && hasNotice mask k then withNotice n k else n

/-- Some health entry fails its check (R161). -/
def healthFails (s : State) : Bool := s.slots.toList.any fun x => !x.checkGood

/-- Some channel is bound (R51). -/
def anyBound (s : State) : Bool := s.channels.toList.any Option.isSome

/-- The pending set of a port with the mask after a warm start: RESTART, ORPHAN when a lot was orphaned, and WORN when a
health entry failed (R51, R161, R183). -/
def startNotices (s : State) (mask : NoticeSet) : NoticeSet :=
  heard mask .worn (healthFails s) (heard mask .orphan (anyBound s) restartOnly)

/-! ### What leaves a channel, a bench list or a start behind -/

/-- A slot whose lot has lost its channel field, its code standing as it stood (R50, R148). -/
def unbound (x : Slot) : Slot :=
  { x with contents := x.contents.map fun l =>
      { l with record := modifyStored (fun r => { r with channel := none }) l.record } }

/-- The lots that the freed channels bound lose their channel field, and no other slot changes (R50). -/
def orphansMade (s s' : State) (freed : Nat → Prop) : Prop :=
  ∀ k,
    ((∃ c b, freed c ∧ s.channel c = some b ∧ s.slotOf b.lot = some k) → s'.slot k = unbound (s.slot k)) ∧
    ((∀ c b, freed c → s.channel c = some b → s.slotOf b.lot ≠ some k) → s'.slot k = s.slot k)

/-- A lot handed back without a check: CURED, without a tester, QUEUED or PARKED as the hold set of its record stands;
its codes stand as they stood, and what a repair would give takes the same change (R110, R148). -/
def handedBack (l : Lot) : Lot :=
  let status := if l.record.held.holds = 0 then QueueStatus.queued else .parked
  { l with
    record := modifyStored (fun r => { r with state := .cured, tester := none, queueStatus := some status }) l.record
    entry := modifyStored (fun e => { e with state := .cured }) l.entry }

/-- A lab port's lots are handed back: they leave the bench list and become CURED, those without holds QUEUED at the
front in take order and the others PARKED; then each place of a PARKED one is given to the WAITING lot that is earliest.
No other slot changes (R100, R110, R111). -/
def benchReturned (s s' : State) (p : PortName) : Prop :=
  let lots := (s.bench.filter (·.tester == p)).map (·.lot)
  let back := lots.filter s.returnsToQueue
  ∃ u : State,
    u = { s with slots := u.slots, queue := back ++ s.queue, bench := s.bench.filter (·.tester != p) } ∧
    (∀ n k l, n ∈ lots → s.slotOf n = some k → s.lotAt k = some l →
      u.slot k = { s.slot k with contents := some (handedBack l) }) ∧
    (∀ k, (∀ n ∈ lots, s.slotOf n ≠ some k) → u.slot k = s.slot k) ∧
    let given := u.giveRooms (lots.length - back.length)
    s'.slots = given.slots ∧ s'.queue = given.queue ∧ s'.bench = given.bench

/-- The outage rule reaches a cell last sampled more than 5 minutes before the clock (R90). -/
abbrev outageReaches (s : State) (c : Nat) : Prop := (s.cell c).lastStamp + 5 < s.clock

/-- A CURING lot of the lane, by its record as it stands, does not hold SENSOR (R90). -/
def laneGains (s : State) (lane : List Nat) : Bool :=
  lane.any fun n => ((s.recordOf n).map fun r => decide (r.state = .curing) && !hasHold r.holds .sensor).getD false

/-- The outage rule reaches some cell (R90). -/
def outageReached (s : State) : Bool := (List.range 96).any fun c => decide (outageReaches s c)

/-- The outage rule gives a lot SENSOR that did not hold it (R90). -/
def outageGains (s : State) : Bool :=
  (List.range 96).any fun c => decide (outageReaches s c) && laneGains s (s.cell c).lane

/-- The pending set of a port with the mask after the outage rule: HOLD joins when a lot gained SENSOR, and CELLFAULT
when the rule reached a cell (R5, R90). -/
def outageNotices (s : State) (mask n : NoticeSet) : NoticeSet :=
  heard mask .cellFault (outageReached s) (heard mask .hold (outageGains s) n)

/-- The outage rule: each cell it reaches is faulty with five misses, a clean CURING lot of its lane gains SENSOR, and
where it reaches none nothing of the lots changes; HOLD and CELLFAULT are raised (R90). -/
def outageApplied (s s' : State) : Prop :=
  (∀ p, (s'.port p).notices = outageNotices s (s.port p).mask.kinds (s.port p).notices) ∧
  (∀ c, c ≤ 95 → s'.cell c = if outageReaches s c then { s.cell c with faulty := true, misses := 5 } else s.cell c) ∧
  ((∀ c, c ≤ 95 → ¬ outageReaches s c) → s'.slots = s.slots) ∧
  ∀ c n k r, c ≤ 95 → outageReaches s c → n ∈ (s.cell c).lane → liveLot s n k r → r.state = .curing →
    s'.recordAt k = some { r with holds := withHold r.holds .sensor }

/-- Every entry of the slot health table passes its check (R161). -/
abbrev healthChecks (s : State) : Prop := ∀ k, k ≤ 511 → (s.slot k).checkGood = true

/-- The slots at a warm start. While every health entry passes its check, the lots that channels bound become orphans
and nothing else changes; where one entry alone fails, its slot is worn with tally 4, and a lot in it that no channel
binds is moved into the lowest free healthy slot, or waits there (R51, R158, R161). -/
def startedSlots (s s' : State) : Prop :=
  (healthChecks s → orphansMade s s' fun _ => True) ∧
  ∀ j, j ≤ 511 → (s.slot j).checkGood = false → (∀ i, i ≤ 511 → i ≠ j → (s.slot i).checkGood = true) →
    (s.lotAt j = none → s'.slot j = ⟨none, 4, true, false, false, true⟩) ∧
    ∀ l, s.lotAt j = some l → (∀ c b, s.channel c = some b → s.slotOf b.lot ≠ some j) →
      (∀ f, s.lowestFree = some f → s'.lotAt f = some (relocated l) ∧ s'.slot j = ⟨none, 4, true, false, false, true⟩) ∧
      (s.lowestFree = none → s'.slot j = ⟨some l, 4, true, false, true, true⟩)

/-- The stores at a start: a write cut off leaves a failing check, a recipe that fails its check is INVALID, a bank
state that fails its check is bank 0 with none pending, the ports take the stored setup, or the default one when it
fails its check, and a mask is kept at a warm start while its check is good and the role is the one it was set for, and
is the role's default otherwise (R134, R143, R171, R177). What the stores hold after a failing check is the model's
reading (log entry 20). -/
def storesLoaded (s s' : State) (cold : Bool) : Prop :=
  let stored := if s.bankCheckGood then s.bankStored else ⟨0, none⟩
  let bank : BankState := ⟨stored.active, if cold then none else stored.pending⟩
  let setupGood := s.setup.checkGood && s.setup.writing.isNone
  let setup := if setupGood then s.setup.stored else SetupRecord.default
  s'.bank = bank ∧ s'.bankStored = bank ∧ s'.bankCheckGood = true ∧ s'.bankWrites = [] ∧ s'.commit = none ∧
    s'.setup = ⟨s.setup.stored, setupGood, none, none⟩ ∧
    (∀ c, s.commit = some c → c.recipe.bank ≤ 1 → c.recipe.number ≤ 7 → s'.recipe c.recipe = ⟨none, false⟩) ∧
    (∀ r, r.bank ≤ 1 → r.number ≤ 7 →
      (∀ c, s.commit = some c → c.recipe ≠ r ∧ c.recipe.bank ≤ 1 ∧ c.recipe.number ≤ 7) →
      s'.recipe r = if (s.recipe r).checkGood then s.recipe r else ⟨none, false⟩) ∧
    (∀ p, (⟨(s'.port p).role, (s'.port p).window⟩ : PortRole) = match p with
      | .a => ⟨.plant, none⟩
      | .b => setup.b
      | .c => setup.c
      | .d => setup.d) ∧
    ∀ p, (s'.port p).mask = if cold = false ∧ (s.port p).mask.checkGood = true ∧ (s.port p).mask.role = (s'.port p).role
      then (s.port p).mask else ⟨defaultMask (s'.port p).role, (s'.port p).role, true⟩

/-! ### Invariants -/

/-- A port's role and window agree with the table of R163. -/
def roleSound (r : PortRole) : Prop :=
  match r.role, r.window with
  | .plant, none => True
  | .lab, none => True
  | .mixer, some w => w.first ≤ w.last ∧ w.last ≤ 3
  | .yard, some w => w.first ≤ w.last ∧ w.last ≤ 95
  | _, _ => False

/-- The roles and windows of a setup record are sound (R163, R170). -/
def setupSound (x : SetupRecord) : Prop := roleSound x.b ∧ roleSound x.c ∧ roleSound x.d

/-- A port's own rule: its role and window agree, and its mask holds RESTART (R163, R177). -/
def portSound (x : Port) : Prop := roleSound ⟨x.role, x.window⟩ ∧ hasNotice x.mask.kinds .restart = true

/-- Port A is plant, every port is sound, and so is every setup record the store holds or writes (R163, R171, R177). -/
def portsSound (s : State) : Prop :=
  (s.port .a).role = .plant ∧ (∀ p, portSound (s.port p)) ∧ setupSound s.setup.stored ∧
    (∀ x, s.setup.writing = some x → setupSound x) ∧ ∀ x, s.setup.next = some x → setupSound x

/-- Banks are 0 or 1, and a pending bank is not the active one (R134). -/
def bankSound (b : BankState) : Prop := b.active ≤ 1 ∧ ∀ x, b.pending = some x → x ≤ 1 ∧ x ≠ b.active

/-- The bank state in force, stored and being written is sound (R134). -/
def banksSound (s : State) : Prop := bankSound s.bank ∧ bankSound s.bankStored ∧ ∀ b ∈ s.bankWrites, bankSound b

/-- A tally is at most 15, and a slot whose tally has reached 4 is worn (R150, R157). -/
def wearSound (x : Slot) : Prop := x.tally ≤ Config.maxTally ∧ (Config.wearTally ≤ x.tally → x.worn = true)

/-- Every slot's entry in the health table is sound. -/
def healthSound (s : State) : Prop := ∀ x ∈ s.slots.toList, wearSound x

/-- The clock stands in its range, and the counter in its own (R11, R181). -/
def countersSound (s : State) : Prop :=
  s.clock ≤ Config.maxClock ∧ 1 ≤ s.counter.next ∧ s.counter.next ≤ Config.maxLot

/-- The pot-life list is in ascending deadline, and ascending lot number among equal deadlines (R48). -/
def potOrdered (l : List PotEntry) : Prop := l.Pairwise fun x y => potBefore y x = false

/-- A record agrees with the collections: a lane that holds its number is that of its cell, and it is in a state that
stands in a lane (R57); a reservation set holds its number exactly when it is SEALED for that cell (R58); in the queue
it is CURED and QUEUED, and it is on the bench list exactly when it is TESTING (R96, R97); a channel bound to it is the
one its record names, and it is MIXING (R27). -/
def lotPlaced (s : State) (r : LotRecord) : Prop :=
  (∀ c, r.number ∈ (s.cell c).lane → standsInLane r.state = true ∧ r.cell = some c) ∧
  (∀ c, r.number ∈ (s.cell c).reservations ↔ r.state = .sealed ∧ r.targetCell = some c) ∧
  (r.number ∈ s.queue → r.state = .cured ∧ r.queueStatus = some .queued) ∧
  (r.number ∈ s.bench.map (·.lot) ↔ r.state = .testing) ∧
  ∀ c b, s.channel c = some b → b.lot = r.number → r.state = .mixing ∧ r.channel = some c

/-- A lane, a reservation set, the queue, the bench list or a channel names the number (R154). -/
def named (s : State) (n : Nat) : Prop :=
  (∃ c, n ∈ (s.cell c).lane ∨ n ∈ (s.cell c).reservations) ∨ n ∈ s.queue ∨ n ∈ s.bench.map (·.lot) ∨
    ∃ c b, s.channel c = some b ∧ b.lot = n

/-- The collections are sound: every lot is clean, of a number of its own that the counter has given (R11, R12), and
agrees with the collections; each number they name is that of a live lot, and stands once in its lane, reservation set,
queue or bench list; a cell holds at most six lots and reservations (R59), and the queue count is at most 64 (R96). -/
def collectionsSound (s : State) : Prop :=
  allClean s ∧ numbersDiffer s ∧
  (∀ k r, s.recordAt k = some r → (r.number < s.counter.next ∨ s.counter.exhausted = true) ∧ lotPlaced s r) ∧
  (∀ n, named s n → ∃ k r, s.recordAt k = some r ∧ r.number = n) ∧
  (∀ c, (s.cell c).lane.Nodup ∧ (s.cell c).reservations.Nodup ∧
    (s.cell c).lane.length + (s.cell c).reservations.length ≤ 6) ∧
  s.queue.Nodup ∧ (s.bench.map (·.lot)).Nodup ∧ s.queue.length + s.bench.length ≤ 64

/-- The ash of the live lots: the carried ash of the MIXING ones and the ash mass of the others (R22). -/
def liveAsh (s : State) : Int :=
  (s.occupied.map fun x => let r := x.2.record.held
    ((if r.state = .mixing then r.carriedAsh.getD 0 else r.ashMass.getD 0 : Nat) : Int)).sum

/-- The reservations of the MIXING lots (R22). -/
def reservedAsh (s : State) : Int :=
  (s.occupied.map fun x => let r := x.2.record.held
    ((if r.state = .mixing then r.reservation.getD 0 else 0 : Nat) : Int)).sum

/-- The account agrees with the live lots: the second equality of R22. -/
def ashAgrees (s : State) : Prop := s.account.live = liveAsh s ∧ s.account.reserved = reservedAsh s

/-- A command lists no memory fault (log entry 5). -/
def listsNoFault : Instr → Prop
  | .auditStep faults => faults = []
  | .mainSupplyReturn faults => faults = []
  | _ => True

/-- A counter has not moved back: it holds a greater number, or the same one and is exhausted if it was (R11). -/
def counterHolds (c d : Counter) : Prop := c.next < d.next ∨ (c.next = d.next ∧ (c.exhausted = true → d.exhausted = true))

/-- The register is as a cold start leaves it: no lot lives, and the counter holds 1 (R26). -/
def registerEmpty (s : State) : Prop := s.occupied = [] ∧ s.counter = { next := 1, exhausted := false }

end Sys2Proof.Machine
end

