-- ==== Sys2Proof/Certificates/Slice0/Obligations.lean ====
section
/-! DEFINITION. The statements for the provers, taken from the numbered rules of spec/: what each command does to the
register, and the invariants that every step keeps. -/

open Sys2Proof Sys2Proof.Machine

/-! ### The queue, the ports and the frames -/

/-- A step takes the command at the front of the queue and carries it out on the state with the rest of the queue. The
queue is the model's (log entries 2 and 28). -/
def Obligations.StepTakesFrontCommand : Prop :=
  ∀ (s : State) (c : Instr) (rest : List Instr), s.pending = c :: rest → step s = exec c { s with pending := rest }

/-- A request on a READY port is refused ROLE, then WINDOW, then MODE, with the values R167 names and no other change
(R167 to R169, R174). The presence byte of the window in a ROLE or WINDOW answer is the model's reading (log entry
13). -/
def Obligations.RequestsAreGatedInOrder : Prop :=
  ∀ (c : Instr) (a : Asked) (s : State), askedOf c = some a → s.phase = .running →
    (s.port a.port).request = .ready →
    ((s.port a.port).role ∉ a.roles →
      exec c s = .next (repliedWith s a.port a.tag .role (roleFields (s.port a.port)))) ∧
    ((s.port a.port).role ∈ a.roles → (∃ v, a.field = some v ∧ inWindow (s.port a.port) v = false) →
      exec c s = .next (repliedWith s a.port a.tag .window (roleFields (s.port a.port)))) ∧
    ((s.port a.port).role ∈ a.roles → (∀ v, a.field = some v → inWindow (s.port a.port) v = true) →
      s.mode ∉ a.modes → exec c s = .next (repliedWith s a.port a.tag .mode [.u8 (modeCode s.mode)]))

/-- Good frames that no block is given. On a BUSY port a good frame restarts the timer, makes the port PRESENT and is
answered PORTBUSY with its own tag, the request in progress and everything else standing; while a start is in progress
or the main supply is off no frame is received, and a request or a frame changes nothing; on a READY port a frame with
an unknown code or a body length its request does not allow is answered RANGE with its tag (R164 to R166, R182 to R184).
That immediate answers stand apart from the answer in progress is the model's choice (log entry 26); that a command
outside work is passed over is its reading (log entry 4). -/
def Obligations.FramesThatNoBlockIsGiven : Prop :=
  (∀ (c : Instr) (p : PortName) (t u : Nat) (s : State), s.phase = .running → (s.port p).request = .busy u →
    ((∃ a, askedOf c = some a ∧ a.port = p ∧ a.tag = t) ∨ c = .portBusy p t ∨
      ∃ code n, knownRequest code n = false ∧ c = .unknownRequestCode p t code n) →
    exec c s = .next { s with ports := s.ports.set p { s.port p with
      present := true, idleTimer := some 30, partialFrame := []
      immediate := (s.port p).immediate ++ [⟨t, .portBusy, []⟩] } }) ∧
  (∀ (c : Instr) (s : State), s.phase ≠ .running →
    ((∃ a, askedOf c = some a) ∨ (∃ p bytes, c = .frame p bytes) ∨ (∃ p t, c = .portBusy p t) ∨
      (∃ p t code n, c = .unknownRequestCode p t code n) ∨ (∃ p, c = .frameGapTimeout p) ∨
      ∃ p n, c = .bodyLengthAbandon p n) →
    exec c s = .next s) ∧
  ∀ (p : PortName) (t code n : Nat) (s : State), s.phase = .running → (s.port p).request = .ready →
    knownRequest code n = false → exec (.unknownRequestCode p t code n) s = .next (repliedWith s p t .range [])

/-- Bytes that arrive are assembled into a frame: a byte before a start mark is passed over, a start mark begins a
frame, a frame whose body length is above 1,024 is abandoned with no answer, a complete frame whose check fails is
answered at once with tag 0 and FRAME and does nothing else, and a good frame carries out its request. A gap, and the
row of an abandoned length, clear the partial frame with no answer; none of these restarts the timer but the good frame
(R164, R165, R186). That bytes reach the register as the operand of FRAME, and that immediate answers stand apart, are
the model's choices (log entries 29 and 26). -/
def Obligations.FramesAreAssembledAndChecked : Prop :=
  ∀ (p : PortName) (s : State), s.phase = .running →
    ((s.port p).partialFrame = [] →
      (∀ b, b ≠ startMark → exec (.frame p [b]) s = .next s) ∧
      exec (.frame p [startMark]) s =
        .next { s with ports := s.ports.set p { s.port p with partialFrame := [startMark] } } ∧
      (∀ t code h l, 1024 < numberOf [h, l] → exec (.frame p [startMark, t, code, h, l]) s = .next s) ∧
      ∀ t code h l rest, numberOf [h, l] ≤ 1024 → rest.length = numberOf [h, l] + 2 →
        let bytes := startMark :: t :: code :: h :: l :: rest
        (frameGood bytes = false → exec (.frame p bytes) s = .next { s with ports := s.ports.set p { s.port p with
          immediate := (s.port p).immediate ++ [⟨0, .frame, []⟩] } }) ∧
        (frameGood bytes = true →
          exec (.frame p bytes) s = exec (requestOf p t.toNat code.toNat (rest.take (numberOf [h, l]))) s)) ∧
    exec (.frameGapTimeout p) s = .next { s with ports := s.ports.set p { s.port p with partialFrame := [] } } ∧
    ∀ n, 1024 < n →
      exec (.bodyLengthAbandon p n) s = .next { s with ports := s.ports.set p { s.port p with partialFrame := [] } }

/-- Once its answer has been sent the port is READY, and the start that the answered request asked for is due (R166,
R182, R185). That the end of the answer marks the start due, and a later row begins it, is the model's reading (log
entry 16); that it clears the immediate answers too is its choice (log entry 26). -/
def Obligations.AnswerSentMakesPortReady : Prop :=
  ∀ (p : PortName) (s : State), s.phase = .running →
    exec (.answerSent p) s = .next { s with
      ports := s.ports.set p { s.port p with request := .ready, answer := none, startAfter := none, immediate := [] }
      warmDue := s.warmDue || decide ((s.port p).startAfter = some .warm)
      coldDue := s.coldDue || decide ((s.port p).startAfter = some .cold) }

/-! ### The lot register -/

/-- INTAKE books a positive amount, and debits a negative one from the balance as far as it reaches; an amount outside
its range, or one that would pass the account's margin, is refused RANGE (R23). That the mark of the totals stands is
the model's choice (log entry 37). -/
def Obligations.IntakeBooksAndDebitsAsh : Prop :=
  ∀ (p : PortName) (t : Nat) (amount : Int) (s : State), ready s p .plant →
    (amount = 0 ∨ 200000 < amount ∨ amount < -200000 →
      exec (.intake p t amount) s = .next (repliedWith s p t .range [])) ∧
    (0 < amount → amount ≤ 200000 →
      1000000000000 - 10000000 < s.account.intake + s.account.unbooked + amount →
      exec (.intake p t amount) s = .next (repliedWith s p t .range [])) ∧
    (0 < amount → amount ≤ 200000 →
      s.account.intake + s.account.unbooked + amount ≤ 1000000000000 - 10000000 →
      exec (.intake p t amount) s = .next { s with
        account := { s.account with
          intake := s.account.intake + amount, balance := s.account.balance + amount }
        ports := replied s p t .done [.u32 amount.toNat] }) ∧
    (amount < 0 → -200000 ≤ amount →
      exec (.intake p t amount) s = .next { s with
        account := { s.account with
          intake := s.account.intake - min (-amount) s.account.balance
          balance := s.account.balance - min (-amount) s.account.balance }
        ports := replied s p t .done [.u32 (min (-amount) s.account.balance).toNat] })

/-- ACCOUNT answers the totals, the number of live lots, of free healthy slots and of waiting slots, the counter and
the clock, and changes nothing (R24). -/
def Obligations.AccountReportsTheRegister : Prop :=
  ∀ (p : PortName) (t : Nat) (s : State), ready s p .plant →
    exec (.account p t) s = .next (repliedWith s p t .done
      [.u48 s.account.intake.toNat, .u48 s.account.balance.toNat, .u48 s.account.reserved.toNat,
        .u48 s.account.live.toNat, .u48 s.account.released.toNat, .u48 s.account.discard.toNat,
        .u48 s.account.unbooked.toNat, .u48 s.account.lost.toNat,
        .u16 (s.slots.toList.filter fun x => x.contents.isSome).length,
        .u16 (s.slots.toList.filter fun x => x.contents.isNone && !x.worn).length,
        .u16 (s.slots.toList.filter fun x => x.contents.isSome && x.waiting).length,
        .u24 s.counter.next, .u8 (if s.counter.exhausted then 1 else 0), .u32 s.clock])

/-- LOOKUP of a clean live lot answers its full record with its slot, its lane position and its queue position, and
changes nothing; a number out of range answers RANGE, a number with no live lot UNKNOWN. A lot with a fault that repairs
mend is checked first as an audit step checks it, and the mended record is answered: each repair raises the tally by
one, CORRECTED is raised and the reported flag set when it was clear, and where the tally reaches 4 the slot becomes
worn, WORN is raised, and the lot is moved into the lowest free healthy slot, from which it is answered, or waits; the
cycle position stands (R4, R14, R148 to R151, R157, R158). Presence bytes, the fault marks and the lot found while its
entry is damaged are the model's reading (log entries 13, 5 and 8), as are the one relocation at the end of the check
and the comparison of repaired contents (log entries 9 and 35), and that a repair or a relocation leaves the second copy
of the number (log entry 7) and the health entry's own check (log entry 38) as they stood. A record that the check
rebuilds or loses is left out here. -/
def Obligations.LookupAnswersTheRecord : Prop :=
  ∀ (p : PortName) (t n : Nat) (s : State), s.phase = .running → (s.port p).request = .ready →
    (n = 0 ∨ Config.maxLot < n → exec (.lookup p t n) s = .next (repliedWith s p t .range [])) ∧
    (1 ≤ n → n ≤ Config.maxLot → s.slotOf n = none →
      exec (.lookup p t n) s = .next (repliedWith s p t .unknown [])) ∧
    (∀ k r, liveLot s n k r → exec (.lookup p t n) s = .next (repliedWith s p t .done (recordFields r k
      (r.cell.bind fun c => positionIn n (s.cell c).lane)
      (if r.queueStatus = some .queued then positionIn n s.queue else none)))) ∧
    ∀ k l left rise, 1 ≤ n → n ≤ Config.maxLot → s.slotOf n = some k → (∀ j, holdsNumber n (s.slot j) = true → j = k) →
      s.lotAt k = some l → mended l left rise →
      let x := s.slot k
      let y := { x with contents := some left, tally := min 15 (x.tally + rise), reported := true }
      let told := if x.reported then s else s.raise .corrected
      let r := left.record.held
      let answered (u : State) (j : Nat) (slots : Vector Slot 512) : State := { s with
        slots := slots
        ports := replied u p t .done (recordFields r j (r.cell.bind fun c => positionIn n (s.cell c).lane)
          (if r.queueStatus = some .queued then positionIn n s.queue else none)) }
      (x.worn = true ∨ x.tally + rise < 4 →
        exec (.lookup p t n) s = .next (answered told k (s.slots.setIfInBounds k y))) ∧
      (x.worn = false → 4 ≤ x.tally + rise →
        (∀ f, s.lowestFree = some f → exec (.lookup p t n) s = .next (answered (told.raise .worn) f
          ((s.slots.setIfInBounds f { s.slot f with contents := some left }).setIfInBounds k
            { y with worn := true, contents := none, waiting := false }))) ∧
        (s.lowestFree = none → exec (.lookup p t n) s = .next (answered (told.raise .worn) k
          (s.slots.setIfInBounds k { y with worn := true, waiting := true }))))

/-- SCAN: an empty filter or a starting number out of range is refused RANGE. Over clean lots of different numbers it
answers DONE with the number of summaries, the summaries of the first sixteen lots of the filter from the starting
number on in ascending number, and the number of the seventeenth, 0 when there is none; and it changes nothing (R15).
The list of those lots is unique, being in strictly ascending number. That the seventeenth is checked too is the model's
reading (log entry 12). -/
def Obligations.ScanWalksTheIndex : Prop :=
  ∀ (p : PortName) (t filter start : Nat) (s : State), s.phase = .running → (s.port p).request = .ready →
    (s.port p).role ≠ .mixer →
    (filter = 0 ∨ 255 < filter ∨ start = 0 ∨ Config.maxLot < start →
      exec (.scan p t filter start) s = .next (repliedWith s p t .range [])) ∧
    (allClean s → numbersDiffer s → 1 ≤ filter → filter ≤ 255 → 1 ≤ start → start ≤ Config.maxLot →
      ∃ lots : List LotRecord, lots.Pairwise (fun x y => x.number < y.number) ∧
        (∀ r, r ∈ lots ↔ (∃ k, s.recordAt k = some r) ∧ start ≤ r.number ∧ filter.testBit (stateCode r.state - 1) = true) ∧
        exec (.scan p t filter start) s = .next (repliedWith s p t .done
          (.u8 (lots.take 16).length :: ((lots.take 16).flatMap summaryFields ++
            [.u24 (((lots.drop 16).head?.map (·.number)).getD 0)]))))

/-- AMEND TARGET: loaded directly, held as pending target for a CURING lot, or refused STATE, as the lot stands; a part
code that does not match the body, or a value out of range, is refused RANGE first (R17, R18; section 11.6). -/
def Obligations.AmendTargetByState : Prop :=
  ∀ (p : PortName) (t n m : Nat) (s : State), ready s p .plant →
    (∀ part, part ≠ 1 → exec (.amendTarget p t part n m) s = .next (repliedWith s p t .range [])) ∧
    (m < 1000 ∨ 16000000 < m → exec (.amendTarget p t 1 n m) s = .next (repliedWith s p t .range [])) ∧
    ∀ k r, 1000 ≤ m → m ≤ 16000000 → liveLot s n k r →
      let loaded := { r with target := some m }
      let held := { r with pendingTarget := some m }
      let answer (q : LotRecord) := recordFields q k (s.lanePosition q) (s.queuePosition q)
      (r.target = none ∨ r.state = .mixing ∨ r.state = .sealed ∨ r.state = .cured ∨ r.state = .extracted →
        exec (.amendTarget p t 1 n m) s =
          .next { recordNow s k loaded with ports := replied s p t .done (answer loaded) }) ∧
      (r.target ≠ none → r.state = .curing → exec (.amendTarget p t 1 n m) s =
        .next { recordNow s k held with ports := replied s p t .done (answer held) }) ∧
      (r.target ≠ none → r.state = .testing ∨ r.state = .cleared ∨ r.state = .rejected →
        exec (.amendTarget p t 1 n m) s = .next (repliedWith s p t .state []))

/-- AMEND RECIPE copies a VALID recipe that is not under commit into a lot that lacks its snapshot, and changes neither
its target nor the bank state; RANGE, for a part code that does not match the body or a bank or number out of range,
STATE, NORECIPE and BUSY are given in their order (R17, R19; section 11.6). -/
def Obligations.AmendRecipeRestoresSnapshot : Prop :=
  ∀ (p : PortName) (t n bank number : Nat) (s : State), ready s p .plant →
    (∀ part, part ≠ 2 → exec (.amendRecipe p t part n bank number) s = .next (repliedWith s p t .range [])) ∧
    (1 < bank ∨ 7 < number → exec (.amendRecipe p t 2 n bank number) s = .next (repliedWith s p t .range [])) ∧
    ∀ k r, bank ≤ 1 → number ≤ 7 → liveLot s n k r →
      (r.recipe ≠ none → exec (.amendRecipe p t 2 n bank number) s = .next (repliedWith s p t .state [])) ∧
      (r.recipe = none → (s.recipe ⟨bank, number⟩).values = none →
        exec (.amendRecipe p t 2 n bank number) s = .next (repliedWith s p t .noRecipe [])) ∧
      ∀ v, r.recipe = none → (s.recipe ⟨bank, number⟩).values = some v →
        (s.committing ⟨bank, number⟩ = true →
          exec (.amendRecipe p t 2 n bank number) s = .next (repliedWith s p t .busy [])) ∧
        (s.committing ⟨bank, number⟩ = false →
          let restored := { r with recipe := some ⟨⟨bank, number⟩, snapshotOf v⟩ }
          exec (.amendRecipe p t 2 n bank number) s = .next { recordNow s k restored with
            ports := replied s p t .done (recordFields restored k (s.lanePosition r) (s.queuePosition r)) })

/-- AMEND DOSED replaces the three dosed figures of a MIXING lot, whether present or absent, and moves neither the
account nor the channel's dose count; a part code that does not match the body, or a figure out of range, is refused
RANGE, another state STATE (R17, R20; section 11.6). -/
def Obligations.AmendDosedReplacesFigures : Prop :=
  ∀ (p : PortName) (t n a c w : Nat) (s : State), ready s p .plant →
    (∀ part, part ≠ 3 → exec (.amendDosed p t part n a c w) s = .next (repliedWith s p t .range [])) ∧
    (120000 < a ∨ 120000 < c ∨ 120000 < w →
      exec (.amendDosed p t 3 n a c w) s = .next (repliedWith s p t .range [])) ∧
    ∀ k r, a ≤ 120000 → c ≤ 120000 → w ≤ 120000 → liveLot s n k r →
      (r.state ≠ .mixing → exec (.amendDosed p t 3 n a c w) s = .next (repliedWith s p t .state [])) ∧
      (r.state = .mixing →
        let amended := { r with dosed := some ⟨a, c, w⟩ }
        exec (.amendDosed p t 3 n a c w) s = .next { recordNow s k amended with
          ports := replied s p t .done (recordFields amended k (s.lanePosition r) (s.queuePosition r)) })

/-- HOLD LOT adds MANUAL and raises HOLD when it was not held, and answers the hold set; a lot that holds MANUAL already
is left as it was; a QUEUED lot leaves the queue PARKED and its place is given, a WAITING lot becomes PARKED, and
nothing else changes (R5, R6, R101). -/
def Obligations.HoldLotAddsManual : Prop :=
  ∀ (p : PortName) (t n k : Nat) (r : LotRecord) (s : State), ready s p .plant → liveLot s n k r →
    (hasHold r.holds .manual = true →
      exec (.holdLot p t n) s = .next (repliedWith s p t .done [.u24 n, .u8 r.holds.toNat])) ∧
    (hasHold r.holds .manual = false →
      let held := { r with holds := withHold r.holds .manual }
      let parked := { r with holds := withHold r.holds .manual, queueStatus := some .parked }
      let answered := replied (s.raise .hold) p t .done [.u24 n, .u8 held.holds.toNat]
      (r.state ≠ .cured ∨ r.queueStatus ≠ some .queued ∧ r.queueStatus ≠ some .waiting →
        exec (.holdLot p t n) s = .next { recordNow s k held with ports := answered }) ∧
      (r.state = .cured → r.queueStatus = some .queued → exec (.holdLot p t n) s = .next
        { State.giveRoom { recordNow s k parked with queue := s.queue.filter (· != n) } with ports := answered }) ∧
      (r.state = .cured → r.queueStatus = some .waiting →
        exec (.holdLot p t n) s = .next { recordNow s k parked with ports := answered }))

/-- CLEAR HOLD: an empty list or a value that is no hold is refused RANGE; AUDIT of an incomplete record is refused
INCOMPLETE with nothing removed; otherwise the listed reasons leave the set, FROST leaving a CURING lot sets its frost
run to 0, and a CURED lot whose set becomes empty is QUEUED at the back while there is room, WAITING otherwise (R7, R8,
R98, R99). -/
def Obligations.ClearHoldRemovesListedReasons : Prop :=
  ∀ (p : PortName) (t n reasons : Nat) (s : State), ready s p .plant →
    (reasons = 0 ∨ 127 < reasons → exec (.clearHold p t n reasons) s = .next (repliedWith s p t .range [])) ∧
    ∀ k r, 1 ≤ reasons → reasons ≤ 127 → liveLot s n k r →
      let list : HoldSet := BitVec.ofNat 7 reasons
      (hasHold list .audit = true → hasHold r.holds .audit = true → complete r = false →
        exec (.clearHold p t n reasons) s = .next (repliedWith s p t .incomplete [])) ∧
      (¬ (hasHold list .audit = true ∧ hasHold r.holds .audit = true ∧ complete r = false) →
        (¬ (r.state = .cured ∧ r.holds ≠ 0 ∧ r.holds &&& ~~~list = 0) →
          let cleared := { r with
            holds := r.holds &&& ~~~list
            frostRun :=
              if hasHold list .frost ∧ hasHold r.holds .frost ∧ r.state = .curing then some 0 else r.frostRun }
          exec (.clearHold p t n reasons) s = .next { recordNow s k cleared with
            ports := replied s p t .done [.u8 cleared.holds.toNat] }) ∧
        (r.state = .cured → r.holds ≠ 0 → r.holds &&& ~~~list = 0 → r.queueStatus = some .parked →
          (s.queue.length + s.bench.length < 64 → exec (.clearHold p t n reasons) s =
            .next { recordNow s k { r with holds := 0, queueStatus := some .queued } with
              queue := s.queue ++ [n], ports := replied s p t .done [.u8 0] }) ∧
          (64 ≤ s.queue.length + s.bench.length → exec (.clearHold p t n reasons) s =
            .next { recordNow s k { r with holds := 0, queueStatus := some .waiting } with
              ports := replied s p t .done [.u8 0] })))

/-! ### Intake and mixing -/

/-- A first-mix OPEN that passes its checks: a pending bank becomes the active one first; then the lot stands in the
lowest free healthy slot with the counter's number, the planned ash moved from the balance to the reserved total, the
channel bound, the pot-life entry made, and the answer given. With no pot life due nothing else changes; otherwise the
entries that are due, the new lot's among them, leave the list, and each of their clean MIXING lots gains POTLIFE, HOLD
being raised when one did not hold it and POTLIFE always (R10, R11, R30 to R32, R34 to R36, R48, R49). The presence byte
of the carried ash, the write's place in the queue of writes and the mark of the totals are the model's (log entries 13,
19 and 37). -/
def Obligations.OpenCreatesMixingLot : Prop :=
  ∀ (p : PortName) (t c n P k : Nat) (v : RecipeValues) (s : State), ready s p .mixer → windowed s p c →
    s.mode = .run → c ≤ 3 → n ≤ 7 → 100 ≤ P → P ≤ 60000 → s.channel c = none →
    (s.recipe ⟨s.bank.pending.getD s.bank.active, n⟩).values = some v →
    s.committing ⟨s.bank.pending.getD s.bank.active, n⟩ = false → P ≤ s.account.balance →
    s.lowestFree = some k → s.counter.exhausted = false →
    let bank := s.bank.pending.getD s.bank.active
    let deadline := min 4294967295 (s.clock + v.potLife)
    let record : LotRecord :=
      { number := s.counter.next, state := .mixing, holds := 0
        recipe := some ⟨⟨bank, n⟩, snapshotOf v⟩, generation := 0, parent := none, reservation := some P
        carriedAsh := none, dosed := some ⟨0, 0, 0⟩, ashMass := none, channel := some c, mixDeadline := some deadline
        targetCell := none, cell := none, maturity := none, target := some v.maturityTarget, pendingTarget := none
        frostRun := none, retests := 0, tester := none, result := none, failCause := none, opened := some s.clock
        sealedAt := none, placed := none, cured := none, queueStatus := none }
    let body : List Machine.Field :=
      [.u24 s.counter.next, .u8 bank, .u8 n, .u16 v.cementRatio,
        .u16 (v.cementRatio * (1000 - v.doseTolerance) / 1000),
        .u16 (v.cementRatio * (1000 + v.doseTolerance) / 1000), .u32 deadline, .u8 0, .u32 0]
    let opened : State := { s with
      slots := s.slots.setIfInBounds k { s.slot k with contents := some (freshLot record) }
      counter := if s.counter.next = 16777215 then { s.counter with exhausted := true }
        else { s.counter with next := s.counter.next + 1 }
      account := { s.account with balance := s.account.balance - P, reserved := s.account.reserved + P }
      channels := s.channels.setIfInBounds c (some ⟨false, p, s.counter.next, 0⟩)
      bank := ⟨bank, none⟩
      bankWrites := if s.bank.pending = none then s.bankWrites else s.bankWrites ++ [⟨bank, none⟩]
      potLife := insertBy potBefore ⟨s.counter.next, deadline⟩ s.potLife }
    (nothingDue s → s.clock < deadline →
      exec (.openLot p t c n P) s = .next { opened with ports := replied s p t .done body }) ∧
    ∃ s', exec (.openLot p t c n P) s = .next s' ∧ answeredAs s s' p t .done body ∧
      (potOrdered s.potLife → potLifeJudged opened s') ∧
      s' = { opened with slots := s'.slots, queue := s'.queue, potLife := s'.potLife, ports := s'.ports }

/-- The refusals of an OPEN past the Port Unit, in the order of R31, each with the values its rule names. A first mix
that reaches step 7 makes a pending bank active and clears it, though it is then refused NORECIPE, BUSY, SHORT, NOSLOT
or NUMBERS, and changes nothing else; a remix refused at its parent, UNKNOWN, STATE, HELD, LIMIT or RANGE, or after it,
NORECIPE, BUSY, SHORT, NOSLOT or NUMBERS by the parent's bank, changes nothing and leaves the pending bank pending (R30
to R33, R136). The holder's presence byte and the write's place in the queue of writes are the model's (log entries 13
and 19), and so is NORECIPE for a parent without a recipe (log entry 27). -/
def Obligations.OpenIsRefusedInOrder : Prop :=
  ∀ (p : PortName) (t c n P : Nat) (s : State), ready s p .mixer → windowed s p c → s.mode = .run →
    let bank := s.bank.pending.getD s.bank.active
    let refused (o : OutcomeCode) : State := { s with
      bank := ⟨bank, none⟩
      bankWrites := if s.bank.pending = none then s.bankWrites else s.bankWrites ++ [⟨bank, none⟩]
      ports := replied s p t o [] }
    (3 < c ∨ 7 < n ∨ P < 100 ∨ 60000 < P → exec (.openLot p t c n P) s = .next (repliedWith s p t .range [])) ∧
    (c ≤ 3 → n ≤ 7 → 100 ≤ P → P ≤ 60000 →
      (∀ b, s.channel c = some b → exec (.openLot p t c n P) s = .next (repliedWith s p t .channel
        [.u8 (if b.stalled then 2 else 1), .u8 1, .u8 (portCode b.holder)])) ∧
      (s.channel c = none →
        ((s.recipe ⟨bank, n⟩).values = none → exec (.openLot p t c n P) s = .next (refused .noRecipe)) ∧
        ∀ v, (s.recipe ⟨bank, n⟩).values = some v →
          (s.committing ⟨bank, n⟩ = true → exec (.openLot p t c n P) s = .next (refused .busy)) ∧
          (s.committing ⟨bank, n⟩ = false →
            (s.account.balance < P → exec (.openLot p t c n P) s = .next (refused .short)) ∧
            (P ≤ s.account.balance →
              (s.lowestFree = none → exec (.openLot p t c n P) s = .next (refused .noSlot)) ∧
              (s.lowestFree ≠ none → s.counter.exhausted = true →
                exec (.openLot p t c n P) s = .next (refused .numbers)))))) ∧
    (∀ m, 3 < c ∨ 7 < n ∨ 60000 < P ∨ m = 0 ∨ Config.maxLot < m →
      exec (.remixOpen p t c n P m) s = .next (repliedWith s p t .range [])) ∧
    (c ≤ 3 → n ≤ 7 → P ≤ 60000 → ∀ m, 1 ≤ m → m ≤ Config.maxLot →
      (∀ b, s.channel c = some b → exec (.remixOpen p t c n P m) s = .next (repliedWith s p t .channel
        [.u8 (if b.stalled then 2 else 1), .u8 1, .u8 (portCode b.holder)])) ∧
      (s.channel c = none →
        (s.slotOf m = none → exec (.remixOpen p t c n P m) s = .next (repliedWith s p t .unknown [])) ∧
        ∀ k r, liveLot s m k r →
          (r.state ≠ .extracted → exec (.remixOpen p t c n P m) s = .next (repliedWith s p t .state [])) ∧
          (r.state = .extracted →
            (hasHold r.holds .audit = true →
              exec (.remixOpen p t c n P m) s = .next (repliedWith s p t .held [.u8 r.holds.toNat])) ∧
            (hasHold r.holds .audit = false →
              (1 < r.generation → exec (.remixOpen p t c n P m) s = .next (repliedWith s p t .limit [])) ∧
              (r.generation ≤ 1 → 60000 < r.ashMass.getD 0 →
                exec (.remixOpen p t c n P m) s = .next (repliedWith s p t .range [])) ∧
              (r.generation ≤ 1 → r.ashMass.getD 0 ≤ 60000 →
                (r.recipe = none → exec (.remixOpen p t c n P m) s = .next (repliedWith s p t .noRecipe [])) ∧
                ∀ x, r.recipe = some x →
                  ((s.recipe ⟨x.ref.bank, n⟩).values = none →
                    exec (.remixOpen p t c n P m) s = .next (repliedWith s p t .noRecipe [])) ∧
                  ∀ v, (s.recipe ⟨x.ref.bank, n⟩).values = some v →
                    (s.committing ⟨x.ref.bank, n⟩ = true →
                      exec (.remixOpen p t c n P m) s = .next (repliedWith s p t .busy [])) ∧
                    (s.committing ⟨x.ref.bank, n⟩ = false →
                      (s.account.balance < P → exec (.remixOpen p t c n P m) s = .next (repliedWith s p t .short [])) ∧
                      (P ≤ s.account.balance →
                        (s.lowestFree = none →
                          exec (.remixOpen p t c n P m) s = .next (repliedWith s p t .noSlot [])) ∧
                        (s.lowestFree ≠ none → s.counter.exhausted = true →
                          exec (.remixOpen p t c n P m) s = .next (repliedWith s p t .numbers [])))))))))

/-- A remix OPEN that passes its checks, with no pot life due: the child takes its slot with the parent's ash as carried
ash and the parent's bank, the live ash total stands, and then the parent's slot is freed (R33 to R36, R128). The
presence byte of the carried ash in the answer is the model's reading (log entry 13), and that the mark of the totals
stands is its choice (log entry 37). -/
def Obligations.RemixPassesAshToChild : Prop :=
  ∀ (p : PortName) (t c n P m k kp M : Nat) (q : LotRecord) (x : LotRecipe) (v : RecipeValues) (s : State),
    ready s p .mixer → windowed s p c → s.mode = .run → c ≤ 3 → n ≤ 7 → P ≤ 60000 → s.channel c = none →
    liveLot s m kp q → q.state = .extracted → hasHold q.holds .audit = false → q.generation ≤ 1 →
    q.ashMass = some M → M ≤ 60000 → q.recipe = some x → (s.recipe ⟨x.ref.bank, n⟩).values = some v →
    s.committing ⟨x.ref.bank, n⟩ = false → P ≤ s.account.balance → s.lowestFree = some k →
    s.counter.exhausted = false → nothingDue s → s.clock < min 4294967295 (s.clock + v.potLife) →
    let deadline := min 4294967295 (s.clock + v.potLife)
    let child : LotRecord :=
      { number := s.counter.next, state := .mixing, holds := 0
        recipe := some ⟨⟨x.ref.bank, n⟩, snapshotOf v⟩, generation := q.generation + 1, parent := some m
        reservation := some P, carriedAsh := some M, dosed := some ⟨0, 0, 0⟩, ashMass := none, channel := some c
        mixDeadline := some deadline, targetCell := none, cell := none, maturity := none
        target := some v.maturityTarget, pendingTarget := none, frostRun := none, retests := 0, tester := none
        result := none, failCause := none, opened := some s.clock, sealedAt := none, placed := none, cured := none
        queueStatus := none }
    exec (.remixOpen p t c n P m) s = .next { s with
      slots := ((s.writeLot k child).freeSlot kp).slots
      counter := if s.counter.next = 16777215 then { s.counter with exhausted := true }
        else { s.counter with next := s.counter.next + 1 }
      account := { s.account with balance := s.account.balance - P, reserved := s.account.reserved + P }
      channels := s.channels.setIfInBounds c (some ⟨false, p, s.counter.next, 0⟩)
      potLife := insertBy potBefore ⟨s.counter.next, deadline⟩ s.potLife
      ports := replied s p t .done
        [.u24 s.counter.next, .u8 x.ref.bank, .u8 n, .u16 v.cementRatio,
          .u16 (v.cementRatio * (1000 - v.doseTolerance) / 1000),
          .u16 (v.cementRatio * (1000 + v.doseTolerance) / 1000), .u32 deadline, .u8 1, .u32 M] }

/-- DOSE, SEAL, STALL and RESUME on a FREE channel, on a channel another port holds, DOSE or STALL on a STALLED one and
RESUME on an ACTIVE one are refused CHANNEL with the channel's state and holder, whatever figures or cell in range they
carry and, but for SEAL, in every mode, and change nothing; REBIND on a channel that is not FREE is refused CHANNEL in
the same way, whatever lot in range it names (R28, R53, R174). The holder's presence byte is the model's reading (log
entry 13). -/
def Obligations.ChannelIsCheckedFirst : Prop :=
  (∀ (p : PortName) (t c a m w cell : Nat) (s : State), ready s p .mixer → windowed s p c → a ≤ 20000 → m ≤ 20000 →
    w ≤ 20000 → cell ≤ 95 →
    ∀ i ∈ [Instr.dose p t c a m w, Instr.sealLot p t c cell, Instr.stall p t c, Instr.resume p t c],
      (i = .sealLot p t c cell → s.mode ≠ .service) →
      (s.channel c = none → exec i s = .next (repliedWith s p t .channel [.u8 0, .u8 0, .u8 0])) ∧
      ∀ b, s.channel c = some b →
        (b.holder ≠ p ∨ (b.stalled = true ∧ (i = .dose p t c a m w ∨ i = .stall p t c)) ∨
          (b.stalled = false ∧ i = .resume p t c)) →
        exec i s = .next (repliedWith s p t .channel
          [.u8 (if b.stalled then 2 else 1), .u8 1, .u8 (portCode b.holder)])) ∧
  ∀ (p : PortName) (t n c : Nat) (s : State), ready s p .mixer → windowed s p c → c ≤ 3 → 1 ≤ n →
    n ≤ Config.maxLot → ∀ b, s.channel c = some b → exec (.rebind p t n c) s = .next (repliedWith s p t .channel
      [.u8 (if b.stalled then 2 else 1), .u8 1, .u8 (portCode b.holder)])

/-- DOSE with a figure above 20,000 is refused RANGE on any channel. By the holder of an ACTIVE channel it adds its
three figures to the bound lot and one to the dose count, and answers the running figures, the running ratio and the
band indication; it moves no ash in the account; a lot without its figures is refused STATE, and a figure that would
pass 120,000 RANGE (R27, R37 to R39). The ratio's presence byte is the model's reading (log entry 13). -/
def Obligations.DoseAddsToTheBoundLot : Prop :=
  (∀ (p : PortName) (t c a m w : Nat) (s : State), ready s p .mixer → windowed s p c →
    (20000 < a ∨ 20000 < m ∨ 20000 < w → exec (.dose p t c a m w) s = .next (repliedWith s p t .range []))) ∧
  ∀ (p : PortName) (t c a m w k : Nat) (b : Binding) (r : LotRecord) (s : State), ready s p .mixer → windowed s p c →
    a ≤ 20000 → m ≤ 20000 → w ≤ 20000 → s.channel c = some b → b.holder = p → b.stalled = false →
    liveLot s b.lot k r →
    (r.dosed = none → exec (.dose p t c a m w) s = .next (repliedWith s p t .state [])) ∧
    ∀ d, r.dosed = some d →
      (120000 < d.ash + a ∨ 120000 < d.cement + m ∨ 120000 < d.water + w →
        exec (.dose p t c a m w) s = .next (repliedWith s p t .range [])) ∧
      (d.ash + a ≤ 120000 → d.cement + m ≤ 120000 → d.water + w ≤ 120000 →
        let dosed := { r with dosed := some ⟨d.ash + a, d.cement + m, d.water + w⟩ }
        exec (.dose p t c a m w) s = .next { recordNow s k dosed with
          channels := s.channels.setIfInBounds c (some { b with doses := min 65535 (b.doses + 1) })
          ports := replied s p t .done ([.u32 (d.ash + a), .u32 (d.cement + m), .u32 (d.water + w),
            .u16 (min 65535 (b.doses + 1))] ++ ratioFields dosed) })

/-- The arithmetic of a mix: the band indication by its exact test over the whole ash, in whole numbers (R38), and the
settlement of a reservation against the dosed ash in its three cases (R42). -/
def Obligations.BandAndSettlementAreExact : Prop :=
  (∀ (k : Snapshot) (A c : Nat),
    (A = 0 → bandOver k A c = .none) ∧
    (0 < A → 1000 * |(1000 * c : Int) - k.cementRatio * A| ≤ k.cementRatio * k.doseTolerance * A →
      bandOver k A c = .inside) ∧
    (0 < A → k.cementRatio * k.doseTolerance * A < 1000 * |(1000 * c : Int) - k.cementRatio * A| →
      (1000 * c < k.cementRatio * A → bandOver k A c = .low) ∧
      (k.cementRatio * A < 1000 * c → bandOver k A c = .high))) ∧
  ∀ (a : Account) (R D : Nat),
    (D ≤ R → settle a R D = { a with
      balance := a.balance + (R - D), reserved := a.reserved - R, live := a.live + D }) ∧
    (R < D → (D : Int) - R ≤ a.balance → settle a R D = { a with
      balance := a.balance - (D - R), reserved := a.reserved - R, live := a.live + D }) ∧
    (R < D → a.balance < (D : Int) - R → settle a R D = { a with
      balance := 0, unbooked := a.unbooked + (D - R - a.balance), reserved := a.reserved - R, live := a.live + D })

/-- SEAL of a lot with ash into an open cell with room makes it SEALED with its ash mass and target cell, its record and
its index entry rewritten, settles its reservation, reserves its place, frees its channel and takes it off the pot-life
list; INTAKE joins its holds when ash was drawn uncovered and DOSE when the mix is not inside its band, HOLD being
raised when either is new; nothing else changes (R5, R13, R40, R42 to R44). That the mark of the totals stands is the
model's choice (log entry 37), as is the answer of an excess partly covered, both drawn and unbooked (log entry 47), and
the answer's ratio without a presence byte its reading (log entry 13). -/
def Obligations.SealSettlesAndReserves : Prop :=
  ∀ (p : PortName) (t c cell k : Nat) (b : Binding) (r : LotRecord) (d : Dosed) (s : State), ready s p .mixer →
    windowed s p c → s.mode ≠ .service → cell ≤ 95 → s.channel c = some b → b.holder = p → liveLot s b.lot k r →
    r.dosed = some d → 0 < r.carriedAsh.getD 0 + d.ash → (s.cell cell).closed = false →
    (s.cell cell).lane.length + (s.cell cell).reservations.length < 6 →
    s.account.intake + s.account.unbooked + (settlement s.account.balance (r.reservation.getD 0) d.ash).unbooked ≤
      1000000000000 →
    let x := settlement s.account.balance (r.reservation.getD 0) d.ash
    let h1 := if 0 < x.unbooked then withHold r.holds .intake else r.holds
    let h2 := if bandOf r = .inside then h1 else withHold h1 .dose
    let mass := r.carriedAsh.getD 0 + d.ash
    let left := { r with
      state := .sealed, reservation := none, channel := none, mixDeadline := none, ashMass := some mass
      targetCell := some cell, sealedAt := some s.clock, holds := h2 }
    exec (.sealLot p t c cell) s = .next { s with
      slots := s.slots.setIfInBounds k { s.slot k with contents := some (freshLot left) }
      account := settle s.account (r.reservation.getD 0) d.ash
      cells := s.cells.setIfInBounds cell (reserveIn b.lot (s.cell cell))
      channels := mapVector (freeIfBound b.lot) s.channels
      potLife := s.potLife.filter (·.lot != b.lot)
      ports := replied (if h2 = r.holds then s else s.raise .hold) p t .done
        ([.u24 b.lot, .u32 mass, .u16 ((ratioOf r).getD 0), .u8 (bandCode (bandOf r))] ++ settlementFields x ++
          [.u8 h2.toNat]) }

/-- The refusals of a SEAL in the order of R40, past the channel: a target cell out of range RANGE, before the channel
is looked at; a lot without its dosed figures STATE; a closed cell CELLCLOSED and one without room LANEFULL, with the
cell's lane length and reservation count; a settlement past the account's bound RANGE. Each leaves everything as it was
(R25, R40, R59, R61). The width of the lane length is the model's reading (log entry 13). -/
def Obligations.SealIsRefusedInOrder : Prop :=
  ∀ (p : PortName) (t c cell : Nat) (s : State), ready s p .mixer → windowed s p c → s.mode ≠ .service →
    (95 < cell → exec (.sealLot p t c cell) s = .next (repliedWith s p t .range [])) ∧
    ∀ b k r, cell ≤ 95 → s.channel c = some b → b.holder = p → liveLot s b.lot k r →
      (r.dosed = none → exec (.sealLot p t c cell) s = .next (repliedWith s p t .state [])) ∧
      ∀ d, r.dosed = some d → 0 < r.carriedAsh.getD 0 + d.ash →
        let x := s.cell cell
        let counts : List Machine.Field := [.u16 x.lane.length, .u16 x.reservations.length]
        (x.closed = true → exec (.sealLot p t c cell) s = .next (repliedWith s p t .cellClosed counts)) ∧
        (x.closed = false → 6 ≤ x.lane.length + x.reservations.length →
          exec (.sealLot p t c cell) s = .next (repliedWith s p t .laneFull counts)) ∧
        (x.closed = false → x.lane.length + x.reservations.length < 6 →
          1000000000000 < s.account.intake + s.account.unbooked +
            (settlement s.account.balance (r.reservation.getD 0) d.ash).unbooked →
          exec (.sealLot p t c cell) s = .next (repliedWith s p t .range []))

/-- SEAL of a lot with no ash retires it: its reservation returns to the balance, its channel is freed, it leaves the
pot-life list, and its slot is freed; the target cell is neither checked nor touched (R41). That the mark of the totals
stands is the model's choice (log entry 37). -/
def Obligations.SealOfEmptyLotRetiresIt : Prop :=
  ∀ (p : PortName) (t c cell k R : Nat) (b : Binding) (r : LotRecord) (d : Dosed) (s : State), ready s p .mixer →
    windowed s p c → s.mode ≠ .service → cell ≤ 95 → s.channel c = some b → b.holder = p → liveLot s b.lot k r →
    r.dosed = some d → r.carriedAsh.getD 0 + d.ash = 0 → r.reservation = some R →
    exec (.sealLot p t c cell) s = .next { s with
      slots := (s.freeSlot k).slots
      account := { s.account with balance := s.account.balance + R, reserved := s.account.reserved - R }
      channels := mapVector (freeIfBound b.lot) s.channels
      potLife := s.potLife.filter (·.lot != b.lot)
      ports := replied s p t .emptyLot [.u24 b.lot, .u32 R] }

/-- STALL makes the holder's ACTIVE channel STALLED, and RESUME makes a STALLED one ACTIVE, the dose count carried
through; both answer the channel and change no field of the lot. REBIND binds an orphan to a FREE channel with a dose
count of 0 and answers the channel, the dosed figures, the ratio and band and the mix deadline; a bound lot or one that
is not MIXING is refused STATE (R38, R46, R47, R53). The presence bytes are the model's reading (log entry 13). -/
def Obligations.StallResumeAndRebind : Prop :=
  ∀ (p : PortName) (t n c k : Nat) (r : LotRecord) (s : State), ready s p .mixer → windowed s p c → c ≤ 3 →
    liveLot s n k r →
    (∀ b, s.channel c = some b → b.holder = p → b.lot = n →
      (b.stalled = false → exec (.stall p t c) s = .next { s with
        channels := s.channels.setIfInBounds c (some { b with stalled := true })
        ports := replied s p t .done [.u8 2, .u8 1, .u8 (portCode p), .u24 n, .u16 b.doses] }) ∧
      (b.stalled = true → exec (.resume p t c) s = .next { s with
        channels := s.channels.setIfInBounds c (some { b with stalled := false })
        ports := replied s p t .done [.u8 1, .u8 1, .u8 (portCode p), .u24 n, .u16 b.doses] })) ∧
    (s.channel c = none →
      (r.state ≠ .mixing ∨ r.channel ≠ none → exec (.rebind p t n c) s = .next (repliedWith s p t .state [])) ∧
      (r.state = .mixing → r.channel = none →
        exec (.rebind p t n c) s = .next { recordNow s k { r with channel := some c } with
          channels := s.channels.setIfInBounds c (some ⟨false, p, n, 0⟩)
          ports := replied s p t .done ([.u8 1, .u8 1, .u8 (portCode p), .u24 n, .u16 0] ++ dosedFields r ++
            ratioFields r ++ optField .u32 r.mixDeadline) }))

/-- A pot-life expiry takes every due entry off an ordered list and leaves the others; where the due entries name clean
MIXING lots, each of these gains POTLIFE and no other slot changes, HOLD is raised when one did not hold POTLIFE
already, and POTLIFE is raised when any entry was due. A single due entry gives the one lot the hold. Nothing else
changes (R5, R48, R49). -/
def Obligations.PotLifeExpires : Prop :=
  ∀ (s : State), s.phase = .running →
    (potOrdered s.potLife → ∃ s', exec .potLifeExpiry s = .next s' ∧ potLifeJudged s s' ∧
      s' = { s with slots := s'.slots, queue := s'.queue, ports := s'.ports, potLife := s'.potLife } ∧
      portsKept s s') ∧
    ∀ n k d r, s.potLife = [⟨n, d⟩] → d ≤ s.clock → liveLot s n k r → r.state = .mixing →
      hasHold r.holds .potLife = false →
      exec .potLifeExpiry s = .next { recordNow s k { r with holds := withHold r.holds .potLife } with
        potLife := [], ports := ((s.raise .hold).raise .potLife).ports }

/-! ### Cells, samples and the clock -/

/-- CHANNEL STATUS, CELL STATUS and QUEUE STATUS over clean lots answer DONE and change nothing: the channel record, the
values of the bound lot and the orphan list; the cell's flags, counts and room, its reservation set, its sensor fields,
its lane entries and its blocking view; the queue's lengths and room, the queued and the bench lots, and the first
sixteen WAITING and PARKED lots (R38, R55, R71, R72, R113). The widths and presence bytes, and what is answered of a
FREE channel, of a number that no lot has and of numbers that are equal, is the model's reading or choice (log entries
12, 13, 27, 40 and 44). -/
def Obligations.StatusRequestsReadOnly : Prop :=
  (∀ (p : PortName) (t c : Nat) (s : State), ready s p .mixer → windowed s p c → allClean s →
    (s.channel c = none → exec (.channelStatus p t c) s = .next (repliedWith s p t .done
      ([.u8 0, .u8 0, .u8 0, .u24 0, .u16 0] ++ boundFields s none ++ s.orphanFields))) ∧
    ∀ b, s.channel c = some b → exec (.channelStatus p t c) s = .next (repliedWith s p t .done
      ([.u8 (if b.stalled then 2 else 1), .u8 1, .u8 (portCode b.holder), .u24 b.lot, .u16 b.doses] ++
        boundFields s (s.recordOf b.lot) ++ s.orphanFields))) ∧
  (∀ (p : PortName) (t c : Nat) (s : State), (ready s p .plant ∨ ready s p .yard ∧ windowed s p c) → allClean s →
    (95 < c → exec (.cellStatus p t c) s = .next (repliedWith s p t .range [])) ∧
    (c ≤ 95 →
      let x := s.cell c
      exec (.cellStatus p t c) s = .next (repliedWith s p t .done
        ([.u8 c, .u8 (if x.closed then 1 else 0), .u8 (if x.faulty then 1 else 0), .u16 x.lane.length,
          .u16 x.reservations.length, .u16 (6 - (x.lane.length + x.reservations.length)), .u16 x.reservations.length] ++
          x.reservations.map (fun n => .u24 n) ++ [.u8 (if x.lastValid.isSome then 1 else 0), .i16 (x.lastValid.getD 0),
          .u32 x.lastStamp, .u8 x.misses, .u16 x.lane.length] ++ x.lane.zipIdx.flatMap (laneEntryFields s) ++
          s.blockingFields c)))) ∧
  ∀ (p : PortName) (t : Nat) (s : State), (ready s p .plant ∨ ready s p .lab) → allClean s →
    exec (.queueStatus p t) s = .next (repliedWith s p t .done
      ([.u8 s.queue.length, .u8 s.bench.length, .u16 (64 - (s.queue.length + s.bench.length)), .u16 s.queue.length] ++
        s.queue.zipIdx.flatMap (queuedFields s) ++ [.u16 s.bench.length] ++ s.bench.flatMap (benchFields s) ++
        [.u16 s.waitingLots.length, .u16 (s.waitingLots.take 16).length] ++
        (s.waitingLots.take 16).flatMap (fun w => [.u24 w.number, .u32 w.stamp]) ++
        [.u16 s.parkedLots.length, .u16 (s.parkedLots.take 16).length] ++
        (s.parkedLots.take 16).flatMap fun r => [.u24 r.number, .u8 r.holds.toNat]))

/-- CELL CLOSE sets the named cell's closed flag and CELL OPEN clears it; both answer the cell, its flags, its lane
length and its reservation count, and change nothing else; a cell number out of range is refused RANGE (R60). The
width of the lane length is the model's reading (log entry 13). -/
def Obligations.CellOpenAndCloseSetTheFlag : Prop :=
  ∀ (p : PortName) (t c : Nat) (s : State), ready s p .plant →
    (95 < c → exec (.cellOpen p t c) s = .next (repliedWith s p t .range []) ∧
      exec (.cellClose p t c) s = .next (repliedWith s p t .range [])) ∧
    (c ≤ 95 →
      let x := s.cell c
      let answer (mark : Nat) : List Field :=
        [.u8 c, .u8 mark, .u8 (if x.faulty then 1 else 0), .u16 x.lane.length, .u16 x.reservations.length]
      exec (.cellOpen p t c) s = .next { s with
        cells := s.cells.setIfInBounds c { x with closed := false }, ports := replied s p t .done (answer 0) } ∧
      exec (.cellClose p t c) s = .next { s with
        cells := s.cells.setIfInBounds c { x with closed := true }, ports := replied s p t .done (answer 1) })

/-- PLACE: its refusals in their order past the record check; a PLACE taken makes the lot CURING with its fields of
R66, its record and its index entry rewritten, appends it at the back of the lane, takes it out of its target cell's
reservation set, and gives it SENSOR in a cell whose fault flag is set, HOLD being raised when it is new; no other cell,
lot or total changes (R5, R13, R57, R62 to R66). The width of the lane length is the model's reading (log entry 13). -/
def Obligations.PlaceJoinsTheLane : Prop :=
  ∀ (p : PortName) (t n c k : Nat) (r : LotRecord) (s : State), ready s p .yard → windowed s p c →
    s.mode ≠ .service → liveLot s n k r →
    let x := s.cell c
    let refusal : List Field := [.u16 x.lane.length, .u16 x.reservations.length, .u8 (if x.closed then 1 else 0)]
    (r.state ≠ .sealed → exec (.place p t n c) s =
      .next (repliedWith s p t .state (.u8 (stateCode r.state) :: optField .u8 r.cell))) ∧
    (r.state = .sealed →
      (x.closed = true → exec (.place p t n c) s = .next (repliedWith s p t .cellClosed refusal)) ∧
      (x.closed = false → r.targetCell ≠ some c → 6 ≤ x.lane.length + x.reservations.length →
        exec (.place p t n c) s = .next (repliedWith s p t .laneFull refusal)) ∧
      (x.closed = false → r.targetCell = some c ∨ x.lane.length + x.reservations.length < 6 → c ≤ 95 →
        let holds := if x.faulty then withHold r.holds .sensor else r.holds
        let left := { r with
          state := .curing, targetCell := none, cell := some c, maturity := some 0, frostRun := some 0
          placed := some s.clock, holds := holds }
        ∃ s', exec (.place p t n c) s = .next s' ∧
          (∀ d, d ≤ 95 → s'.cell d = { s.cell d with
            lane := if d = c then x.lane ++ [n] else (s.cell d).lane
            reservations :=
              if r.targetCell = some d then (s.cell d).reservations.filter (· != n) else (s.cell d).reservations }) ∧
          s' = { s with
            slots := s.slots.setIfInBounds k { s.slot k with contents := some (freshLot left) }
            cells := s'.cells
            ports := replied (if holds = r.holds then s else s.raise .hold) p t .done
              ([.u24 n, .u8 c, .u8 (x.lane.length + 1), .u16 (x.lane.length + 1), .u16 (s'.cell c).reservations.length] ++
                optField .u8 (r.targetCell.filter (· != c)) ++ [.u8 holds.toNat]) }))

/-- A completion in the valid range marks the cell, and the next conversion is requested. Over a lane of clean lots, in
which no CURING lot is QUEUED, each CURING lot takes its pending target, gains its maturity and counts its frost run; a
lot that reaches its target is CURED with the round's minute, its record and its index entry rewritten, and is PARKED
when it has a hold, QUEUED at the back in lane order while the queue has room, and WAITING after that. Lots in other
states and slots outside the lane stand. HOLD is raised when a lot gains FROST, and CURED once when any was cured;
nothing else changes (R13, R76, R80 to R86, R98). That the lane is read as it stands at the sample is the model's
reading (log entry 15). -/
def Obligations.ValidSampleTreatsCuringLots : Prop :=
  ∀ (c m : Nat) (y : Int) (s : State), s.scan = some ⟨c, m⟩ → c ≤ 95 → -400 ≤ y → y ≤ 900 →
    let cell : Cell := { s.cell c with lastValid := some y, lastStamp := m, misses := 0, faulty := false }
    let scan : Option Scan := if c < 95 then some ⟨c + 1, m⟩ else none
    let lane := (s.cell c).lane
    let curing (q : LotRecord → Bool) (n : Nat) : Bool :=
      ((s.recordOf n).map fun r => decide (r.state = .curing) && q r).getD false
    let admitted := (lane.filter (curing fun r => sampleCures y r && (sampledRecord y r).holds == 0)).take
      (64 - (s.queue.length + s.bench.length))
    let frosted := if lane.any (curing (sampleFrosts y)) then s.raise .hold else s
    let told := if lane.any (curing (sampleCures y)) then frosted.raise .cured else frosted
    lane.Nodup → (∀ n ∈ lane, ∃ k r, liveLot s n k r ∧ (r.state = .curing → r.queueStatus ≠ some .queued)) →
    ∃ s', exec (.conversionCompletion c y) s = .next s' ∧
      s' = { s with
        cells := s.cells.setIfInBounds c cell, scan := scan, slots := s'.slots, queue := s.queue ++ admitted
        ports := told.ports } ∧
      (∀ n ∈ lane, ∀ k r, liveLot s n k r →
        (r.state ≠ .curing → s'.slot k = s.slot k) ∧
        (r.state = .curing → sampleCures y r = false →
          s'.slot k = (recordNow s k (sampledRecord y r)).slot k) ∧
        (r.state = .curing → sampleCures y r = true →
          let status := if (sampledRecord y r).holds ≠ 0 then QueueStatus.parked
            else if n ∈ admitted then .queued else .waiting
          s'.slot k = { s.slot k with contents := some (freshLot { sampledRecord y r with
            state := .cured, frostRun := none, cured := some m, queueStatus := some status }) })) ∧
      ∀ k, (∀ n ∈ lane, s.slotOf n ≠ some k) → s'.slot k = s.slot k

/-- A timeout, or a reading outside the valid range, is a miss: the stamp and the miss count change, and the fifth
miss sets the fault flag, gives each CURING lot of the lane SENSOR, raising HOLD when one did not hold it, and raises
CELLFAULT; the other lots stand. A completion that is not the one asked for is not taken (R76, R77, R87). A completion
whose number matches is judged by its check, and a timeout with no conversion in flight changes nothing, by the model's
reading (log entries 30 and 4). -/
def Obligations.MissIsCounted : Prop :=
  (∀ (c m : Nat) (s : State), s.scan = some ⟨c, m⟩ → c ≤ 95 →
    let x := s.cell c
    let scan : Option Scan := if c < 95 then some ⟨c + 1, m⟩ else none
    let fifth : State := { s with
      cells := s.cells.setIfInBounds c { x with lastStamp := m, misses := 5, faulty := true }, scan := scan }
    (∀ y, y < -400 ∨ 900 < y → exec (.conversionCompletion c y) s = exec .conversionTimeout s) ∧
    (x.misses ≠ 4 → exec .conversionTimeout s = .next { s with
      cells := s.cells.setIfInBounds c { x with lastStamp := m, misses := min 255 (x.misses + 1) }, scan := scan }) ∧
    (x.misses = 4 → x.lane = [] → exec .conversionTimeout s = .next { fifth with
      ports := (s.raise .cellFault).ports }) ∧
    (x.misses = 4 → (∀ n ∈ x.lane, ∃ k r, liveLot s n k r) →
      let gains (n : Nat) : Bool :=
        ((s.recordOf n).map fun r => decide (r.state = .curing) && !hasHold r.holds .sensor).getD false
      ∃ s', exec .conversionTimeout s = .next s' ∧
        s' = { fifth with
          slots := s'.slots
          ports := ((if x.lane.any gains then s.raise .hold else s).raise .cellFault).ports } ∧
        (∀ n ∈ x.lane, ∀ k r, liveLot s n k r → s'.slot k =
          if r.state = .curing then (recordNow s k { r with holds := withHold r.holds .sensor }).slot k else s.slot k) ∧
        ∀ k, (∀ n ∈ x.lane, s.slotOf n ≠ some k) → s'.slot k = s.slot k)) ∧
  ∀ (c : Nat) (y : Int) (good : Bool) (s : State),
    ((∀ m, s.scan ≠ some ⟨c, m⟩) ∨ good = false → exec (.strayCompletion c y good) s = .next s) ∧
    ((∀ m, s.scan ≠ some ⟨c, m⟩) → exec (.conversionCompletion c y) s = .next s) ∧
    (s.scan = none → exec .conversionTimeout s = .next s)

/-- The clock advances by one minute up to its greatest value; while the part is at work the advance begins a round at
cell 0 and judges the pot-life list. CLOCK reads the clock, or sets it forward and judges the list; a value below the
clock is refused RANGE. The judgement takes every due entry off the list and gives its clean MIXING lot POTLIFE (R49,
R75, R181). That an advance during a round begins a new one is the model's reading (log entry 23). -/
def Obligations.ClockMovesForward : Prop :=
  (∀ (s : State),
    (s.clock = 4294967295 → exec .clockAdvance s = .next s) ∧
    (s.clock < 4294967295 → s.phase ≠ .running → exec .clockAdvance s = .next { s with clock := s.clock + 1 }) ∧
    (s.clock < 4294967295 → s.phase = .running → ∃ s', exec .clockAdvance s = .next s' ∧
      s' = { s with
        clock := s.clock + 1, scan := some ⟨0, s.clock + 1⟩, potLife := s'.potLife, slots := s'.slots
        queue := s'.queue, ports := s'.ports } ∧ portsKept s s' ∧
      (potOrdered s.potLife → potLifeJudged { s with clock := s.clock + 1 } s') ∧
      ((∀ e ∈ s.potLife, s.clock + 1 < e.deadline) → s'.slots = s.slots ∧ s'.queue = s.queue ∧ s'.ports = s.ports))) ∧
  ∀ (p : PortName) (t : Nat) (s : State), ready s p .plant →
    exec (.clock p t none) s = .next (repliedWith s p t .done [.u32 s.clock]) ∧
    ∀ m, (m < s.clock ∨ 4294967295 < m → exec (.clock p t (some m)) s = .next (repliedWith s p t .range [])) ∧
      (s.clock ≤ m → m ≤ 4294967295 →
        (∃ s', exec (.clock p t (some m)) s = .next s' ∧
          s' = { s with
            clock := m, potLife := s'.potLife, slots := s'.slots, queue := s'.queue, ports := s'.ports } ∧
          answeredAs s s' p t .done [.u32 s.clock, .u32 m] ∧
          (potOrdered s.potLife → potLifeJudged { s with clock := m } s')) ∧
        ((∀ e ∈ s.potLife, m < e.deadline) → exec (.clock p t (some m)) s = .next { s with
          clock := m, ports := replied s p t .done [.u32 s.clock, .u32 m] }))

/-! ### The test queue and the ends of lots -/

/-- TAKE of an empty queue is answered EMPTY and changes nothing; otherwise the clean CURED front lot leaves the
queue, becomes TESTING under the port, and joins the bench list at its end (R102). The answer's layout is the model's
reading (log entry 13). -/
def Obligations.TakeTakesTheFront : Prop :=
  ∀ (p : PortName) (t : Nat) (s : State), ready s p .lab → s.mode ≠ .service →
    (s.queue = [] → exec (.take p t) s = .next (repliedWith s p t .empty [])) ∧
    ∀ n rest k r, s.queue = n :: rest → liveLot s n k r → r.state = .cured →
      let left := rest.filter (· != n)
      let testing := { r with state := .testing, queueStatus := none, tester := some p }
      exec (.take p t) s = .next { s with
        slots := (s.writeLot k testing).slots, queue := left, bench := s.bench ++ [⟨n, p⟩]
        ports := replied s p t .done (summaryFields testing ++
          [.u8 (r.cell.getD 0), .u8 ((r.cell.bind fun c => positionIn n (s.cell c).lane).getD 0),
            .u32 (r.maturity.getD 0), .u32 (r.target.getD 0), .u32 (r.cured.getD 0),
            .u16 ((r.recipe.map fun x => x.snapshot.minStrength).getD 0),
            .u8 ((r.recipe.map fun x => x.snapshot.maxLeach).getD 0), .u8 r.retests, .u8 left.length,
            .u8 (s.bench.length + 1)]) }

/-- RETURN of a lot the port does not test is refused NOTHOLDER with the lot's state and tester; otherwise the lot
leaves the bench list and is CURED: QUEUED at the front while it has no hold, PARKED with its place given if it has
one (R104). Presence bytes are the model's reading (log entry 13). -/
def Obligations.ReturnGoesToTheFront : Prop :=
  ∀ (p : PortName) (t n k : Nat) (r : LotRecord) (s : State), ready s p .lab → liveLot s n k r →
    (r.state ≠ .testing ∨ r.tester ≠ some p → exec (.returnLot p t n) s = .next (repliedWith s p t .notHolder
      (.u8 (stateCode r.state) :: optField .u8 (r.tester.map portCode)))) ∧
    (r.state = .testing → r.tester = some p →
      let bench := s.bench.filter (·.lot != n)
      let returned (q : QueueStatus) := { r with state := .cured, tester := none, queueStatus := some q }
      (r.holds = 0 → exec (.returnLot p t n) s = .next { s with
        slots := (s.writeLot k (returned .queued)).slots, queue := n :: s.queue, bench := bench
        ports := replied s p t .done [.u24 n, .u8 1, .u8 1, .u8 1] }) ∧
      (r.holds ≠ 0 → exec (.returnLot p t n) s = .next
        { State.giveRoom { s.writeLot k (returned .parked) with bench := bench } with
          ports := replied s p t .done [.u24 n, .u8 3, .u8 0, .u8 0] }))

/-- VERDICT: a RESULT out of range is refused RANGE, a lot the port does not test NOTHOLDER. A RESULT makes the lot
CLEARED when its strength and leach class pass its snapshot and REJECTED with its cause otherwise; a RETEST sends it
back to cure with a raised target, twice at most. The lot leaves the bench list and its place is given; the answer gives
the state, the judgement and fail cause, the retest count, target, hold set, cell and lane position (R88, R105 to R108).
The presence bytes are the model's reading (log entry 13), and the code of the judgement a free value (log entry 14). -/
def Obligations.VerdictJudgesOrRetests : Prop :=
  ∀ (p : PortName) (t n : Nat) (s : State), ready s p .lab →
    (∀ kind a l, kind ≠ 1 ∨ l = 0 ∨ 4 < l →
      exec (.verdictResult p t n kind a l) s = .next (repliedWith s p t .range [])) ∧
    (∀ kind, kind ≠ 2 → exec (.verdictRetest p t n kind) s = .next (repliedWith s p t .range [])) ∧
    ∀ k r a l, liveLot s n k r → a ≤ 65535 → 1 ≤ l → l ≤ 4 →
      (r.state ≠ .testing ∨ r.tester ≠ some p →
        ∀ i ∈ [Instr.verdictResult p t n 1 a l, Instr.verdictRetest p t n 2],
          exec i s = .next (repliedWith s p t .notHolder
            (.u8 (stateCode r.state) :: optField .u8 (r.tester.map portCode)))) ∧
      (r.state = .testing → r.tester = some p →
        let bench := s.bench.filter (·.lot != n)
        let answer (q : LotRecord) (judged cause : List Machine.Field) : List Machine.Field :=
          [.u24 n, .u8 (stateCode q.state)] ++ judged ++ cause ++ [.u8 q.retests, .u32 (q.target.getD 0),
            .u8 q.holds.toNat, .u8 (r.cell.getD 0), .u8 ((s.lanePosition r).getD 0)]
        (∀ x, r.recipe = some x →
          let strong := x.snapshot.minStrength ≤ a
          let tight := l ≤ x.snapshot.maxLeach
          let judged := { r with tester := none, result := some ⟨a, l⟩ }
          (strong → tight → exec (.verdictResult p t n 1 a l) s = .next
            { State.giveRoom { s.writeLot k { judged with state := .cleared } with bench := bench } with
              ports := replied (s.raise .cleared) p t .done
                (answer { judged with state := .cleared } [.u8 1, .u8 (Config.judgementCode true)] [.u8 0, .u8 0]) }) ∧
          ∀ f, (¬ strong ∧ tight ∧ f = FailCause.strength) ∨ (strong ∧ ¬ tight ∧ f = .leach) ∨
              (¬ strong ∧ ¬ tight ∧ f = .both) →
            exec (.verdictResult p t n 1 a l) s = .next
              { State.giveRoom { s.writeLot k { judged with state := .rejected, failCause := some f } with
                  bench := bench } with
                ports := replied (s.raise .rejected) p t .done (answer { judged with state := .rejected }
                  [.u8 1, .u8 (Config.judgementCode false)] [.u8 1, .u8 (failCauseCode f)]) }) ∧
        (2 ≤ r.retests → exec (.verdictRetest p t n 2) s = .next (repliedWith s p t .limit [])) ∧
        (r.retests < 2 →
          let faulty := (r.cell.map fun c => (s.cell c).faulty).getD false
          let again := { r with
            state := .curing, tester := none, frostRun := some 0, pendingTarget := none, retests := r.retests + 1
            target := r.target.map fun a =>
              min 16000000 (a + (r.recipe.map fun x => x.snapshot.retestIncrement).getD 0)
            holds := if faulty then withHold r.holds .sensor else r.holds }
          exec (.verdictRetest p t n 2) s = .next
            { State.giveRoom { s.writeLot k again with bench := bench } with
              ports := replied (if faulty && !hasHold r.holds .sensor then s.raise .hold else s) p t .done
                (answer again [.u8 0, .u8 0] [.u8 0, .u8 0]) }))

/-- Room that frees while the queue count is below its limit is given to the WAITING lot with the earliest cured stamp,
and among equal stamps with the lowest number: it is QUEUED at the back. With no WAITING lot, or no room, nothing
changes (R100). -/
def Obligations.RoomGoesToTheEarliest : Prop :=
  ∀ (s : State),
    (¬ queueOpen s ∨ (∀ k r, s.recordAt k = some r → r.state = .cured → r.queueStatus ≠ some .waiting) →
      s.giveRoom = s) ∧
    ∀ n k r, queueOpen s → liveLot s n k r → r.state = .cured → r.queueStatus = some .waiting →
      (∀ j q, j ≠ k → s.recordAt j = some q → q.state = .cured → q.queueStatus = some .waiting →
        r.cured.getD 0 < q.cured.getD 0 ∨ r.cured.getD 0 = q.cured.getD 0 ∧ n < q.number) →
      s.giveRoom = { recordNow s k { r with queueStatus := some .queued } with queue := s.queue ++ [n] }

/-- RELEASE and EXTRACT: STATE with the lot's state and cell, HELD for RELEASE alone, BLOCKED behind the front; taken,
RELEASE moves the ash mass from the live to the released total and retires the lot, EXTRACT makes it EXTRACTED with no
cell and moves no ash; both take it out of the front of the lane and answer the lot that stands there then, and BLOCKED
answers the front lot and the position of the named one (R68, R115, R116, R118, R119). The presence bytes are the
model's reading (log entry 13), what is answered of a front lot without a slot (log entry 27) and that the mark of the
totals stands (log entry 37) its choices. -/
def Obligations.ReleaseAndExtractFromTheFront : Prop :=
  ∀ (p : PortName) (t n c k : Nat) (r : LotRecord) (s : State), ready s p .yard → windowed s p c →
    liveLot s n k r →
    let wrong : List Field := .u8 (stateCode r.state) :: optField .u8 r.cell
    let cells := s.cells.setIfInBounds c { s.cell c with lane := (s.cell c).lane.filter (· != n) }
    (s.mode = .run →
      (r.state ≠ .cleared ∨ r.cell ≠ some c →
        exec (.release p t n c) s = .next (repliedWith s p t .state wrong)) ∧
      (r.state = .cleared → r.cell = some c →
        (r.holds ≠ 0 → exec (.release p t n c) s = .next (repliedWith s p t .held [.u8 r.holds.toNat])) ∧
        (r.holds = 0 → (s.cell c).lane.head? ≠ some n →
          exec (.release p t n c) s = .next (repliedWith s p t .blocked (s.blockedFields c r))) ∧
        ∀ x M, r.holds = 0 → (s.cell c).lane.head? = some n → r.recipe = some x → r.ashMass = some M →
          exec (.release p t n c) s = .next { s with
            slots := (s.freeSlot k).slots, cells := cells
            account := { s.account with live := s.account.live - M, released := s.account.released + M }
            ports := replied s p t .done ([.u24 n, .u32 M, .u8 x.ref.bank, .u8 x.ref.number, .u8 r.generation, .u8 c,
              .u32 s.clock, .u48 (s.account.released + M).toNat] ++
              State.frontFields { s with slots := (s.freeSlot k).slots, cells := cells } c) })) ∧
    (s.mode ≠ .service →
      (r.state ≠ .rejected ∨ r.cell ≠ some c →
        exec (.extract p t n c) s = .next (repliedWith s p t .state wrong)) ∧
      (r.state = .rejected → r.cell = some c →
        ((s.cell c).lane.head? ≠ some n →
          exec (.extract p t n c) s = .next (repliedWith s p t .blocked (s.blockedFields c r))) ∧
        ((s.cell c).lane.head? = some n →
          let slots := (s.writeLot k { r with state := .extracted, cell := none }).slots
          exec (.extract p t n c) s = .next { s with
            slots := slots, cells := cells
            ports := replied s p t .done ([.u24 n, .u32 (r.ashMass.getD 0), .u8 r.generation] ++
              optField .u8 (r.failCause.map failCauseCode) ++ [.u8 r.holds.toNat, .u8 c] ++
              State.frontFields { s with slots := slots, cells := cells } c) })))

/-- WITHDRAW retires a lot in any state: a MIXING lot is settled as a SEAL settles it and its whole ash discarded, and
refused RANGE when the settlement would pass the account's bound; any other lot's ash mass is discarded. The lot leaves
its lane, reservation set, channel, pot-life list, queue and bench list, its slot is freed and its queue places are
given; the answer gives what R122 lists, as withdrawFields lays it out (R54, R69, R112, R122 to R126). The presence
bytes are the model's reading (log entry 13), and that the mark of the totals stands (log entry 37) and an excess partly
covered is answered both drawn and unbooked (log entry 47) its choices. -/
def Obligations.WithdrawRetiresInAnyState : Prop :=
  ∀ (p : PortName) (t n k : Nat) (r : LotRecord) (s : State), ready s p .plant → liveLot s n k r →
    let D := (r.dosed.map (·.ash)).getD 0
    let x := settlement s.account.balance (r.reservation.getD 0) D
    let C : Nat := r.carriedAsh.getD 0
    let gone (a : Account) : State := { s with
      account := a
      slots := (s.freeSlot k).slots
      cells := mapVector (fun c => { c with
        lane := c.lane.filter (· != n), reservations := c.reservations.filter (· != n) }) s.cells
      channels := mapVector (freeIfBound n) s.channels
      potLife := s.potLife.filter (·.lot != n)
      queue := s.queue.filter (· != n)
      bench := s.bench.filter (·.lot != n) }
    (r.state = .mixing → 1000000000000 < s.account.intake + s.account.unbooked + x.unbooked →
      exec (.withdraw p t n) s = .next (repliedWith s p t .range [])) ∧
    (r.state = .mixing → s.account.intake + s.account.unbooked + x.unbooked ≤ 1000000000000 →
      let left := (gone { s.account with
        balance := s.account.balance + x.returned - x.drawn, unbooked := s.account.unbooked + x.unbooked
        reserved := s.account.reserved - (r.reservation.getD 0 : Nat), live := s.account.live - C
        discard := s.account.discard + C + D }).giveRooms (s.placesHeld n)
      exec (.withdraw p t n) s = .next { left with ports := replied s p t .done (withdrawFields s left r) }) ∧
    (r.state ≠ .mixing →
      let left := (gone { s.account with
        live := s.account.live - (r.ashMass.getD 0 : Nat)
        discard := s.account.discard + (r.ashMass.getD 0 : Nat) }).giveRooms (s.placesHeld n)
      exec (.withdraw p t n) s = .next { left with ports := replied s p t .done (withdrawFields s left r) })

/-- A request that names a lot by number is refused RANGE for a number outside 1 to 16,777,215 and UNKNOWN for one that
no live lot has, and changes nothing: AMEND in its three parts, HOLD LOT, CLEAR HOLD, WITHDRAW, REBIND on a FREE
channel, RETURN, VERDICT of both kinds, PLACE, RELEASE and EXTRACT (R4). Which slot stands for a number while entries
hold faults is the model's reading (log entry 8). -/
def Obligations.LotRequestsFindTheirLot : Prop :=
  ∀ (p : PortName) (t n : Nat) (s : State), s.phase = .running → (s.port p).request = .ready →
    let checked (i : Instr) : Prop :=
      (n = 0 ∨ Config.maxLot < n → exec i s = .next (repliedWith s p t .range [])) ∧
      (1 ≤ n → n ≤ Config.maxLot → s.slotOf n = none → exec i s = .next (repliedWith s p t .unknown []))
    ((s.port p).role = .plant → ∀ target bank number a c w reasons, 1000 ≤ target → target ≤ 16000000 → bank ≤ 1 →
      number ≤ 7 → a ≤ 120000 → c ≤ 120000 → w ≤ 120000 → 1 ≤ reasons → reasons ≤ 127 →
      ∀ i ∈ [Instr.amendTarget p t 1 n target, .amendRecipe p t 2 n bank number, .amendDosed p t 3 n a c w,
        .holdLot p t n, .clearHold p t n reasons, .withdraw p t n], checked i) ∧
    ((s.port p).role = .mixer → ∀ c, windowed s p c → c ≤ 3 → s.channel c = none → checked (.rebind p t n c)) ∧
    ((s.port p).role = .lab → ∀ a l, a ≤ 65535 → 1 ≤ l → l ≤ 4 →
      ∀ i ∈ [Instr.returnLot p t n, .verdictResult p t n 1 a l, .verdictRetest p t n 2], checked i) ∧
    ((s.port p).role = .yard → ∀ c, windowed s p c →
      (s.mode ≠ .service → checked (.place p t n c) ∧ checked (.extract p t n c)) ∧
      (s.mode = .run → checked (.release p t n c)))

/-! ### Recipes and the record audit -/

/-- RECIPE READ answers the record's validity and values, the committing mark with its form, and the bank state, and
changes nothing; a bank or number out of range is refused RANGE (R137). -/
def Obligations.RecipeReadAnswersTheRecord : Prop :=
  ∀ (p : PortName) (t b n : Nat) (s : State), (ready s p .plant ∨ ready s p .mixer) →
    (1 < b ∨ 7 < n → exec (.recipeRead p t b n) s = .next (repliedWith s p t .range [])) ∧
    (b ≤ 1 → n ≤ 7 →
      let x := (s.recipe ⟨b, n⟩).values
      let answer (mark form : Nat) : State := repliedWith s p t .done
        ([.u8 b, .u8 n, .u8 (if x.isSome then 1 else 0)] ++ valueFields x ++
          [.u8 mark, .u8 form, .u8 s.bank.active, .u8 (s.bank.pending.getD 255)])
      (s.committing ⟨b, n⟩ = false → exec (.recipeRead p t b n) s = .next (answer 0 0)) ∧
      (s.commit = some ⟨⟨b, n⟩, none⟩ → exec (.recipeRead p t b n) s = .next (answer 1 2)) ∧
      ∀ v, s.commit = some ⟨⟨b, n⟩, some v⟩ → exec (.recipeRead p t b n) s = .next (answer 1 1))

/-- RECIPE WRITE: RANGE, MODE, RANGE and BUSY in their order; a write taken begins a commit and changes no record; the
completion puts the values written, or an INVALID record for RETIRE, in the record's place with a good check (R138,
R139, R141). A form that does not match the body is refused RANGE, and a completion with no commit changes nothing, by
the model's reading (log entries 25 and 4). -/
def Obligations.RecipeWriteCommits : Prop :=
  (∀ (p : PortName) (t b n form : Nat) (v : Option RecipeValues) (s : State), ready s p .plant →
    (1 < b ∨ 7 < n → exec (.recipeWrite p t b n form v) s = .next (repliedWith s p t .range [])) ∧
    (b ≤ 1 → n ≤ 7 → b = s.bank.active → s.mode ≠ .service →
      exec (.recipeWrite p t b n form v) s = .next (repliedWith s p t .mode [.u8 (modeCode s.mode)])) ∧
    (b ≤ 1 → n ≤ 7 → b ≠ s.bank.active ∨ s.mode = .service →
      let wellFormed := (∃ x, v = some x ∧ form = 1 ∧ valuesInRange x = true) ∨ (v = none ∧ form = 2)
      (¬ wellFormed → exec (.recipeWrite p t b n form v) s = .next (repliedWith s p t .range [])) ∧
      (wellFormed → (∀ c, s.commit = some c → exec (.recipeWrite p t b n form v) s =
          .next (repliedWith s p t .busy [.u8 c.recipe.bank, .u8 c.recipe.number])) ∧
        (s.commit = none → exec (.recipeWrite p t b n form v) s = .next { s with
          commit := some ⟨⟨b, n⟩, v⟩, ports := replied s p t .done [.u8 b, .u8 n, .u8 form, .u8 1] })))) ∧
  ∀ (s : State), (s.commit = none → exec .recipeCommitCompletion s = .next s) ∧
    ∀ b n v, s.commit = some ⟨⟨b, n⟩, v⟩ → exec .recipeCommitCompletion s = .next { s with
      recipes := s.recipes.setIfInBounds (8 * b + n) { values := v, checkGood := true }, commit := none }

/-- BANK SELECT of the inactive bank makes it pending, of the active bank clears the pending bank; a changed bank
state is in force at once and begins to be written, and the end of its writing stores it with a good check (R134,
R135). Writes begun one after another end in that order, by the model's choice (log entry 19). That the answer gives
255 for no pending bank, and that a write end with no write changes nothing, is the model's reading (log entries 13 and
4). -/
def Obligations.BankSelectSetsThePendingBank : Prop :=
  (∀ (p : PortName) (t b : Nat) (s : State), ready s p .plant →
    (1 < b → exec (.bankSelect p t b) s = .next (repliedWith s p t .range [])) ∧
    (b ≤ 1 →
      let pending := if b = s.bank.active then none else some b
      let valid := ((List.range 8).filter fun n => (s.recipe ⟨b, n⟩).values.isSome).length
      exec (.bankSelect p t b) s = .next { s with
        bank := ⟨s.bank.active, pending⟩
        bankWrites := if pending = s.bank.pending then s.bankWrites else s.bankWrites ++ [⟨s.bank.active, pending⟩]
        ports := replied s p t .done [.u8 s.bank.active, .u8 (pending.getD 255), .u8 valid] })) ∧
  ∀ (s : State), (s.bankWrites = [] → exec .bankStateWriteEnd s = .next s) ∧
    ∀ b rest, s.bankWrites = b :: rest → exec .bankStateWriteEnd s =
      .next { s with bankStored := b, bankCheckGood := true, bankWrites := rest }

/-- An audit step checks the slot at the cycle position and advances the position, from 511 to 0. A free slot and a
clean one are left as they are. A record or an entry with one wrong word is rewritten as its code repairs it, and an
entry that is damaged, or that disagrees with its record, is rebuilt from the record; each counts as one repair: the
tally rises by one for each, stopping at 15, and CORRECTED is raised and the reported flag set when it was clear. When
the tally reaches 4 the slot becomes worn, WORN is raised, and the lot is moved into the lowest free healthy slot, or
waits when there is none (R147, R149 to R151, R157, R158). The step's list of memory faults is empty here; the marks,
the comparison of repaired contents and the one relocation at the end are the model's (log entries 5, 9 and 35), and so
is it that the second copy of the number (log entry 7) and the health entry's own check (log entry 38) stay as they
stood. -/
def Obligations.AuditStepChecksOneSlot : Prop :=
  ∀ (s : State), s.phase = .running →
    let k := s.cyclePosition
    let after : State := { s with cyclePosition := (k + 1) % 512 }
    ((∀ l, s.lotAt k = some l → cleanLot l) → exec (.auditStep []) s = .next after) ∧
    ∀ l left rise, s.lotAt k = some l → mended l left rise →
      let x := s.slot k
      let y := { x with contents := some left, tally := min 15 (x.tally + rise), reported := true }
      let told := if x.reported then s else s.raise .corrected
      (x.worn = true ∨ x.tally + rise < 4 → exec (.auditStep []) s =
        .next { after with slots := s.slots.setIfInBounds k y, ports := told.ports }) ∧
      (x.worn = false → 4 ≤ x.tally + rise →
        (∀ f, s.lowestFree = some f → exec (.auditStep []) s = .next { after with
          slots := (s.slots.setIfInBounds f { s.slot f with contents := some left }).setIfInBounds k
            { y with worn := true, contents := none, waiting := false }
          ports := (told.raise .worn).ports }) ∧
        (s.lowestFree = none → exec (.auditStep []) s = .next { after with
          slots := s.slots.setIfInBounds k { y with worn := true, waiting := true }
          ports := (told.raise .worn).ports }))

/-- A record damaged beyond its code while its entry is good is rebuilt as a skeleton with the fields R152 gives it in
each state, TESTING becoming CURED, from the entry and from the channel, the reservation set or the lane that names the
lot; HOLD is raised, CORRECTED when the reported flag was clear, and the account does not move. The tally becomes 4 when
it was below 4 and rises by one otherwise; a slot so worn raises WORN and its lot moves into the lowest free healthy
slot, or waits. A skeleton that is not CURED changes no other slot or collection; a CURED one leaves the queue and the
bench list, each place it held is given to the WAITING lot that is earliest, and nothing else changes (R100, R101, R112,
R152, R153, R157, R158). The damage marks, that a skeleton in a state other than CURED has no cured stamp, which of
several cells or channels that name the lot is taken, and that the health entry's own check stays as it stood, are the
model's (log entries 5, 45 and 38). An entry that needs a repair of its own is left out here. -/
def Obligations.DamagedRecordIsRebuilt : Prop :=
  ∀ (s : State) (l : Lot), s.phase = .running → s.lotAt s.cyclePosition = some l → l.record.code = .beyond →
    l.entry.code = .agrees →
    let k := s.cyclePosition
    let x := s.slot k
    let n := l.entry.held.number
    let state := if l.entry.held.state = .testing then LotState.cured else l.entry.held.state
    let skeleton := skeletonFrom s l.entry.held state
    let built : Lot := ⟨fresh skeleton, fresh { l.entry.held with state := state }, some n⟩
    let y := { x with
      contents := some built, tally := if x.tally < 4 then 4 else min 15 (x.tally + 1), reported := true }
    let rebuilt : State := { s with slots := s.slots.setIfInBounds k { x with contents := some built } }
    let given : State := if state = .cured
      then State.giveRooms { rebuilt with
        queue := s.queue.filter (· != n), bench := s.bench.filter (·.lot != n) } (s.placesHeld n)
      else rebuilt
    let held := s.raise .hold
    let told := if x.reported then held else held.raise .corrected
    let after : State := { s with queue := given.queue, bench := given.bench, cyclePosition := (k + 1) % 512 }
    (x.worn = true → exec (.auditStep []) s =
      .next { after with slots := given.slots.setIfInBounds k y, ports := told.ports }) ∧
    (x.worn = false →
      (∀ f, s.lowestFree = some f → exec (.auditStep []) s = .next { after with
        slots := (given.slots.setIfInBounds f { s.slot f with contents := some built }).setIfInBounds k
          { y with worn := true, contents := none, waiting := false }
        ports := (told.raise .worn).ports }) ∧
      (s.lowestFree = none → exec (.auditStep []) s = .next { after with
        slots := given.slots.setIfInBounds k { y with worn := true, waiting := true }
        ports := (told.raise .worn).ports }))

/-- A slot whose record and entry are both damaged, every other occupied slot being clean, is a loss of its lot: the
live and the reserved totals fall to what the other lots' entries hold, the lost total gains what they lose, and a loss
record joins the list. The slot is emptied and worn, its tally 4 or one more; the lost numbers leave every lane,
reservation set, queue, bench list, channel and pot-life list that names them; then each queue place they held is given
to the WAITING lot that is earliest; WORN is raised when the slot was not worn, and LOST (R100, R154 to R157). The
damage marks, the lost number of an unreadable record, and the order inside the one change are the model's (log entries
5, 10 and 11), and that the marks of the totals and of the health entry stand its choices (log entries 37 and 38). -/
def Obligations.LossMovesAshToTheLostTotal : Prop :=
  ∀ (s : State) (l : Lot), s.phase = .running → s.lotAt s.cyclePosition = some l → l.record.code = .beyond →
    l.entry.code = .beyond → (∀ j m, j ≠ s.cyclePosition → s.lotAt j = some m → cleanLot m) →
    let kept := s.occupied.filter fun x => x.1 != s.cyclePosition
    let ash := (kept.map fun x => (x.2.entry.held.ash : Int)).sum
    let reserved := (kept.map fun x => ((x.2.entry.held.reservation.getD 0 : Nat) : Int)).sum
    let lost := s.account.lost + (s.account.live - ash) + (s.account.reserved - reserved)
    let k := s.cyclePosition
    let y := s.slot k
    let gone := lostWith s k l
    let freed := (s.queue.filter gone).length + (s.bench.filter fun e => gone e.lot).length
    let left : State := { s with
      slots := s.slots.setIfInBounds k { y with
        contents := none, waiting := false, worn := true, tally := if y.tally < 4 then 4 else min 15 (y.tally + 1) }
      account := { s.account with live := ash, reserved := reserved, lost := lost }
      cells := mapVector (fun c => { c with
        lane := c.lane.filter (!gone ·), reservations := c.reservations.filter (!gone ·) }) s.cells
      channels := mapVector (fun c => c.filter fun b => !gone b.lot) s.channels
      queue := s.queue.filter (!gone ·)
      bench := s.bench.filter (fun e => !gone e.lot)
      potLife := s.potLife.filter (fun e => !gone e.lot) }
    ∃ x, x.minute = s.clock ∧ x.ash = s.account.live - ash ∧ x.reservation = s.account.reserved - reserved ∧
      x.lostTotal = lost ∧
      (x.slots = [(k, l.numberCopy)] ∨ l.numberCopy = none ∧ ∃ n, gone n = true ∧ x.slots = [(k, some n)]) ∧
      exec (.auditStep []) s = .next { left.giveRooms freed with
        losses := appendLoss s.losses x
        ports := ((if y.worn then s else s.raise .worn).raise .lost).ports
        cyclePosition := (k + 1) % 512 }

/-- SLOT HEALTH answers the cycle position, the four counts, the slots that are worn or have a tally, and the loss list,
and clears every reported flag. REINSTATE SLOT refuses a number out of range, a mode other than SERVICE, and a slot
occupied or not worn; a slot reinstated is healthy with tally 0, and the record that waits in the lowest-numbered slot,
if any, moves into it. A freed slot keeps its wear: a worn one, or one that no record waits for, stays free, and the
record that waits in the lowest-numbered slot is moved into a healthy one (R9, R156, R158 to R160). The codes of wear
and occupancy and the presence byte are the model's (log entry 13), and so is it that a waiting record moves with fresh
codes over what stands (log entry 7), and that the health entry's own check stays as it stood when its reported flag is
cleared or its slot reinstated (log entry 38). -/
def Obligations.SlotsAreReportedAndReused : Prop :=
  (∀ (p : PortName) (t : Nat) (s : State), ready s p .plant →
    (let all := s.slots.toList
      let count (f : Slot → Bool) : Machine.Field := .u16 (all.filter f).length
      let mark (b : Bool) : Machine.Field := .u8 (if b then 1 else 0)
      let listed := all.zipIdx.filter fun x => decide (0 < x.1.tally) || x.1.worn
      exec (.slotHealth p t) s = .next { s with
        slots := mapVector (fun x => { x with reported := false }) s.slots
        ports := replied s p t .done ([.u16 s.cyclePosition, count fun x => x.contents.isNone && !x.worn,
          count fun x => x.contents.isNone && x.worn, count fun x => x.contents.isSome && !x.worn,
          count fun x => x.contents.isSome && x.waiting, .u16 listed.length] ++
          listed.flatMap (fun x => [.u16 x.2, .u8 x.1.tally, mark x.1.worn, mark x.1.contents.isSome, mark x.1.waiting,
            mark x.1.reported]) ++ [.u16 s.losses.length] ++
          s.losses.flatMap fun y => [.u32 y.minute, .u16 y.slots.length] ++
            y.slots.flatMap (fun z => [.u16 z.1, .u24 (z.2.getD 0)]) ++
            [.u32 y.ash.toNat, .u32 y.reservation.toNat, .u48 y.lostTotal.toNat]) }) ∧
    ∀ k, (511 < k → exec (.reinstateSlot p t k) s = .next (repliedWith s p t .range [])) ∧
      (k ≤ 511 → s.mode ≠ .service → exec (.reinstateSlot p t k) s =
        .next (repliedWith s p t .mode [.u8 (modeCode s.mode)])) ∧
      (k ≤ 511 → s.mode = .service →
        ((s.slot k).contents ≠ none ∨ (s.slot k).worn = false →
          exec (.reinstateSlot p t k) s = .next (repliedWith s p t .state [])) ∧
        ((s.slot k).contents = none → (s.slot k).worn = true →
          let healthy := { s.slot k with tally := 0, worn := false, reported := false }
          let answer (slots : Vector Slot 512) (moved : List Machine.Field) : State := { s with
            slots := slots
            ports := replied s p t .done (.u16 k :: (moved ++
              [.u16 (slots.toList.filter fun x => x.contents.isNone && !x.worn).length])) }
          ((∀ j, awaits (s.slot j) = false) → exec (.reinstateSlot p t k) s =
            .next (answer (s.slots.setIfInBounds k healthy) [.u8 0, .u16 0])) ∧
          ∀ w l, s.lotAt w = some l → (s.slot w).waiting = true → (∀ j, j < w → awaits (s.slot j) = false) →
            exec (.reinstateSlot p t k) s = .next (answer
              ((s.slots.setIfInBounds k { healthy with contents := some (relocated l) }).setIfInBounds w
                { s.slot w with contents := none, waiting := false }) [.u8 1, .u16 w])))) ∧
  ∀ (s : State) (k : Nat), k ≤ 511 →
    let emptied := s.setSlot k { s.slot k with contents := none, waiting := false }
    ((s.slot k).worn = true ∨ (∀ j, j ≠ k → awaits (s.slot j) = false) → s.freeSlot k = emptied) ∧
    ∀ w l, (s.slot k).worn = false → w ≠ k → s.lotAt w = some l → (s.slot w).waiting = true →
      (∀ j, j < w → j ≠ k → awaits (s.slot j) = false) →
      s.freeSlot k = (emptied.setSlot k { emptied.slot k with contents := some (relocated l) }).setSlot w
        { s.slot w with contents := none, waiting := false }

/-! ### Ports, notices and starts -/

/-- MODE makes the named mode current and answers the modes and the four ports; NOTICE MASK sets a port's mask with
RESTART always in it; NOTICES answers and empties the pending set of the port that asks; each changes nothing else, and
a value out of range is refused RANGE. A port's attention line is active exactly while the part is at work and its
pending set is not empty (R173, R178 to R180). That no count stands before the four ports is the model's choice (log
entry 13). -/
def Obligations.ModesMasksAndNotices : Prop :=
  (∀ (p : PortName) (t code : Nat) (s : State), ready s p .plant →
    (2 < code → exec (.mode p t code) s = .next (repliedWith s p t .range [])) ∧
    ∀ m, (code, m) ∈ [(0, PlantMode.run), (1, .pause), (2, .service)] → exec (.mode p t code) s = .next { s with
      mode := m
      ports := replied s p t .done ([.u8 (modeCode s.mode), .u8 code] ++
        State.portList { s with ports := s.ports.set p { s.port p with present := true } }) }) ∧
  (∀ (p : PortName) (t port kinds : Nat) (s : State), ready s p .plant →
    (3 < port ∨ 2047 < kinds → exec (.noticeMask p t port kinds) s = .next (repliedWith s p t .range [])) ∧
    ∀ q, kinds ≤ 2047 → (port, q) ∈ [(0, PortName.a), (1, .b), (2, .c), (3, .d)] →
      let mask := withNotice (BitVec.ofNat 11 kinds) .restart
      exec (.noticeMask p t port kinds) s = .next { s with
        ports := replied (s.setPort q { s.port q with mask := ⟨mask, (s.port q).role, true⟩ }) p t .done
          [.u8 port, .u8 (roleCode (s.port q).role), .u16 mask.toNat] }) ∧
  (∀ (p : PortName) (t : Nat) (s : State), s.phase = .running → (s.port p).request = .ready →
    exec (.notices p t) s = .next { s with
      ports := replied (s.setPort p { s.port p with notices := 0 }) p t .done
        [.u16 (s.port p).notices.toNat, .u32 s.clock] }) ∧
  ∀ (p : PortName) (s : State), attention s (s.port p) = true ↔ s.phase = .running ∧ (s.port p).notices ≠ 0

/-- PORT SETUP: port A, an unknown port or role, and a window out of range are refused RANGE; a setup taken sets the
port's role and window, gives a changed role its default mask, frees the channels the port may hold no longer, their
lots becoming orphans, returns the bench lots of a port that is lab no longer, and begins the writing of the record of
the three ports, or has it replace the one being written when that ends. ORPHAN is raised when a channel was freed, and
no pending set changes otherwise. The port that asks is answered, and but for that and the pending sets no other port
changes, nor anything else of the port set up. The answer gives the setup of the four ports, the channels freed and the
lots returned. The end of the writing stores the record (R50, R52, R100, R110, R111, R148, R170, R171, R177). By the
model's reading or choice: the role and mask change before the notices of the freed channels are raised (log entry 21),
a write end with no write changes nothing (4), a third setup replaces the record that waits (41), bench lots of a port
that a start has given another role stay (32), the changes of records that hold faults (6), the order of the two lists
(43), and the four ports without a count before them (13). -/
def Obligations.PortSetupTakesEffectAtOnce : Prop :=
  (∀ (p : PortName) (t port role first last : Nat) (s : State), ready s p .plant → s.mode = .service →
    (port = 0 ∨ 3 < port ∨ 3 < role → exec (.portSetup p t port role first last) s =
      .next (repliedWith s p t .range [])) ∧
    ∀ q r, (port, q) ∈ [(1, PortName.b), (2, .c), (3, .d)] →
      (role, r) ∈ [(0, Role.plant), (1, .mixer), (2, .lab), (3, .yard)] →
      let window : Option Window := if r = .mixer ∨ r = .yard then some ⟨first, last⟩ else none
      let fits := (r = .mixer → first ≤ last ∧ last ≤ 3) ∧ (r = .yard → first ≤ last ∧ last ≤ 95) ∧
        (r = .plant ∨ r = .lab → first = 0 ∧ last = 0)
      let freed (c : Nat) : Prop := ∃ b, s.channel c = some b ∧ b.holder = q ∧ ¬ (r = .mixer ∧ first ≤ c ∧ c ≤ last)
      let frees : List Nat := s.channelsWhere fun c b =>
        decide (b.holder = q ∧ ¬ (r = .mixer ∧ first ≤ c ∧ c ≤ last))
      let leaves : Prop := (s.port q).role = .lab ∧ r ≠ .lab
      (¬ fits → exec (.portSetup p t port role first last) s = .next (repliedWith s p t .range [])) ∧
      (fits → ∃ s' body, exec (.portSetup p t port role first last) s = .next s' ∧
        (s'.port q).role = r ∧ (s'.port q).window = window ∧
        (r ≠ (s.port q).role → (s'.port q).mask = ⟨defaultMask r, r, true⟩) ∧
        (r = (s.port q).role → (s'.port q).mask = (s.port q).mask) ∧
        (s'.port p).answer = some ⟨t, .done, body⟩ ∧
        (∀ x, x ≠ q → x ≠ p → { s'.port x with notices := (s.port x).notices } = s.port x) ∧
        (p ≠ q → { s'.port p with notices := (s.port p).notices } = answeredPort (s.port p) t .done body none) ∧
        { s'.port q with
            role := (s.port q).role, window := (s.port q).window, mask := (s.port q).mask
            notices := (s.port q).notices } =
          (if q = p then answeredPort (s.port q) t .done body none else s.port q) ∧
        (let now (x : PortName) : PortRole := ⟨(s'.port x).role, (s'.port x).window⟩
          let record : SetupRecord := ⟨now .b, now .c, now .d⟩
          (s.setup.writing = none → s'.setup = { s.setup with writing := some record }) ∧
          (s.setup.writing ≠ none → s'.setup = { s.setup with next := some record })) ∧
        (∀ x, (s'.port x).notices = heard (s'.port x).mask.kinds .orphan (!frees.isEmpty) (s.port x).notices) ∧
        body = s'.setupList ++ listField (fun c => [.u8 c]) frees ++
          listField (fun n => [.u24 n]) (if (s.port q).role = .lab ∧ r ≠ .lab then s.benchOf q else []) ∧
        (∀ c, s.channel c = none → s'.channel c = none) ∧
        (∀ c b, s.channel c = some b → s'.channel c =
          if b.holder = q ∧ ¬ (r = .mixer ∧ first ≤ c ∧ c ≤ last) then none else some b) ∧
        (¬ leaves → orphansMade s s' freed ∧ s'.queue = s.queue ∧ s'.bench = s.bench) ∧
        (leaves → ∃ v : State, v = { s with slots := v.slots, channels := s'.channels } ∧ orphansMade s v freed ∧
          benchReturned v s' q) ∧
        s' = { s with
          slots := s'.slots, channels := s'.channels, queue := s'.queue, bench := s'.bench, setup := s'.setup
          ports := s'.ports })) ∧
  ∀ (s : State), (s.setup.writing = none → exec .portSetupWriteEnd s = .next s) ∧
    ∀ x, s.setup.writing = some x → exec .portSetupWriteEnd s = .next { s with
      setup := { stored := x, checkGood := true, writing := s.setup.next, next := none } }

/-- A PRESENT port whose timer runs out becomes ABSENT: a mixer port's channels are freed, their lots losing their
channel field, and ORPHAN is raised; the lots on the bench list under the port leave it and become CURED, QUEUED at the
front in take order or PARKED as their hold sets stand, and the places of the PARKED ones are given to WAITING lots; a
port that holds neither loses nothing more (R50, R100, R110, R114, R148, R172). That the expiry of a stopped timer, or
on an ABSENT port, changes nothing, that a tester whose role a start has changed hands its lots back too, and what the
unchecked changes do to a record that holds a fault and to what its repair would give, is the model's reading (log
entries 4, 32 and 6). -/
def Obligations.SilentPortBecomesAbsent : Prop :=
  ∀ (p : PortName) (s : State), s.phase = .running →
    ((s.port p).present = false ∨ (s.port p).idleTimer = none → exec (.idleTimerExpiry p) s = .next s) ∧
    ((s.port p).present = true → (s.port p).idleTimer ≠ none →
      let absent := s.ports.set p { s.port p with present := false, idleTimer := none }
      let holds (b : Binding) : Prop := b.holder = p
      let tests : Prop := ∃ e ∈ s.bench, e.tester = p
      ((s.port p).role ≠ .mixer ∨ (∀ c b, s.channel c = some b → ¬ holds b) →
        (¬ tests → exec (.idleTimerExpiry p) s = .next { s with ports := absent }) ∧
        ∃ s', exec (.idleTimerExpiry p) s = .next s' ∧ benchReturned s s' p ∧
          s' = { s with slots := s'.slots, queue := s'.queue, bench := s'.bench, ports := absent }) ∧
      ((s.port p).role = .mixer → (∃ c b, s.channel c = some b ∧ holds b) →
        (¬ tests → ∃ s', exec (.idleTimerExpiry p) s = .next s' ∧
          (∀ c, s'.channel c = match s.channel c with
            | some b => if b.holder = p then none else some b
            | none => none) ∧
          orphansMade s s' (fun c => ∃ b, s.channel c = some b ∧ holds b) ∧
          s' = { s with
            slots := s'.slots, channels := s'.channels
            ports := (State.raise { s with ports := absent } .orphan).ports }) ∧
        ∃ v s', exec (.idleTimerExpiry p) s = .next s' ∧
          (∀ c, s'.channel c = match s.channel c with
            | some b => if b.holder = p then none else some b
            | none => none) ∧
          v = { s with slots := v.slots, channels := s'.channels } ∧
          orphansMade s v (fun c => ∃ b, s.channel c = some b ∧ holds b) ∧ benchReturned v s' p ∧
          s' = { s with
            slots := s'.slots, channels := s'.channels, queue := s'.queue, bench := s'.bench
            ports := (State.raise { s with ports := absent } .orphan).ports }))

/-- RESTART is answered DONE and asks for a warm start; CLEAR REGISTER with the number of live lots is answered DONE
with it and asks for a cold start, with another number it is refused RANGE with it, and above 512 with nothing (R182,
R185). That the last carries no number is the model's choice (log entry 46). -/
def Obligations.RestartAndClearAskForStarts : Prop :=
  ∀ (p : PortName) (t : Nat) (s : State), ready s p .plant →
    exec (.restart p t) s = .next { s with ports := repliedStart s p t [] .warm } ∧
    (s.mode = .service → ∀ count,
      (512 < count → exec (.clearRegister p t count) s = .next (repliedWith s p t .range [])) ∧
      (count ≤ 512 → count ≠ s.liveCount → exec (.clearRegister p t count) s =
        .next (repliedWith s p t .range [.u16 s.liveCount])) ∧
      (count ≤ 512 → count = s.liveCount → exec (.clearRegister p t count) s =
        .next { s with ports := repliedStart s p t [.u16 count] .cold }))

/-- A warm restart, due or by the reset line, begins in PAUSE with every channel FREE and the round, the commit and the
writes cut off; it keeps the account, the counter, the queue, the bench list, the cells, the losses and the clock, and
loads the stores, and the masks, as their start checks find them. While every health entry checks good, each slot keeps
its lot, and the lots the channels bound lose their channel field alone; one failing entry makes its slot worn with
tally 4, its lot moving into the lowest free healthy slot or waiting there. Each port's pending set becomes RESTART,
with ORPHAN when a lot was orphaned and WORN when a health entry failed, as its mask has them. The reset line's release
applies the outage rule to each cell sampled more than 5 minutes before the clock, whose clean CURING lots gain SENSOR,
and raises HOLD and CELLFAULT (R51, R79, R90, R114, R134, R143, R161, R171, R173, R177, R182, R183). A start or a reset
taken during a start has the effect of one start, the start staying warm or cold as it began, and while the main supply
is off the line's level alone is kept. That a start due is begun by a later row, and what one taken during a start does,
that a row whose condition does not stand changes nothing, that the outage rule acts at the release and again at
completion, what the stores and a moved record hold after a failing check, the reset line without the supply, and what
an unchecked orphaning does to a record that holds a fault and to what its repair would give (R148), is the model's
reading (log entries 16, 4, 17, 20, 7, 42 and 6). Several failing health entries, and a release while at work or without
supply, are left out. -/
def Obligations.WarmRestartKeepsTheRegister : Prop :=
  (∀ (s : State), s.phase = .running →
    ∀ i cause, (i = .warmRestart ∧ s.warmDue = true ∧ cause = StartCause.restart) ∨
      (i = .resetLineAssert ∧ cause = StartCause.resetLine) →
    ∃ s', exec i s = .next s' ∧ (∀ c, s'.channel c = none) ∧ storesLoaded s s' false ∧ startedSlots s s' ∧
      (∀ p, (s'.port p).present = true ∧ (s'.port p).request = .ready ∧ (s'.port p).answer = none ∧
        (s'.port p).idleTimer = none ∧ hasNotice (s'.port p).notices .restart = true ∧
        (s'.port p).notices = startNotices s (s'.port p).mask.kinds) ∧
      s' = { s with
        slots := s'.slots, channels := s'.channels, ports := s'.ports, recipes := s'.recipes, bank := s'.bank
        bankStored := s'.bankStored, bankCheckGood := true, bankWrites := [], commit := none, scan := none
        cyclePosition := 0, setup := s'.setup, mode := .pause, phase := .starting cause
        warmDue := if i = .warmRestart then false else s.warmDue
        resetLine := if i = .warmRestart then s.resetLine else true }) ∧
  (∀ (s : State), s.warmDue = false → exec .warmRestart s = .next s) ∧
  (∀ (s : State), s.phase ≠ .running → exec .warmRestart s = .next { s with warmDue := false }) ∧
  (∀ (s : State) (cause : StartCause), s.phase = .starting cause → exec .resetLineAssert s = .next { s with
    phase := .starting (if cause = .cold then .cold else .resetLine), resetLine := true }) ∧
  (∀ (s : State), s.phase = .off → exec .resetLineAssert s = .next { s with resetLine := true }) ∧
  (∀ (s : State), s.resetLine = false → exec .resetLineRelease s = .next s) ∧
  ∀ (s : State) (cause : StartCause), s.resetLine = true → s.phase = .starting cause →
    (cause = .cold → exec .resetLineRelease s = .next { s with resetLine := false }) ∧
    (cause ≠ .cold → ∃ s', exec .resetLineRelease s = .next s' ∧ outageApplied s s' ∧ portsKept s s' ∧
      s' = { s with slots := s'.slots, cells := s'.cells, ports := s'.ports, resetLine := false })

/-- A cold start empties the register: no lot, account, cell, queue, bench list, channel, pot life or loss is left, the
counter holds 1 and the clock 0, the mode is SERVICE, the signature is erased, and each slot keeps its tally and its
wear but for a health entry that fails its check; the recipes, the active bank and the stored port setup are left as
their start checks find them, and the pending bank is cleared; each port's pending set becomes RESTART, with WORN when a
health entry failed, as its mask has it; a cold start due during a start does the same, and one due when the main supply
is off is dropped (R26, R74, R134, R143, R156, R161, R171, R173, R177, R183, R185). That a start due is begun by a later
row, that the row changes nothing when none is due, that the signature is absent until the start completes, what the
stores hold after a failing check, and that a due start is lost with the supply, is the model's reading (log entries 16,
4, 18, 20 and 33). -/
def Obligations.ColdStartEmptiesTheRegister : Prop :=
  ∀ (s : State), (s.coldDue = false → exec .coldStart s = .next s) ∧
    (s.phase = .off → exec .coldStart s = .next { s with coldDue := false }) ∧
    (s.coldDue = true → s.phase ≠ .off → ∃ s', exec .coldStart s = .next s' ∧ registerEmpty s' ∧
      storesLoaded s s' true ∧
      (∀ k, k ≤ 511 → (s'.slot k).contents = none ∧ (s'.slot k).reported = false ∧ (s'.slot k).waiting = false ∧
        ((s.slot k).checkGood = true → (s'.slot k).tally = (s.slot k).tally ∧ (s'.slot k).worn = (s.slot k).worn) ∧
        ((s.slot k).checkGood = false → (s'.slot k).tally = 4 ∧ (s'.slot k).worn = true)) ∧
      (∀ c, c ≤ 95 → s'.cell c = Cell.blank) ∧ (∀ c, s'.channel c = none) ∧
      (∀ p, (s'.port p).mask.kinds = defaultMask (s'.port p).role ∧ (s'.port p).present = true ∧
        (s'.port p).notices = heard (s'.port p).mask.kinds .worn (healthFails s) restartOnly) ∧
      s' = { s with
        slots := s'.slots, counter := ⟨1, false⟩, account := ⟨0, 0, 0, 0, 0, 0, 0, 0, true⟩, channels := s'.channels
        potLife := [], cells := s'.cells, scan := none, queue := [], bench := [], recipes := s'.recipes, bank := s'.bank
        bankStored := s'.bankStored, bankCheckGood := true, bankWrites := [], commit := none, cyclePosition := 0
        losses := [], ports := s'.ports, setup := s'.setup, mode := .service, clock := 0, phase := .starting .cold
        signature := false, coldDue := false })

/-- A start completes while the reset line is released: the part is at work, every idle timer starts at 30 s, a cold
start has written its signature, a start by the reset line has the outage rule applied, and the pot lives it overtook
are judged: the due entries leave the list, each of their clean MIXING lots gains POTLIFE, and HOLD and POTLIFE are
raised; while the line is held it does not complete (R5, R49, R90, R182, R183, R185). When the signature is written,
that the rule was applied at the release too, and that a start not begun by the line, as one begun by the supply's
return, waits for the release as well, is the model's reading or choice (log entries 18, 17 and 42). -/
def Obligations.StartCompletesTheWork : Prop :=
  ∀ (s : State) (cause : StartCause), s.phase = .starting cause →
    (s.resetLine = true → exec .startComplete s = .next s) ∧
    (s.resetLine = false → nothingDue s → (cause = .resetLine → ∀ c, c ≤ 95 → s.clock ≤ (s.cell c).lastStamp + 5) →
      exec .startComplete s = .next { s with
        phase := .running, signature := s.signature || decide (cause = .cold)
        ports := s.ports.map fun _ x => { x with idleTimer := some 30 } }) ∧
    (s.resetLine = false → nothingDue s → cause = .resetLine → ∃ s', exec .startComplete s = .next s' ∧
      outageApplied s s' ∧
      (∀ p, { s'.port p with notices := (s.port p).notices } = { s.port p with idleTimer := some 30 }) ∧
      s' = { s with slots := s'.slots, cells := s'.cells, ports := s'.ports, phase := .running }) ∧
    (s.resetLine = false → potOrdered s.potLife →
      let begun : State := { s with
        phase := .running, signature := s.signature || decide (cause = .cold)
        ports := s.ports.map fun _ x => { x with idleTimer := some 30 } }
      let ruled := if cause = .resetLine then begun.outageRule else begun
      ∃ s', exec .startComplete s = .next s' ∧ s'.phase = .running ∧
        s'.potLife = s.potLife.filter (fun e => s.clock < e.deadline) ∧
        (∀ p, (s'.port p).idleTimer = some 30) ∧ potLifeJudged ruled s' ∧ portsKept ruled s' ∧
        s' = { ruled with slots := s'.slots, queue := s'.queue, potLife := s'.potLife, ports := s'.ports })

/-- The main supply's loss stops the part and cuts off work in flight; at its return the retention check, signature
intact, totals good and account balanced, decides between a warm power-up in PAUSE, which keeps the account, the queue,
the clock and each slot's lot as a warm restart does and applies the outage rule, and a cold start in SERVICE with an
empty register. Each port's pending set becomes RESTART with what the start rules raise, as its mask has it: ORPHAN,
WORN, HOLD and CELLFAULT at a power-up, WORN at a cold start (R22, R51, R90, R148, R161, R177, R183, R184). A return
that lists faults in retained memory acts as one without them on the memory so disturbed (log entry 5); a due start is
lost with the supply (log entry 33), a return while the supply is held changes nothing (log entries 4 and 31), the
stores and a moved record hold after a failing check what log entries 20 and 7 say, and an unchecked orphaning changes a
record that holds a fault and what its repair would give as log entry 6 says, by the model's reading. The roles, windows
and masks after a loss, and the cells and queue after a failing check, are left out. -/
def Obligations.SupplyReturnIsWarmOrCold : Prop :=
  (∀ (s : State), s.phase ≠ .off → ∃ s', exec .mainSupplyLoss s = .next s' ∧
    (∀ p, (s'.port p).request = .ready ∧ (s'.port p).answer = none ∧ (s'.port p).idleTimer = none ∧
      (s'.port p).notices = (s.port p).notices) ∧
    (s.commit = none → s'.recipes = s.recipes) ∧
    (∀ c, s.commit = some c → c.recipe.bank ≤ 1 → c.recipe.number ≤ 7 → (s'.recipe c.recipe).checkGood = false) ∧
    s' = { s with
      phase := .off, scan := none, commit := none, bankWrites := [], warmDue := false, coldDue := false
      recipes := s'.recipes, bank := if s.bankWrites = [] then s.bank else s.bankStored
      setup := ⟨s.setup.stored, s.setup.checkGood && s.setup.writing.isNone, none, none⟩, ports := s'.ports }) ∧
  (∀ (s : State), s.phase ≠ .off → ∀ u, exec (.mainSupplyReturn u) s = .next s) ∧
  (∀ (s : State), s.phase = .off → ∀ u, exec (.mainSupplyReturn u) s = exec (.mainSupplyReturn []) (s.disturbAll u)) ∧
  ∀ (s : State), s.phase = .off →
    let good := s.signature = true ∧ s.account.checksGood = true ∧
      s.account.intake + s.account.unbooked = s.account.balance + s.account.reserved + s.account.live +
        s.account.released + s.account.discard + s.account.lost
    (good → ∃ s', exec (.mainSupplyReturn []) s = .next s' ∧ storesLoaded s s' false ∧ (∀ c, s'.channel c = none) ∧
      (∀ c, c ≤ 95 → s'.cell c = if outageReaches s c then { s.cell c with faulty := true, misses := 5 } else s.cell c) ∧
      ((∀ c, c ≤ 95 → ¬ outageReaches s c) → startedSlots s s') ∧
      (healthChecks s → ∀ c n k r, c ≤ 95 → outageReaches s c → n ∈ (s.cell c).lane → liveLot s n k r →
        r.state = .curing → r.channel = none → s'.recordAt k = some { r with holds := withHold r.holds .sensor }) ∧
      (∀ p, let mask := (s'.port p).mask.kinds
        (s'.port p).notices = outageNotices s.warmStart mask (startNotices s mask)) ∧
      outageReached s.warmStart = outageReached s ∧
      (healthChecks s ∨ outageReached s = false → outageGains s.warmStart = outageGains s) ∧
      s' = { s with
        slots := s'.slots, channels := s'.channels, cells := s'.cells, ports := s'.ports, recipes := s'.recipes
        bank := s'.bank, bankStored := s'.bankStored, bankCheckGood := true, bankWrites := [], commit := none
        scan := none, cyclePosition := 0, setup := s'.setup, mode := .pause, phase := .starting .powerUp }) ∧
    (¬ good → ∃ s', exec (.mainSupplyReturn []) s = .next s' ∧ storesLoaded s s' true ∧ s'.phase = .starting .cold ∧
      s'.mode = .service ∧ registerEmpty s' ∧ s'.clock = 0 ∧ s'.signature = false ∧ balanced s'.account = true ∧
      ∀ p, (s'.port p).notices = heard (s'.port p).mask.kinds .worn (healthFails s) restartOnly)

/-! ### Reset and the standing rules -/

/-- The machine after reset: an empty register in SERVICE with clock 0 and counter 1, the default port setup, bank 0
active, and RESTART alone pending on every port. That reset is a new module after its first cold start, with every slot
healthy and every recipe INVALID, is the model's choice (log entry 1). -/
def Obligations.ResetIsAnEmptyRegister : Prop :=
  let s := State.reset
  registerEmpty s ∧ s.pending = [] ∧ s.mode = .service ∧ s.clock = 0 ∧ s.bank = ⟨0, none⟩ ∧ s.phase = .running ∧
    s.account = ⟨0, 0, 0, 0, 0, 0, 0, 0, true⟩ ∧ s.queue = [] ∧ s.bench = [] ∧ s.potLife = [] ∧ s.losses = [] ∧
    (∀ k, s.slot k = Slot.blank) ∧ (∀ c, s.cell c = Cell.blank) ∧ (∀ c, s.channel c = none) ∧
    (∀ r, s.recipe r = StoredRecipe.blank) ∧
    (∀ p, (s.port p).present = true ∧ (s.port p).request = .ready ∧ (s.port p).idleTimer = some 30 ∧
      (s.port p).notices = restartOnly ∧ (s.port p).mask.kinds = defaultMask (s.port p).role) ∧
    [(s.port .a).role, (s.port .b).role, (s.port .c).role, (s.port .d).role] = [.plant, .mixer, .lab, .yard] ∧
    (s.port .a).window = none ∧ (s.port .b).window = some ⟨0, 3⟩ ∧ (s.port .c).window = none ∧
    (s.port .d).window = some ⟨0, 95⟩

/-- Every standing rule holds at reset: the balance, the ports, the banks, the health table, the counters, the pot-life
list, the collections, and the account beside the lots. The reset state is the model's (log entry 1). -/
def Obligations.StandingRulesHoldAtReset : Prop :=
  balanced State.reset.account = true ∧ portsSound State.reset ∧ banksSound State.reset ∧ healthSound State.reset ∧
    countersSound State.reset ∧ potOrdered State.reset.potLife ∧ collectionsSound State.reset ∧
    ashAgrees State.reset

/-- Every step keeps the balance of the ash account: intake and unbooked equal balance, reserved, live, released,
discarded and lost together (R22). -/
def Obligations.StepKeepsTheAccountBalanced : Prop :=
  ∀ (s s' : State), balanced s.account = true → step s = .next s' → balanced s'.account = true

/-- Every step keeps the ports sound: port A is plant, each role has the window R163 gives it, RESTART is in every mask;
and the banks: both 0 or 1, a pending bank never the active one (R134, R163, R177). -/
def Obligations.StepKeepsPortsAndBanksSound : Prop :=
  ∀ (s s' : State), step s = .next s' →
    (portsSound s → portsSound s') ∧ (banksSound s → banksSound s')

/-- Every step keeps the health table: no tally above 15, and a slot whose tally is 4 or more is worn (R150, R157). -/
def Obligations.StepKeepsWearSound : Prop :=
  ∀ (s s' : State), healthSound s → step s = .next s' → healthSound s'

/-- Every step keeps the clock and the counter in their ranges and the pot-life list in its order, and the counter never
moves back but where a cold start has emptied the register (R11, R48, R181). -/
def Obligations.StepNeverMovesTheCounterBack : Prop :=
  ∀ (s s' : State), step s = .next s' →
    (countersSound s → countersSound s' ∧ (counterHolds s.counter s'.counter ∨ registerEmpty s')) ∧
    (potOrdered s.potLife → potOrdered s'.potLife)

/-- Every step of a command that lists no memory fault keeps the collections sound: every lot clean and of a number of
its own that the counter has given; each number in a lane, a reservation set, the queue, the bench list or a channel
that of a live lot in the state the collection is for; a number in at most one lane and once in it; at most six lots and
reservations to a cell, and at most 64 in the queue count (R11, R12, R27, R57 to R59, R96, R97). The numbers of a cell's
lane are its own: no other lane holds one of them. Beside sound collections the account keeps agreeing with the lots:
the live ash total is the carried ash of the MIXING lots and the ash mass of the others, and the reserved total is the
reservations of the MIXING lots (R22). -/
def Obligations.StepKeepsTheCollections : Prop :=
  ∀ (s s' : State), collectionsSound s → (∀ c ∈ s.pending.head?, listsNoFault c) → step s = .next s' →
    collectionsSound s' ∧ (∀ c d n, n ∈ (s'.cell c).lane → n ∈ (s'.cell d).lane → c = d) ∧ (ashAgrees s → ashAgrees s')
end

