-- ==== Sys2Proof/Laws/State.lean ====
section
/-! SUPPORT. What each plain update of the state leaves, field by field. -/

namespace Sys2Proof.Machine

/-! ### `State.setPort` -/

@[simp] theorem pending_setPort (s : State) (p : PortName) (v : Port) : (s.setPort p v).pending = s.pending := rfl
@[simp] theorem slots_setPort (s : State) (p : PortName) (v : Port) : (s.setPort p v).slots = s.slots := rfl
@[simp] theorem counter_setPort (s : State) (p : PortName) (v : Port) : (s.setPort p v).counter = s.counter := rfl
@[simp] theorem account_setPort (s : State) (p : PortName) (v : Port) : (s.setPort p v).account = s.account := rfl
@[simp] theorem channels_setPort (s : State) (p : PortName) (v : Port) : (s.setPort p v).channels = s.channels := rfl
@[simp] theorem potLife_setPort (s : State) (p : PortName) (v : Port) : (s.setPort p v).potLife = s.potLife := rfl
@[simp] theorem cells_setPort (s : State) (p : PortName) (v : Port) : (s.setPort p v).cells = s.cells := rfl
@[simp] theorem scan_setPort (s : State) (p : PortName) (v : Port) : (s.setPort p v).scan = s.scan := rfl
@[simp] theorem queue_setPort (s : State) (p : PortName) (v : Port) : (s.setPort p v).queue = s.queue := rfl
@[simp] theorem bench_setPort (s : State) (p : PortName) (v : Port) : (s.setPort p v).bench = s.bench := rfl
@[simp] theorem recipes_setPort (s : State) (p : PortName) (v : Port) : (s.setPort p v).recipes = s.recipes := rfl
@[simp] theorem bank_setPort (s : State) (p : PortName) (v : Port) : (s.setPort p v).bank = s.bank := rfl
@[simp] theorem bankStored_setPort (s : State) (p : PortName) (v : Port) : (s.setPort p v).bankStored = s.bankStored := rfl
@[simp] theorem bankCheckGood_setPort (s : State) (p : PortName) (v : Port) : (s.setPort p v).bankCheckGood = s.bankCheckGood := rfl
@[simp] theorem bankWrites_setPort (s : State) (p : PortName) (v : Port) : (s.setPort p v).bankWrites = s.bankWrites := rfl
@[simp] theorem commit_setPort (s : State) (p : PortName) (v : Port) : (s.setPort p v).commit = s.commit := rfl
@[simp] theorem cyclePosition_setPort (s : State) (p : PortName) (v : Port) : (s.setPort p v).cyclePosition = s.cyclePosition := rfl
@[simp] theorem losses_setPort (s : State) (p : PortName) (v : Port) : (s.setPort p v).losses = s.losses := rfl
@[simp] theorem ports_setPort (s : State) (p : PortName) (v : Port) : (s.setPort p v).ports = s.ports.set p v := rfl
@[simp] theorem setup_setPort (s : State) (p : PortName) (v : Port) : (s.setPort p v).setup = s.setup := rfl
@[simp] theorem mode_setPort (s : State) (p : PortName) (v : Port) : (s.setPort p v).mode = s.mode := rfl
@[simp] theorem clock_setPort (s : State) (p : PortName) (v : Port) : (s.setPort p v).clock = s.clock := rfl
@[simp] theorem phase_setPort (s : State) (p : PortName) (v : Port) : (s.setPort p v).phase = s.phase := rfl
@[simp] theorem resetLine_setPort (s : State) (p : PortName) (v : Port) : (s.setPort p v).resetLine = s.resetLine := rfl
@[simp] theorem signature_setPort (s : State) (p : PortName) (v : Port) : (s.setPort p v).signature = s.signature := rfl
@[simp] theorem warmDue_setPort (s : State) (p : PortName) (v : Port) : (s.setPort p v).warmDue = s.warmDue := rfl
@[simp] theorem coldDue_setPort (s : State) (p : PortName) (v : Port) : (s.setPort p v).coldDue = s.coldDue := rfl

/-! ### `State.raise` -/

@[simp] theorem pending_raise (s : State) (n : Notice) : (s.raise n).pending = s.pending := rfl
@[simp] theorem slots_raise (s : State) (n : Notice) : (s.raise n).slots = s.slots := rfl
@[simp] theorem counter_raise (s : State) (n : Notice) : (s.raise n).counter = s.counter := rfl
@[simp] theorem account_raise (s : State) (n : Notice) : (s.raise n).account = s.account := rfl
@[simp] theorem channels_raise (s : State) (n : Notice) : (s.raise n).channels = s.channels := rfl
@[simp] theorem potLife_raise (s : State) (n : Notice) : (s.raise n).potLife = s.potLife := rfl
@[simp] theorem cells_raise (s : State) (n : Notice) : (s.raise n).cells = s.cells := rfl
@[simp] theorem scan_raise (s : State) (n : Notice) : (s.raise n).scan = s.scan := rfl
@[simp] theorem queue_raise (s : State) (n : Notice) : (s.raise n).queue = s.queue := rfl
@[simp] theorem bench_raise (s : State) (n : Notice) : (s.raise n).bench = s.bench := rfl
@[simp] theorem recipes_raise (s : State) (n : Notice) : (s.raise n).recipes = s.recipes := rfl
@[simp] theorem bank_raise (s : State) (n : Notice) : (s.raise n).bank = s.bank := rfl
@[simp] theorem bankStored_raise (s : State) (n : Notice) : (s.raise n).bankStored = s.bankStored := rfl
@[simp] theorem bankCheckGood_raise (s : State) (n : Notice) : (s.raise n).bankCheckGood = s.bankCheckGood := rfl
@[simp] theorem bankWrites_raise (s : State) (n : Notice) : (s.raise n).bankWrites = s.bankWrites := rfl
@[simp] theorem commit_raise (s : State) (n : Notice) : (s.raise n).commit = s.commit := rfl
@[simp] theorem cyclePosition_raise (s : State) (n : Notice) : (s.raise n).cyclePosition = s.cyclePosition := rfl
@[simp] theorem losses_raise (s : State) (n : Notice) : (s.raise n).losses = s.losses := rfl
@[simp] theorem ports_raise (s : State) (n : Notice) : (s.raise n).ports = s.ports.map fun _ x => receive n x := rfl
@[simp] theorem setup_raise (s : State) (n : Notice) : (s.raise n).setup = s.setup := rfl
@[simp] theorem mode_raise (s : State) (n : Notice) : (s.raise n).mode = s.mode := rfl
@[simp] theorem clock_raise (s : State) (n : Notice) : (s.raise n).clock = s.clock := rfl
@[simp] theorem phase_raise (s : State) (n : Notice) : (s.raise n).phase = s.phase := rfl
@[simp] theorem resetLine_raise (s : State) (n : Notice) : (s.raise n).resetLine = s.resetLine := rfl
@[simp] theorem signature_raise (s : State) (n : Notice) : (s.raise n).signature = s.signature := rfl
@[simp] theorem warmDue_raise (s : State) (n : Notice) : (s.raise n).warmDue = s.warmDue := rfl
@[simp] theorem coldDue_raise (s : State) (n : Notice) : (s.raise n).coldDue = s.coldDue := rfl

/-! ### `State.setSlot` -/

@[simp] theorem pending_setSlot (s : State) (k : Nat) (x : Slot) : (s.setSlot k x).pending = s.pending := rfl
@[simp] theorem slots_setSlot (s : State) (k : Nat) (x : Slot) : (s.setSlot k x).slots = s.slots.setIfInBounds k x := rfl
@[simp] theorem counter_setSlot (s : State) (k : Nat) (x : Slot) : (s.setSlot k x).counter = s.counter := rfl
@[simp] theorem account_setSlot (s : State) (k : Nat) (x : Slot) : (s.setSlot k x).account = s.account := rfl
@[simp] theorem channels_setSlot (s : State) (k : Nat) (x : Slot) : (s.setSlot k x).channels = s.channels := rfl
@[simp] theorem potLife_setSlot (s : State) (k : Nat) (x : Slot) : (s.setSlot k x).potLife = s.potLife := rfl
@[simp] theorem cells_setSlot (s : State) (k : Nat) (x : Slot) : (s.setSlot k x).cells = s.cells := rfl
@[simp] theorem scan_setSlot (s : State) (k : Nat) (x : Slot) : (s.setSlot k x).scan = s.scan := rfl
@[simp] theorem queue_setSlot (s : State) (k : Nat) (x : Slot) : (s.setSlot k x).queue = s.queue := rfl
@[simp] theorem bench_setSlot (s : State) (k : Nat) (x : Slot) : (s.setSlot k x).bench = s.bench := rfl
@[simp] theorem recipes_setSlot (s : State) (k : Nat) (x : Slot) : (s.setSlot k x).recipes = s.recipes := rfl
@[simp] theorem bank_setSlot (s : State) (k : Nat) (x : Slot) : (s.setSlot k x).bank = s.bank := rfl
@[simp] theorem bankStored_setSlot (s : State) (k : Nat) (x : Slot) : (s.setSlot k x).bankStored = s.bankStored := rfl
@[simp] theorem bankCheckGood_setSlot (s : State) (k : Nat) (x : Slot) : (s.setSlot k x).bankCheckGood = s.bankCheckGood := rfl
@[simp] theorem bankWrites_setSlot (s : State) (k : Nat) (x : Slot) : (s.setSlot k x).bankWrites = s.bankWrites := rfl
@[simp] theorem commit_setSlot (s : State) (k : Nat) (x : Slot) : (s.setSlot k x).commit = s.commit := rfl
@[simp] theorem cyclePosition_setSlot (s : State) (k : Nat) (x : Slot) : (s.setSlot k x).cyclePosition = s.cyclePosition := rfl
@[simp] theorem losses_setSlot (s : State) (k : Nat) (x : Slot) : (s.setSlot k x).losses = s.losses := rfl
@[simp] theorem ports_setSlot (s : State) (k : Nat) (x : Slot) : (s.setSlot k x).ports = s.ports := rfl
@[simp] theorem setup_setSlot (s : State) (k : Nat) (x : Slot) : (s.setSlot k x).setup = s.setup := rfl
@[simp] theorem mode_setSlot (s : State) (k : Nat) (x : Slot) : (s.setSlot k x).mode = s.mode := rfl
@[simp] theorem clock_setSlot (s : State) (k : Nat) (x : Slot) : (s.setSlot k x).clock = s.clock := rfl
@[simp] theorem phase_setSlot (s : State) (k : Nat) (x : Slot) : (s.setSlot k x).phase = s.phase := rfl
@[simp] theorem resetLine_setSlot (s : State) (k : Nat) (x : Slot) : (s.setSlot k x).resetLine = s.resetLine := rfl
@[simp] theorem signature_setSlot (s : State) (k : Nat) (x : Slot) : (s.setSlot k x).signature = s.signature := rfl
@[simp] theorem warmDue_setSlot (s : State) (k : Nat) (x : Slot) : (s.setSlot k x).warmDue = s.warmDue := rfl
@[simp] theorem coldDue_setSlot (s : State) (k : Nat) (x : Slot) : (s.setSlot k x).coldDue = s.coldDue := rfl

/-! ### `State.setCell` -/

@[simp] theorem pending_setCell (s : State) (c : Nat) (x : Cell) : (s.setCell c x).pending = s.pending := rfl
@[simp] theorem slots_setCell (s : State) (c : Nat) (x : Cell) : (s.setCell c x).slots = s.slots := rfl
@[simp] theorem counter_setCell (s : State) (c : Nat) (x : Cell) : (s.setCell c x).counter = s.counter := rfl
@[simp] theorem account_setCell (s : State) (c : Nat) (x : Cell) : (s.setCell c x).account = s.account := rfl
@[simp] theorem channels_setCell (s : State) (c : Nat) (x : Cell) : (s.setCell c x).channels = s.channels := rfl
@[simp] theorem potLife_setCell (s : State) (c : Nat) (x : Cell) : (s.setCell c x).potLife = s.potLife := rfl
@[simp] theorem cells_setCell (s : State) (c : Nat) (x : Cell) : (s.setCell c x).cells = s.cells.setIfInBounds c x := rfl
@[simp] theorem scan_setCell (s : State) (c : Nat) (x : Cell) : (s.setCell c x).scan = s.scan := rfl
@[simp] theorem queue_setCell (s : State) (c : Nat) (x : Cell) : (s.setCell c x).queue = s.queue := rfl
@[simp] theorem bench_setCell (s : State) (c : Nat) (x : Cell) : (s.setCell c x).bench = s.bench := rfl
@[simp] theorem recipes_setCell (s : State) (c : Nat) (x : Cell) : (s.setCell c x).recipes = s.recipes := rfl
@[simp] theorem bank_setCell (s : State) (c : Nat) (x : Cell) : (s.setCell c x).bank = s.bank := rfl
@[simp] theorem bankStored_setCell (s : State) (c : Nat) (x : Cell) : (s.setCell c x).bankStored = s.bankStored := rfl
@[simp] theorem bankCheckGood_setCell (s : State) (c : Nat) (x : Cell) : (s.setCell c x).bankCheckGood = s.bankCheckGood := rfl
@[simp] theorem bankWrites_setCell (s : State) (c : Nat) (x : Cell) : (s.setCell c x).bankWrites = s.bankWrites := rfl
@[simp] theorem commit_setCell (s : State) (c : Nat) (x : Cell) : (s.setCell c x).commit = s.commit := rfl
@[simp] theorem cyclePosition_setCell (s : State) (c : Nat) (x : Cell) : (s.setCell c x).cyclePosition = s.cyclePosition := rfl
@[simp] theorem losses_setCell (s : State) (c : Nat) (x : Cell) : (s.setCell c x).losses = s.losses := rfl
@[simp] theorem ports_setCell (s : State) (c : Nat) (x : Cell) : (s.setCell c x).ports = s.ports := rfl
@[simp] theorem setup_setCell (s : State) (c : Nat) (x : Cell) : (s.setCell c x).setup = s.setup := rfl
@[simp] theorem mode_setCell (s : State) (c : Nat) (x : Cell) : (s.setCell c x).mode = s.mode := rfl
@[simp] theorem clock_setCell (s : State) (c : Nat) (x : Cell) : (s.setCell c x).clock = s.clock := rfl
@[simp] theorem phase_setCell (s : State) (c : Nat) (x : Cell) : (s.setCell c x).phase = s.phase := rfl
@[simp] theorem resetLine_setCell (s : State) (c : Nat) (x : Cell) : (s.setCell c x).resetLine = s.resetLine := rfl
@[simp] theorem signature_setCell (s : State) (c : Nat) (x : Cell) : (s.setCell c x).signature = s.signature := rfl
@[simp] theorem warmDue_setCell (s : State) (c : Nat) (x : Cell) : (s.setCell c x).warmDue = s.warmDue := rfl
@[simp] theorem coldDue_setCell (s : State) (c : Nat) (x : Cell) : (s.setCell c x).coldDue = s.coldDue := rfl

/-! ### `State.setChannel` -/

@[simp] theorem pending_setChannel (s : State) (c : Nat) (x : Channel) : (s.setChannel c x).pending = s.pending := rfl
@[simp] theorem slots_setChannel (s : State) (c : Nat) (x : Channel) : (s.setChannel c x).slots = s.slots := rfl
@[simp] theorem counter_setChannel (s : State) (c : Nat) (x : Channel) : (s.setChannel c x).counter = s.counter := rfl
@[simp] theorem account_setChannel (s : State) (c : Nat) (x : Channel) : (s.setChannel c x).account = s.account := rfl
@[simp] theorem channels_setChannel (s : State) (c : Nat) (x : Channel) : (s.setChannel c x).channels = s.channels.setIfInBounds c x := rfl
@[simp] theorem potLife_setChannel (s : State) (c : Nat) (x : Channel) : (s.setChannel c x).potLife = s.potLife := rfl
@[simp] theorem cells_setChannel (s : State) (c : Nat) (x : Channel) : (s.setChannel c x).cells = s.cells := rfl
@[simp] theorem scan_setChannel (s : State) (c : Nat) (x : Channel) : (s.setChannel c x).scan = s.scan := rfl
@[simp] theorem queue_setChannel (s : State) (c : Nat) (x : Channel) : (s.setChannel c x).queue = s.queue := rfl
@[simp] theorem bench_setChannel (s : State) (c : Nat) (x : Channel) : (s.setChannel c x).bench = s.bench := rfl
@[simp] theorem recipes_setChannel (s : State) (c : Nat) (x : Channel) : (s.setChannel c x).recipes = s.recipes := rfl
@[simp] theorem bank_setChannel (s : State) (c : Nat) (x : Channel) : (s.setChannel c x).bank = s.bank := rfl
@[simp] theorem bankStored_setChannel (s : State) (c : Nat) (x : Channel) : (s.setChannel c x).bankStored = s.bankStored := rfl
@[simp] theorem bankCheckGood_setChannel (s : State) (c : Nat) (x : Channel) : (s.setChannel c x).bankCheckGood = s.bankCheckGood := rfl
@[simp] theorem bankWrites_setChannel (s : State) (c : Nat) (x : Channel) : (s.setChannel c x).bankWrites = s.bankWrites := rfl
@[simp] theorem commit_setChannel (s : State) (c : Nat) (x : Channel) : (s.setChannel c x).commit = s.commit := rfl
@[simp] theorem cyclePosition_setChannel (s : State) (c : Nat) (x : Channel) : (s.setChannel c x).cyclePosition = s.cyclePosition := rfl
@[simp] theorem losses_setChannel (s : State) (c : Nat) (x : Channel) : (s.setChannel c x).losses = s.losses := rfl
@[simp] theorem ports_setChannel (s : State) (c : Nat) (x : Channel) : (s.setChannel c x).ports = s.ports := rfl
@[simp] theorem setup_setChannel (s : State) (c : Nat) (x : Channel) : (s.setChannel c x).setup = s.setup := rfl
@[simp] theorem mode_setChannel (s : State) (c : Nat) (x : Channel) : (s.setChannel c x).mode = s.mode := rfl
@[simp] theorem clock_setChannel (s : State) (c : Nat) (x : Channel) : (s.setChannel c x).clock = s.clock := rfl
@[simp] theorem phase_setChannel (s : State) (c : Nat) (x : Channel) : (s.setChannel c x).phase = s.phase := rfl
@[simp] theorem resetLine_setChannel (s : State) (c : Nat) (x : Channel) : (s.setChannel c x).resetLine = s.resetLine := rfl
@[simp] theorem signature_setChannel (s : State) (c : Nat) (x : Channel) : (s.setChannel c x).signature = s.signature := rfl
@[simp] theorem warmDue_setChannel (s : State) (c : Nat) (x : Channel) : (s.setChannel c x).warmDue = s.warmDue := rfl
@[simp] theorem coldDue_setChannel (s : State) (c : Nat) (x : Channel) : (s.setChannel c x).coldDue = s.coldDue := rfl

/-! ### `State.setRecipe` -/

@[simp] theorem pending_setRecipe (s : State) (r : RecipeRef) (x : StoredRecipe) : (s.setRecipe r x).pending = s.pending := rfl
@[simp] theorem slots_setRecipe (s : State) (r : RecipeRef) (x : StoredRecipe) : (s.setRecipe r x).slots = s.slots := rfl
@[simp] theorem counter_setRecipe (s : State) (r : RecipeRef) (x : StoredRecipe) : (s.setRecipe r x).counter = s.counter := rfl
@[simp] theorem account_setRecipe (s : State) (r : RecipeRef) (x : StoredRecipe) : (s.setRecipe r x).account = s.account := rfl
@[simp] theorem channels_setRecipe (s : State) (r : RecipeRef) (x : StoredRecipe) : (s.setRecipe r x).channels = s.channels := rfl
@[simp] theorem potLife_setRecipe (s : State) (r : RecipeRef) (x : StoredRecipe) : (s.setRecipe r x).potLife = s.potLife := rfl
@[simp] theorem cells_setRecipe (s : State) (r : RecipeRef) (x : StoredRecipe) : (s.setRecipe r x).cells = s.cells := rfl
@[simp] theorem scan_setRecipe (s : State) (r : RecipeRef) (x : StoredRecipe) : (s.setRecipe r x).scan = s.scan := rfl
@[simp] theorem queue_setRecipe (s : State) (r : RecipeRef) (x : StoredRecipe) : (s.setRecipe r x).queue = s.queue := rfl
@[simp] theorem bench_setRecipe (s : State) (r : RecipeRef) (x : StoredRecipe) : (s.setRecipe r x).bench = s.bench := rfl
@[simp] theorem recipes_setRecipe (s : State) (r : RecipeRef) (x : StoredRecipe) : (s.setRecipe r x).recipes = s.recipes.setIfInBounds (8 * r.bank + r.number) x := rfl
@[simp] theorem bank_setRecipe (s : State) (r : RecipeRef) (x : StoredRecipe) : (s.setRecipe r x).bank = s.bank := rfl
@[simp] theorem bankStored_setRecipe (s : State) (r : RecipeRef) (x : StoredRecipe) : (s.setRecipe r x).bankStored = s.bankStored := rfl
@[simp] theorem bankCheckGood_setRecipe (s : State) (r : RecipeRef) (x : StoredRecipe) : (s.setRecipe r x).bankCheckGood = s.bankCheckGood := rfl
@[simp] theorem bankWrites_setRecipe (s : State) (r : RecipeRef) (x : StoredRecipe) : (s.setRecipe r x).bankWrites = s.bankWrites := rfl
@[simp] theorem commit_setRecipe (s : State) (r : RecipeRef) (x : StoredRecipe) : (s.setRecipe r x).commit = s.commit := rfl
@[simp] theorem cyclePosition_setRecipe (s : State) (r : RecipeRef) (x : StoredRecipe) : (s.setRecipe r x).cyclePosition = s.cyclePosition := rfl
@[simp] theorem losses_setRecipe (s : State) (r : RecipeRef) (x : StoredRecipe) : (s.setRecipe r x).losses = s.losses := rfl
@[simp] theorem ports_setRecipe (s : State) (r : RecipeRef) (x : StoredRecipe) : (s.setRecipe r x).ports = s.ports := rfl
@[simp] theorem setup_setRecipe (s : State) (r : RecipeRef) (x : StoredRecipe) : (s.setRecipe r x).setup = s.setup := rfl
@[simp] theorem mode_setRecipe (s : State) (r : RecipeRef) (x : StoredRecipe) : (s.setRecipe r x).mode = s.mode := rfl
@[simp] theorem clock_setRecipe (s : State) (r : RecipeRef) (x : StoredRecipe) : (s.setRecipe r x).clock = s.clock := rfl
@[simp] theorem phase_setRecipe (s : State) (r : RecipeRef) (x : StoredRecipe) : (s.setRecipe r x).phase = s.phase := rfl
@[simp] theorem resetLine_setRecipe (s : State) (r : RecipeRef) (x : StoredRecipe) : (s.setRecipe r x).resetLine = s.resetLine := rfl
@[simp] theorem signature_setRecipe (s : State) (r : RecipeRef) (x : StoredRecipe) : (s.setRecipe r x).signature = s.signature := rfl
@[simp] theorem warmDue_setRecipe (s : State) (r : RecipeRef) (x : StoredRecipe) : (s.setRecipe r x).warmDue = s.warmDue := rfl
@[simp] theorem coldDue_setRecipe (s : State) (r : RecipeRef) (x : StoredRecipe) : (s.setRecipe r x).coldDue = s.coldDue := rfl

/-! ### `State.withAccount` -/

@[simp] theorem pending_withAccount (s : State) (a : Account) : (s.withAccount a).pending = s.pending := rfl
@[simp] theorem slots_withAccount (s : State) (a : Account) : (s.withAccount a).slots = s.slots := rfl
@[simp] theorem counter_withAccount (s : State) (a : Account) : (s.withAccount a).counter = s.counter := rfl
@[simp] theorem account_withAccount (s : State) (a : Account) : (s.withAccount a).account = a := rfl
@[simp] theorem channels_withAccount (s : State) (a : Account) : (s.withAccount a).channels = s.channels := rfl
@[simp] theorem potLife_withAccount (s : State) (a : Account) : (s.withAccount a).potLife = s.potLife := rfl
@[simp] theorem cells_withAccount (s : State) (a : Account) : (s.withAccount a).cells = s.cells := rfl
@[simp] theorem scan_withAccount (s : State) (a : Account) : (s.withAccount a).scan = s.scan := rfl
@[simp] theorem queue_withAccount (s : State) (a : Account) : (s.withAccount a).queue = s.queue := rfl
@[simp] theorem bench_withAccount (s : State) (a : Account) : (s.withAccount a).bench = s.bench := rfl
@[simp] theorem recipes_withAccount (s : State) (a : Account) : (s.withAccount a).recipes = s.recipes := rfl
@[simp] theorem bank_withAccount (s : State) (a : Account) : (s.withAccount a).bank = s.bank := rfl
@[simp] theorem bankStored_withAccount (s : State) (a : Account) : (s.withAccount a).bankStored = s.bankStored := rfl
@[simp] theorem bankCheckGood_withAccount (s : State) (a : Account) : (s.withAccount a).bankCheckGood = s.bankCheckGood := rfl
@[simp] theorem bankWrites_withAccount (s : State) (a : Account) : (s.withAccount a).bankWrites = s.bankWrites := rfl
@[simp] theorem commit_withAccount (s : State) (a : Account) : (s.withAccount a).commit = s.commit := rfl
@[simp] theorem cyclePosition_withAccount (s : State) (a : Account) : (s.withAccount a).cyclePosition = s.cyclePosition := rfl
@[simp] theorem losses_withAccount (s : State) (a : Account) : (s.withAccount a).losses = s.losses := rfl
@[simp] theorem ports_withAccount (s : State) (a : Account) : (s.withAccount a).ports = s.ports := rfl
@[simp] theorem setup_withAccount (s : State) (a : Account) : (s.withAccount a).setup = s.setup := rfl
@[simp] theorem mode_withAccount (s : State) (a : Account) : (s.withAccount a).mode = s.mode := rfl
@[simp] theorem clock_withAccount (s : State) (a : Account) : (s.withAccount a).clock = s.clock := rfl
@[simp] theorem phase_withAccount (s : State) (a : Account) : (s.withAccount a).phase = s.phase := rfl
@[simp] theorem resetLine_withAccount (s : State) (a : Account) : (s.withAccount a).resetLine = s.resetLine := rfl
@[simp] theorem signature_withAccount (s : State) (a : Account) : (s.withAccount a).signature = s.signature := rfl
@[simp] theorem warmDue_withAccount (s : State) (a : Account) : (s.withAccount a).warmDue = s.warmDue := rfl
@[simp] theorem coldDue_withAccount (s : State) (a : Account) : (s.withAccount a).coldDue = s.coldDue := rfl

/-! ### `State.received` -/

@[simp] theorem pending_received (s : State) (p : PortName) (t : Nat) : (s.received p t).pending = s.pending := rfl
@[simp] theorem slots_received (s : State) (p : PortName) (t : Nat) : (s.received p t).slots = s.slots := rfl
@[simp] theorem counter_received (s : State) (p : PortName) (t : Nat) : (s.received p t).counter = s.counter := rfl
@[simp] theorem account_received (s : State) (p : PortName) (t : Nat) : (s.received p t).account = s.account := rfl
@[simp] theorem channels_received (s : State) (p : PortName) (t : Nat) : (s.received p t).channels = s.channels := rfl
@[simp] theorem potLife_received (s : State) (p : PortName) (t : Nat) : (s.received p t).potLife = s.potLife := rfl
@[simp] theorem cells_received (s : State) (p : PortName) (t : Nat) : (s.received p t).cells = s.cells := rfl
@[simp] theorem scan_received (s : State) (p : PortName) (t : Nat) : (s.received p t).scan = s.scan := rfl
@[simp] theorem queue_received (s : State) (p : PortName) (t : Nat) : (s.received p t).queue = s.queue := rfl
@[simp] theorem bench_received (s : State) (p : PortName) (t : Nat) : (s.received p t).bench = s.bench := rfl
@[simp] theorem recipes_received (s : State) (p : PortName) (t : Nat) : (s.received p t).recipes = s.recipes := rfl
@[simp] theorem bank_received (s : State) (p : PortName) (t : Nat) : (s.received p t).bank = s.bank := rfl
@[simp] theorem bankStored_received (s : State) (p : PortName) (t : Nat) : (s.received p t).bankStored = s.bankStored := rfl
@[simp] theorem bankCheckGood_received (s : State) (p : PortName) (t : Nat) : (s.received p t).bankCheckGood = s.bankCheckGood := rfl
@[simp] theorem bankWrites_received (s : State) (p : PortName) (t : Nat) : (s.received p t).bankWrites = s.bankWrites := rfl
@[simp] theorem commit_received (s : State) (p : PortName) (t : Nat) : (s.received p t).commit = s.commit := rfl
@[simp] theorem cyclePosition_received (s : State) (p : PortName) (t : Nat) : (s.received p t).cyclePosition = s.cyclePosition := rfl
@[simp] theorem losses_received (s : State) (p : PortName) (t : Nat) : (s.received p t).losses = s.losses := rfl
@[simp] theorem setup_received (s : State) (p : PortName) (t : Nat) : (s.received p t).setup = s.setup := rfl
@[simp] theorem mode_received (s : State) (p : PortName) (t : Nat) : (s.received p t).mode = s.mode := rfl
@[simp] theorem clock_received (s : State) (p : PortName) (t : Nat) : (s.received p t).clock = s.clock := rfl
@[simp] theorem phase_received (s : State) (p : PortName) (t : Nat) : (s.received p t).phase = s.phase := rfl
@[simp] theorem resetLine_received (s : State) (p : PortName) (t : Nat) : (s.received p t).resetLine = s.resetLine := rfl
@[simp] theorem signature_received (s : State) (p : PortName) (t : Nat) : (s.received p t).signature = s.signature := rfl
@[simp] theorem warmDue_received (s : State) (p : PortName) (t : Nat) : (s.received p t).warmDue = s.warmDue := rfl
@[simp] theorem coldDue_received (s : State) (p : PortName) (t : Nat) : (s.received p t).coldDue = s.coldDue := rfl

/-! ### `State.answer` -/

@[simp] theorem pending_answer (s : State) (p : PortName) (t : Nat) (r : Reply) : (s.answer p t r).pending = s.pending := rfl
@[simp] theorem slots_answer (s : State) (p : PortName) (t : Nat) (r : Reply) : (s.answer p t r).slots = s.slots := rfl
@[simp] theorem counter_answer (s : State) (p : PortName) (t : Nat) (r : Reply) : (s.answer p t r).counter = s.counter := rfl
@[simp] theorem account_answer (s : State) (p : PortName) (t : Nat) (r : Reply) : (s.answer p t r).account = s.account := rfl
@[simp] theorem channels_answer (s : State) (p : PortName) (t : Nat) (r : Reply) : (s.answer p t r).channels = s.channels := rfl
@[simp] theorem potLife_answer (s : State) (p : PortName) (t : Nat) (r : Reply) : (s.answer p t r).potLife = s.potLife := rfl
@[simp] theorem cells_answer (s : State) (p : PortName) (t : Nat) (r : Reply) : (s.answer p t r).cells = s.cells := rfl
@[simp] theorem scan_answer (s : State) (p : PortName) (t : Nat) (r : Reply) : (s.answer p t r).scan = s.scan := rfl
@[simp] theorem queue_answer (s : State) (p : PortName) (t : Nat) (r : Reply) : (s.answer p t r).queue = s.queue := rfl
@[simp] theorem bench_answer (s : State) (p : PortName) (t : Nat) (r : Reply) : (s.answer p t r).bench = s.bench := rfl
@[simp] theorem recipes_answer (s : State) (p : PortName) (t : Nat) (r : Reply) : (s.answer p t r).recipes = s.recipes := rfl
@[simp] theorem bank_answer (s : State) (p : PortName) (t : Nat) (r : Reply) : (s.answer p t r).bank = s.bank := rfl
@[simp] theorem bankStored_answer (s : State) (p : PortName) (t : Nat) (r : Reply) : (s.answer p t r).bankStored = s.bankStored := rfl
@[simp] theorem bankCheckGood_answer (s : State) (p : PortName) (t : Nat) (r : Reply) : (s.answer p t r).bankCheckGood = s.bankCheckGood := rfl
@[simp] theorem bankWrites_answer (s : State) (p : PortName) (t : Nat) (r : Reply) : (s.answer p t r).bankWrites = s.bankWrites := rfl
@[simp] theorem commit_answer (s : State) (p : PortName) (t : Nat) (r : Reply) : (s.answer p t r).commit = s.commit := rfl
@[simp] theorem cyclePosition_answer (s : State) (p : PortName) (t : Nat) (r : Reply) : (s.answer p t r).cyclePosition = s.cyclePosition := rfl
@[simp] theorem losses_answer (s : State) (p : PortName) (t : Nat) (r : Reply) : (s.answer p t r).losses = s.losses := rfl
@[simp] theorem setup_answer (s : State) (p : PortName) (t : Nat) (r : Reply) : (s.answer p t r).setup = s.setup := rfl
@[simp] theorem mode_answer (s : State) (p : PortName) (t : Nat) (r : Reply) : (s.answer p t r).mode = s.mode := rfl
@[simp] theorem clock_answer (s : State) (p : PortName) (t : Nat) (r : Reply) : (s.answer p t r).clock = s.clock := rfl
@[simp] theorem phase_answer (s : State) (p : PortName) (t : Nat) (r : Reply) : (s.answer p t r).phase = s.phase := rfl
@[simp] theorem resetLine_answer (s : State) (p : PortName) (t : Nat) (r : Reply) : (s.answer p t r).resetLine = s.resetLine := rfl
@[simp] theorem signature_answer (s : State) (p : PortName) (t : Nat) (r : Reply) : (s.answer p t r).signature = s.signature := rfl
@[simp] theorem warmDue_answer (s : State) (p : PortName) (t : Nat) (r : Reply) : (s.answer p t r).warmDue = s.warmDue := rfl
@[simp] theorem coldDue_answer (s : State) (p : PortName) (t : Nat) (r : Reply) : (s.answer p t r).coldDue = s.coldDue := rfl

end Sys2Proof.Machine
end

