-- ==== Sys2Proof/Laws/Ops.lean ====
section
/-! SUPPORT. What each shared operation of Machine/Ops.lean and Machine/Audit.lean can do, said once: reading back what
was written, and the fields each operation may change. -/

namespace Sys2Proof.Machine

/-! ### Reading back -/

@[simp] theorem get_set_same (x : Ports) (p : PortName) (v : Port) : (x.set p v).get p = v := by cases p <;> rfl

theorem get_set_ne (x : Ports) (p q : PortName) (v : Port) (h : q ≠ p) : (x.set p v).get q = x.get q := by
  cases p <;> cases q <;> first | rfl | exact absurd rfl h

@[simp] theorem set_set (x : Ports) (p : PortName) (v w : Port) : (x.set p v).set p w = x.set p w := by cases p <;> rfl

@[simp] theorem set_get (x : Ports) (p : PortName) : x.set p (x.get p) = x := by cases p <;> rfl

@[simp] theorem get_map (f : PortName → Port → Port) (x : Ports) (p : PortName) : (x.map f).get p = f p (x.get p) := by
  cases p <;> rfl

@[simp] theorem port_setPort_same (s : State) (p : PortName) (v : Port) : (s.setPort p v).port p = v :=
  get_set_same s.ports p v

theorem port_setPort_ne (s : State) (p q : PortName) (v : Port) (h : q ≠ p) : (s.setPort p v).port q = s.port q :=
  get_set_ne s.ports p q v h

@[simp] theorem setPort_setPort (s : State) (p : PortName) (v w : Port) :
    (s.setPort p v).setPort p w = s.setPort p w := by
  simp [State.setPort]

theorem ports_ext (x y : Ports) (h : ∀ p, x.get p = y.get p) : x = y := by
  have a := h .a
  have b := h .b
  have c := h .c
  have d := h .d
  cases x; cases y; simp_all [Ports.get]

/-- What raising a notice kind does to a port: its pending set, by its mask, and nothing else (R176). -/
@[simp] theorem port_raise (s : State) (n : Notice) (p : PortName) : (s.raise n).port p = receive n (s.port p) :=
  get_map _ s.ports p

theorem getD_setIfInBounds {α : Type} {n : Nat} (v : Vector α n) (i j : Nat) (x d : α) :
    (v.setIfInBounds i x).toList.getD j d = if i = j ∧ i < n then x else v.toList.getD j d := by
  rcases v with ⟨a, rfl⟩
  by_cases hj : i = j
  · subst hj
    by_cases hi : i < a.size
    · simp [hi, List.getD]
    · simp [hi, List.getD]
  · simp [List.getD, hj]

theorem slot_setSlot (s : State) (k j : Nat) (x : Slot) :
    (s.setSlot k x).slot j = if k = j ∧ k < Config.slotCount then x else s.slot j :=
  getD_setIfInBounds s.slots k j x Slot.blank

theorem cell_setCell (s : State) (c d : Nat) (x : Cell) :
    (s.setCell c x).cell d = if c = d ∧ c < Config.cellCount then x else s.cell d :=
  getD_setIfInBounds s.cells c d x Cell.blank

theorem channel_setChannel (s : State) (c d : Nat) (x : Channel) :
    (s.setChannel c x).channel d = if c = d ∧ c < Config.channelCount then x else s.channel d :=
  getD_setIfInBounds s.channels c d x none

theorem slot_beyond (s : State) (k : Nat) (h : Config.slotCount ≤ k) : s.slot k = Slot.blank := by
  simp only [State.slot, List.getD]
  rw [List.getElem?_eq_none (by simpa using h)]
  rfl

/-- A slot that holds a lot is one of the 512. -/
theorem slot_of_lotAt (s : State) (k : Nat) (l : Lot) (h : s.lotAt k = some l) : k < Config.slotCount := by
  by_contra hk
  rw [State.lotAt, slot_beyond s k (by omega)] at h
  exact absurd h (by simp [Slot.blank])

theorem mapVector_toList {α : Type} {n : Nat} (f : α → α) (v : Vector α n) : (mapVector f v).toList = v.toList.map f := rfl

/-! ### The fields each operation may change -/

theorem putLot_frame (s : State) (k : Nat) (l : Lot) : ∃ a, s.putLot k l = { s with slots := a } := ⟨_, rfl⟩

theorem writeLot_frame (s : State) (k : Nat) (r : LotRecord) : ∃ a, s.writeLot k r = { s with slots := a } := ⟨_, rfl⟩

theorem emptySlot_frame (s : State) (k : Nat) : ∃ a, s.emptySlot k = { s with slots := a } := ⟨_, rfl⟩

theorem changeRecord_frame (s : State) (k : Nat) (f : LotRecord → LotRecord) :
    ∃ a, s.changeRecord k f = { s with slots := a } := by
  unfold State.changeRecord
  split
  · exact ⟨_, rfl⟩
  · exact ⟨s.slots, rfl⟩

theorem changeEntry_frame (s : State) (k : Nat) (f : IndexEntry → IndexEntry) :
    ∃ a, s.changeEntry k f = { s with slots := a } := by
  unfold State.changeEntry
  split
  · exact ⟨_, rfl⟩
  · exact ⟨s.slots, rfl⟩

theorem setStatus_frame (s : State) (k : Nat) (q : QueueStatus) : ∃ a, s.setStatus k q = { s with slots := a } :=
  changeRecord_frame s k _

theorem moveLot_frame (s : State) (w k : Nat) : ∃ a, s.moveLot w k = { s with slots := a } := by
  unfold State.moveLot
  split
  · exact ⟨_, rfl⟩
  · exact ⟨s.slots, rfl⟩

theorem offerSlot_frame (s : State) (k : Nat) : ∃ a, s.offerSlot k = { s with slots := a } := by
  unfold State.offerSlot
  split
  · exact ⟨s.slots, rfl⟩
  · split
    · exact moveLot_frame s _ k
    · exact ⟨s.slots, rfl⟩

theorem freeSlot_frame (s : State) (k : Nat) : ∃ a, s.freeSlot k = { s with slots := a } := by
  obtain ⟨a, h⟩ := offerSlot_frame (s.emptySlot k) k
  exact ⟨a, h⟩

theorem relocate_frame (s : State) (k : Nat) : ∃ a, s.relocate k = { s with slots := a } := by
  unfold State.relocate
  split
  · exact ⟨s.slots, rfl⟩
  · split
    · exact moveLot_frame s _ _
    · exact ⟨_, rfl⟩

theorem giveRoom_frame (s : State) : ∃ a b, s.giveRoom = { s with slots := a, queue := b } := by
  unfold State.giveRoom
  split
  · split
    · rename_i w _
      obtain ⟨a, h⟩ := setStatus_frame { s with queue := s.queue ++ [s.numberAt w.slot] } w.slot .queued
      exact ⟨a, _, h⟩
    · exact ⟨s.slots, s.queue, rfl⟩
  · exact ⟨s.slots, s.queue, rfl⟩

theorem giveRooms_frame (n : Nat) (s : State) : ∃ a b, s.giveRooms n = { s with slots := a, queue := b } := by
  induction n generalizing s with
  | zero => exact ⟨s.slots, s.queue, rfl⟩
  | succ n ih =>
    obtain ⟨a, b, h⟩ := giveRoom_frame s
    obtain ⟨c, d, g⟩ := ih s.giveRoom
    exact ⟨c, d, by rw [State.giveRooms, g, h]⟩

theorem admitLot_frame (s : State) (k : Nat) : ∃ a b, s.admitLot k = { s with slots := a, queue := b } := by
  unfold State.admitLot
  split
  · exact ⟨s.slots, s.queue, rfl⟩
  · rename_i r _
    split
    · obtain ⟨a, h⟩ := setStatus_frame s k .parked
      exact ⟨a, s.queue, h⟩
    · split
      · exact ⟨s.slots, s.queue, rfl⟩
      · split
        · obtain ⟨a, h⟩ := setStatus_frame { s with queue := s.queue ++ [r.number] } k .queued
          exact ⟨a, _, h⟩
        · obtain ⟨a, h⟩ := setStatus_frame s k .waiting
          exact ⟨a, s.queue, h⟩

theorem parkHeld_frame (s : State) (k : Nat) : ∃ a b, s.parkHeld k = { s with slots := a, queue := b } := by
  unfold State.parkHeld
  split
  · exact ⟨s.slots, s.queue, rfl⟩
  · split
    · obtain ⟨a, h⟩ := setStatus_frame (s.leaveQueue (s.numberAt k)) k .parked
      obtain ⟨c, d, g⟩ := giveRoom_frame ((s.leaveQueue (s.numberAt k)).setStatus k .parked)
      exact ⟨c, d, by rw [g, h]; rfl⟩
    · split
      · obtain ⟨a, h⟩ := setStatus_frame s k .parked
        exact ⟨a, s.queue, h⟩
      · exact ⟨s.slots, s.queue, rfl⟩

/-- Adding a hold changes the records, the queue and the pending sets of the ports, and nothing else (R5, R101). -/
theorem addHold_frame (s : State) (k : Nat) (h : Hold) :
    ∃ a b c, s.addHold k h = { s with slots := a, queue := b, ports := c } := by
  unfold State.addHold
  split
  · exact ⟨s.slots, s.queue, s.ports, rfl⟩
  · split
    · exact ⟨s.slots, s.queue, s.ports, rfl⟩
    · obtain ⟨a, h1⟩ := changeRecord_frame s k fun r => { r with holds := withHold r.holds h }
      obtain ⟨c, d, h2⟩ := parkHeld_frame ((s.changeRecord k fun r => { r with holds := withHold r.holds h }).raise .hold) k
      exact ⟨c, d, _, by rw [h2, h1]; rfl⟩

theorem addHoldTo_frame (s : State) (n : Nat) (h : Hold) :
    ∃ a b c, s.addHoldTo n h = { s with slots := a, queue := b, ports := c } := by
  unfold State.addHoldTo
  split
  · exact addHold_frame s _ h
  · exact ⟨s.slots, s.queue, s.ports, rfl⟩

theorem expireOne_frame (s : State) (e : PotEntry) :
    ∃ a b c, s.expireOne e = { s with slots := a, queue := b, ports := c } := by
  obtain ⟨a, b, c, h⟩ := addHoldTo_frame s e.lot .potLife
  exact ⟨a, b, _, by rw [State.expireOne, h]; rfl⟩

theorem foldl_expireOne_frame (l : List PotEntry) (s : State) :
    ∃ a b c, l.foldl State.expireOne s = { s with slots := a, queue := b, ports := c } := by
  induction l generalizing s with
  | nil => exact ⟨s.slots, s.queue, s.ports, rfl⟩
  | cons e l ih =>
    obtain ⟨a, b, c, h⟩ := expireOne_frame s e
    obtain ⟨x, y, z, g⟩ := ih (s.expireOne e)
    exact ⟨x, y, z, by rw [List.foldl_cons, g, h]⟩

/-- Judging the pot-life list changes the records, the queue and the pending sets, and takes the entries the clock has
reached out of the list (R49). -/
theorem judgePotLife_frame (s : State) :
    ∃ a b c, s.judgePotLife = { s with
      slots := a, queue := b, ports := c, potLife := s.potLife.dropWhile fun e => decide (e.deadline ≤ s.clock) } := by
  obtain ⟨a, b, c, h⟩ := foldl_expireOne_frame (s.potLife.takeWhile fun e => decide (e.deadline ≤ s.clock))
    { s with potLife := s.potLife.dropWhile fun e => decide (e.deadline ≤ s.clock) }
  exact ⟨a, b, c, h⟩

theorem clearChannelField_frame (s : State) (n : Nat) : ∃ a, s.clearChannelField n = { s with slots := a } := by
  unfold State.clearChannelField
  split
  · exact changeRecord_frame s _ _
  · exact ⟨s.slots, rfl⟩

theorem orphanChannel_frame (s : State) (c : Nat) :
    ∃ a b, s.orphanChannel c = { s with slots := a, channels := b } := by
  unfold State.orphanChannel
  split
  · rename_i b _
    obtain ⟨a, h⟩ := clearChannelField_frame (s.setChannel c none) b.lot
    exact ⟨a, _, h⟩
  · exact ⟨s.slots, s.channels, rfl⟩

theorem foldl_orphanChannel_frame (l : List Nat) (s : State) :
    ∃ a b, l.foldl State.orphanChannel s = { s with slots := a, channels := b } := by
  induction l generalizing s with
  | nil => exact ⟨s.slots, s.channels, rfl⟩
  | cons e l ih =>
    obtain ⟨a, b, h⟩ := orphanChannel_frame s e
    obtain ⟨x, y, g⟩ := ih (s.orphanChannel e)
    exact ⟨x, y, by rw [List.foldl_cons, g, h]⟩

/-- Orphaning changes the channels, the records' channel fields and the pending sets (R50 to R52). -/
theorem orphanChannels_frame (s : State) (cs : List Nat) :
    ∃ a b c, s.orphanChannels cs = { s with slots := a, channels := b, ports := c } := by
  unfold State.orphanChannels
  split
  · exact ⟨s.slots, s.channels, s.ports, rfl⟩
  · obtain ⟨a, b, h⟩ := foldl_orphanChannel_frame cs s
    exact ⟨a, b, _, by rw [h]; rfl⟩

theorem uncheckedReturn_frame (s : State) (n : Nat) : ∃ a, s.uncheckedReturn n = { s with slots := a } := by
  unfold State.uncheckedReturn
  split
  · rename_i k _
    let status := if s.returnsToQueue n then QueueStatus.queued else .parked
    obtain ⟨a, h⟩ := changeRecord_frame s k fun r => { r with state := .cured, tester := none, queueStatus := some status }
    obtain ⟨b, g⟩ := changeEntry_frame (s.changeRecord k fun r => { r with
      state := .cured, tester := none, queueStatus := some status }) k fun e => { e with state := .cured }
    exact ⟨b, by rw [g, h]⟩
  · exact ⟨s.slots, rfl⟩

theorem foldl_uncheckedReturn_frame (l : List Nat) (s : State) :
    ∃ a, l.foldl State.uncheckedReturn s = { s with slots := a } := by
  induction l generalizing s with
  | nil => exact ⟨s.slots, rfl⟩
  | cons e l ih =>
    obtain ⟨a, h⟩ := uncheckedReturn_frame s e
    obtain ⟨x, g⟩ := ih (s.uncheckedReturn e)
    exact ⟨x, by rw [List.foldl_cons, g, h]⟩

/-- The return of a lab port's lots changes the records, the queue and the bench list (R110). -/
theorem returnBench_frame (s : State) (p : PortName) :
    ∃ a b c, s.returnBench p = { s with slots := a, queue := b, bench := c } := by
  unfold State.returnBench
  obtain ⟨a, h⟩ := foldl_uncheckedReturn_frame (s.benchOf p)
    { s with bench := s.bench.filter (·.tester != p), queue := (s.benchOf p).filter s.returnsToQueue ++ s.queue }
  obtain ⟨x, y, g⟩ := giveRooms_frame ((s.benchOf p).length - ((s.benchOf p).filter s.returnsToQueue).length)
    ((s.benchOf p).foldl State.uncheckedReturn
      { s with bench := s.bench.filter (·.tester != p), queue := (s.benchOf p).filter s.returnsToQueue ++ s.queue })
  exact ⟨x, y, _, by rw [g, h]⟩

/-! ### The audit -/

theorem judgeWear_frame (s : State) (k : Nat) : ∃ a c, s.judgeWear k = { s with slots := a, ports := c } := by
  simp only [State.judgeWear]
  split
  · exact ⟨_, _, rfl⟩
  · exact ⟨s.slots, s.ports, rfl⟩

theorem reportRepair_frame (s : State) (k : Nat) : ∃ a c, s.reportRepair k = { s with slots := a, ports := c } := by
  simp only [State.reportRepair]
  split
  · exact ⟨s.slots, s.ports, rfl⟩
  · exact ⟨_, _, rfl⟩

theorem countFault_frame (s : State) (k : Nat) (f : Nat → Nat) :
    ∃ a c, s.countFault k f = { s with slots := a, ports := c } := by
  obtain ⟨a, c, h⟩ := judgeWear_frame (s.setSlot k { s.slot k with tally := f (s.slot k).tally }) k
  exact ⟨a, c, h⟩

theorem countRepair_frame (s : State) (k : Nat) : ∃ a c, s.countRepair k = { s with slots := a, ports := c } := by
  obtain ⟨a, c, h⟩ := reportRepair_frame s k
  obtain ⟨b, d, g⟩ := countFault_frame (s.reportRepair k) k tallyRepair
  exact ⟨b, d, by rw [State.countRepair, g, h]⟩

theorem repairRecord_frame (s : State) (k : Nat) : ∃ a c, s.repairRecord k = { s with slots := a, ports := c } := by
  unfold State.repairRecord
  split
  · rename_i l _
    obtain ⟨b, d, g⟩ := countRepair_frame (s.putLot k { l with record := fresh (repairedOf l.record) }) k
    exact ⟨b, d, g⟩
  · exact ⟨s.slots, s.ports, rfl⟩

theorem repairEntry_frame (s : State) (k : Nat) : ∃ a c, s.repairEntry k = { s with slots := a, ports := c } := by
  unfold State.repairEntry
  split
  · rename_i l _
    obtain ⟨b, d, g⟩ := countRepair_frame (s.putLot k { l with entry := fresh (repairedOf l.entry) }) k
    exact ⟨b, d, g⟩
  · exact ⟨s.slots, s.ports, rfl⟩

theorem rebuildEntry_frame (s : State) (k : Nat) : ∃ a c, s.rebuildEntry k = { s with slots := a, ports := c } := by
  unfold State.rebuildEntry
  split
  · rename_i l _
    obtain ⟨b, d, g⟩ := countRepair_frame (s.putLot k { l with entry := fresh (entryOf l.record.held) }) k
    exact ⟨b, d, g⟩
  · exact ⟨s.slots, s.ports, rfl⟩

theorem giveUpQueue_frame (s : State) (n : Nat) :
    ∃ a b c, s.giveUpQueue n = { s with slots := a, queue := b, bench := c } := by
  obtain ⟨a, b, h⟩ := giveRooms_frame (s.placesHeld n) ((s.leaveQueue n).leaveBench n)
  exact ⟨a, b, _, h⟩

/-- Rebuilding a record changes the slots, the queue, the bench list and the pending sets (R152, R153). -/
theorem rebuildRecord_frame (s : State) (k : Nat) :
    ∃ a b c d, s.rebuildRecord k = { s with slots := a, queue := b, bench := c, ports := d } := by
  unfold State.rebuildRecord
  split
  · exact ⟨s.slots, s.queue, s.bench, s.ports, rfl⟩
  · rename_i l _
    dsimp only
    generalize hs1 : (s.putLot k _).raise .hold = s1
    have h1 : ∃ a d, s1 = { s with slots := a, ports := d } := ⟨_, _, hs1.symm⟩
    generalize hs2 : (if (s.skeleton l.entry.held).state = .cured then s1.giveUpQueue l.entry.held.number else s1) = s2
    have h2 : ∃ a b c, s2 = { s1 with slots := a, queue := b, bench := c } := by
      rw [← hs2]
      split
      · exact giveUpQueue_frame s1 _
      · exact ⟨s1.slots, s1.queue, s1.bench, rfl⟩
    obtain ⟨a1, d1, h1⟩ := h1
    obtain ⟨a2, b2, c2, h2⟩ := h2
    obtain ⟨a3, d3, h3⟩ := reportRepair_frame s2 k
    obtain ⟨a4, d4, h4⟩ := countFault_frame (s2.reportRepair k) k tallyRebuild
    exact ⟨a4, b2, c2, d4, by rw [h4, h3, h2, h1]⟩

theorem relocateNewlyWorn_frame (s b : State) (k : Nat) : ∃ a, s.relocateNewlyWorn b k = { s with slots := a } := by
  unfold State.relocateNewlyWorn
  split
  · exact relocate_frame s k
  · exact ⟨s.slots, rfl⟩

theorem mendRecord_frame (s : State) (k : Nat) (f : Finding) :
    ∃ a c, s.mendRecord k f = { s with slots := a, ports := c } := by
  unfold State.mendRecord
  split
  · exact repairRecord_frame s k
  · exact ⟨s.slots, s.ports, rfl⟩

theorem mendEntry_frame (s : State) (k : Nat) (f : Finding) :
    ∃ a c, s.mendEntry k f = { s with slots := a, ports := c } := by
  unfold State.mendEntry
  split
  · exact repairEntry_frame s k
  · exact ⟨s.slots, s.ports, rfl⟩

/-- The audit's action on one slot that is no loss (R149). -/
theorem checkItems_frame (s t : State) (k : Nat) (h : s.checkItems k = some t) :
    ∃ a b c d, t = { s with slots := a, queue := b, bench := c, ports := d } := by
  unfold State.checkItems at h
  split at h
  · cases h; exact ⟨s.slots, s.queue, s.bench, s.ports, rfl⟩
  · rename_i l _
    split at h
    · cases h
    · cases h
      obtain ⟨a, c, h1⟩ := mendEntry_frame s k (entryFinding l)
      rw [h1]
      obtain ⟨a2, b2, c2, d2, h2⟩ := rebuildRecord_frame { s with slots := a, ports := c } k
      rw [h2]
      obtain ⟨a3, h3⟩ := relocateNewlyWorn_frame { s with slots := a2, queue := b2, bench := c2, ports := d2 } s k
      rw [h3]
      exact ⟨_, _, _, _, rfl⟩
    · cases h
      obtain ⟨a, c, h1⟩ := mendRecord_frame s k (findingOf l.record)
      rw [h1]
      obtain ⟨a2, c2, h2⟩ := rebuildEntry_frame { s with slots := a, ports := c } k
      rw [h2]
      obtain ⟨a3, h3⟩ := relocateNewlyWorn_frame { s with slots := a2, ports := c2 } s k
      rw [h3]
      exact ⟨_, s.queue, s.bench, _, rfl⟩
    · cases h
      obtain ⟨a, c, h1⟩ := mendRecord_frame s k (findingOf l.record)
      rw [h1]
      obtain ⟨a2, c2, h2⟩ := mendEntry_frame { s with slots := a, ports := c } k (entryFinding l)
      rw [h2]
      obtain ⟨a3, h3⟩ := relocateNewlyWorn_frame { s with slots := a2, ports := c2 } s k
      rw [h3]
      exact ⟨_, s.queue, s.bench, _, rfl⟩

theorem lossCheckOne_frame (x : State × List Nat) (k : Nat) :
    ∃ a b c d, (lossCheckOne x k).1 = { x.1 with slots := a, queue := b, bench := c, ports := d } := by
  unfold lossCheckOne
  split
  · rename_i t h
    exact checkItems_frame x.1 t k h
  · exact ⟨x.1.slots, x.1.queue, x.1.bench, x.1.ports, rfl⟩

theorem foldl_lossCheckOne_frame (l : List Nat) (x : State × List Nat) :
    ∃ a b c d, (l.foldl lossCheckOne x).1 = { x.1 with slots := a, queue := b, bench := c, ports := d } := by
  induction l generalizing x with
  | nil => exact ⟨x.1.slots, x.1.queue, x.1.bench, x.1.ports, rfl⟩
  | cons e l ih =>
    obtain ⟨a, b, c, d, h⟩ := lossCheckOne_frame x e
    obtain ⟨a1, b1, c1, d1, g⟩ := ih (lossCheckOne x e)
    exact ⟨a1, b1, c1, d1, by rw [List.foldl_cons, g, h]⟩

/-- The loss check changes what the audit of each slot may (R154). -/
theorem lossCheck_frame (s : State) (k : Nat) :
    ∃ a b c d, (s.lossCheck k).1 = { s with slots := a, queue := b, bench := c, ports := d } := by
  unfold State.lossCheck
  generalize (List.range Config.slotCount).filter (· != k) = l
  exact foldl_lossCheckOne_frame l (s, [])

theorem loseSlot_frame (s : State) (k : Nat) : ∃ a c, s.loseSlot k = { s with slots := a, ports := c } := by
  obtain ⟨a, c, h⟩ := countFault_frame (s.emptySlot k) k tallyRebuild
  exact ⟨a, c, h⟩

theorem foldl_loseSlot_frame (l : List Nat) (s : State) :
    ∃ a c, l.foldl State.loseSlot s = { s with slots := a, ports := c } := by
  induction l generalizing s with
  | nil => exact ⟨s.slots, s.ports, rfl⟩
  | cons e l ih =>
    obtain ⟨a, c, h⟩ := loseSlot_frame s e
    obtain ⟨x, z, g⟩ := ih (s.loseSlot e)
    exact ⟨x, z, by rw [List.foldl_cons, g, h]⟩

theorem foldl_loseNumber_frame (l : List Nat) (s : State) :
    ∃ a b c d e, l.foldl State.loseNumber s =
      { s with cells := a, queue := b, bench := c, channels := d, potLife := e } := by
  induction l generalizing s with
  | nil => exact ⟨s.cells, s.queue, s.bench, s.channels, s.potLife, rfl⟩
  | cons n l ih =>
    obtain ⟨a, b, c, d, e, h⟩ := ih (s.loseNumber n)
    exact ⟨a, b, c, d, e, by rw [List.foldl_cons, h]; rfl⟩

/-- The retirement of a lost set: the account moves as R155 gives, and only the stores a lot has a place in change
besides the loss list and the pending sets (R155, R156). -/
theorem retireLost_frame (s : State) (lost : List Nat) :
    ∃ a b c d e f g h, s.retireLost lost = { s with
      slots := a, queue := b, bench := c, ports := d, cells := e, channels := f, potLife := g, losses := h,
      account := loseAsh s.account (s.lostAsh lost) (s.lostReservation lost) } := by
  simp only [State.retireLost]
  obtain ⟨a, c, h1⟩ := foldl_loseSlot_frame lost
    (s.withAccount (loseAsh s.account (s.lostAsh lost) (s.lostReservation lost)))
  rw [h1]
  obtain ⟨a2, b2, c2, d2, e2, h2⟩ := foldl_loseNumber_frame (s.lostNumbers lost)
    { s.withAccount (loseAsh s.account (s.lostAsh lost) (s.lostReservation lost)) with slots := a, ports := c }
  rw [h2]
  obtain ⟨a3, b3, h3⟩ := giveRooms_frame ((s.lostNumbers lost).map s.placesHeld).sum
    { s.withAccount (loseAsh s.account (s.lostAsh lost) (s.lostReservation lost)) with
      slots := a, ports := c, cells := a2, queue := b2, bench := c2, channels := d2, potLife := e2 }
  rw [h3]
  exact ⟨_, _, _, _, _, _, _, _, rfl⟩

/-- A check of a slot either leaves the account, or moves it as a loss does; and it changes only the stores a lot has a
place in, the loss list and the pending sets (R147 to R156). -/
theorem checkSlot_frame (s : State) (k : Nat) :
    ∃ a b c d e f g h m, s.checkSlot k = { s with
      slots := a, queue := b, bench := c, ports := d, cells := e, channels := f, potLife := g, losses := h,
      account := m } ∧ (m = s.account ∨ ∃ x y, m = loseAsh s.account x y) := by
  unfold State.checkSlot
  split
  · rename_i t ht
    obtain ⟨a, b, c, d, h⟩ := checkItems_frame s t k ht
    exact ⟨a, b, c, d, s.cells, s.channels, s.potLife, s.losses, s.account, h, Or.inl rfl⟩
  · obtain ⟨a, b, c, d, h⟩ := lossCheck_frame s k
    obtain ⟨a2, b2, c2, d2, e2, f2, g2, h2, h3⟩ := retireLost_frame (s.lossCheck k).1 (s.lossCheck k).2
    refine ⟨a2, b2, c2, d2, e2, f2, g2, h2, loseAsh (s.lossCheck k).1.account
      ((s.lossCheck k).1.lostAsh (s.lossCheck k).2) ((s.lossCheck k).1.lostReservation (s.lossCheck k).2), ?_,
      Or.inr ⟨(s.lossCheck k).1.lostAsh (s.lossCheck k).2, (s.lossCheck k).1.lostReservation (s.lossCheck k).2, ?_⟩⟩
    · rw [h3]
      generalize loseAsh _ _ _ = m
      rw [h]
    · generalize State.lostAsh _ _ = x
      generalize State.lostReservation _ _ = y
      rw [h]

end Sys2Proof.Machine
end

