-- ==== Sys2Proof/Laws/Requests.lean ====
section
/-! SUPPORT. How a request goes on: on a ready port, past the Port Unit's checks, on a clean lot, on a bound channel; and
that every movement of the account keeps its balance. -/

namespace Sys2Proof.Machine

/-! ### Receiving and answering -/

@[simp] theorem port_received_same (s : State) (p : PortName) (t : Nat) :
    (s.received p t).port p =
      { s.port p with present := true, idleTimer := some 30, partialFrame := [], request := .busy t } := by
  simp [State.received, State.goodFrame]

@[simp] theorem ports_received (s : State) (p : PortName) (t : Nat) :
    (s.received p t).ports = s.ports.set p
      { s.port p with present := true, idleTimer := some 30, partialFrame := [], request := .busy t } := by
  simp [State.received, State.goodFrame, State.setPort, State.port]

theorem port_received_ne (s : State) (p q : PortName) (t : Nat) (h : q ≠ p) :
    (s.received p t).port q = s.port q := by
  simp [State.received, State.goodFrame, port_setPort_ne _ p q _ h]

/-- The gate reads the role, window and mode, which a good frame does not change (R167). -/
@[simp] theorem gate_received (s : State) (p : PortName) (t : Nat) (q : Request) (f : Option Nat) :
    (s.received p t).gate p q f = s.gate p q f := by
  simp only [State.gate, port_received_same, mode_received]
  rfl

/-- Answering a request that was received leaves the ports as `replied` says. -/
theorem ports_answer_received (s : State) (p : PortName) (t : Nat) (r : Reply) :
    ((s.received p t).answer p t r).ports =
      s.ports.set p (answeredPort (s.port p) t r.outcome r.body r.start) := by
  simp [State.answer, State.received, State.goodFrame, State.setPort, State.port, answeredPort]

/-- Answering a request whose block left the ports alone. -/
theorem answer_replied (s u : State) (p : PortName) (t : Nat) (r : Reply) (h : u.ports = (s.received p t).ports) :
    u.answer p t r = { u with ports := s.ports.set p (answeredPort (s.port p) t r.outcome r.body r.start) } := by
  have := ports_answer_received s p t r
  simp only [State.answer, State.setPort, State.port, h] at this ⊢
  rw [← this]

/-- A request on a READY port that passes the Port Unit's checks is its owning block's (R166, R167). -/
theorem takeRequest_taken (s : State) (p : PortName) (t : Nat) (q : Request) (f : Option Nat)
    (body : State → State × Reply) (hr : s.phase = .running) (hp : (s.port p).request = .ready)
    (hg : s.gate p q f = none) :
    s.takeRequest p t q f body = (body (s.received p t)).1.answer p t (body (s.received p t)).2 := by
  simp [State.takeRequest, hr, hp, hg]

/-- A request on a READY port that a check of the Port Unit refuses (R167). -/
theorem takeRequest_refused (s : State) (p : PortName) (t : Nat) (q : Request) (f : Option Nat)
    (body : State → State × Reply) (o : OutcomeCode) (b : List Field) (hr : s.phase = .running)
    (hp : (s.port p).request = .ready) (hg : s.gate p q f = some (o, b)) :
    s.takeRequest p t q f body = repliedWith s p t o b := by
  have ha : (s.received p t).answer p t (refuse o b) = repliedWith s p t o b := by
    have := ports_answer_received s p t (refuse o b)
    simp only [repliedWith, replied, refuse] at this ⊢
    rw [← this]
    rfl
  simp [State.takeRequest, hr, hp, hg, ha]

/-- A request that its owning block carries out without touching the ports: the block's state with the port answered. -/
theorem request_eq (s u : State) (p : PortName) (t : Nat) (q : Request) (f : Option Nat)
    (body : State → State × Reply) (r : Reply) (hr : s.phase = .running) (hp : (s.port p).request = .ready)
    (hg : s.gate p q f = none) (hb : body (s.received p t) = (u, r)) (hu : u.ports = (s.received p t).ports) :
    s.takeRequest p t q f body =
      { u with ports := s.ports.set p (answeredPort (s.port p) t r.outcome r.body r.start) } := by
  rw [takeRequest_taken s p t q f body hr hp hg, hb]
  exact answer_replied s u p t r hu

/-- Raising a notice commutes with receiving a frame (R164, R176). -/
theorem raise_received (s : State) (p : PortName) (t : Nat) (k : Notice) :
    (s.received p t).raise k = (s.raise k).received p t := by
  have h : ((s.received p t).raise k).ports = ((s.raise k).received p t).ports := by
    refine ports_ext _ _ fun q => ?_
    have h1 : ((s.received p t).raise k).ports.get q = receive k ((s.received p t).port q) := port_raise _ k q
    have h2 : ((s.raise k).received p t).ports.get q = ((s.raise k).received p t).port q := rfl
    rw [h1, h2]
    by_cases hq : q = p
    · subst hq
      rw [port_received_same, port_received_same, port_raise]
      unfold receive
      split <;> rfl
    · rw [port_received_ne s p q t hq, port_received_ne _ p q t hq, port_raise]
  have e : ∀ u v : State, u.ports = v.ports → { u with ports := v.ports } = u := fun u v h => by rw [← h]
  rw [← e _ _ h]
  rfl

/-- `request_eq` where the block raised notices before it answered: they are raised before the frame was received. -/
theorem request_raised (s v u : State) (p : PortName) (t : Nat) (q : Request) (f : Option Nat)
    (body : State → State × Reply) (r : Reply) (hr : s.phase = .running) (hp : (s.port p).request = .ready)
    (hg : s.gate p q f = none) (hb : body (s.received p t) = (u, r)) (hu : u.ports = (v.received p t).ports) :
    s.takeRequest p t q f body =
      { u with ports := v.ports.set p (answeredPort (v.port p) t r.outcome r.body r.start) } := by
  rw [takeRequest_taken s p t q f body hr hp hg, hb]
  exact answer_replied v u p t r hu

theorem portsKept_refl (s : State) : portsKept s s := fun _ => rfl

theorem portsKept_trans (s u v : State) (h : portsKept s u) (g : portsKept u v) : portsKept s v := by
  intro q
  have a := h q
  have b := g q
  rw [← a, ← b]

theorem portsKept_of_eq (s u : State) (h : u.ports = s.ports) : portsKept s u := by
  intro q
  simp only [State.port, h]

theorem portsKept_raise (s : State) (k : Notice) : portsKept s (s.raise k) := by
  intro q
  rw [port_raise]
  unfold receive
  split <;> rfl

/-- Answering a request whose block touched no more of the ports than their pending sets. -/
theorem answeredAs_answer (s u : State) (p : PortName) (t : Nat) (r : Reply) (hs : r.start = none)
    (h : portsKept (s.received p t) u) : answeredAs s (u.answer p t r) p t r.outcome r.body := by
  constructor
  · intro q hq
    have := h q
    rw [port_received_ne s p q t hq] at this
    simpa [State.answer, port_setPort_ne u p q _ hq] using this
  · have := h p
    rw [port_received_same] at this
    have g := congrArg (fun x : Port => { x with
      request := .busy t, answer := some ⟨t, r.outcome, r.body⟩, startAfter := none }) this
    simp only [State.answer, port_setPort_same, answeredPort, hs] at g ⊢
    exact g

/-- A request frame changes no more than its owning block does, besides the ports. -/
theorem takeRequest_frame (s : State) (p : PortName) (t : Nat) (q : Request) (f : Option Nat)
    (body : State → State × Reply) :
    (∃ a, s.takeRequest p t q f body = { s with ports := a }) ∨
      ∃ a, s.takeRequest p t q f body = { (body (s.received p t)).1 with ports := a } := by
  unfold State.takeRequest
  split
  · split
    · exact Or.inl ⟨_, rfl⟩
    · dsimp only
      split
      · exact Or.inl ⟨_, rfl⟩
      · exact Or.inr ⟨_, rfl⟩
  · exact Or.inl ⟨s.ports, rfl⟩

/-- The Port Unit passes a request of a role without a window that its mode allows (R167 to R169, R174). -/
theorem gate_open (s : State) (p : PortName) (q : Request) (f : Option Nat) (hw : inWindow (s.port p) = fun _ => true)
    (hq : roleAllows (s.port p).role q = true) (hm : modeAllows s.mode q = true) : s.gate p q f = none := by
  cases f <;> simp [State.gate, hw, hq, hm]

/-- The Port Unit passes a request whose channel or cell lies in the port's window (R167 to R169, R174). -/
theorem gate_windowed (s : State) (p : PortName) (q : Request) (v : Nat) (hw : windowed s p v)
    (hq : roleAllows (s.port p).role q = true) (hm : modeAllows s.mode q = true) : s.gate p q (some v) = none := by
  have hw' : inWindow (s.port p) v = true := hw
  simp [State.gate, hw', hq, hm]

theorem gate_none (s : State) (p : PortName) (q : Request) (hq : roleAllows (s.port p).role q = true)
    (hm : modeAllows s.mode q = true) : s.gate p q none = none := by
  simp [State.gate, hq, hm]

/-- The plant and lab roles carry no window field (R169). -/
theorem inWindow_plant (x : Port) (h : x.role = .plant) : inWindow x = fun _ => true := by
  funext v
  simp [inWindow, h]

/-! ### Clean lots -/

theorem relocateNewlyWorn_self (s : State) (k : Nat) : s.relocateNewlyWorn s k = s := by
  cases h : (s.slot k).worn <;> simp [State.relocateNewlyWorn, h]

theorem findings_clean (l : Lot) (h : cleanLot l) : findingOf l.record = .clean ∧ entryFinding l = .clean := by
  obtain ⟨h1, h2, h3⟩ := h
  have hr : findingOf l.record = .clean := by simp [findingOf, h1]
  have he : findingOf l.entry = .clean := by simp [findingOf, h2]
  refine ⟨hr, ?_⟩
  simp [entryFinding, hr, he, repairedOf, h1, h2, h3]

/-- A lot whose record's code agrees has the number its record holds (R145, R146). -/
theorem lotNumber_agrees (l : Lot) (h : l.record.code = .agrees) : lotNumber l = some l.record.held.number := by
  simp [lotNumber, findingOf, repairedOf, h]

theorem lotState_agrees (l : Lot) (h : l.record.code = .agrees) : lotState l = some l.record.held.state := by
  simp [lotState, findingOf, repairedOf, h]

theorem cleanBoth_clean (l : Lot) (h : cleanLot l) : cleanBoth l = true := by
  obtain ⟨h1, h2⟩ := findings_clean l h
  simp [cleanBoth, h1, h2]

/-- A change of the record's contents that keeps the number leaves the lot's number as a check would find it (R148). -/
theorem lotNumber_modify (l : Lot) (f : LotRecord → LotRecord) (g : IndexEntry → IndexEntry)
    (hf : ∀ r, (f r).number = r.number) (hg : ∀ e, (g e).number = e.number) :
    lotNumber { l with record := modifyStored f l.record, entry := modifyStored g l.entry } = lotNumber l := by
  obtain ⟨⟨r, c⟩, ⟨e, d⟩, m⟩ := l
  cases c <;> cases d <;> simp [lotNumber, findingOf, repairedOf, modifyStored, hf, hg]

/-- A check of a clean slot changes nothing (R148). -/
theorem checkSlot_clean (s : State) (k : Nat) (h : ∀ l, s.lotAt k = some l → cleanLot l) : s.checkSlot k = s := by
  have : s.checkItems k = some s := by
    unfold State.checkItems
    split
    · rfl
    · rename_i l hl
      obtain ⟨h1, h2⟩ := findings_clean l (h l hl)
      simp [h1, h2, State.mendRecord, State.mendEntry, relocateNewlyWorn_self]
  simp [State.checkSlot, this]

/-- Among clean lots every slot that holds a lot names it. -/
theorem unnamedSlot_clean (s : State) (h : allClean s) : s.unnamedSlot = none := by
  rw [State.unnamedSlot, List.findIdx?_eq_none_iff]
  intro x hx
  obtain ⟨i, hi, rfl⟩ := List.getElem_of_mem hx
  have hs : s.slots.toList[i] = s.slot i := by
    simp [State.slot, List.getD, List.getElem?_eq_getElem hi]
  rw [hs]
  cases hl : (s.slot i).contents with
  | none => simp [unnamed, hl]
  | some l =>
    have := lotNumber_agrees l (h i l hl).1
    simp [unnamed, hl, this]

theorem checkUnnamed_clean (s : State) (h : allClean s) : s.checkUnnamed = s := by
  simp [State.checkUnnamed, unnamedSlot_clean s h]

theorem checkLot_clean (s : State) (n : Nat) (h : allClean s) : s.checkLot n = s := by
  unfold State.checkLot
  split
  · exact checkSlot_clean s _ (h _)
  · rfl

theorem foldl_checkLot_clean (l : List Nat) (s : State) (h : allClean s) : l.foldl State.checkLot s = s := by
  induction l with
  | nil => rfl
  | cons n l ih => rw [List.foldl_cons, checkLot_clean s n h, ih]

theorem liveLot_recordAt (s : State) (n k : Nat) (r : LotRecord) (h : liveLot s n k r) : s.recordAt k = some r := by
  obtain ⟨-, -, -, l, hl, -, hr⟩ := h
  simp [State.recordAt, hl, hr]

theorem liveLot_recordOf (s : State) (n k : Nat) (r : LotRecord) (h : liveLot s n k r) : s.recordOf n = some r := by
  have hr := liveLot_recordAt s n k r h
  obtain ⟨-, -, hk, -⟩ := h
  simp [State.recordOf, hk, hr]

/-- A live lot's record holds the lot's number (R12, R13). -/
theorem liveLot_number (s : State) (n k : Nat) (r : LotRecord) (h : liveLot s n k r) : r.number = n := by
  obtain ⟨-, -, hk, l, hl, ⟨hg, -, -⟩, hr⟩ := h
  have hf := List.findIdx?_eq_some_iff_getElem.mp hk
  obtain ⟨hlt, hn, -⟩ := hf
  have hs : s.slots.toList[k] = s.slot k := by
    simp [State.slot, List.getD, List.getElem?_eq_getElem hlt]
  rw [hs] at hn
  have hc : (s.slot k).contents = some l := hl
  simp only [holdsNumber, hc, lotNumber_agrees l hg, beq_iff_eq, Option.some.injEq] at hn
  rw [← hr, ← hn]

theorem liveLot_checkSlot (s : State) (n k : Nat) (r : LotRecord) (h : liveLot s n k r) : s.checkSlot k = s := by
  obtain ⟨-, -, -, l, hl, hc, -⟩ := h
  refine checkSlot_clean s k fun m hm => ?_
  rw [hl] at hm
  cases hm
  exact hc

/-- The first element of a list that meets a condition is the first that meets a stronger one, when it meets that. -/
theorem findIdx_stronger {α : Type} (p q : α → Bool) (hqp : ∀ x, q x = true → p x = true) (l : List α) (k : Nat)
    (h : l.findIdx? p = some k) (hq : ∀ x, l[k]? = some x → q x = true) : l.findIdx? q = some k := by
  obtain ⟨hlt, -, hb⟩ := List.findIdx?_eq_some_iff_getElem.mp h
  refine List.findIdx?_eq_some_iff_getElem.mpr ⟨hlt, hq _ (List.getElem?_eq_getElem hlt), fun j hj hqj => ?_⟩
  exact hb j hj (hqp _ hqj)

/-- A clean live lot is found clean where it stands. -/
theorem liveLot_cleanOf (s : State) (n k : Nat) (r : LotRecord) (h : liveLot s n k r) : s.cleanOf n = some (k, r) := by
  have hr := liveLot_recordAt s n k r h
  have hn := liveLot_number s n k r h
  obtain ⟨-, -, hk, l, hl, hc, hlr⟩ := h
  have : s.slots.toList.findIdx? (holdsClean n) = some k := by
    refine findIdx_stronger (holdsNumber n) (holdsClean n) (fun x hx => ?_) _ k hk fun x hx => ?_
    · unfold holdsClean at hx
      unfold holdsNumber
      split at hx <;> simp_all
    · have hx' : s.slot k = x := by simp [State.slot, List.getD, hx]
      have hl' : x.contents = some l := by rw [← hx']; exact hl
      simp [holdsClean, hl', lotNumber_agrees l hc.1, cleanBoth_clean l hc, hlr, hn]
  simp [State.cleanOf, this, hr]

theorem checkedLot_clean (s : State) (n k : Nat) (r : LotRecord) (h : liveLot s n k r) :
    s.checkedLot n = (s, some (k, r)) := by
  have hc := liveLot_checkSlot s n k r h
  have hr := liveLot_cleanOf s n k r h
  obtain ⟨-, -, hk, -⟩ := h
  simp [State.checkedLot, hk, hc, hr]

theorem liveLot_placedSlot (s : State) (n k : Nat) (r : LotRecord) (h : liveLot s n k r) : s.placedSlot n = some k := by
  obtain ⟨-, -, hk, -⟩ := h
  simp [State.placedSlot, hk]

theorem checkedPlaced_clean (s : State) (n k : Nat) (r : LotRecord) (h : liveLot s n k r) :
    s.checkedPlaced n = (s, some (k, r)) := by
  have : s.checkLot n = s := by
    rw [State.checkLot, liveLot_placedSlot s n k r h]
    exact liveLot_checkSlot s n k r h
  rw [State.checkedPlaced, this, liveLot_cleanOf s n k r h]

/-- The number by which the collections know a clean lot is its record's (R12). -/
theorem numberAt_agrees (s : State) (k : Nat) (l : Lot) (hl : s.lotAt k = some l) (hc : l.record.code = .agrees) :
    s.numberAt k = l.record.held.number := by
  simp [State.numberAt, hl, lotNumber_agrees l hc]

/-- A change of a clean lot's record is that record rewritten with a fresh code (R145). -/
theorem changeRecord_clean (s : State) (n k : Nat) (r : LotRecord) (f : LotRecord → LotRecord) (h : liveLot s n k r) :
    s.changeRecord k f = recordNow s k (f r) := by
  obtain ⟨-, -, -, l, hl, ⟨h1, -, -⟩, hr⟩ := h
  have hc : (s.slot k).contents = some l := hl
  simp [State.changeRecord, hl, State.putLot, recordNow, hc, modifyStored, h1, hr, fresh]

theorem slot_recordNow (s : State) (k : Nat) (r : LotRecord) (hk : k < Config.slotCount) :
    (recordNow s k r).slot k =
      { s.slot k with contents := (s.slot k).contents.map fun l => { l with record := fresh r } } := by
  simp [recordNow, slot_setSlot, hk]

theorem liveLot_slot (s : State) (n k : Nat) (r : LotRecord) (h : liveLot s n k r) : k < Config.slotCount := by
  obtain ⟨-, -, -, l, hl, -⟩ := h
  exact slot_of_lotAt s k l hl

theorem recordAt_recordNow (s : State) (n k : Nat) (r q : LotRecord) (h : liveLot s n k r) :
    (recordNow s k q).recordAt k = some q := by
  have hk := liveLot_slot s n k r h
  obtain ⟨-, -, -, l, hl, -⟩ := h
  have hc : (s.slot k).contents = some l := hl
  simp [State.recordAt, State.lotAt, slot_recordNow s k q hk, hc, fresh]

theorem setIfInBounds_twice {α : Type} {n : Nat} (v : Vector α n) (i : Nat) (x y : α) :
    (v.setIfInBounds i x).setIfInBounds i y = v.setIfInBounds i y := by
  rcases v with ⟨a, rfl⟩
  simp

theorem recordNow_recordNow (s : State) (n k : Nat) (r q w : LotRecord) (h : liveLot s n k r) :
    recordNow (recordNow s k q) k w = recordNow s k w := by
  have hk := liveLot_slot s n k r h
  simp only [recordNow, State.setSlot]
  have : ({ s with slots := s.slots.setIfInBounds k { s.slot k with
      contents := (s.slot k).contents.map fun l => { l with record := fresh q } } } : State).slot k =
      { s.slot k with contents := (s.slot k).contents.map fun l => { l with record := fresh q } } :=
    slot_recordNow s k q hk
  rw [this]
  simp [Function.comp_def]

/-- A request naming a clean live lot goes on with its slot and record (R4). -/
theorem onLot_clean (s : State) (n k : Nat) (r : LotRecord) (body : State → Nat → LotRecord → State × Reply)
    (h : liveLot s n k r) : s.onLot n body = body s k r := by
  have hc := checkedLot_clean s n k r h
  obtain ⟨h1, h2, -⟩ := h
  have : ¬(n = 0 ∨ Config.maxLot < n) := by omega
  simp [State.onLot, this, hc]

/-- A channel request of the holder in the channel's right state goes on with the bound lot (R28, R29). -/
theorem onChannel_clean (s : State) (p : PortName) (c : Nat) (active stalled : Bool) (b : Binding) (k : Nat)
    (r : LotRecord) (body : State → Binding → Nat → LotRecord → State × Reply) (hc : s.channel c = some b)
    (hp : b.holder = p) (hs : (if b.stalled then stalled else active) = true) (h : liveLot s b.lot k r) :
    s.onChannel p c active stalled body = body s b k r := by
  simp [State.onChannel, hc, hp, hs, checkedPlaced_clean s b.lot k r h]

/-! ### The account -/

theorem balanced_iff (a : Account) : balanced a = true ↔
    a.intake + a.unbooked = a.balance + a.reserved + a.live + a.released + a.discard + a.lost := by
  simp [balanced, bookedIn, bookedOut]

/-- A settlement splits the dosed ash over reservation, balance and unbooked ash (R42). -/
theorem settlement_sum (b : Int) (R D : Nat) :
    R + (settlement b R D).drawn + (settlement b R D).unbooked = D + (settlement b R D).returned := by
  unfold settlement
  split
  · simp only; omega
  · split <;> simp only <;> omega

theorem settle_balanced (a : Account) (R D : Nat) (h : balanced a = true) : balanced (settle a R D) = true := by
  have hs := settlement_sum a.balance R D
  rw [balanced_iff] at h ⊢
  simp only [settle]
  omega

theorem book_balanced (a : Account) (x : Int) (h : balanced a = true) : balanced (book a x) = true := by
  rw [balanced_iff] at h ⊢
  simp only [book]
  omega

theorem reserveAsh_balanced (a : Account) (x : Nat) (h : balanced a = true) : balanced (reserveAsh a x) = true := by
  rw [balanced_iff] at h ⊢
  simp only [reserveAsh]
  omega

theorem returnReservation_balanced (a : Account) (x : Nat) (h : balanced a = true) :
    balanced (returnReservation a x) = true := by
  rw [balanced_iff] at h ⊢
  simp only [returnReservation]
  omega

theorem releaseAsh_balanced (a : Account) (x : Nat) (h : balanced a = true) : balanced (releaseAsh a x) = true := by
  rw [balanced_iff] at h ⊢
  simp only [releaseAsh]
  omega

theorem discardAsh_balanced (a : Account) (x : Nat) (h : balanced a = true) : balanced (discardAsh a x) = true := by
  rw [balanced_iff] at h ⊢
  simp only [discardAsh]
  omega

theorem withdrawAccount_balanced (a : Account) (r : LotRecord) (h : balanced a = true) :
    balanced (withdrawAccount a r) = true := by
  unfold withdrawAccount
  split
  · exact discardAsh_balanced _ _ (settle_balanced a _ _ h)
  · exact discardAsh_balanced _ _ h

theorem loseAsh_balanced (a : Account) (x y : Int) (h : balanced a = true) : balanced (loseAsh a x y) = true := by
  rw [balanced_iff] at h ⊢
  simp only [loseAsh]
  omega

end Sys2Proof.Machine
end

