-- ==== Sys2Proof/Laws/Lots.lean ====
section
/-! SUPPORT. What the shared operations do to one lot whose record passes its code: a change of its record, an added
hold, an admission attempt, a freed room, a freed slot; and the pot-life list. -/

namespace Sys2Proof.Machine

/-! ### The record of one slot -/

theorem slot_setSlot_same (s : State) (k : Nat) (x : Slot) (hk : k < Config.slotCount) : (s.setSlot k x).slot k = x := by
  simp [slot_setSlot, hk]

/-- Writing what a slot holds changes nothing. -/
theorem setSlot_slot (s : State) (k : Nat) (hk : k < Config.slotCount) : s.setSlot k (s.slot k) = s := by
  have h : s.slots.setIfInBounds k (s.slot k) = s.slots := by
    apply Vector.ext
    intro i hi
    rw [Vector.getElem_setIfInBounds]
    split
    · rename_i e
      subst e
      rw [State.slot, List.getD_eq_getElem?_getD, List.getElem?_eq_getElem (by simpa using hi)]
      rfl
    · rfl
  show { s with slots := s.slots.setIfInBounds k (s.slot k) } = s
  rw [h]

theorem slot_setSlot_ne (s : State) (k j : Nat) (x : Slot) (h : j ≠ k) : (s.setSlot k x).slot j = s.slot j := by
  simp [slot_setSlot, Ne.symm h]

theorem slot_lotAt (s : State) (k : Nat) (l : Lot) (h : s.lotAt k = some l) : (s.slot k).contents = some l := h

theorem lotAt_recordNow (s : State) (k : Nat) (l : Lot) (r : LotRecord) (h : s.lotAt k = some l) :
    (recordNow s k r).lotAt k = some { l with record := fresh r } := by
  have hk := slot_of_lotAt s k l h
  simp [State.lotAt, slot_recordNow s k r hk, slot_lotAt s k l h]

theorem lotAt_putLot (s : State) (k : Nat) (l : Lot) (hk : k < Config.slotCount) : (s.putLot k l).lotAt k = some l := by
  simp [State.lotAt, State.putLot, slot_setSlot, hk]

theorem lotAt_writeLot (s : State) (k : Nat) (r : LotRecord) (hk : k < Config.slotCount) :
    (s.writeLot k r).lotAt k = some (freshLot r) := lotAt_putLot s k _ hk

theorem recordAt_of_lotAt (s : State) (k : Nat) (l : Lot) (h : s.lotAt k = some l) :
    s.recordAt k = some l.record.held := by
  simp [State.recordAt, h]

/-- A change of a record whose code agrees is that record rewritten with a fresh code (R145). -/
theorem changeRecord_at (s : State) (k : Nat) (l : Lot) (f : LotRecord → LotRecord) (h : s.lotAt k = some l)
    (hc : l.record.code = .agrees) : s.changeRecord k f = recordNow s k (f l.record.held) := by
  simp [State.changeRecord, h, State.putLot, recordNow, slot_lotAt s k l h, modifyStored, hc, fresh]

theorem recordNow_twice (s : State) (k : Nat) (l : Lot) (q w : LotRecord) (h : s.lotAt k = some l) :
    recordNow (recordNow s k q) k w = recordNow s k w := by
  have hk := slot_of_lotAt s k l h
  have e := slot_recordNow s k q hk
  simp only [recordNow, State.setSlot] at e ⊢
  rw [e]
  simp [Function.comp_def]

/-- Rewriting a record with its entry, and then changing no field the entry mirrors, is one rewriting (R13). -/
theorem recordNow_writeLot (s : State) (k : Nat) (r q : LotRecord) (hk : k < Config.slotCount)
    (he : entryOf q = entryOf r) : recordNow (s.writeLot k r) k q = s.writeLot k q := by
  have hn : q.number = r.number := congrArg IndexEntry.number he
  have e : (s.writeLot k r).slot k = { s.slot k with contents := some (freshLot r) } := by
    simp [State.writeLot, State.putLot, slot_setSlot, hk]
  simp only [recordNow, e]
  simp [State.writeLot, State.putLot, State.setSlot, freshLot, he, hn]

theorem slot_recordNow_ne (s : State) (k j : Nat) (r : LotRecord) (h : j ≠ k) :
    (recordNow s k r).slot j = s.slot j := by
  simp [recordNow, slot_setSlot, Ne.symm h]

theorem slot_writeLot_ne (s : State) (k j : Nat) (r : LotRecord) (h : j ≠ k) : (s.writeLot k r).slot j = s.slot j := by
  simp [State.writeLot, State.putLot, slot_setSlot, Ne.symm h]

/-- What a live lot's slot holds. -/
theorem liveLot_lotAt (s : State) (n k : Nat) (r : LotRecord) (h : liveLot s n k r) :
    ∃ l, s.lotAt k = some l ∧ l.record.code = .agrees ∧ l.record.held = r ∧ r.number = n := by
  have hn := liveLot_number s n k r h
  obtain ⟨-, -, -, l, hl, hc, hr⟩ := h
  exact ⟨l, hl, hc.1, hr, hn⟩

theorem recordAt_recordNow_at (s : State) (k : Nat) (l : Lot) (q : LotRecord) (h : s.lotAt k = some l) :
    (recordNow s k q).recordAt k = some q :=
  recordAt_of_lotAt _ k _ (lotAt_recordNow s k l q h)

/-- The occupied slots are those that hold a lot. -/
theorem mem_occupied (s : State) (k : Nat) (l : Lot) : (k, l) ∈ s.occupied ↔ s.lotAt k = some l := by
  simp only [State.occupied, List.mem_filterMap, Option.map_eq_some_iff, Prod.mk.injEq]
  constructor
  · rintro ⟨y, hy, m, h1, h2, h3⟩
    obtain ⟨-, h7, h6⟩ := List.mem_zipIdx hy
    subst h2 h3
    have : s.slot y.2 = y.1 := by
      simp only [Nat.zero_add] at h7
      simp only [Nat.sub_zero] at h6
      rw [h6, State.slot, List.getD, List.getElem?_eq_getElem h7]
      rfl
    simp only [State.lotAt, this, h1]
  · intro h
    have hk := slot_of_lotAt s k l h
    refine ⟨(s.slot k, k), ?_, l, h, rfl, rfl⟩
    rw [List.mem_zipIdx_iff_getElem?]
    have hk' : k < s.slots.toList.length := by simpa using hk
    simp only [State.slot, List.getD, List.getElem?_eq_getElem hk']
    rfl

/-! ### Holds -/

theorem withHold_of_hasHold (h : HoldSet) (r : Hold) (g : hasHold h r = true) : withHold h r = h := by
  revert g
  revert h
  cases r <;> decide

/-- A hold that is there already changes nothing (R5). -/
theorem addHold_of_held (s : State) (k : Nat) (l : Lot) (h : Hold) (hl : s.lotAt k = some l)
    (g : hasHold l.record.held.holds h = true) : s.addHold k h = s := by
  simp [State.addHold, recordAt_of_lotAt s k l hl, g]

/-- A hold added to a lot that is neither QUEUED nor WAITING (R5). -/
theorem addHold_idle (s : State) (k : Nat) (l : Lot) (h : Hold) (hl : s.lotAt k = some l) (hc : l.record.code = .agrees)
    (g : hasHold l.record.held.holds h = false)
    (hs : l.record.held.state ≠ .cured ∨
      l.record.held.queueStatus ≠ some .queued ∧ l.record.held.queueStatus ≠ some .waiting) :
    s.addHold k h = (recordNow s k { l.record.held with holds := withHold l.record.held.holds h }).raise .hold := by
  have h3 : ((recordNow s k { l.record.held with holds := withHold l.record.held.holds h }).raise .hold).recordAt k =
      some { l.record.held with holds := withHold l.record.held.holds h } :=
    recordAt_of_lotAt _ k _ (lotAt_recordNow s k l _ hl)
  simp only [State.addHold, recordAt_of_lotAt s k l hl, g, Bool.false_eq_true, if_false, changeRecord_at s k l _ hl hc,
    State.parkHeld, h3]
  rw [if_neg (by tauto), if_neg (by tauto)]

/-- A hold added to a lot that is not CURED (R5). -/
theorem addHold_at (s : State) (k : Nat) (l : Lot) (h : Hold) (hl : s.lotAt k = some l) (hc : l.record.code = .agrees)
    (g : hasHold l.record.held.holds h = false) (hs : l.record.held.state ≠ .cured) :
    s.addHold k h = (recordNow s k { l.record.held with holds := withHold l.record.held.holds h }).raise .hold :=
  addHold_idle s k l h hl hc g (Or.inl hs)

/-- A QUEUED lot that is parked leaves the queue, and its place is given (R101). -/
theorem parkHeld_queued (s : State) (k : Nat) (l : Lot) (hl : s.lotAt k = some l) (hc : l.record.code = .agrees)
    (hs : l.record.held.state = .cured) (hq : l.record.held.queueStatus = some .queued) :
    s.parkHeld k = State.giveRoom { recordNow s k { l.record.held with queueStatus := some .parked } with
      queue := s.queue.filter (· != l.record.held.number) } := by
  have h4 : (s.leaveQueue l.record.held.number).lotAt k = some l := hl
  have h5 := changeRecord_at _ k l (fun r => { r with queueStatus := some .parked }) h4 hc
  unfold State.parkHeld
  rw [recordAt_of_lotAt s k l hl, numberAt_agrees s k l hl hc]
  dsimp only
  rw [if_pos ⟨hs, hq⟩, State.setStatus, h5]
  rfl

/-- A WAITING lot that is parked (R101). -/
theorem parkHeld_waiting (s : State) (k : Nat) (l : Lot) (hl : s.lotAt k = some l) (hc : l.record.code = .agrees)
    (hs : l.record.held.state = .cured) (hq : l.record.held.queueStatus = some .waiting) :
    s.parkHeld k = recordNow s k { l.record.held with queueStatus := some .parked } := by
  have h5 := changeRecord_at _ k l (fun r => { r with queueStatus := some .parked }) hl hc
  unfold State.parkHeld
  rw [recordAt_of_lotAt s k l hl]
  dsimp only
  rw [if_neg (by rw [hq]; simp), if_pos ⟨hs, hq⟩, State.setStatus, h5]

/-- A hold that is not there yet joins the set, HOLD is raised, and the lot is parked (R5). -/
theorem addHold_new (s : State) (k : Nat) (l : Lot) (h : Hold) (hl : s.lotAt k = some l)
    (hc : l.record.code = .agrees) (g : hasHold l.record.held.holds h = false) :
    s.addHold k h =
      ((recordNow s k { l.record.held with holds := withHold l.record.held.holds h }).raise .hold).parkHeld k := by
  simp only [State.addHold, recordAt_of_lotAt s k l hl, g, Bool.false_eq_true, if_false, changeRecord_at s k l _ hl hc]

/-- A hold added to a QUEUED lot takes it out of the queue, PARKED, and its place is given (R101). -/
theorem addHold_queued (s : State) (k : Nat) (l : Lot) (h : Hold) (hl : s.lotAt k = some l)
    (hc : l.record.code = .agrees) (g : hasHold l.record.held.holds h = false) (hs : l.record.held.state = .cured)
    (hq : l.record.held.queueStatus = some .queued) :
    s.addHold k h = State.giveRoom (State.raise { recordNow s k { l.record.held with
      holds := withHold l.record.held.holds h, queueStatus := some .parked } with
        queue := s.queue.filter (· != l.record.held.number) } .hold) := by
  let q := { l.record.held with holds := withHold l.record.held.holds h }
  have h0 : ((recordNow s k q).raise .hold).lotAt k = some { l with record := fresh q } := lotAt_recordNow s k l _ hl
  rw [addHold_new s k l h hl hc g, parkHeld_queued _ k _ h0 rfl hs hq]
  have := recordNow_twice s k l q { q with queueStatus := some .parked } hl
  congr 1
  calc _ = State.raise { recordNow (recordNow s k q) k { q with queueStatus := some .parked } with
        queue := s.queue.filter (· != l.record.held.number) } .hold := rfl
    _ = _ := by rw [this]

/-- A hold added to a WAITING lot makes it PARKED (R5, R101). -/
theorem addHold_waiting (s : State) (k : Nat) (l : Lot) (h : Hold) (hl : s.lotAt k = some l)
    (hc : l.record.code = .agrees) (g : hasHold l.record.held.holds h = false) (hs : l.record.held.state = .cured)
    (hq : l.record.held.queueStatus = some .waiting) :
    s.addHold k h = (recordNow s k { l.record.held with
      holds := withHold l.record.held.holds h, queueStatus := some .parked }).raise .hold := by
  let q := { l.record.held with holds := withHold l.record.held.holds h }
  have h0 : ((recordNow s k q).raise .hold).lotAt k = some { l with record := fresh q } := lotAt_recordNow s k l _ hl
  rw [addHold_new s k l h hl hc g, parkHeld_waiting _ k _ h0 rfl hs hq]
  have := recordNow_twice s k l q { q with queueStatus := some .parked } hl
  calc _ = (recordNow (recordNow s k q) k { q with queueStatus := some .parked }).raise .hold := rfl
    _ = _ := by rw [this]

/-- A hold changes the ports by raising HOLD alone (R5). -/
theorem addHold_ports (s : State) (k : Nat) (h : Hold) :
    (s.addHold k h).ports = s.ports ∨ (s.addHold k h).ports = (s.raise .hold).ports := by
  unfold State.addHold
  split
  · exact Or.inl rfl
  · split
    · exact Or.inl rfl
    · right
      obtain ⟨a, h1⟩ := changeRecord_frame s k fun r => { r with holds := withHold r.holds h }
      obtain ⟨c, d, h2⟩ :=
        parkHeld_frame ((s.changeRecord k fun r => { r with holds := withHold r.holds h }).raise .hold) k
      rw [h2, h1]
      rfl

theorem portsKept_addHold (s : State) (k : Nat) (h : Hold) : portsKept s (s.addHold k h) := by
  rcases addHold_ports s k h with e | e
  · exact portsKept_of_eq _ _ e
  · exact portsKept_trans _ _ _ (portsKept_raise s .hold) (portsKept_of_eq _ _ e)

theorem portsKept_addHoldTo (s : State) (n : Nat) (h : Hold) : portsKept s (s.addHoldTo n h) := by
  unfold State.addHoldTo
  split
  · exact portsKept_addHold s _ h
  · exact portsKept_refl s

/-! ### The test queue -/

/-- An admission attempt for a CURED lot with a hold (R98). -/
theorem admit_held (s : State) (k : Nat) (l : Lot) (hl : s.lotAt k = some l) (hc : l.record.code = .agrees)
    (h : l.record.held.holds ≠ 0) :
    s.admitLot k = recordNow s k { l.record.held with queueStatus := some .parked } := by
  simp only [State.admitLot, recordAt_of_lotAt s k l hl, h, ne_eq, not_false_eq_true, if_true, State.setStatus,
    changeRecord_at s k l _ hl hc]

/-- An admission attempt for a lot without holds while there is room (R98). -/
theorem admit_open (s : State) (k : Nat) (l : Lot) (hl : s.lotAt k = some l) (hc : l.record.code = .agrees)
    (h : l.record.held.holds = 0) (hq : l.record.held.queueStatus ≠ some .queued) (ho : queueOpen s) :
    s.admitLot k = { recordNow s k { l.record.held with queueStatus := some .queued } with
      queue := s.queue ++ [l.record.held.number] } := by
  have ho' : s.queueCount < Config.queueLimit := ho
  have h4 : ({ s with queue := s.queue ++ [l.record.held.number] } : State).lotAt k = some l := hl
  simp only [State.admitLot, recordAt_of_lotAt s k l hl, h, ne_eq, not_true_eq_false, if_false, hq, ho', if_true,
    State.setStatus, changeRecord_at _ k l _ h4 hc]
  rfl

/-- An admission attempt for a lot without holds while there is no room (R98). -/
theorem admit_full (s : State) (k : Nat) (l : Lot) (hl : s.lotAt k = some l) (hc : l.record.code = .agrees)
    (h : l.record.held.holds = 0) (hq : l.record.held.queueStatus ≠ some .queued) (ho : ¬ queueOpen s) :
    s.admitLot k = recordNow s k { l.record.held with queueStatus := some .waiting } := by
  have ho' : ¬ s.queueCount < Config.queueLimit := ho
  simp only [State.admitLot, recordAt_of_lotAt s k l hl, h, ne_eq, not_true_eq_false, if_false, hq, ho',
    State.setStatus, changeRecord_at _ k l _ hl hc]

theorem setStatus_withPorts (s : State) (x : Ports) (k : Nat) (q : QueueStatus) :
    State.setStatus { s with ports := x } k q = { s.setStatus k q with ports := x } := by
  simp only [State.setStatus, State.changeRecord]
  have : ({ s with ports := x } : State).lotAt k = s.lotAt k := rfl
  rw [this]
  cases s.lotAt k <;> rfl

/-- Giving a room reads and writes nothing of the ports (R100). -/
theorem giveRoom_withPorts (s : State) (x : Ports) :
    State.giveRoom { s with ports := x } = { s.giveRoom with ports := x } := by
  unfold State.giveRoom
  have h1 : ({ s with ports := x } : State).queueCount = s.queueCount := rfl
  have h2 : ({ s with ports := x } : State).waitingLots = s.waitingLots := rfl
  rw [h1, h2]
  split
  · cases s.waitingLots.head? with
    | none => rfl
    | some w => exact setStatus_withPorts { s with queue := s.queue ++ [s.numberAt w.slot] } x w.slot .queued
  · rfl

theorem giveRooms_withPorts (n : Nat) (s : State) (x : Ports) :
    State.giveRooms { s with ports := x } n = { s.giveRooms n with ports := x } := by
  induction n generalizing s with
  | zero => rfl
  | succ n ih => rw [State.giveRooms, giveRoom_withPorts, ih]; rfl

/-! ### Ordered lists -/

theorem mem_insertBy {α : Type} (b : α → α → Bool) (x y : α) (l : List α) : y ∈ insertBy b x l ↔ y = x ∨ y ∈ l := by
  induction l with
  | nil => simp [insertBy]
  | cons z l ih =>
    unfold insertBy
    split
    · simp
    · simp only [List.mem_cons, ih]
      tauto

theorem mem_sortBy {α : Type} (b : α → α → Bool) (y : α) (l : List α) : y ∈ sortBy b l ↔ y ∈ l := by
  induction l with
  | nil => simp [sortBy]
  | cons z l ih =>
    have : sortBy b (z :: l) = insertBy b z (sortBy b l) := rfl
    rw [this, mem_insertBy, ih, List.mem_cons]

/-- An element before every other is first once a list is put in order. -/
theorem head_sortBy {α : Type} (b : α → α → Bool) (x : α) (l : List α) (hx : x ∈ l)
    (h1 : ∀ y ∈ l, y ≠ x → b x y = true) (h2 : ∀ y ∈ l, y ≠ x → b y x = false) : (sortBy b l).head? = some x := by
  induction l with
  | nil => simp at hx
  | cons z l ih =>
    have e : sortBy b (z :: l) = insertBy b z (sortBy b l) := rfl
    rw [e]
    by_cases hz : z = x
    · subst hz
      cases hs : sortBy b l with
      | nil => simp [insertBy]
      | cons y ys =>
        have hy : y ∈ l := (mem_sortBy b y l).mp (by rw [hs]; simp)
        by_cases hyz : y = z
        · subst hyz
          unfold insertBy
          split <;> simp
        · simp [insertBy, h1 y (List.mem_cons_of_mem _ hy) hyz]
    · have hx' : x ∈ l := by
        rcases List.mem_cons.mp hx with h | h
        · exact absurd h.symm hz
        · exact h
      have := ih hx' (fun y hy => h1 y (List.mem_cons_of_mem _ hy)) (fun y hy => h2 y (List.mem_cons_of_mem _ hy))
      cases hs : sortBy b l with
      | nil => rw [hs] at this; simp at this
      | cons y ys =>
        rw [hs] at this
        simp only [List.head?_cons, Option.some.injEq] at this
        subst this
        simp [insertBy, h2 z (by simp) hz]

/-- A waiting lot of the choice stands in its slot, CURED and WAITING (R100). -/
theorem mem_waitingLots (s : State) (w : WaitingLot) (h : w ∈ s.waitingLots) :
    ∃ l, s.lotAt w.slot = some l ∧ l.record.held.state = .cured ∧ l.record.held.queueStatus = some .waiting ∧
      w.stamp = l.record.held.cured.getD 0 ∧ w.number = l.record.held.number := by
  simp only [State.waitingLots, mem_sortBy, List.mem_filterMap] at h
  obtain ⟨⟨j, l⟩, hx, he⟩ := h
  dsimp only at he
  split at he
  · rename_i hs
    simp only [Option.some.injEq] at he
    subst he
    exact ⟨l, (mem_occupied s j l).mp hx, hs.1, hs.2, rfl, rfl⟩
  · simp at he

/-- Giving a room leaves every record but a WAITING one as it was (R100). -/
theorem recordAt_giveRoom (s : State) (k : Nat) (r : LotRecord) (h : s.recordAt k = some r)
    (hw : r.state ≠ .cured ∨ r.queueStatus ≠ some .waiting) : s.giveRoom.recordAt k = some r := by
  unfold State.giveRoom
  split
  · cases hh : s.waitingLots.head? with
    | none => exact h
    | some w =>
      obtain ⟨l, hj, h1, h2, -⟩ := mem_waitingLots s w (List.mem_of_mem_head? (by rw [hh]; rfl))
      have hne : k ≠ w.slot := by
        intro e
        rw [e, recordAt_of_lotAt s _ l hj] at h
        cases h
        rcases hw with hw | hw
        · exact hw h1
        · exact hw h2
      have : (State.setStatus { s with queue := s.queue ++ [s.numberAt w.slot] } w.slot .queued).slot k = s.slot k := by
        have h4 : ({ s with queue := s.queue ++ [s.numberAt w.slot] } : State).lotAt w.slot = some l := hj
        simp only [State.setStatus, State.changeRecord, h4, State.putLot, slot_setSlot, hne.symm, false_and, if_false]
        rfl
      simpa only [State.recordAt, State.lotAt, this] using h
  · exact h

/-! ### The pot-life list -/

/-- With no entry due, judging the pot-life list changes nothing (R49). -/
theorem judgePotLife_none (s : State) (h : nothingDue s) : s.judgePotLife = s := by
  have h1 : s.potLife.takeWhile (fun e => decide (e.deadline ≤ s.clock)) = [] := by
    cases hs : s.potLife with
    | nil => rfl
    | cons e l =>
      have := h e (by rw [hs]; simp)
      simp [this]
  have h2 : s.potLife.dropWhile (fun e => decide (e.deadline ≤ s.clock)) = s.potLife := by
    cases hs : s.potLife with
    | nil => rfl
    | cons e l =>
      have := h e (by rw [hs]; simp)
      simp [this]
  simp [State.judgePotLife, h1, h2]

theorem portsKept_expireOne (s : State) (e : PotEntry) : portsKept s (s.expireOne e) :=
  portsKept_trans _ _ _ (portsKept_addHoldTo s e.lot .potLife) (portsKept_raise _ .potLife)

theorem portsKept_judgePotLife (s : State) : portsKept s s.judgePotLife := by
  unfold State.judgePotLife
  generalize s.potLife.takeWhile _ = l
  have : ∀ (l : List PotEntry) (u : State), portsKept u (l.foldl State.expireOne u) := by
    intro l
    induction l with
    | nil => exact portsKept_refl
    | cons e l ih => exact fun u => portsKept_trans _ _ _ (portsKept_expireOne u e) (ih _)
  exact portsKept_trans _ _ _ (portsKept_of_eq _ _ rfl) (this l _)

theorem potBefore_iff (x y : PotEntry) :
    potBefore x y = true ↔ x.deadline < y.deadline ∨ x.deadline = y.deadline ∧ x.lot < y.lot := by
  simp [potBefore]

theorem potBefore_false (x y : PotEntry) :
    potBefore x y = false ↔ y.deadline < x.deadline ∨ x.deadline = y.deadline ∧ y.lot ≤ x.lot := by
  rw [← Bool.not_eq_true, potBefore_iff]
  omega

/-- On an ordered list the entries that are due stand at the front (R48, R49). -/
theorem dropWhile_potOrdered (l : List PotEntry) (m : Nat) (h : potOrdered l) :
    l.dropWhile (fun e => decide (e.deadline ≤ m)) = l.filter fun e => m < e.deadline := by
  induction l with
  | nil => rfl
  | cons e l ih =>
    have h2 := (List.pairwise_cons.mp h).1
    by_cases he : e.deadline ≤ m
    · simp [he, Nat.not_lt.mpr he, ih (List.pairwise_cons.mp h).2]
    · have he' : m < e.deadline := by omega
      have : ∀ y ∈ l, m < y.deadline := by
        intro y hy
        have := (potBefore_false y e).mp (h2 y hy)
        omega
      have hf : l.filter (fun e => decide (m < e.deadline)) = l := by
        rw [List.filter_eq_self]
        simpa using this
      simp [he, he', hf]

/-- A lot joins the pot-life list in its order (R48). -/
theorem potOrdered_insertBy (e : PotEntry) (l : List PotEntry) (h : potOrdered l) : potOrdered (insertBy potBefore e l) := by
  induction l with
  | nil => simp [insertBy, potOrdered]
  | cons x l ih =>
    have h1 := (List.pairwise_cons.mp h).1
    unfold insertBy
    split
    · rename_i hb
      refine List.pairwise_cons.mpr ⟨fun y hy => ?_, h⟩
      have hb := (potBefore_iff e x).mp hb
      rcases List.mem_cons.mp hy with rfl | hy
      · exact (potBefore_false _ _).mpr (by omega)
      · have := (potBefore_false y x).mp (h1 y hy)
        exact (potBefore_false _ _).mpr (by omega)
    · rename_i hb
      refine List.pairwise_cons.mpr ⟨fun y hy => ?_, ih (List.pairwise_cons.mp h).2⟩
      rcases (mem_insertBy potBefore e y l).mp hy with rfl | hy
      · simpa using hb
      · exact h1 y hy

/-! ### Tally and wear -/

/-- A fault counted in a slot that is worn already, or whose tally stays below the threshold (R150, R153, R157). -/
theorem countFault_quiet (s : State) (k : Nat) (f : Nat → Nat) (hk : k < Config.slotCount)
    (h : (s.slot k).worn = true ∨ f (s.slot k).tally < Config.wearTally) :
    s.countFault k f = s.setSlot k { s.slot k with tally := f (s.slot k).tally } := by
  have e := slot_setSlot_same s k { s.slot k with tally := f (s.slot k).tally } hk
  simp only [State.countFault, State.judgeWear]
  rw [e]
  rw [if_neg]
  rcases h with h | h
  · simp [h]
  · have : decide (Config.wearTally ≤ f (s.slot k).tally) = false := decide_eq_false (Nat.not_le.mpr h)
    simp [this]

/-- A fault that brings a healthy slot's tally to the threshold makes it worn, and WORN is raised (R157). -/
theorem countFault_wears (s : State) (k : Nat) (f : Nat → Nat) (hk : k < Config.slotCount)
    (h : (s.slot k).worn = false) (g : Config.wearTally ≤ f (s.slot k).tally) :
    s.countFault k f = (s.setSlot k { s.slot k with tally := f (s.slot k).tally, worn := true }).raise .worn := by
  have e := slot_setSlot_same s k { s.slot k with tally := f (s.slot k).tally } hk
  simp only [State.countFault, State.judgeWear]
  rw [e, if_pos (by simp [h, g])]
  simp only [State.setSlot, setIfInBounds_twice]

/-- A slot whose tally has been raised to the threshold or above is worn (R157). -/
theorem worn_countFault (s : State) (k : Nat) (f : Nat → Nat) (hk : k < Config.slotCount)
    (g : Config.wearTally ≤ f (s.slot k).tally) : ((s.countFault k f).slot k).worn = true := by
  cases h : (s.slot k).worn with
  | true => rw [countFault_quiet s k f hk (Or.inl h), slot_setSlot_same s k _ hk]; exact h
  | false =>
    rw [countFault_wears s k f hk h g]
    show ((s.setSlot k { s.slot k with tally := f (s.slot k).tally, worn := true }).slot k).worn = true
    rw [slot_setSlot_same s k _ hk]

/-! ### Freed slots -/

theorem offerSlot_slots (s u : State) (k : Nat) (h : s.slots = u.slots) : (s.offerSlot k).slots = (u.offerSlot k).slots := by
  have h1 : ∀ j, s.slot j = u.slot j := fun j => by simp only [State.slot, h]
  have h2 : s.lowestWaiting = u.lowestWaiting := by simp only [State.lowestWaiting, h]
  unfold State.offerSlot
  rw [h1 k, h2]
  split
  · exact h
  · cases u.lowestWaiting with
    | none => exact h
    | some w =>
      simp only [State.moveLot, State.lotAt, h1]
      cases (u.slot w).contents with
      | none => exact h
      | some l =>
        simp only [State.emptySlot, State.putLot, State.setSlot, State.slot, h]

/-- Freeing a slot reads the slots alone (R9). -/
theorem freeSlot_slots (s u : State) (k : Nat) (h : s.slots = u.slots) : (s.freeSlot k).slots = (u.freeSlot k).slots :=
  offerSlot_slots _ _ k (by simp only [State.emptySlot, State.setSlot, State.slot, h])

/-- Freeing a slot changes the slots alone (R9). -/
theorem freeSlot_eq (s : State) (k : Nat) : s.freeSlot k = { s with slots := (s.freeSlot k).slots } := by
  obtain ⟨a, h⟩ := freeSlot_frame s k
  rw [h]

end Sys2Proof.Machine
end

