-- ==== Sys2Proof/Laws/Answers.lean ====
section
/-! SUPPORT. How exec of a request answers, from what its owning block's body answers; and what the operations over
channels, the queue, the bench list, wear and freed places do. -/

namespace Sys2Proof.Machine

/-! ### The step of a request -/

/-- A request that passes the Port Unit's checks, whose body raises no notice (R166, R167). -/
theorem request_next (s : State) (p : PortName) (t : Nat) (q : Request) (f : Option Nat)
    (body : State → State × Reply) (hr : s.phase = .running) (hp : (s.port p).request = .ready)
    (hg : s.gate p q f = none) (u target : State) (r : Reply) (hb : body (s.received p t) = (u, r)) (hu : u.ports =
        (s.received p t).ports) 
    (ht : { u with ports := s.ports.set p (answeredPort (s.port p) t r.outcome r.body r.start) } = target) :
    Host.Outcome.next (φ := Fault) (ρ := Refusal) (s.takeRequest p t q f body) = .next target := by
  rw [request_eq s u p t q f body r hr hp hg hb hu, ht]

/-- `request_next` where the body raised notices: `v` is the state with them raised (R176). -/
theorem request_next_raised (s v : State) (p : PortName) (t : Nat) (q : Request) (f : Option Nat)
    (body : State → State × Reply) (hr : s.phase = .running) (hp : (s.port p).request = .ready)
    (hg : s.gate p q f = none) (u target : State) (r : Reply) (hb : body (s.received p t) = (u, r)) (hu : u.ports =
        (v.received p t).ports) 
    (ht : { u with ports := v.ports.set p (answeredPort (v.port p) t r.outcome r.body r.start) } = target) :
    Host.Outcome.next (φ := Fault) (ρ := Refusal) (s.takeRequest p t q f body) = .next target := by
  rw [request_raised s v u p t q f body r hr hp hg hb hu, ht]

/-- A request whose body changes nothing and answers with an outcome and fields. -/
theorem request_next_refused (s : State) (p : PortName) (t : Nat) (q : Request) (f : Option Nat)
    (body : State → State × Reply) (hr : s.phase = .running) (hp : (s.port p).request = .ready)
    (hg : s.gate p q f = none) (o : OutcomeCode) (b : List Field) (hb : body (s.received p t) = (s.received p t,
        ⟨o, b, none⟩)) :
    Host.Outcome.next (φ := Fault) (ρ := Refusal) (s.takeRequest p t q f body) = .next (repliedWith s p t o b) := 
  request_next s p t q f body hr hp hg _ _ _ hb rfl rfl

/-- A ready port of an allowed role, in an allowed mode, with no field checked (R167). -/
theorem gate_ready (s : State) (p : PortName) (ro : Role) (h : ready s p ro) (q : Request) (hq : roleAllows ro q =
    true) (hm : modeAllows s.mode q = true) : s.gate p q none = none :=
  gate_none s p _ (by rw [h.2.2]; exact hq) hm

/-- `gate_ready` for a request whose channel or cell lies in the port's window (R169). -/
theorem gate_ready_windowed (s : State) (p : PortName) (ro : Role) (c : Nat) (h : ready s p ro)
    (hw : windowed s p c) (q : Request) (hq : roleAllows ro q = true) (hm : modeAllows s.mode q =
    true) : s.gate p q (some c) = none :=
  gate_windowed s p _ c hw (by rw [h.2.2]; exact hq) hm

/-- A clean live lot stands in its slot with its number. -/
theorem liveLot_at (s : State) (n k r) (h : liveLot s n k r) : ∃ l, s.lotAt k = some l ∧ l.record.code = .agrees ∧
    l.record.held = r ∧ l.record.held.number = n := by
  obtain ⟨l, a, b, c, d⟩ := liveLot_lotAt s n k r h
  exact ⟨l, a, b, c, by rw [c]; exact d⟩

/-- `request_next` where only the answer's fields stay unnamed. -/
theorem request_next_some (s v : State) (p : PortName) (t : Nat) (q : Request) (f : Option Nat)
    (body : State → State × Reply) (hr : s.phase = .running) (hp : (s.port p).request = .ready)
    (hg : s.gate p q f = none) (u : State) (T : List Machine.Field → State) (h1 : (body (s.received p t)).1 = u)
    (h2 : ∃ b, (body (s.received p t)).2 = doneWith b) (hu : u.ports = (v.received p t).ports)
    (ht : ∀ b, { u with ports := v.ports.set p (answeredPort (v.port p) t .done b none) } = T b) :
    ∃ b, Host.Outcome.next (φ := Fault) (ρ := Refusal) (s.takeRequest p t q f body) = .next (T b) := by
  obtain ⟨b, h2⟩ := h2
  exact ⟨b, request_next_raised s v p t q f body hr hp hg u _ (doneWith b) (by rw [← h1, ← h2]) hu (ht b)⟩

/-! ### Places, the queue and the bench list -/

/-- What giving up every place but the slot leaves (R122). -/
theorem giveUpPlaces_eq (s : State) (n : Nat) : s.giveUpPlaces n = { s with
      cells := mapVector (fun c => { c with
        lane := c.lane.filter (· != n), reservations := c.reservations.filter (· != n) }) s.cells
      channels := mapVector (freeIfBound n) s.channels
      potLife := s.potLife.filter (·.lot != n)
      queue := s.queue.filter (· != n)
      bench := s.bench.filter (·.lot != n) } := rfl

/-- A retirement: the places given up and the slot freed (R3, R116, R122). -/
theorem freeSlot_giveUpPlaces (s : State) (n k : Nat) (a : Account) :
   ((s.withAccount a).giveUpPlaces n).freeSlot k = { s with
      account := a
      slots := (s.freeSlot k).slots
      cells := mapVector (fun c => { c with
        lane := c.lane.filter (· != n), reservations := c.reservations.filter (· != n) }) s.cells
      channels := mapVector (freeIfBound n) s.channels
      potLife := s.potLife.filter (·.lot != n)
      queue := s.queue.filter (· != n)
      bench := s.bench.filter (·.lot != n) } := by
  rw [freeSlot_eq, giveUpPlaces_eq, freeSlot_slots _ s k (by rfl)]
  rfl

/-- A freed place given takes nobody out of the queue (R100). -/
theorem mem_queue_giveRoom (s : State) (n : Nat) (h : n ∈ s.queue) : n ∈ s.giveRoom.queue := by
  unfold State.giveRoom
  split
  · split
    · rename_i w _
      obtain ⟨a, ha⟩ := setStatus_frame { s with queue := s.queue ++ [s.numberAt w.slot] } w.slot .queued
      rw [ha]; exact List.mem_append_left _ h
    · exact h
  · exact h

theorem mem_queue_giveRooms (m : Nat) (s : State) (n : Nat) (h : n ∈ s.queue) : n ∈ (s.giveRooms m).queue := by
  induction m generalizing s with
  | zero => exact h
  | succ m ih => exact ih _ (mem_queue_giveRoom s n h)

/-- The return of a lab port's lots empties its bench entries and leaves the channels (R110). -/
theorem returnBench_bench (s : State) (p : PortName) : (s.returnBench p).bench = s.bench.filter (·.tester != p) ∧
    (s.returnBench p).channels = s.channels := by
  unfold State.returnBench
  obtain ⟨x, y, hg⟩ := giveRooms_frame ((s.benchOf p).length - ((s.benchOf p).filter s.returnsToQueue).length)
    ((s.benchOf p).foldl State.uncheckedReturn { s with
      bench := s.bench.filter (·.tester != p), queue := (s.benchOf p).filter s.returnsToQueue ++ s.queue })
  rw [hg]
  obtain ⟨z, hz⟩ := foldl_uncheckedReturn_frame (s.benchOf p) { s with
    bench := s.bench.filter (·.tester != p), queue := (s.benchOf p).filter s.returnsToQueue ++ s.queue }
  rw [hz]; exact ⟨rfl, rfl⟩

/-! ### Wear and checks -/

/-- A clean slot is left as it is (R149). -/
theorem checkItems_others (s : State) (j : Nat) (h : ∀ m, s.lotAt j = some m → cleanLot m) : s.checkItems j =
    some s := by
  unfold State.checkItems
  split
  · rfl
  · rename_i l hl
    obtain ⟨h1, h2⟩ := findings_clean l (h l hl)
    simp [h1, h2, State.mendRecord, State.mendEntry, relocateNewlyWorn_self]

theorem worn_changeRecord (s : State) (k j : Nat) (f : LotRecord → LotRecord) :
    ((s.changeRecord k f).slot j).worn = (s.slot j).worn := by
  unfold State.changeRecord
  split
  · rw [State.putLot, slot_setSlot]
    split
    · rename_i h; rw [h.1]
    · rfl
  · rfl

theorem worn_giveRoom (s : State) (j : Nat) : ((s.giveRoom).slot j).worn = (s.slot j).worn := by
  unfold State.giveRoom
  split
  · split
    · rw [State.setStatus, worn_changeRecord]; rfl
    · rfl
  · rfl

theorem worn_giveRooms (n : Nat) (s : State) (j : Nat) : ((s.giveRooms n).slot j).worn = (s.slot j).worn := by
  induction n generalizing s with
  | zero => rfl
  | succ n ih => show (((s.giveRoom).giveRooms n).slot j).worn = _; rw [ih, worn_giveRoom]

/-- The first element that meets a condition, read by position. -/
theorem findIdx_first {α : Type} (q : α → Bool) (d : α) (l : List α) (hd : q d = false) :
    (l.findIdx? q = none ↔ ∀ j, q (l.getD j d) = false) ∧
    ∀ w, l.findIdx? q = some w ↔ q (l.getD w d) = true ∧ ∀ j, j < w → q (l.getD j d) = false := by
  refine ⟨?_, fun w => ?_⟩
  · rw [List.findIdx?_eq_none_iff]
    constructor
    · intro h j
      rw [List.getD_eq_getElem?_getD]
      cases e : l[j]? with
      | none => exact hd
      | some x => exact h x (List.mem_of_getElem? e)
    · intro h x hx
      obtain ⟨j, hj⟩ := List.mem_iff_getElem?.mp hx
      have := h j
      rw [List.getD_eq_getElem?_getD, hj] at this
      exact this
  · rw [List.findIdx?_eq_some_iff_getElem]
    constructor
    · rintro ⟨h, h1, h2⟩
      refine ⟨by rw [List.getD_eq_getElem _ _ h]; exact h1, fun j hj => ?_⟩
      rw [List.getD_eq_getElem _ _ (by omega)]
      simpa using h2 j hj
    · rintro ⟨h1, h2⟩
      have h : w < l.length := by
        by_contra hc
        rw [List.getD_eq_default _ _ (by omega), hd] at h1
        cases h1
      refine ⟨h, by rw [List.getD_eq_getElem _ _ h] at h1; exact h1, fun j hj => ?_⟩
      have := h2 j hj
      rw [List.getD_eq_getElem _ _ (by omega)] at this
      simp [this]

theorem slot_mapVector (s : State) (f : Slot → Slot) (u : State) (hu : u.slots = mapVector f s.slots) (k : Nat)
    (hk : k < Config.slotCount) : u.slot k = f (s.slot k) := by
  unfold State.slot
  rw [hu, mapVector_toList]
  rw [List.getD_eq_getElem?_getD, List.getD_eq_getElem?_getD, List.getElem?_map]
  have : k < s.slots.toList.length := by simpa using hk
  rw [List.getElem?_eq_getElem this]; rfl

theorem occupied_none (s : State) (h : ∀ k, (s.slot k).contents = none) : s.occupied = [] := by
  unfold State.occupied
  rw [List.filterMap_eq_nil_iff]
  rintro ⟨x, i⟩ hx
  have := List.mem_zipIdx_iff_getElem?.mp hx
  have e := h i
  unfold State.slot at e
  rw [List.getD_eq_getElem?_getD, this] at e
  dsimp only at e ⊢
  have e' : x.contents = none := e
  rw [e']; rfl

/-! ### Channels and setups -/

theorem channel_orphan (s : State) (c d : Nat) : (s.orphanChannel c).channel d = if d =
    c then none else s.channel d := by
  unfold State.orphanChannel
  split
  · rename_i b hb
    obtain ⟨a, h⟩ := clearChannelField_frame (s.setChannel c none) b.lot
    rw [h]
    show (s.setChannel c none).channel d = _
    rw [channel_setChannel]
    by_cases hd : d = c
    · subst hd
      by_cases hk : d < Config.channelCount
      · simp [hk]
      · have : s.channel d = none := by
          unfold State.channel
          rw [List.getD_eq_default _ _ (by simpa using Nat.not_lt.mp hk)]
        simp [this]
    · simp [hd, Ne.symm hd]
  · rename_i hb
    by_cases hd : d = c
    · rw [hd, hb]; simp
    · simp [hd]

theorem channel_orphan_foldl (l : List Nat) (s : State) (d : Nat) : (l.foldl State.orphanChannel s).channel d =
    if d ∈ l then none else s.channel d := by
  induction l generalizing s with
  | nil => simp
  | cons x l ih =>
    rw [List.foldl_cons, ih, channel_orphan]
    by_cases h1 : d ∈ l <;> by_cases h2 : d = x <;> simp [h1, h2]

/-- Orphaning frees the listed channels and no other (R50). -/
theorem channel_orphans (s : State) (l : List Nat) (d : Nat) : (s.orphanChannels l).channel d =
    if d ∈ l then none else s.channel d := by
  unfold State.orphanChannels
  split
  · rename_i h; simp [h]
  · exact channel_orphan_foldl l s d

theorem mem_channelsWhere (s : State) (q : Nat → Binding → Bool) (c : Nat) :
    c ∈ s.channelsWhere q ↔ ∃ b, s.channel c = some b ∧ q c b = true := by
  unfold State.channelsWhere State.channel
  rw [List.mem_filterMap]
  constructor
  · rintro ⟨⟨x, i⟩, hx, h⟩
    have hx' := List.mem_zipIdx_iff_getElem?.mp hx
    dsimp only at hx' h
    cases x with
    | none => cases h
    | some b =>
      dsimp only at h
      split at h
      · rename_i hq
        cases h
        exact ⟨b, by rw [List.getD_eq_getElem?_getD, hx']; rfl, hq⟩
      · cases h
  · rintro ⟨b, hb, hq⟩
    rw [List.getD_eq_getElem?_getD] at hb
    refine ⟨(some b, c), List.mem_zipIdx_iff_getElem?.mpr ?_, by simp [hq]⟩
    cases e : s.channels.toList[c]? with
    | none => rw [e] at hb; cases hb
    | some y => rw [e] at hb; dsimp at hb; rw [hb]

theorem port_codes (port : Nat) (q : PortName) (h : (port, q) ∈ [(1, PortName.b), (2, .c), (3,
    .d)]) : portOfCode port = some q ∧ q ≠ .a := by
  simp only [List.mem_cons, Prod.mk.injEq, List.not_mem_nil, or_false] at h
  rcases h with ⟨rfl, rfl⟩ | ⟨rfl, rfl⟩ | ⟨rfl, rfl⟩ <;> exact ⟨rfl, by decide⟩

theorem role_codes (role : Nat) (r : Role) (h : (role, r) ∈ [(0, Role.plant), (1, .mixer), (2, .lab), (3,
    .yard)]) : roleOfCode role = some r := by
  simp only [List.mem_cons, Prod.mk.injEq, List.not_mem_nil, or_false] at h
  rcases h with ⟨rfl, rfl⟩ | ⟨rfl, rfl⟩ | ⟨rfl, rfl⟩ | ⟨rfl, rfl⟩ <;> rfl

theorem portSetupBody_eq (port role first last : Nat) (s : State) (q : PortName) (r : Role) (hp : portOfCode port =
    some q) (hq : q ≠ .a) (hr : roleOfCode role = some r) :
    portSetupBody port role first last s = match setupOf r first last with
    | none => (s, refuse .range [])
    | some x =>
      let t := s.setupInto q x
      (t, doneWith (t.setupList ++ listField (fun c => [.u8 c]) (s.setupFrees q x) ++
        listField (fun n => [.u24 n]) (s.setupReturns t q))) := by
  unfold portSetupBody
  rw [hp, hr]
  cases q
  · exact absurd rfl hq
  all_goals rfl

/-- What a taken PORT SETUP does: the record it writes, the port, the channels it frees, the bench list, and nothing else
(R52, R111, R170, R171). -/
theorem setupInto_facts (s : State) (q : PortName) (r : PortRole) :
    (∃ x, (s.setupInto q r).setup = beginSetupWrite s.setup x) ∧
    portsKept (s.setPort q (assignRole (s.port q) r)) (s.setupInto q r) ∧
    (∀ c, (s.setupInto q r).channel c =
        if c ∈ (s.setPort q (assignRole (s.port q) r)).excludedChannels q then none else s.channel c) ∧
    (s.setupInto q r).bench = (if (s.port q).role = .lab ∧
        r.role ≠ .lab then s.bench.filter (·.tester != q) else s.bench) ∧
    s.setupInto q r = { s with slots := (s.setupInto q r).slots, channels := (s.setupInto q r).channels, queue :=
        (s.setupInto q r).queue, bench := (s.setupInto q r).bench, setup := (s.setupInto q r).setup, ports :=
        (s.setupInto q r).ports } := by
  set s1 := s.setPort q (assignRole (s.port q) r) with hs1
  let s2 : State := { s1 with setup := beginSetupWrite s1.setup (setupRecordOf s1.ports) }
  let s3 := s2.orphanChannels (s2.excludedChannels q)
  have hu : s.setupInto q r = if s.setupReturns s1 q = [] then s3 else s3.returnBench q := rfl
  obtain ⟨a, b, c, h3⟩ := orphanChannels_frame s2 (s2.excludedChannels q)
  have h3' : s3 = { s2 with slots := a, channels := b, ports := c } := h3
  have hpk3 : portsKept s1 s3 := by
    simp only [s3]
    unfold State.orphanChannels
    split
    · exact fun _ => rfl
    · obtain ⟨x, y, g⟩ := foldl_orphanChannel_frame (s2.excludedChannels q) s2
      rw [g]
      exact portsKept_trans _ _ _ (portsKept_of_eq s1 { s2 with slots := x, channels := y } rfl) (portsKept_raise _ _)
  have hch3 : ∀ d, s3.channel d = if d ∈ s1.excludedChannels q then none else s.channel d := by
    intro d
    show (s2.orphanChannels (s2.excludedChannels q)).channel d = _
    rw [channel_orphans]; rfl
  have hroleq : (s1.port q).role = r.role := by
    rw [hs1, port_setPort_same]; rfl
  obtain ⟨x, y, z, hrb⟩ := returnBench_frame s3 q
  have hb := returnBench_bench s3 q
  rw [hu]
  by_cases hr : s.setupReturns s1 q = []
  · rw [if_pos hr]
    refine ⟨⟨setupRecordOf s1.ports, by rw [h3']; rfl⟩, hpk3, hch3, ?_, ?_⟩
    · have : s3.bench = s.bench := by rw [h3']; rfl
      rw [this]
      unfold State.setupReturns at hr
      rw [hroleq] at hr
      by_cases hc : (s.port q).role = .lab ∧ r.role ≠ .lab
      · rw [if_pos hc] at hr ⊢
        unfold State.benchOf at hr
        symm
        rw [List.filter_eq_self]
        intro e he
        by_contra hne
        have : e ∈ s.bench.filter (·.tester == q) := List.mem_filter.mpr ⟨he, by simpa using hne⟩
        rw [List.map_eq_nil_iff] at hr
        rw [hr] at this; cases this
      · rw [if_neg hc]
    · rw [h3']; rfl
  · rw [if_neg hr]
    refine ⟨⟨setupRecordOf s1.ports, by rw [hrb, h3']; rfl⟩, ?_, ?_, ?_, ?_⟩
    · exact portsKept_trans _ _ _ hpk3 (portsKept_of_eq _ _ (by rw [hrb]))
    · intro d
      show (s3.returnBench q).channels.toList.getD d none = _
      rw [hb.2]; exact hch3 d
    · rw [hb.1]
      have : s3.bench = s.bench := by rw [h3']; rfl
      rw [this, if_pos]
      by_contra hc
      apply hr
      unfold State.setupReturns
      rw [hroleq, if_neg hc]
    · rw [hrb, h3']; rfl

end Sys2Proof.Machine
end

