-- ==== Sys2Proof/Laws/Arrival.lean ====
section
/-! SUPPORT. What the assembly of frames can do: no byte is taken outside work, a frame's bytes join one another until
the last one completes it, and what a complete frame carries is carried out as its own command. -/

namespace Sys2Proof.Machine

theorem setPort_port (s : State) (p : PortName) : s.setPort p (s.port p) = s := by
  cases p <;> rfl

/-- No byte is received outside work (R182 to R184). -/
theorem takeBytes_outside (p : PortName) (bytes : List Byte) (s : State) (h : s.phase ≠ .running) :
    takeBytes p bytes s = .next s := by
  induction bytes with
  | nil => rfl
  | cons b bs ih => simp [takeBytes, takeByte, h, ih]

/-- Carrying out what a byte completes ends the bytes when it is the last. -/
theorem takeBytes_one (p : PortName) (b : Byte) (s : State) : takeBytes p [b] s = takeByte p b s := by
  simp only [takeBytes]
  cases takeByte p b s <;> rfl

/-- Bytes that join a frame begun and complete it at the last one carry out what the frame carries (R164). -/
theorem takeBytes_complete (p : PortName) (c : Instr) (bytes part : List Byte) (s : State) (hr : s.phase = .running)
    (hp : (s.port p).partialFrame = part) (hne : part ≠ []) (hb : bytes ≠ [])
    (hpre : ∀ pre post, bytes = pre ++ post → pre ≠ [] → post ≠ [] → commandOfFrame p (part ++ pre) = none)
    (hc : commandOfFrame p (part ++ bytes) = some c) :
    takeBytes p bytes s = carryOut c (s.setPort p { s.port p with partialFrame := [] }) := by
  induction bytes generalizing part s with
  | nil => exact absurd rfl hb
  | cons b bs ih =>
    rcases bs with _ | ⟨d, bs⟩
    · rw [takeBytes_one, takeByte, if_pos hr, State.assemble, hp, hc]
    · have h1 : commandOfFrame p (part ++ [b]) = none := hpre [b] (d :: bs) rfl (by simp) (by simp)
      let t := s.setPort p { s.port p with partialFrame := part ++ [b] }
      have h2 : takeByte p b s = .next t := by
        rw [takeByte, if_pos hr, State.assemble, hp, h1]
        simp [hne, t]
      have h3 : (t.port p).partialFrame = part ++ [b] := by simp [t]
      have h4 := ih (part ++ [b]) t hr h3 (by simp) (by simp)
        (fun pre post e h5 h6 => by
          have := hpre (b :: pre) post (by rw [e]; rfl) (by simp) h6
          simpa using this)
        (by simpa using hc)
      rw [takeBytes, h2]
      dsimp only
      rw [h4]
      simp [t]

/-- A strict beginning of a complete frame carries nothing yet (R164). -/
theorem commandOfFrame_begun (p : PortName) (t code h l : Byte) (rest pre post : List Byte)
    (hn : numberOf [h, l] ≤ 1024) (hl : rest.length = numberOf [h, l] + 2)
    (e : t :: code :: h :: l :: rest = pre ++ post) (hpost : post ≠ []) :
    commandOfFrame p (startMark :: pre) = none := by
  rcases pre with _ | ⟨a, _ | ⟨b, _ | ⟨c, _ | ⟨d, pre⟩⟩⟩⟩ <;> simp only [commandOfFrame]
  simp only [List.cons_append, List.cons.injEq] at e
  obtain ⟨rfl, rfl, rfl, rfl, e⟩ := e
  have : pre.length ≠ numberOf [h, l] + 2 := by
    have h1 := congrArg List.length e
    have h2 : 0 < post.length := List.length_pos_iff.mpr hpost
    rw [List.length_append] at h1
    omega
  have h1 : ¬ 1024 < numberOf [h, l] := by omega
  simp [h1, this]

/-- A frame that arrives whole on a port with none begun carries out what it carries (R164). -/
theorem takeBytes_frame (p : PortName) (c : Instr) (t code h l : Byte) (rest : List Byte) (s : State)
    (hr : s.phase = .running) (hp : (s.port p).partialFrame = []) (hn : numberOf [h, l] ≤ 1024)
    (hl : rest.length = numberOf [h, l] + 2)
    (hc : commandOfFrame p (startMark :: t :: code :: h :: l :: rest) = some c) :
    takeBytes p (startMark :: t :: code :: h :: l :: rest) s = carryOut c s := by
  let u := s.setPort p { s.port p with partialFrame := [startMark] }
  have h1 : takeByte p startMark s = .next u := by
    rw [takeByte, if_pos hr, State.assemble, hp]
    simp [commandOfFrame, u]
  rw [takeBytes, h1]
  have h2 := takeBytes_complete p c (t :: code :: h :: l :: rest) [startMark] u hr (by simp [u]) (by simp)
    (by simp) (fun pre post e _ h5 => commandOfFrame_begun p t code h l rest pre post hn hl e h5) hc
  dsimp only
  rw [h2]
  have h3 : { s.port p with partialFrame := [] } = s.port p := by rw [← hp]
  simp only [u, port_setPort_same, setPort_setPort, h3, setPort_port]

/-- What a good frame carries is carried out as that command (R165). -/
theorem carryOut_requestOf (p : PortName) (t code : Nat) (body : List Byte) (s : State) :
    carryOut (requestOf p t code body) s = exec (requestOf p t code body) s := by
  unfold requestOf
  split
  · split
    · rename_i i h
      unfold plantRequest at h
      split at h <;> (try split at h) <;> (try split at h) <;> first | (cases h; rfl) | (simp at h)
    · unfold stationRequest
      split <;> (try split) <;> rfl
  · rfl

end Sys2Proof.Machine
end

