-- ==== Sys2Proof/Laws/Bindings.lean ====
section
/-! SUPPORT. What lots keep when a channel, a bench list or a queue place moves: which slot a number is found in, which
slots a freed channel and a lab port that leaves change, and that no place is given while no lot waits. -/

namespace Sys2Proof.Machine

/-! ### The slot of a number -/

/-- Slots that hold the same number, one by one, find it in the same slot. -/
theorem slotOf_congr (s u : State) (n : Nat) (e : ∀ j, holdsNumber n (u.slot j) = holdsNumber n (s.slot j)) :
    u.slotOf n = s.slotOf n := by
  have e2 := findIdx_first (holdsNumber n) Slot.blank u.slots.toList rfl
  have e1 := findIdx_first (holdsNumber n) Slot.blank s.slots.toList rfl
  unfold State.slot at e
  unfold State.slotOf
  cases hs : s.slots.toList.findIdx? (holdsNumber n) with
  | none => exact e2.1.mpr fun j => (e j).trans (e1.1.mp hs j)
  | some w =>
    have h1 := (e1.2 w).mp hs
    exact (e2.2 w).mpr ⟨(e w).trans h1.1, fun j hj => (e j).trans (h1.2 j hj)⟩

/-- A slot's contents replaced by contents of the same number leave every number in its slot. -/
theorem slotOf_putLot (s : State) (k : Nat) (l m : Lot) (h : s.lotAt k = some l) (hn : lotNumber m = lotNumber l) (n : Nat) :
    (s.putLot k m).slotOf n = s.slotOf n := by
  refine slotOf_congr s _ n fun j => ?_
  rw [State.putLot, slot_setSlot]
  split
  · rename_i hj
    rw [← hj.1]
    simp [holdsNumber, slot_lotAt s k l h, hn]
  · rfl

theorem slotOf_changeRecord (s : State) (k n : Nat) (f : LotRecord → LotRecord) (hf : ∀ r, (f r).number = r.number) :
    (s.changeRecord k f).slotOf n = s.slotOf n := by
  unfold State.changeRecord
  split
  · rename_i l hl
    refine slotOf_putLot s k l _ hl ?_ n
    have := lotNumber_modify l f id hf fun _ => rfl
    rw [← this]
    obtain ⟨⟨r, c⟩, ⟨e, d⟩, m⟩ := l
    cases d <;> rfl
  · rfl

theorem slotOf_changeEntry (s : State) (k n : Nat) (f : IndexEntry → IndexEntry) (hf : ∀ e, (f e).number = e.number) :
    (s.changeEntry k f).slotOf n = s.slotOf n := by
  unfold State.changeEntry
  split
  · rename_i l hl
    refine slotOf_putLot s k l _ hl ?_ n
    have := lotNumber_modify l id f (fun _ => rfl) hf
    rw [← this]
    obtain ⟨⟨r, c⟩, ⟨e, d⟩, m⟩ := l
    cases c <;> rfl
  · rfl

/-! ### The slots that a change of one record leaves -/

theorem slot_changeRecord_ne (s : State) (k j : Nat) (f : LotRecord → LotRecord) (h : j ≠ k) :
    (s.changeRecord k f).slot j = s.slot j := by
  unfold State.changeRecord
  split
  · exact slot_setSlot_ne s k j _ h
  · rfl

theorem slot_changeEntry_ne (s : State) (k j : Nat) (f : IndexEntry → IndexEntry) (h : j ≠ k) :
    (s.changeEntry k f).slot j = s.slot j := by
  unfold State.changeEntry
  split
  · exact slot_setSlot_ne s k j _ h
  · rfl

theorem recordAt_changeRecord (s : State) (k : Nat) (f : LotRecord → LotRecord) :
    (s.changeRecord k f).recordAt k = (s.recordAt k).map f := by
  unfold State.changeRecord State.recordAt
  cases h : s.lotAt k with
  | none => simp [h]
  | some l => simp [lotAt_putLot s k _ (slot_of_lotAt s k l h), modifyStored]

theorem recordAt_changeEntry (s : State) (k j : Nat) (f : IndexEntry → IndexEntry) :
    (s.changeEntry k f).recordAt j = s.recordAt j := by
  by_cases hj : j = k
  · subst hj
    unfold State.changeEntry State.recordAt
    cases h : s.lotAt j with
    | none => simp [h]
    | some l => simp [lotAt_putLot s j _ (slot_of_lotAt s j l h)]
  · simp only [State.recordAt, State.lotAt, slot_changeEntry_ne s k j f hj]

/-! ### Channels that are freed (R50) -/

theorem unbound_unbound (x : Slot) : unbound (unbound x) = unbound x := by
  rcases x with ⟨_ | ⟨⟨r, c⟩, e, m⟩, t, w, p, a, g⟩ <;> simp [unbound, modifyStored]
  cases c <;> rfl

theorem holdsNumber_unbound (x : Slot) (n : Nat) : holdsNumber n (unbound x) = holdsNumber n x := by
  rcases x with ⟨_ | l, t, w, p, a, g⟩
  · rfl
  · have := lotNumber_modify l (fun r => { r with channel := none }) id (fun _ => rfl) fun _ => rfl
    have e : lotNumber { l with record := modifyStored (fun r => { r with channel := none }) l.record } = lotNumber l := by
      rw [← this]
      obtain ⟨⟨r, c⟩, ⟨e, d⟩, m⟩ := l
      cases d <;> rfl
    simp only [holdsNumber, unbound, Option.map_some, e]

theorem slotOf_clearChannelField (s : State) (m n : Nat) : (s.clearChannelField m).slotOf n = s.slotOf n := by
  unfold State.clearChannelField
  split
  · exact slotOf_changeRecord s _ n _ fun _ => rfl
  · rfl

theorem slotOf_orphanChannel (s : State) (c n : Nat) : (s.orphanChannel c).slotOf n = s.slotOf n := by
  unfold State.orphanChannel
  split
  · exact slotOf_clearChannelField _ _ n
  · rfl

theorem slot_clearChannelField (s : State) (n k : Nat) :
    (s.clearChannelField n).slot k = if s.slotOf n = some k then unbound (s.slot k) else s.slot k := by
  unfold State.clearChannelField
  cases h : s.slotOf n with
  | none => simp
  | some j =>
    by_cases hk : j = k
    · subst hk
      simp only [if_true]
      unfold State.changeRecord
      cases hl : s.lotAt j with
      | none =>
        have : (s.slot j).contents = none := hl
        rcases e : s.slot j with ⟨c, t, w, p, a, g⟩
        rw [e] at this
        dsimp only at this
        simp [e, this, unbound]
      | some l =>
        dsimp only
        rw [State.putLot, slot_setSlot_same s j _ (slot_of_lotAt s j l hl)]
        simp [unbound, slot_lotAt s j l hl]
    · rw [if_neg (by simpa using hk)]
      exact slot_changeRecord_ne s j k _ (Ne.symm hk)

/-- Channels freed one after another: the lots they bound lose their channel field, and no other slot changes. -/
theorem orphansMade_foldl (l : List Nat) (s : State) : orphansMade s (l.foldl State.orphanChannel s) fun c => c ∈ l := by
  induction l generalizing s with
  | nil => exact fun k => ⟨fun ⟨_, _, h, _⟩ => absurd h List.not_mem_nil, fun _ => rfl⟩
  | cons x l ih =>
    intro k
    rw [List.foldl_cons]
    obtain ⟨h1, h2⟩ := ih (s.orphanChannel x) k
    have hx : (s.orphanChannel x).slot k =
        if ∃ b, s.channel x = some b ∧ s.slotOf b.lot = some k then unbound (s.slot k) else s.slot k := by
      unfold State.orphanChannel
      cases hb : s.channel x with
      | none => simp
      | some b =>
        have := slot_clearChannelField (s.setChannel x none) b.lot k
        simp only [Option.some.injEq, exists_eq_left']
        exact this
    have hc := channel_orphan s x
    by_cases later : ∃ c b, c ∈ l ∧ (s.orphanChannel x).channel c = some b ∧ s.slotOf b.lot = some k
    · obtain ⟨c, b, hm, hcb, hk⟩ := later
      have e1 := h1 ⟨c, b, hm, hcb, by rw [slotOf_orphanChannel]; exact hk⟩
      have hcb' : s.channel c = some b := by
        rw [hc] at hcb
        split at hcb
        · cases hcb
        · exact hcb
      refine ⟨fun _ => ?_, fun h => absurd hk (h c b (List.mem_cons_of_mem x hm) hcb')⟩
      rw [e1, hx]
      split
      · exact unbound_unbound _
      · rfl
    · have e2 := h2 fun c b hm hcb => by
        rw [slotOf_orphanChannel]
        exact fun hk => later ⟨c, b, hm, hcb, hk⟩
      rw [e2, hx]
      refine ⟨fun ⟨c, b, hm, hcb, hk⟩ => ?_, fun h => ?_⟩
      · by_cases hcx : c = x
        · subst hcx
          rw [if_pos ⟨b, hcb, hk⟩]
        · have : c ∈ l := by simpa [hcx] using hm
          exact absurd ⟨c, b, this, by rw [hc, if_neg hcx]; exact hcb, hk⟩ later
      · rw [if_neg]
        rintro ⟨b, hb, hk⟩
        exact h x b List.mem_cons_self hb hk

/-- `orphansMade_foldl` with the notice (R50). -/
theorem orphansMade_orphanChannels (l : List Nat) (s : State) : orphansMade s (s.orphanChannels l) fun c => c ∈ l := by
  unfold State.orphanChannels
  split
  · rename_i h
    subst h
    exact orphansMade_foldl [] s
  · exact orphansMade_foldl l s

/-! ### Room that no lot waits for (R100) -/

theorem sortBy_nil_iff {α : Type} (b : α → α → Bool) (l : List α) : sortBy b l = [] ↔ l = [] := by
  cases l with
  | nil => simp [sortBy]
  | cons x l =>
    simp only [sortBy, List.foldr_cons, reduceCtorEq, iff_false]
    cases List.foldr (insertBy b) [] l with
    | nil => simp [insertBy]
    | cons y ys => simp only [insertBy]; split <;> simp

/-- No place is given while no lot waits. -/
theorem giveRoom_noneWaiting (s : State)
    (h : ∀ k r, s.recordAt k = some r → r.state = .cured → r.queueStatus ≠ some .waiting) : s.giveRoom = s := by
  have : s.waitingLots = [] := by
    unfold State.waitingLots
    rw [sortBy_nil_iff, List.filterMap_eq_nil_iff]
    rintro ⟨k, l⟩ hx
    have hl := (mem_occupied s k l).mp hx
    dsimp only
    rw [if_neg]
    rintro ⟨h1, h2⟩
    exact h k l.record.held (recordAt_of_lotAt s k l hl) h1 h2
  unfold State.giveRoom
  rw [this]
  split <;> rfl

/-! ### Room that is given (R100) -/

/-- What giving one place can do: one WAITING lot at most joins the back of the queue, and only its slot changes. -/
theorem giveRoom_keeps (s : State) :
    (∃ given, s.giveRoom.queue = s.queue ++ given ∧ given.length ≤ 1) ∧
      ∀ j, (∀ r, s.recordAt j = some r → r.state = .cured → r.queueStatus ≠ some .waiting) →
        s.giveRoom.slot j = s.slot j := by
  unfold State.giveRoom
  split
  · cases hw : s.waitingLots.head? with
    | none => exact ⟨⟨[], by simp, by simp⟩, fun _ _ => rfl⟩
    | some w =>
      dsimp only
      obtain ⟨a, ha⟩ := setStatus_frame { s with queue := s.queue ++ [s.numberAt w.slot] } w.slot .queued
      refine ⟨⟨[s.numberAt w.slot], by rw [ha], by simp⟩, fun j hj => ?_⟩
      have hm : w ∈ s.waitingLots := List.mem_of_mem_head? (by rw [hw]; rfl)
      unfold State.waitingLots at hm
      rw [mem_sortBy, List.mem_filterMap] at hm
      obtain ⟨⟨k, l⟩, hx, he⟩ := hm
      have hl := (mem_occupied s k l).mp hx
      dsimp only at he
      split at he
      · rename_i hc
        cases he
        have hne : j ≠ k := by
          rintro rfl
          exact hj _ (recordAt_of_lotAt s j l hl) hc.1 hc.2
        exact slot_changeRecord_ne _ k j _ hne
      · cases he
  · exact ⟨⟨[], by simp, by simp⟩, fun _ _ => rfl⟩

/-- Giving a room reads and writes nothing but the slots, the queue and the bench list (R100). -/
theorem giveRoom_congr (u w : State) (h1 : w.slots = u.slots) (h2 : w.queue = u.queue) (h3 : w.bench = u.bench) :
    w.giveRoom.slots = u.giveRoom.slots ∧ w.giveRoom.queue = u.giveRoom.queue ∧
      w.giveRoom.bench = u.giveRoom.bench := by
  have status : ∀ (a b : State) k q, b.slots = a.slots → b.queue = a.queue → b.bench = a.bench →
      (b.setStatus k q).slots = (a.setStatus k q).slots ∧ (b.setStatus k q).queue = (a.setStatus k q).queue ∧
        (b.setStatus k q).bench = (a.setStatus k q).bench := by
    intro a b k q e1 e2 e3
    unfold State.setStatus State.changeRecord State.putLot State.setSlot
    have hs : b.slot k = a.slot k := by simp only [State.slot, e1]
    have hl : b.lotAt k = a.lotAt k := by simp only [State.lotAt, hs]
    rw [hl, hs]
    cases a.lotAt k <;> simp [e1, e2, e3]
  have hs : ∀ k, w.slot k = u.slot k := fun k => by simp only [State.slot, h1]
  have hq : w.queueCount = u.queueCount := by simp only [State.queueCount, h2, h3]
  have hw : w.waitingLots = u.waitingLots := by simp only [State.waitingLots, State.occupied, h1]
  have hn : ∀ k, w.numberAt k = u.numberAt k := fun k => by simp only [State.numberAt, State.recordAt, State.lotAt, hs]
  unfold State.giveRoom
  rw [hq, hw]
  split
  · cases u.waitingLots.head? with
    | none => exact ⟨h1, h2, h3⟩
    | some x => exact status _ _ _ _ h1 (by dsimp only; rw [h2, hn]) h3
  · exact ⟨h1, h2, h3⟩

/-- `giveRoom_congr` for several places. -/
theorem giveRooms_congr (n : Nat) (u w : State) (h1 : w.slots = u.slots) (h2 : w.queue = u.queue)
    (h3 : w.bench = u.bench) :
    (w.giveRooms n).slots = (u.giveRooms n).slots ∧ (w.giveRooms n).queue = (u.giveRooms n).queue ∧
      (w.giveRooms n).bench = (u.giveRooms n).bench := by
  induction n generalizing u w with
  | zero => exact ⟨h1, h2, h3⟩
  | succ n ih =>
    obtain ⟨a, b, c⟩ := giveRoom_congr u w h1 h2 h3
    exact ih u.giveRoom w.giveRoom a b c

/-- `giveRoom_keeps` for several places. -/
theorem giveRooms_keeps (n : Nat) (s : State) :
    (∃ given, (s.giveRooms n).queue = s.queue ++ given ∧ given.length ≤ n) ∧
      ∀ j, (∀ r, s.recordAt j = some r → r.state = .cured → r.queueStatus ≠ some .waiting) →
        (s.giveRooms n).slot j = s.slot j := by
  induction n generalizing s with
  | zero => exact ⟨⟨[], by simp [State.giveRooms], by simp⟩, fun _ _ => rfl⟩
  | succ n ih =>
    obtain ⟨⟨g1, e1, l1⟩, k1⟩ := giveRoom_keeps s
    obtain ⟨⟨g2, e2, l2⟩, k2⟩ := ih s.giveRoom
    refine ⟨⟨g1 ++ g2, by rw [State.giveRooms, e2, e1, List.append_assoc], by simp; omega⟩, fun j hj => ?_⟩
    have h1 := k1 j hj
    rw [State.giveRooms, k2 j ?_, h1]
    have e : s.giveRoom.recordAt j = s.recordAt j := by simp only [State.recordAt, State.lotAt, h1]
    rw [e]
    exact hj

/-! ### Lots handed back (R110) -/

theorem lotNumber_handedBack (l : Lot) : lotNumber (handedBack l) = lotNumber l :=
  lotNumber_modify l _ _ (fun _ => rfl) fun _ => rfl

theorem handedBack_handedBack (l : Lot) : handedBack (handedBack l) = handedBack l := by
  obtain ⟨⟨r, c⟩, ⟨e, d⟩, m⟩ := l
  cases c <;> cases d <;> rfl

/-- A lot that is found is handed back in its slot. -/
theorem uncheckedReturn_eq (s : State) (n k : Nat) (l : Lot) (hn : s.slotOf n = some k) (hl : s.lotAt k = some l) :
    s.uncheckedReturn n = s.putLot k (handedBack l) := by
  have hk := slot_of_lotAt s k l hl
  have hr : s.returnsToQueue n = (l.record.held.holds == 0) := by
    simp [State.returnsToQueue, State.recordOf, hn, State.recordAt, hl]
  unfold State.uncheckedReturn
  rw [hn]
  dsimp only
  unfold State.changeRecord
  rw [hl]
  dsimp only
  unfold State.changeEntry
  rw [lotAt_putLot s k _ hk]
  dsimp only
  rw [State.putLot, State.putLot, slot_setSlot_same s k _ hk, State.setSlot, State.setSlot]
  dsimp only
  rw [setIfInBounds_twice]
  simp only [State.putLot, State.setSlot, handedBack, hr, beq_iff_eq]

theorem uncheckedReturn_none (s : State) (n : Nat) (h : ∀ k l, s.slotOf n = some k → s.lotAt k ≠ some l) :
    s.uncheckedReturn n = s := by
  unfold State.uncheckedReturn
  cases hn : s.slotOf n with
  | none => rfl
  | some k =>
    have hl : s.lotAt k = none := by
      cases hl : s.lotAt k with
      | none => rfl
      | some l => exact absurd hl (h k l hn)
    simp [State.changeRecord, State.changeEntry, hl]

theorem slotOf_uncheckedReturn (s : State) (m n : Nat) : (s.uncheckedReturn m).slotOf n = s.slotOf n := by
  by_cases h : ∃ k l, s.slotOf m = some k ∧ s.lotAt k = some l
  · obtain ⟨k, l, hm, hl⟩ := h
    rw [uncheckedReturn_eq s m k l hm hl]
    exact slotOf_putLot s k l _ hl (lotNumber_handedBack l) n
  · rw [uncheckedReturn_none s m fun k l a b => h ⟨k, l, a, b⟩]

theorem slot_uncheckedReturn_ne (s : State) (n j : Nat) (h : s.slotOf n ≠ some j) :
    (s.uncheckedReturn n).slot j = s.slot j := by
  by_cases hx : ∃ k l, s.slotOf n = some k ∧ s.lotAt k = some l
  · obtain ⟨k, l, hn, hl⟩ := hx
    rw [uncheckedReturn_eq s n k l hn hl]
    exact slot_setSlot_ne s k j _ fun e => h (by rw [hn, e])
  · rw [uncheckedReturn_none s n fun k l a b => hx ⟨k, l, a, b⟩]

/-- The slot of a lot that is found, once the lot has been handed back. -/
theorem slot_uncheckedReturn (s : State) (n k : Nat) (h : s.slotOf n = some k) :
    (s.uncheckedReturn n).slot k = { s.slot k with contents := (s.lotAt k).map handedBack } := by
  cases hl : s.lotAt k with
  | none =>
    rw [uncheckedReturn_none s n fun j l a b => by rw [h] at a; cases a; rw [hl] at b; cases b]
    have hc : (s.slot k).contents = none := hl
    exact congrArg (fun c => ({ s.slot k with contents := c } : Slot)) hc
  | some l =>
    rw [uncheckedReturn_eq s n k l h hl, State.putLot, slot_setSlot_same s k _ (slot_of_lotAt s k l hl)]
    rfl

/-- Lots handed back one after another: each lot is handed back in its slot, and no other slot changes. -/
theorem foldl_uncheckedReturn_slots (l : List Nat) (s : State) :
    (∀ n, (l.foldl State.uncheckedReturn s).slotOf n = s.slotOf n) ∧
    (∀ k, (∃ n ∈ l, s.slotOf n = some k) →
      (l.foldl State.uncheckedReturn s).slot k = { s.slot k with contents := (s.lotAt k).map handedBack }) ∧
    ∀ k, (∀ n ∈ l, s.slotOf n ≠ some k) → (l.foldl State.uncheckedReturn s).slot k = s.slot k := by
  induction l generalizing s with
  | nil => exact ⟨fun _ => rfl, fun k ⟨_, h, _⟩ => absurd h List.not_mem_nil, fun _ _ => rfl⟩
  | cons x l ih =>
    obtain ⟨h0, h1, h2⟩ := ih (s.uncheckedReturn x)
    simp only [List.foldl_cons]
    refine ⟨fun n => (h0 n).trans (slotOf_uncheckedReturn s x n), fun k ⟨n, hn, hk⟩ => ?_, fun k hk => ?_⟩
    · have hx : (s.uncheckedReturn x).slot k = { s.slot k with contents := (s.lotAt k).map handedBack } ∨
          (s.slotOf x ≠ some k ∧ (s.uncheckedReturn x).slot k = s.slot k) := by
        by_cases e : s.slotOf x = some k
        · exact .inl (slot_uncheckedReturn s x k e)
        · exact .inr ⟨e, slot_uncheckedReturn_ne s x k e⟩
      by_cases later : ∃ m ∈ l, s.slotOf m = some k
      · obtain ⟨m, hm, hmk⟩ := later
        rw [h1 k ⟨m, hm, by rw [slotOf_uncheckedReturn]; exact hmk⟩]
        rcases hx with hx | ⟨-, hx⟩
        · have e : (s.uncheckedReturn x).lotAt k = (s.lotAt k).map handedBack := congrArg Slot.contents hx
          rw [e, hx, Option.map_map]
          exact congrArg (fun f => ({ s.slot k with contents := Option.map f (s.lotAt k) } : Slot))
            (funext handedBack_handedBack)
        · have e : (s.uncheckedReturn x).lotAt k = s.lotAt k := congrArg Slot.contents hx
          rw [e, hx]
      · have hno : ∀ m ∈ l, (s.uncheckedReturn x).slotOf m ≠ some k := fun m hm hmk =>
          later ⟨m, hm, by rw [← hmk, slotOf_uncheckedReturn]⟩
        rw [h2 k hno]
        rcases hx with hx | ⟨hne, -⟩
        · exact hx
        · rcases List.mem_cons.mp hn with rfl | hn
          · exact absurd hk hne
          · exact absurd ⟨n, hn, hk⟩ later
    · rw [h2 k fun n hn => by rw [slotOf_uncheckedReturn]; exact hk n (List.mem_cons_of_mem x hn)]
      exact slot_uncheckedReturn_ne s x k (hk x List.mem_cons_self)

/-- A lot handed back is not WAITING. -/
theorem handedBack_status (l : Lot) : (handedBack l).record.held.queueStatus ≠ some .waiting := by
  simp only [handedBack, modifyStored]
  split <;> simp

/-- What a lab port's leaving does with its lots (R110, R111). -/
theorem benchReturned_returnBench (s : State) (p : PortName) : benchReturned s (s.returnBench p) p := by
  let lots := s.benchOf p
  let back := lots.filter s.returnsToQueue
  let u : State := { s with bench := s.bench.filter (·.tester != p), queue := back ++ s.queue }
  let v := lots.foldl State.uncheckedReturn u
  obtain ⟨-, h1, h2⟩ := foldl_uncheckedReturn_slots lots u
  obtain ⟨a, hv⟩ := foldl_uncheckedReturn_frame lots u
  have e : v = { s with slots := v.slots, queue := back ++ s.queue, bench := s.bench.filter (·.tester != p) } := by
    show v = { u with slots := v.slots }
    exact hv.trans (by rw [show v.slots = a from congrArg State.slots hv])
  refine ⟨v, e, fun n k l hn hs hl => ?_, fun k hk => h2 k hk, rfl, rfl, rfl⟩
  have : v.slot k = { s.slot k with contents := (s.lotAt k).map handedBack } := h1 k ⟨n, hn, hs⟩
  rw [this, hl]
  rfl

/-- What a lab port's leaving does with its lots, read in a state of the same slots, queue and bench list. -/
theorem benchReturned_congr (s v s' : State) (p : PortName) (h1 : v.slots = s.slots) (h2 : v.queue = s.queue)
    (h3 : v.bench = s.bench) (h : benchReturned s s' p) : benchReturned v s' p := by
  obtain ⟨u, hu, k1, k2, g1, g2, g3⟩ := h
  have hs : ∀ k, v.slot k = s.slot k := fun k => by simp only [State.slot, h1]
  have hl : ∀ k, v.lotAt k = s.lotAt k := fun k => by simp only [State.lotAt, hs]
  have hn : ∀ n, v.slotOf n = s.slotOf n := fun n => by simp only [State.slotOf, h1]
  have hr : v.returnsToQueue = s.returnsToQueue := funext fun n => by
    simp only [State.returnsToQueue, State.recordOf, State.recordAt, hl, hn]
  let u' : State := { v with slots := u.slots, queue := u.queue, bench := u.bench }
  have hb : u.queue = ((v.bench.filter (·.tester == p)).map (·.lot)).filter v.returnsToQueue ++ v.queue ∧
      u.bench = v.bench.filter (·.tester != p) := by
    rw [h2, h3, hr, hu]
    exact ⟨rfl, rfl⟩
  refine ⟨u', ?_, ?_, ?_, ?_⟩
  · show u' = { v with slots := u.slots, queue := _, bench := _ }
    rw [← hb.1, ← hb.2]
  · intro n k l hm hk hlk
    rw [h3] at hm
    rw [hn] at hk
    rw [hl] at hlk
    rw [hs]
    exact k1 n k l hm hk hlk
  · intro k hk
    rw [hs]
    exact k2 k fun n hm => by rw [← hn]; exact hk n (by rw [h3]; exact hm)
  · dsimp only
    rw [h3, hr]
    obtain ⟨a, b, c⟩ := giveRooms_congr (((s.bench.filter (·.tester == p)).map (·.lot)).length -
      (((s.bench.filter (·.tester == p)).map (·.lot)).filter s.returnsToQueue).length) u u' rfl rfl rfl
    exact ⟨g1.trans a.symm, g2.trans b.symm, g3.trans c.symm⟩

/-- A port that tests no lot hands nothing back. -/
theorem returnBench_none (s : State) (p : PortName) (h : ∀ e ∈ s.bench, e.tester ≠ p) : s.returnBench p = s := by
  have e0 : s.benchOf p = [] := by
    unfold State.benchOf
    rw [List.map_eq_nil_iff, List.filter_eq_nil_iff]
    exact fun e he => by simpa using h e he
  have e1 : s.bench.filter (·.tester != p) = s.bench := by
    rw [List.filter_eq_self]
    exact fun e he => by simpa using h e he
  unfold State.returnBench
  simp only [e0, e1, List.filter_nil, List.foldl_nil, List.nil_append]
  rfl

/-! ### A port that is set up (R170, R171) -/

/-- The state in which a PORT SETUP has set the role and begun the write, before its channels and lots are given up. -/
def setupBegun (s : State) (q : PortName) (r : PortRole) : State :=
  let s1 := s.setPort q (assignRole (s.port q) r)
  { s1 with setup := beginSetupWrite s1.setup (setupRecordOf s1.ports) }

theorem setupInto_eq (s : State) (q : PortName) (r : PortRole) : s.setupInto q r =
    let s3 := (setupBegun s q r).orphanChannels ((setupBegun s q r).excludedChannels q)
    if (s.port q).role = .lab ∧ r.role ≠ .lab then s3.returnBench q else s3 := by
  let s1 := s.setPort q (assignRole (s.port q) r)
  let s3 := (setupBegun s q r).orphanChannels ((setupBegun s q r).excludedChannels q)
  have hu : s.setupInto q r = if s.setupReturns s1 q = [] then s3 else s3.returnBench q := rfl
  have hrole : (s1.port q).role = r.role := by
    show ((s.setPort q (assignRole (s.port q) r)).port q).role = r.role
    rw [port_setPort_same]
    rfl
  obtain ⟨a, b, c, h3⟩ := orphanChannels_frame (setupBegun s q r) ((setupBegun s q r).excludedChannels q)
  have hb : s3.bench = s.bench := by
    have : s3 = { setupBegun s q r with slots := a, channels := b, ports := c } := h3
    rw [this]
    rfl
  have hret : s.setupReturns s1 q = if (s.port q).role = .lab ∧ r.role ≠ .lab then s.benchOf q else [] := by
    rw [← hrole]
    rfl
  rw [hu, hret]
  dsimp only
  split
  · rename_i hl
    split
    · rename_i he
      have e0 : s3.benchOf q = [] := by
        have : s3.benchOf q = s.benchOf q := by simp only [State.benchOf, hb]
        rw [this, he]
      refine (returnBench_none s3 q fun e hm hne => ?_).symm
      have : e.lot ∈ s3.benchOf q := List.mem_map.mpr ⟨e, List.mem_filter.mpr ⟨hm, by simpa using hne⟩, rfl⟩
      rw [e0] at this
      cases this
    · rfl
  · rfl

end Sys2Proof.Machine
end

