-- ==== Sys2Proof/Laws/Judged.lean ====
section
/-! SUPPORT. What several events in one change leave: notices raised twice or in another order, the holds of the due
lots of the pot-life list, and of the lots of a lane. -/

namespace Sys2Proof.Machine

/-! ### Notices -/

theorem receive_receive (k : Notice) (p : Port) : receive k (receive k p) = receive k p := by
  unfold receive
  by_cases h : hasNotice p.mask.kinds k = true
  · simp only [h, if_true]
    congr 1
    generalize p.notices = n
    unfold withNotice
    rw [BitVec.or_assoc, BitVec.or_self]
  · simp only [h, if_false, Bool.false_eq_true]

theorem receive_comm (j k : Notice) (p : Port) : receive j (receive k p) = receive k (receive j p) := by
  have e : ∀ (x : Notice) (q : Port), (receive x q).mask = q.mask := by
    intro x q; unfold receive; split <;> rfl
  unfold receive
  by_cases h : hasNotice p.mask.kinds j = true <;> by_cases g : hasNotice p.mask.kinds k = true <;>
    simp only [h, g, if_true, if_false, Bool.false_eq_true]
  congr 1
  generalize p.notices = n
  unfold withNotice
  rw [BitVec.or_assoc, BitVec.or_assoc, BitVec.or_comm (BitVec.twoPow 11 _)]

/-- A kind raised twice is raised once: a pending set carries no count (R176). -/
theorem raise_raise (s : State) (k : Notice) : (s.raise k).raise k = s.raise k := by
  unfold State.raise Ports.map
  simp only [receive_receive]

/-- The order in which kinds are raised in one change leaves no trace (R176). -/
theorem raise_comm (s : State) (j k : Notice) : (s.raise j).raise k = (s.raise k).raise j := by
  unfold State.raise Ports.map
  simp only [receive_comm k j]

/-- The ports after a raise are those of any state with the same ports. -/
theorem ports_raise_congr (s u : State) (k : Notice) (h : u.ports = s.ports) :
    (u.raise k).ports = (s.raise k).ports := by
  unfold State.raise
  rw [h]

theorem withHold_ne (h : HoldSet) (r : Hold) (g : hasHold h r = false) : withHold h r ≠ h := by
  revert g; revert h
  cases r <;> decide

theorem hasHold_withHold (h : HoldSet) (r q : Hold) : hasHold (withHold h r) q = (hasHold h q || decide (q = r)) := by
  revert h
  cases r <;> cases q <;> decide

/-! ### One hold on a clean lot -/

/-- A record rewritten as it stands changes nothing. -/
theorem recordNow_self (s : State) (k : Nat) (l : Lot) (hl : s.lotAt k = some l) (hc : l.record.code = .agrees) :
    recordNow s k l.record.held = s := by
  have hk := slot_of_lotAt s k l hl
  have e : l.record = fresh l.record.held := by
    cases hx : l.record with
    | mk a b => rw [hx] at hc; cases hc; rfl
  have h1 : (s.slot k).contents = some l := hl
  have h2 : ({ s.slot k with contents := (s.slot k).contents.map fun m => { m with record := fresh l.record.held } } :
      Slot) =
      s.slot k := by
    have h3 : ((s.slot k).contents.map fun m => { m with record := fresh l.record.held }) = (s.slot k).contents := by
      rw [h1, Option.map_some, ← e]
    rw [h3]
  unfold recordNow
  rw [h2]
  unfold State.setSlot
  congr 1
  apply Vector.toList_inj.mp
  apply List.ext_getElem
  · simp
  · intro i h3 h4
    simp only [Vector.getElem_toList, Vector.getElem_setIfInBounds]
    split
    · rename_i h5
      subst h5
      unfold State.slot
      rw [List.getD_eq_getElem _ _ (by simpa using hk)]
      simp
    · rfl

/-- A hold added to a clean lot that is not CURED: the hold joins its record, and HOLD is raised when it is new (R5). -/
theorem addHold_clean (s : State) (k : Nat) (l : Lot) (h : Hold) (hl : s.lotAt k = some l)
    (hc : l.record.code = .agrees)
    (hs : l.record.held.state ≠ .cured) :
    s.addHold k h = { recordNow s k { l.record.held with holds := withHold l.record.held.holds h } with
      ports := (if hasHold l.record.held.holds h then s else s.raise .hold).ports } := by
  by_cases g : hasHold l.record.held.holds h = true
  · rw [addHold_of_held s k l h hl g, if_pos g, withHold_of_hasHold _ _ g]
    show s = { recordNow s k l.record.held with ports := s.ports }
    rw [recordNow_self s k l hl hc]
  · have g' : hasHold l.record.held.holds h = false := by simpa using g
    rw [addHold_at s k l h hl hc g' hs, if_neg g]
    rfl

/-! ### A mark on every lot of a list -/

/-- Steps that each put a mark `F` on the good lot of one number and tell the ports whether it is new, carried out over
a list: every named lot is marked, no other slot changes, and the ports are told once whether any mark was new. -/
theorem foldl_marks {α : Type} (step : State → α → State) (lot : α → Nat) (F : Lot → Lot) (good : Lot → Prop)
    (gains : Lot → Bool) (T : Bool → Ports → Ports) (hT : ∀ a b x, T b (T a x) = T (a || b) x)
    (hF : ∀ l, good l → F (F l) = F l ∧ good (F l) ∧ lotNumber (F l) = lotNumber l ∧ gains (F l) = false)
    (hstep : ∀ (u : State) e k l, u.slotOf (lot e) = some k → u.lotAt k = some l → good l →
      step u e = { u.putLot k (F l) with ports := T (gains l) u.ports }) (es : List α) (u : State)
    (h : ∀ e ∈ es, ∃ k l, u.slotOf (lot e) = some k ∧ u.lotAt k = some l ∧ good l) :
    es.foldl step u = { u with
      slots := (es.foldl step u).slots
      ports := if es = [] then u.ports
        else T (es.any fun e => ((u.slotOf (lot e)).bind u.lotAt).any gains) u.ports } ∧
    (∀ n, (es.foldl step u).slotOf n = u.slotOf n) ∧
    (∀ e ∈ es, ∀ k l, u.slotOf (lot e) = some k → u.lotAt k = some l →
      (es.foldl step u).slot k = { u.slot k with contents := some (F l) }) ∧
    ∀ k, (∀ e ∈ es, u.slotOf (lot e) ≠ some k) → (es.foldl step u).slot k = u.slot k := by
  induction es generalizing u with
  | nil => exact ⟨rfl, fun _ => rfl, fun e he => absurd he (List.not_mem_nil), fun _ _ => rfl⟩
  | cons e es ih =>
    obtain ⟨k, l, h1, h2, h3⟩ := h e List.mem_cons_self
    obtain ⟨f1, f2, f3, f4⟩ := hF l h3
    have hk := slot_of_lotAt u k l h2
    have hs := hstep u e k l h1 h2 h3
    set w := step u e with hw
    have wn : ∀ n, w.slotOf n = u.slotOf n := by
      intro n
      have : w.slotOf n = (u.putLot k (F l)).slotOf n := by rw [hs]; rfl
      rw [this, slotOf_putLot u k l (F l) h2 f3]
    have wk : w.slot k = { u.slot k with contents := some (F l) } := by
      have : w.slot k = (u.putLot k (F l)).slot k := by rw [hs]; rfl
      rw [this, State.putLot, slot_setSlot, if_pos ⟨rfl, hk⟩]
    have wj : ∀ j, j ≠ k → w.slot j = u.slot j := by
      intro j hj
      have : w.slot j = (u.putLot k (F l)).slot j := by rw [hs]; rfl
      rw [this, State.putLot, slot_setSlot, if_neg (fun x => hj x.1.symm)]
    have wl : ∀ j m, u.lotAt j = some m → w.lotAt j = some (if j = k then F m else m) := by
      intro j m hm
      by_cases hj : j = k
      · subst hj
        rw [h2] at hm; cases hm
        rw [if_pos rfl]; unfold State.lotAt; rw [wk]
      · rw [if_neg hj]; unfold State.lotAt; rw [wj j hj]; exact hm
    have hw' : ∀ x ∈ es, ∃ j m, w.slotOf (lot x) = some j ∧ w.lotAt j = some m ∧ good m := by
      intro x hx
      obtain ⟨j, m, a, b, c⟩ := h x (List.mem_cons_of_mem _ hx)
      refine ⟨j, _, (wn _).trans a, wl j m b, ?_⟩
      split
      · exact (hF m c).2.1
      · exact c
    obtain ⟨i1, i2, i3, i4⟩ := ih w hw'
    rw [List.foldl_cons, ← hw]
    refine ⟨?_, fun n => (i2 n).trans (wn n), ?_, ?_⟩
    · rw [i1]
      have e1 : w.ports = T (gains l) u.ports := by rw [hs]
      have e2 : ∀ x : Ports, ({ w with slots := (es.foldl step w).slots, ports := x } : State) = { u with
          slots := (es.foldl step w).slots, ports := x } := by
        intro x; rw [hs]; rfl
      rw [e2]
      congr 1
      rw [if_neg (by simp : ¬ e :: es = [])]
      have ge : ((u.slotOf (lot e)).bind u.lotAt).any gains = gains l := by rw [h1]; simp [h2]
      rw [List.any_cons, ge]
      split
      · rename_i hn
        rw [hn, List.any_nil, Bool.or_false, e1]
      · rw [e1, hT]
        congr 1
        by_cases hg : gains l = true
        · rw [hg]; simp
        · have hg' : gains l = false := by simpa using hg
          rw [hg', Bool.false_or, Bool.false_or]
          refine Bool.eq_iff_iff.mpr ?_
          rw [List.any_eq_true, List.any_eq_true]
          have key : ∀ x ∈ es, ((w.slotOf (lot x)).bind w.lotAt).any gains =
            ((u.slotOf (lot x)).bind u.lotAt).any gains := by
            intro x hx
            obtain ⟨j, m, a, b, c⟩ := h x (List.mem_cons_of_mem _ hx)
            rw [wn, a]
            simp only [Option.bind_some]
            rw [wl j m b, b]
            by_cases hj : j = k
            · subst hj
              rw [h2] at b; cases b
              simp [f4, hg']
            · simp [hj]
          constructor <;> rintro ⟨x, hx, hy⟩ <;> refine ⟨x, hx, ?_⟩
          · rw [← key x hx]; exact hy
          · rw [key x hx]; exact hy
    · intro x hx j m a b
      rcases List.mem_cons.mp hx with rfl | hx
      · rw [h1] at a; cases a
        rw [h2] at b; cases b
        by_cases hm : ∃ y ∈ es, u.slotOf (lot y) = some k
        · obtain ⟨y, hy, hyk⟩ := hm
          rw [i3 y hy k _ ((wn _).trans hyk) (wl k l h2), if_pos rfl, f1, wk]
        · rw [i4 k (fun y hy hyk => hm ⟨y, hy, (wn _).symm.trans hyk⟩), wk]
      · rw [i3 x hx j _ ((wn _).trans a) (wl j m b)]
        by_cases hj : j = k
        · subst hj
          rw [h2] at b; cases b
          rw [if_pos rfl, f1, wk]
        · rw [if_neg hj, wj j hj]
    · intro j hj
      have hjk : j ≠ k := fun e2 => hj e List.mem_cons_self (e2 ▸ h1)
      rw [i4 j (fun y hy hyk => hj y (List.mem_cons_of_mem _ hy) ((wn _).symm.trans hyk)), wj j hjk]

/-- The lot with a hold joined to its record. -/
def heldLot (h : Hold) (l : Lot) : Lot :=
  { l with record := modifyStored (fun r => { r with holds := withHold r.holds h }) l.record }

theorem withHold_withHold (h : HoldSet) (r : Hold) : withHold (withHold h r) r = withHold h r :=
  withHold_of_hasHold _ _ (by rw [hasHold_withHold]; simp)

theorem heldLot_facts (h : Hold) (l : Lot) (hc : l.record.code = .agrees) :
    heldLot h (heldLot h l) = heldLot h l ∧ (heldLot h l).record.code = .agrees ∧
      lotNumber (heldLot h l) = lotNumber l ∧
      hasHold (heldLot h l).record.held.holds h = true := by
  refine ⟨?_, ?_, ?_, ?_⟩
  · simp only [heldLot, modifyStored, withHold_withHold, hc]
  · simp only [heldLot, modifyStored, hc]
  · rw [lotNumber_agrees _ hc, lotNumber_agrees _ (by simp only [heldLot, modifyStored, hc])]; rfl
  · show hasHold (withHold _ _) _ = true
    rw [hasHold_withHold]; simp

/-- A record rewritten in its slot is its lot put back with the record changed. -/
theorem recordNow_eq_putLot (s : State) (k : Nat) (l : Lot) (q : LotRecord) (hl : s.lotAt k = some l) :
    recordNow s k q = s.putLot k { l with record := fresh q } := by
  unfold recordNow State.putLot
  have : (s.slot k).contents = some l := hl
  rw [this]; rfl

/-- One hold on a clean lot that is not CURED, as a mark. -/
theorem addHoldTo_mark (u : State) (n k : Nat) (l : Lot) (h : Hold) (hn : u.slotOf n = some k) (hl : u.lotAt k = some l)
    (hc : l.record.code = .agrees) (hs : l.record.held.state ≠ .cured) :
    u.addHoldTo n h = { u.putLot k (heldLot h l) with
      ports := (if !hasHold l.record.held.holds h then u.raise .hold else u).ports } := by
  have : heldLot h l = { l with record := fresh { l.record.held with holds := withHold l.record.held.holds h } } := by
    simp only [heldLot, modifyStored, hc, fresh]
  unfold State.addHoldTo
  rw [hn]
  dsimp only
  rw [addHold_clean u k l h hl hc hs, recordNow_eq_putLot u k l _ hl, this]
  congr 1
  cases hasHold l.record.held.holds h <;> rfl

/-- What a judgement of the pot-life list tells a set of ports. -/
def tellPotLife (new : Bool) (x : Ports) : Ports :=
  let y := if new then x.map fun _ p => receive .hold p else x
  y.map fun _ p => receive .potLife p

theorem tellPotLife_twice (a b : Bool) (x : Ports) : tellPotLife b (tellPotLife a x) = tellPotLife (a || b) x := by
  cases a <;> cases b <;>
    simp only [tellPotLife, Ports.map, receive_receive, Bool.or_true, Bool.or_false, if_true, if_false,
      Bool.false_eq_true,
      receive_comm .hold .potLife]

theorem takeWhile_potOrdered (l : List PotEntry) (m : Nat) (h : potOrdered l) :
    l.takeWhile (fun e => decide (e.deadline ≤ m)) = l.filter fun e => decide (e.deadline ≤ m) := by
  induction l with
  | nil => rfl
  | cons e l ih =>
    obtain ⟨h1, h2⟩ := List.pairwise_cons.mp h
    by_cases hd : e.deadline ≤ m
    · rw [List.takeWhile_cons_of_pos (by simpa using hd), List.filter_cons_of_pos (by simpa using hd), ih h2]
    · rw [List.takeWhile_cons_of_neg (by simpa using hd), List.filter_cons_of_neg (by simpa using hd)]
      refine (List.filter_eq_nil_iff.mpr fun x hx => ?_).symm
      have := (potBefore_false e x |>.symm)
      have hb := h1 x hx
      rw [potBefore_false] at hb
      simp only [decide_eq_true_eq]
      omega

/-- The judgement of an ordered pot-life list at the clock (R48, R49). -/
theorem potLifeJudged_judgePotLife (s : State) (hp : potOrdered s.potLife) : potLifeJudged s s.judgePotLife := by
  have hframe := judgePotLife_frame s
  refine ⟨?_, fun h => ?_⟩
  · obtain ⟨a, b, c, e⟩ := hframe
    rw [e]; exact dropWhile_potOrdered _ _ hp
  let u : State := { s with potLife := s.potLife.dropWhile fun e => decide (e.deadline ≤ s.clock) }
  have es : s.judgePotLife = (s.potLife.filter fun e => decide (e.deadline ≤ s.clock)).foldl State.expireOne u := by
    rw [← takeWhile_potOrdered _ _ hp]; rfl
  have hm : ∀ e, e ∈ (s.potLife.filter fun e => decide (e.deadline ≤ s.clock)) ↔ e ∈ s.potLife ∧
      e.deadline ≤ s.clock := by
    intro e; rw [List.mem_filter, decide_eq_true_eq]
  obtain ⟨m1, m2, m3, m4⟩ := foldl_marks State.expireOne PotEntry.lot (heldLot .potLife)
    (fun l => l.record.code = .agrees ∧ l.record.held.state ≠ .cured)
    (fun l => !hasHold l.record.held.holds .potLife) tellPotLife
    tellPotLife_twice
    (fun l hl => by
      obtain ⟨a, b, c, d⟩ := heldLot_facts .potLife l hl.1
      exact ⟨a, ⟨b, hl.2⟩, c, by rw [d]; rfl⟩)
    (fun u e k l a b c => by
      unfold State.expireOne
      rw [addHoldTo_mark u e.lot k l .potLife a b c.1 c.2]
      cases hasHold l.record.held.holds .potLife <;> rfl)
    (s.potLife.filter fun e => decide (e.deadline ≤ s.clock)) u
    (fun e he => by
      obtain ⟨k, r, hl, hs⟩ := h e ((hm e).mp he).1 ((hm e).mp he).2
      obtain ⟨l, a, b, c, -⟩ := liveLot_at s e.lot k r hl
      exact ⟨k, l, hl.2.2.1, a, b, by rw [c, hs]; simp⟩)
  rw [← es] at m1 m2 m3 m4
  refine ⟨by rw [m1], fun q => ?_, fun e he hd k r hl => ?_, fun k hk => ?_⟩
  · refine congrArg Port.notices ?_
    unfold State.port
    refine congrArg (fun x : Ports => x.get q) ?_
    rw [m1]
    show (if _ then s.ports else _) = _
    unfold potLifeTold
    dsimp only
    split
    · rfl
    · have : ((s.potLife.filter fun e => decide (e.deadline ≤ s.clock)).any fun e =>
            ((u.slotOf e.lot).bind u.lotAt).any fun l => !hasHold l.record.held.holds .potLife) =
          ((s.potLife.filter fun e => decide (e.deadline ≤ s.clock)).any fun e =>
            ((s.recordOf e.lot).map fun r => !hasHold r.holds .potLife).getD false) := by
        congr 1
        funext e
        show ((s.slotOf e.lot).bind s.lotAt).any _ = _
        unfold State.recordOf State.recordAt
        cases s.slotOf e.lot with
        | none => rfl
        | some k => 
          simp only [Option.bind_some]
          cases s.lotAt k <;> rfl
      rw [this]
      unfold tellPotLife
      dsimp only
      split <;> rfl
  · obtain ⟨l, a, b, c, -⟩ := liveLot_at s e.lot k r hl
    rw [m3 e ((hm e).mpr ⟨he, hd⟩) k l hl.2.2.1 a, recordNow_eq_putLot s k l _ a, State.putLot, slot_setSlot,
      if_pos ⟨rfl, slot_of_lotAt s k l a⟩]
    simp only [heldLot, modifyStored, b, c, fresh]
    rfl
  · exact m4 k fun e he => hk e ((hm e).mp he).1 ((hm e).mp he).2

/-! ### The lots of a lane -/

/-- The lot with SENSOR joined, where it is CURING (R87, R90). -/
def sensedLot (l : Lot) : Lot := if l.record.held.state = .curing then heldLot .sensor l else l

/-- Notices of one kind told to a set of ports, or none. -/
def tellKind (k : Notice) (new : Bool) (x : Ports) : Ports := if new then x.map fun _ p => receive k p else x

theorem tellKind_twice (k : Notice) (a b : Bool) (x : Ports) :
    tellKind k b (tellKind k a x) = tellKind k (a || b) x := by
  cases a <;> cases b <;> simp only [tellKind, Ports.map, receive_receive, Bool.or_true, Bool.or_false, if_true,
    if_false, Bool.false_eq_true]

theorem ports_raise_if (s : State) (k : Notice) (b : Bool) :
    (if b then s.raise k else s).ports = tellKind k b s.ports := by
  cases b <;> rfl

/-- A question about the record of a lot, asked of the record or of what its slot holds. -/
theorem recordOf_getD (s : State) (n : Nat) (q : LotRecord → Bool) :
    ((s.recordOf n).map q).getD false = ((s.slotOf n).bind s.lotAt).any fun l => q l.record.held := by
  unfold State.recordOf State.recordAt
  cases s.slotOf n with
  | none => rfl
  | some k =>
    simp only [Option.bind_some]
    cases s.lotAt k <;> rfl

/-- SENSOR for a lane of clean lots: each CURING lot holds it, the others stand, and HOLD is raised when one did not
hold it (R87, R90). -/
theorem sensorLane_clean (s : State) (lane : List Nat) (h : ∀ n ∈ lane, ∃ k r, liveLot s n k r) :
    s.sensorLane lane = { s with
      slots := (s.sensorLane lane).slots
      ports := (if lane.any fun n => ((s.recordOf n).map fun r => decide (r.state = .curing) &&
        !hasHold r.holds .sensor).getD false
        then s.raise .hold else s).ports } ∧
    (∀ n ∈ lane, ∀ k r, liveLot s n k r → (s.sensorLane lane).slot k =
      if r.state = .curing then (recordNow s k { r with holds := withHold r.holds .sensor }).slot k else s.slot k) ∧
    ∀ k, (∀ n ∈ lane, s.slotOf n ≠ some k) → (s.sensorLane lane).slot k = s.slot k := by
  obtain ⟨m1, m2, m3, m4⟩ := foldl_marks (fun (s : State) n => match s.recordOf n with
      | some r => if r.state = .curing then s.addHoldTo n .sensor else s
      | none => s) id sensedLot (fun l => l.record.code = .agrees)
    (fun l => decide (l.record.held.state = .curing) && !hasHold l.record.held.holds .sensor) (tellKind .hold)
      (tellKind_twice .hold)
    (fun l hl => by
      unfold sensedLot
      by_cases hc : l.record.held.state = .curing
      · obtain ⟨a, b, c, d⟩ := heldLot_facts .sensor l hl
        have e : (heldLot .sensor l).record.held.state = .curing := hc
        rw [if_pos hc, if_pos e]
        exact ⟨a, b, c, by rw [d]; simp⟩
      · rw [if_neg hc, if_neg hc]
        exact ⟨rfl, hl, rfl, by simp [hc]⟩)
    (fun u n k l a b c => by
      have e : u.recordOf n = some l.record.held := by
        unfold State.recordOf; rw [show u.slotOf n = some k from a]; exact recordAt_of_lotAt u k l b
      dsimp only
      rw [e]
      dsimp only
      unfold sensedLot
      by_cases hc : l.record.held.state = .curing
      · rw [if_pos hc, if_pos hc, addHoldTo_mark u n k l .sensor a b c (by rw [hc]; simp)]
        simp only [hc, decide_true, Bool.true_and]
        cases hasHold l.record.held.holds .sensor <;> rfl
      · rw [if_neg hc, if_neg hc]
        simp only [hc, decide_false, Bool.false_and]
        show u = { u.putLot k l with ports := u.ports }
        have e2 := recordNow_eq_putLot u k l l.record.held b
        have e3 : ({ l with record := fresh l.record.held } : Lot) = l := by
          have : l.record = fresh l.record.held := by
            cases hx : l.record with
            | mk a b => rw [hx] at c; cases c; rfl
          rw [← this]
        rw [e3] at e2
        rw [← e2, recordNow_self u k l b c])
    lane s
    (fun n hn => by
      obtain ⟨k, r, hl⟩ := h n hn
      obtain ⟨l, a, b, -⟩ := liveLot_at s n k r hl
      exact ⟨k, l, hl.2.2.1, a, b⟩)
  have es : s.sensorLane lane = lane.foldl (fun (s : State) n => match s.recordOf n with
      | some r => if r.state = .curing then s.addHoldTo n .sensor else s
      | none => s) s := rfl
  rw [← es] at m1 m3 m4
  refine ⟨?_, fun n hn k r hl => ?_, m4⟩
  · rw [m1]
    congr 1
    rw [ports_raise_if]
    have : (fun n => ((s.recordOf n).map fun r => decide (r.state = .curing) && !hasHold r.holds .sensor).getD false) =
        fun n => ((s.slotOf (id n)).bind s.lotAt).any fun l =>
          decide (l.record.held.state = .curing) && !hasHold l.record.held.holds .sensor :=
      funext fun n => recordOf_getD s n _
    rw [this]
    split
    · rename_i hn; rw [hn]; rfl
    · rfl
  · obtain ⟨l, a, b, c, -⟩ := liveLot_at s n k r hl
    subst c
    rw [m3 n hn k l hl.2.2.1 a]
    unfold sensedLot
    split
    · rw [recordNow_eq_putLot s k l _ a, State.putLot, slot_setSlot, if_pos ⟨rfl, slot_of_lotAt s k l a⟩]
      simp only [heldLot, modifyStored, b, fresh]
    · exact (slot_lotAt s k l a).symm ▸ rfl

/-! ### A valid reading -/

theorem sampledRecord_steps (y : Int) (r : LotRecord) :
    stepFrost y (accumulate y (applyPending r)) = { sampledRecord y r with holds := r.holds } := by
  cases r with
  | mk number state holds recipe generation parent reservation carriedAsh dosed ashMass channel mixDeadline
      targetCell cell
      maturity target pendingTarget frostRun retests tester result failCause opened sealedAt placed cured queueStatus =>
    cases pendingTarget <;> cases recipe <;>
      simp [applyPending, accumulate, stepFrost, belowFrost, gainOf, sampledRecord, Config.maxMaturity]

theorem completesFrost_eq (y : Int) (r : LotRecord) : completesFrost y r = frostCompleted y r := by
  unfold completesFrost frostCompleted belowFrost
  cases r.recipe with
  | none => simp
  | some x => rw [Bool.eq_iff_iff]; simp

theorem reachesTarget_eq (y : Int) (r : LotRecord) : reachesTarget (sampledRecord y r) = sampleCures y r := by
  unfold reachesTarget sampleCures
  cases (sampledRecord y r).target <;> rfl

/-- What a valid reading leaves of a CURING lot, the place in the queue being given when there is room. -/
def sampledLot (y : Int) (m : Nat) (room : Bool) (l : Lot) : Lot :=
  let q := sampledRecord y l.record.held
  if sampleCures y l.record.held then
    freshLot { q with
      state := .cured, frostRun := none, cured := some m
      queueStatus := some (if q.holds ≠ 0 then .parked else if room then .queued else .waiting) }
  else { l with record := fresh q }

/-- A valid reading treats a clean CURING lot (R82 to R85, R98). -/
theorem treatLot_clean (u : State) (k : Nat) (l : Lot) (y : Int) (m : Nat) (hl : u.lotAt k = some l)
    (hc : l.record.code = .agrees) (hs : l.record.held.state = .curing)
      (hq : l.record.held.queueStatus ≠ some .queued) :
    u.treatLot k l.record.held y m =
      ({ u.putLot k (sampledLot y m (decide (queueOpen u)) l) with
          queue := if sampleCures y l.record.held && (sampledRecord y l.record.held).holds == 0 && decide (queueOpen u)
            then u.queue ++ [l.record.held.number] else u.queue
          ports := tellKind .hold (sampleFrosts y l.record.held) u.ports }, sampleCures y l.record.held) := by
  have hk := slot_of_lotAt u k l hl
  set r := l.record.held with hr
  have e1 : u.changeRecord k (fun r => stepFrost y (accumulate y (applyPending r))) =
      u.putLot k { l with record := fresh { sampledRecord y r with holds := r.holds } } := by
    rw [changeRecord_at u k l _ hl hc, ← hr, sampledRecord_steps, recordNow_eq_putLot u k l _ hl]
  have put2 : ∀ (a b : Lot), (u.putLot k a).putLot k b = u.putLot k b := by
    intro a b
    unfold State.putLot
    rw [slot_setSlot, if_pos ⟨rfl, hk⟩]
    unfold State.setSlot
    simp only [setIfInBounds_twice]
  have e2 : (if completesFrost y r then
      (u.putLot k { l with record := fresh { sampledRecord y r with holds := r.holds } }).addHold k .frost
      else u.putLot k { l with record := fresh { sampledRecord y r with holds := r.holds } }) =
      { u.putLot k { l with record := fresh (sampledRecord y r) } with
        ports := tellKind .hold (sampleFrosts y r) u.ports } := by
    rw [completesFrost_eq]
    by_cases hf : frostCompleted y r = true
    · rw [if_pos hf]
      have hh : (sampledRecord y r).holds = withHold r.holds .frost := if_pos hf
      have hlt := lotAt_putLot u k { l with record := fresh { sampledRecord y r with holds := r.holds } } hk
      rw [addHold_clean _ k _ .frost hlt rfl (by show r.state ≠ _; rw [hs]; simp), recordNow_eq_putLot _ k _ _ hlt,
        put2]
      have e3 : ({ sampledRecord y r with holds := withHold r.holds .frost } : LotRecord) = sampledRecord y r := by
        rw [← hh]
      simp only [fresh]
      show ({ u.putLot k { l with record := ⟨{ sampledRecord y r with holds := withHold r.holds .frost }, _⟩ } with
        ports := _ } : State) = _
      rw [e3]
      refine congrArg (fun P => ({ u.putLot k { l with record := fresh (sampledRecord y r) } with
        ports := P } : State)) ?_
      have : sampleFrosts y r = !hasHold r.holds .frost := by unfold sampleFrosts; rw [hf, Bool.true_and]
      rw [this]
      show State.ports (if hasHold r.holds .frost = true then _ else _) = _
      cases hasHold r.holds .frost <;> rfl
    · rw [if_neg hf]
      have hf' : frostCompleted y r = false := by simpa using hf
      have hh : (sampledRecord y r).holds = r.holds := if_neg hf
      have e3 : ({ sampledRecord y r with holds := r.holds } : LotRecord) = sampledRecord y r := by rw [← hh]
      rw [e3]
      have : sampleFrosts y r = false := by unfold sampleFrosts; rw [hf', Bool.false_and]
      rw [this]; rfl
  unfold State.treatLot
  simp only [e1, e2]
  have e4 : (({ u.putLot k { l with record := fresh (sampledRecord y r) } with
      ports := tellKind .hold (sampleFrosts y r) u.ports } : State)).recordAt k =
      some (sampledRecord y r) :=
    recordAt_of_lotAt (u.putLot k { l with record := fresh (sampledRecord y r) }) k _
      (lotAt_putLot u k { l with record := fresh (sampledRecord y r) } hk)
  rw [e4]
  dsimp only
  rw [reachesTarget_eq]
  by_cases hcu : sampleCures y r = true
  · rw [if_pos hcu]
    set P := tellKind .hold (sampleFrosts y r) u.ports with hP
    set c := curedRecord (sampledRecord y r) m with hcd
    have e5 : ({ u.putLot k { l with record := fresh (sampledRecord y r) } with ports := P } : State).writeLot k c =
        { u.putLot k (freshLot c) with ports := P } := by
      have := put2 { l with record := fresh (sampledRecord y r) } (freshLot c)
      exact congrArg (fun x : State => ({ x with ports := P } : State)) this
    rw [e5]
    have hw : ({ u.putLot k (freshLot c) with ports := P } : State).lotAt k = some (freshLot c) := lotAt_putLot u k _ hk
    have hqc : c.queueStatus ≠ some .queued := hq
    have e6 : ∀ q, recordNow ({ u.putLot k (freshLot c) with ports := P } : State) k { c with queueStatus := q } =
        { u.putLot k (freshLot { c with queueStatus := q }) with ports := P } := by
      intro q
      rw [recordNow_eq_putLot _ k _ _ hw]
      exact congrArg (fun x : State => ({ x with ports := P } : State))
        (put2 (freshLot c) (freshLot { c with queueStatus := q }))
    have hch : c.holds = (sampledRecord y r).holds := rfl
    unfold sampledLot
    dsimp only
    rw [if_pos (by rw [← hr]; exact hcu), ← hr]
    have hpt : ∀ q, freshLot { c with queueStatus := some q } =
        freshLot { sampledRecord y r with
          state := .cured, frostRun := none, cured := some m, queueStatus := some q } := fun q => rfl
    by_cases hh : (sampledRecord y r).holds = 0
    · have hb : ((sampledRecord y r).holds == 0) = true := by simpa using hh
      rw [hcu, hb, Bool.true_and, Bool.true_and]
      by_cases ho : queueOpen u
      · rw [admit_open _ k _ hw rfl hh hqc ho]
        simp only [ho, decide_true, if_true]
        rw [show (freshLot c).record.held = c from rfl, e6, hpt]
        simp only [hh, ne_eq, not_true_eq_false, if_false]
        rfl
      · rw [admit_full _ k _ hw rfl hh hqc ho]
        simp only [ho, decide_false, if_false, Bool.false_eq_true]
        rw [show (freshLot c).record.held = c from rfl, e6, hpt]
        simp only [hh, ne_eq, not_true_eq_false, if_false]
        rfl
    · have hb : ((sampledRecord y r).holds == 0) = false := by simpa using hh
      rw [hcu, hb, Bool.true_and, Bool.false_and]
      rw [admit_held _ k _ hw rfl (by exact hh), show (freshLot c).record.held = c from rfl, e6, hpt]
      simp only [hh, ne_eq, not_false_eq_true, if_true, Bool.false_eq_true, if_false]
      rfl
  · have hcu' : sampleCures y r = false := by simpa using hcu
    rw [if_neg hcu]
    unfold sampledLot
    dsimp only
    rw [← hr, hcu']
    rfl

/-- A question about a CURING lot, by its number. -/
def asCuring (s : State) (q : LotRecord → Bool) (n : Nat) : Bool :=
  ((s.recordOf n).map fun r => decide (r.state = .curing) && q r).getD false

/-- The lots of a lane that a valid reading admits to the queue, in lane order (R85, R98). -/
def admittedBy (s : State) (y : Int) (lane : List Nat) : List Nat :=
  (lane.filter (asCuring s fun r => sampleCures y r && (sampledRecord y r).holds == 0)).take
    (64 - (s.queue.length + s.bench.length))

theorem sampleLot_other (c : Nat) (y : Int) (m : Nat) (u : State) (b : Bool) (n k : Nat) (l : Lot)
    (hn : u.slotOf n = some k)
    (hl : u.lotAt k = some l) (hc : l.record.code = .agrees) (hs : l.record.held.state ≠ .curing) :
    sampleLot c y m (u, b) n = (u, b) := by
  have hp : (u.placedSlot n).bind u.lotAt = some l := by
    unfold State.placedSlot; rw [hn]; exact hl
  have hm : mayBeCuring l = false := by simp [mayBeCuring, lotState_agrees l hc, hs]
  unfold sampleLot
  rw [hp]
  simp [hm]

theorem sampleLot_curing (c : Nat) (y : Int) (m : Nat) (u : State) (b : Bool) (n k : Nat) (r : LotRecord)
    (hl : liveLot u n k r)
    (hs : r.state = .curing) (hin : n ∈ (u.cell c).lane) :
    sampleLot c y m (u, b) n = ((u.treatLot k r y m).1, b || (u.treatLot k r y m).2) := by
  obtain ⟨l, h1, h2, h3, -⟩ := liveLot_at u n k r hl
  have hp : (u.placedSlot n).bind u.lotAt = some l := by
    rw [liveLot_placedSlot u n k r hl]; exact h1
  have hm : mayBeCuring l = true := by simp [mayBeCuring, lotState_agrees l h2, h3, hs]
  have hc : (u.cell c).lane.contains n = true := by simpa using hin
  unfold sampleLot
  simp only [hp, hm, hc, hs, and_self, if_true, checkedPlaced_clean u n k r hl]

theorem sampledLot_agrees (y : Int) (m : Nat) (room : Bool) (l : Lot) :
    (sampledLot y m room l).record.code = .agrees := by
  unfold sampledLot; dsimp only; split <;> rfl

theorem sampledLot_number (y : Int) (m : Nat) (room : Bool) (l : Lot) (hc : l.record.code = .agrees) :
    lotNumber (sampledLot y m room l) = lotNumber l := by
  rw [lotNumber_agrees _ (sampledLot_agrees y m room l), lotNumber_agrees _ hc]
  unfold sampledLot; dsimp only; split <;> rfl

/-- A valid reading treats the clean lots of a lane one after another (R81 to R86). -/
theorem foldl_sampleLot (c : Nat) (y : Int) (m : Nat) (es : List Nat) (u : State) (b : Bool) (nd : es.Nodup)
    (hin : ∀ n ∈ es, n ∈ (u.cell c).lane)
    (h : ∀ n ∈ es, ∃ k r, liveLot u n k r ∧ (r.state = .curing → r.queueStatus ≠ some .queued)) :
    (es.foldl (sampleLot c y m) (u, b)).1 = { u with
      slots := (es.foldl (sampleLot c y m) (u, b)).1.slots
      queue := u.queue ++ admittedBy u y es
      ports := tellKind .hold (es.any (asCuring u (sampleFrosts y))) u.ports } ∧
    (es.foldl (sampleLot c y m) (u, b)).2 = (b || es.any (asCuring u (sampleCures y))) ∧
    (∀ n ∈ es, ∀ k l, u.slotOf n = some k → u.lotAt k = some l → (es.foldl (sampleLot c y m) (u, b)).1.slot k =
      if l.record.held.state = .curing
      then { u.slot k with contents := some (sampledLot y m (decide (n ∈ admittedBy u y es)) l) } else u.slot k) ∧
    ∀ k, (∀ n ∈ es, u.slotOf n ≠ some k) → (es.foldl (sampleLot c y m) (u, b)).1.slot k = u.slot k := by
  induction es generalizing u b with
  | nil =>
    refine ⟨?_, by simp, fun n hn => absurd hn List.not_mem_nil, fun _ _ => rfl⟩
    show u = { u with slots := u.slots, queue := u.queue ++ _, ports := u.ports }
    simp [admittedBy]
  | cons n es ih =>
    obtain ⟨k, r, hl, hq⟩ := h n List.mem_cons_self
    obtain ⟨l, h1, h2, h3, h4⟩ := liveLot_at u n k r hl
    have hnd := List.nodup_cons.mp nd
    have hk := slot_of_lotAt u k l h1
    have hrec : u.recordOf n = some r := liveLot_recordOf u n k r hl
    have hin' : ∀ x ∈ es, x ∈ (u.cell c).lane := fun x hx => hin x (List.mem_cons_of_mem _ hx)
    have h' := fun x hx => h x (List.mem_cons_of_mem _ hx)
    -- the slots of the lots behind are others
    have other : ∀ x ∈ es, ∀ j, u.slotOf x = some j → j ≠ k := by
      intro x hx j hj e
      obtain ⟨j', q, hl', -⟩ := h' x hx
      have e1 : j' = j := by have := hl'.2.2.1; rw [hj] at this; cases this; rfl
      subst e1; subst e
      obtain ⟨l', a1, a2, a3, a4⟩ := liveLot_at u x j' q hl'
      rw [h1] at a1; cases a1
      exact hnd.1 (by rw [← h4, a4]; exact hx)
    by_cases hs : r.state = .curing
    · obtain ⟨w, hw⟩ : ∃ w, (u.treatLot k r y m).1 = w := ⟨_, rfl⟩
      have ht := treatLot_clean u k l y m h1 h2 (by rw [h3]; exact hs) (by rw [h3]; exact hq hs)
      rw [h3] at ht
      have hstep : sampleLot c y m (u, b) n = (w, b || sampleCures y r) := by
        rw [sampleLot_curing c y m u b n k r hl hs (hin n List.mem_cons_self), hw, ht]
      rw [ht] at hw
      rw [List.foldl_cons, hstep]
      have hnum : r.number = n := liveLot_number u n k r hl
      have wn : ∀ x, w.slotOf x = u.slotOf x := by
        intro x
        rw [← hw]
        exact slotOf_putLot u k l _ h1 (sampledLot_number y m _ l h2) x
      have wk : w.slot k = { u.slot k with contents := some (sampledLot y m (decide (queueOpen u)) l) } := by
        rw [← hw]
        show (u.putLot k _).slot k = _
        rw [State.putLot, slot_setSlot, if_pos ⟨rfl, hk⟩]
      have wj : ∀ j, j ≠ k → w.slot j = u.slot j := by
        intro j hj
        rw [← hw]
        show (u.putLot k _).slot j = _
        rw [State.putLot, slot_setSlot, if_neg (fun x => hj x.1.symm)]
      have wl : ∀ j, j ≠ k → w.lotAt j = u.lotAt j := fun j hj => congrArg Slot.contents (wj j hj)
      have wr : ∀ x ∈ es, w.recordOf x = u.recordOf x := by
        intro x hx
        unfold State.recordOf State.recordAt
        rw [wn]
        cases hj : u.slotOf x with
        | none => rfl
        | some j => dsimp only; rw [wl j (other x hx j hj)]
      have wc : ∀ q, ∀ x ∈ es, asCuring w q x = asCuring u q x := by
        intro q x hx; unfold asCuring; rw [wr x hx]
      have whd : ∀ q, asCuring u q n = q r := by
        intro q; unfold asCuring; rw [hrec]; simp [hs]
      obtain ⟨i1, i2, i3, i4⟩ := ih w (b || sampleCures y r) hnd.2
        (fun x hx => by have := hin' x hx; rw [← hw]; exact this)
        (fun x hx => by
          obtain ⟨j, q, hl', hq'⟩ := h' x hx
          refine ⟨j, q, ⟨hl'.1, hl'.2.1, (wn x).trans hl'.2.2.1, ?_⟩, hq'⟩
          rw [wl j (other x hx j hl'.2.2.1)]; exact hl'.2.2.2)
      have wq : w.queue = if sampleCures y r && (sampledRecord y r).holds == 0 && decide (queueOpen u)
          then u.queue ++ [n] else u.queue := by
        rw [← hw, ← hnum]
      have wb : w.bench = u.bench := by rw [← hw]; rfl
      have hadm : ∀ tl, (tl = admittedBy w y es) →
        (if sampleCures y r && (sampledRecord y r).holds == 0 && decide (queueOpen u) then n :: tl else tl) =
          admittedBy u y (n :: es) := by
        intro tl e
        subst e
        unfold admittedBy
        rw [List.filter_cons, whd]
        have ef : es.filter (asCuring w fun r => sampleCures y r && (sampledRecord y r).holds == 0) =
          es.filter (asCuring u fun r => sampleCures y r && (sampledRecord y r).holds == 0) :=
          List.filter_congr (fun x hx => wc _ x hx)
        rw [ef, wq, wb]
        by_cases hp : (sampleCures y r && (sampledRecord y r).holds == 0) = true
        · rw [hp, Bool.true_and, if_pos rfl]
          by_cases ho : u.queue.length + u.bench.length < 64
          · rw [decide_eq_true ho, if_pos rfl, if_pos rfl]
            have e2 : 64 - (u.queue.length + u.bench.length) =
              (64 - ((u.queue ++ [n]).length + u.bench.length)) + 1 := by
              simp only [List.length_append, List.length_cons, List.length_nil]; omega
            rw [e2, List.take_succ_cons]
          · rw [decide_eq_false ho]
            have e2 : 64 - (u.queue.length + u.bench.length) = 0 := by omega
            simp [e2]
        · have hp' : (sampleCures y r && (sampledRecord y r).holds == 0) = false := by simpa using hp
          rw [hp', Bool.false_and]
          simp
      have hadm' := hadm _ rfl
      refine ⟨?_, ?_, ?_, ?_⟩
      · rw [i1]
        have e1 : ∀ (S : Vector Slot Config.slotCount) (Q : List Nat) (P : Ports),
          ({ w with slots := S, queue := Q, ports := P } : State) = { u with slots := S, queue := Q, ports := P } := by
          intro S Q P; rw [← hw]; rfl
        rw [e1]
        have e2 : w.queue ++ admittedBy w y es = u.queue ++ admittedBy u y (n :: es) := by
          rw [← hadm', wq]
          split <;> simp
        have e3 : tellKind .hold (es.any (asCuring w (sampleFrosts y))) w.ports =
          tellKind .hold ((n :: es).any (asCuring u (sampleFrosts y))) u.ports := by
          have : w.ports = tellKind .hold (sampleFrosts y r) u.ports := by rw [← hw]
          rw [this, tellKind_twice, List.any_cons, whd]
          congr 2
          refine Bool.eq_iff_iff.mpr ?_
          simp only [List.any_eq_true]
          exact ⟨fun ⟨x, hx, e⟩ => ⟨x, hx, by rw [← wc _ x hx]; exact e⟩,
            fun ⟨x, hx, e⟩ => ⟨x, hx, by rw [wc _ x hx]; exact e⟩⟩
        rw [e2, e3]
      · rw [i2, List.any_cons, whd, Bool.or_assoc]
        congr 2
        refine Bool.eq_iff_iff.mpr ?_
        simp only [List.any_eq_true]
        exact ⟨fun ⟨x, hx, e⟩ => ⟨x, hx, by rw [← wc _ x hx]; exact e⟩,
          fun ⟨x, hx, e⟩ => ⟨x, hx, by rw [wc _ x hx]; exact e⟩⟩
      · intro x hx j l' a1 a2
        rcases List.mem_cons.mp hx with rfl | hx
        · have e1 : j = k := by have := hl.2.2.1; rw [a1] at this; cases this; rfl
          subst e1
          rw [h1] at a2; cases a2
          rw [i4 j (fun z hz e => other z hz j ((wn z).symm.trans e) rfl), wk, if_pos (by rw [h3]; exact hs)]
          congr 2
          have hnot : x ∉ admittedBy w y es := fun e => hnd.1 (List.mem_of_mem_filter (List.mem_of_mem_take e))
          by_cases hp : (sampleCures y r && (sampledRecord y r).holds == 0) = true
          · congr 1
            rw [← hadm', hp, Bool.true_and]
            by_cases ho : queueOpen u
            · simp [ho]
            · simp [ho, hnot]
          · unfold sampledLot
            dsimp only
            rw [h3]
            by_cases hcu : sampleCures y r = true
            · have hh : (sampledRecord y r).holds ≠ 0 := by
                intro e; apply hp; rw [hcu, e]; rfl
              simp only [hcu, if_true, hh, ne_eq, not_false_eq_true]
            · rw [if_neg hcu, if_neg hcu]
        · have hj := other x hx j a1
          rw [i3 x hx j l' ((wn x).trans a1) ((wl j hj).trans a2), wj j hj]
          split
          · have hxn : x ≠ n := fun e => hnd.1 (e ▸ hx)
            have e : decide (x ∈ admittedBy w y es) = decide (x ∈ admittedBy u y (n :: es)) := by
              refine decide_eq_decide.mpr ?_
              rw [← hadm']
              split
              · simp [hxn]
              · rfl
            rw [e]
          · rfl
      · intro j hj
        have hjk : j ≠ k := fun e => hj n List.mem_cons_self (e ▸ hl.2.2.1)
        rw [i4 j (fun z hz e => hj z (List.mem_cons_of_mem _ hz) ((wn z).symm.trans e)), wj j hjk]
    · have hstep : sampleLot c y m (u, b) n = (u, b) :=
        sampleLot_other c y m u b n k l hl.2.2.1 h1 h2 (by rw [h3]; exact hs)
      rw [List.foldl_cons, hstep]
      have whd : ∀ q, asCuring u q n = false := by
        intro q; unfold asCuring; rw [hrec]; simp [hs]
      have hadm : admittedBy u y (n :: es) = admittedBy u y es := by
        unfold admittedBy
        rw [List.filter_cons, whd]; simp
      obtain ⟨i1, i2, i3, i4⟩ := ih u b hnd.2 hin' h'
      rw [hadm]
      refine ⟨?_, ?_, ?_, ?_⟩
      · rw [List.any_cons, whd, Bool.false_or]; exact i1
      · rw [List.any_cons, whd, Bool.false_or]; exact i2
      · intro x hx j l' a1 a2
        rcases List.mem_cons.mp hx with rfl | hx
        · have e1 : j = k := by have := hl.2.2.1; rw [a1] at this; cases this; rfl
          subst e1
          rw [h1] at a2; cases a2
          rw [i4 j (fun z hz e => other z hz j e rfl), if_neg (by rw [h3]; exact hs)]
        · exact i3 x hx j l' a1 a2
      · intro j hj
        exact i4 j (fun z hz e => hj z (List.mem_cons_of_mem _ hz) e)

/-! ### A judgement inside a request -/

theorem notices_receive (k : Notice) (x y : Port) (h1 : x.notices = y.notices) (h2 : x.mask = y.mask) :
    (receive k x).notices = (receive k y).notices ∧ (receive k x).mask = (receive k y).mask := by
  unfold receive
  rw [h2]
  split
  · exact ⟨by simp [h1], rfl⟩
  · exact ⟨h1, h2⟩

/-- A judgement reads the slots, the queue, the list, the clock and the masks, and changes of the ports the pending sets
alone. -/
theorem potLifeJudged_congr (u w v v' : State) (hs : w.slots = u.slots) (hq : w.queue = u.queue)
    (hp : w.potLife = u.potLife)
    (hc : w.clock = u.clock) (h1 : ∀ q, (w.port q).notices = (u.port q).notices ∧ (w.port q).mask = (u.port q).mask)
    (hv : v' = { v with ports := v'.ports }) (h2 : ∀ q, (v'.port q).notices = (v.port q).notices)
    (h : potLifeJudged w v) : potLifeJudged u v' := by
  have hn : ∀ n, w.slotOf n = u.slotOf n := fun n => by unfold State.slotOf; rw [hs]
  have hl : ∀ k, w.slot k = u.slot k := fun k => by unfold State.slot; rw [hs]
  have hr : ∀ n, w.recordOf n = u.recordOf n := fun n => by
    unfold State.recordOf State.recordAt State.lotAt; simp only [hn, hl]
  have hv2 : ∀ n k r, liveLot u n k r → liveLot w n k r := fun n k r h => by
    refine ⟨h.1, h.2.1, (hn n).trans h.2.2.1, ?_⟩
    unfold State.lotAt; rw [hl]; exact h.2.2.2
  obtain ⟨V, rfl⟩ : ∃ V, v' = { v with ports := V } := ⟨_, hv⟩
  obtain ⟨a, b⟩ := h
  refine ⟨by rw [← hp, ← hc]; exact a, fun hd => ?_⟩
  obtain ⟨b1, b2, b3, b4⟩ := b fun e he hx => by
    obtain ⟨k, r, x, y⟩ := hd e (hp ▸ he) (hc ▸ hx)
    exact ⟨k, r, hv2 _ _ _ x, y⟩
  refine ⟨b1.trans hq, fun q => ?_, fun e he hx k r hx2 => ?_, fun k hk => ?_⟩
  · rw [h2, b2]
    have r1 : ∀ k (x y : State), (x.port q).notices = (y.port q).notices ∧ (x.port q).mask = (y.port q).mask →
        ((x.raise k).port q).notices = ((y.raise k).port q).notices ∧ ((x.raise k).port q).mask =
          ((y.raise k).port q).mask := by
      intro k x y hx
      rw [port_raise, port_raise]
      exact notices_receive k _ _ hx.1 hx.2
    unfold potLifeTold
    simp only [hp, hc, hr]
    split
    · exact (h1 q).1
    · refine (r1 .potLife _ _ ?_).1
      split
      · exact r1 .hold _ _ (h1 q)
      · exact h1 q
  · have := b3 e (hp ▸ he) (hc ▸ hx) k r (hv2 _ _ _ hx2)
    rw [slot_recordNow w k _ (liveLot_slot _ _ _ _ (hv2 _ _ _ hx2)), hl] at this
    rw [slot_recordNow u k _ (liveLot_slot _ _ _ _ hx2)]
    exact this
  · rw [← hl]
    exact b4 k fun e he hx => by rw [hn]; exact hk e (hp ▸ he) (hc ▸ hx)

theorem notices_answer (u : State) (p q : PortName) (t : Nat) (r : Reply) :
    ((u.answer p t r).port q).notices = (u.port q).notices := by
  unfold State.answer
  by_cases h : q = p
  · subst h; rw [port_setPort_same]
  · rw [port_setPort_ne _ _ _ _ h]

theorem notices_received (s : State) (p q : PortName) (t : Nat) :
    ((s.received p t).port q).notices = (s.port q).notices ∧ ((s.received p t).port q).mask = (s.port q).mask := by
  by_cases h : q = p
  · subst h; rw [port_received_same]; exact ⟨rfl, rfl⟩
  · rw [port_received_ne _ _ _ _ h]; exact ⟨rfl, rfl⟩

/-- The judgement of a request's state, then answered, is that of the state before the request was received. -/
theorem potLifeJudged_answer (s u w : State) (p : PortName) (t : Nat) (r : Reply) (hp : potOrdered w.potLife)
    (hw : w = { u with ports := (s.received p t).ports }) (hu : u.ports = s.ports) :
    potLifeJudged u (w.judgePotLife.answer p t r) := by
  refine potLifeJudged_congr u w w.judgePotLife _ (by rw [hw]) (by rw [hw]) (by rw [hw]) (by rw [hw]) (fun q => ?_) rfl
    (fun q => notices_answer _ p q t r) (potLifeJudged_judgePotLife w hp)
  have e1 : w.port q = (s.received p t).port q := by rw [hw]; rfl
  have e2 : u.port q = s.port q := by unfold State.port; rw [hu]
  rw [e1, e2]; exact notices_received s p q t

end Sys2Proof.Machine
end

