-- ==== Sys2Proof/Laws/Scan.lean ====
section
/-! SUPPORT. SCAN over clean lots: lists put in order by number, the slot that holds a clean lot's number, and what the
walk of SCAN takes. -/

namespace Sys2Proof.Machine

/-- An insertion commutes with a function that the two orders agree on. -/
theorem insertBy_map {α β : Type} (g : α → β) (b : α → α → Bool) (c : β → β → Bool)
    (h : ∀ x y, c (g x) (g y) = b x y) (x : α) (l : List α) :
    insertBy c (g x) (l.map g) = (insertBy b x l).map g := by
  induction l with
  | nil => rfl
  | cons y l ih =>
    simp only [List.map_cons, insertBy, h]
    split
    · rfl
    · rw [ih]; rfl

/-- Putting a list in order commutes with a function that the two orders agree on. -/
theorem sortBy_map {α β : Type} (g : α → β) (b : α → α → Bool) (c : β → β → Bool)
    (h : ∀ x y, c (g x) (g y) = b x y) (l : List α) :
    sortBy c (l.map g) = (sortBy b l).map g := by
  induction l with
  | nil => rfl
  | cons x l ih =>
    show insertBy c (g x) (sortBy c (l.map g)) = (insertBy b x (sortBy b l)).map g
    rw [ih, insertBy_map g b c h]

/-- A record inserted by number into a list in ascending number leaves it ascending, where no number meets. -/
theorem insertBy_ascending (x : LotRecord) (l : List LotRecord)
    (hl : l.Pairwise (fun x y => x.number < y.number)) (hx : ∀ y ∈ l, x.number ≠ y.number) :
    (insertBy (fun x y => decide (x.number < y.number)) x l).Pairwise (fun x y => x.number < y.number) := by
  induction l with
  | nil => simp [insertBy]
  | cons y l ih =>
    obtain ⟨h1, h2⟩ := List.pairwise_cons.mp hl
    have hne := hx y (by simp)
    unfold insertBy
    split
    · rename_i hb
      have hb' : x.number < y.number := by simpa  using hb
      refine List.pairwise_cons.mpr ⟨fun z hz => ?_, hl⟩
      rcases List.mem_cons.mp hz with rfl | hz
      · exact hb'
      · exact hb'.trans (h1 z hz)
    · rename_i hb
      have hb' : y.number < x.number := by
        have : ¬ x.number < y.number := by simpa  using hb
        omega
      refine List.pairwise_cons.mpr ⟨fun z hz => ?_, ih h2 fun z hz => hx z (by simp [hz])⟩
      rcases (mem_insertBy _ _ _ _).mp hz with rfl | hz
      · exact hb'
      · exact h1 z hz

/-- Records of different numbers put in order are in ascending number. -/
theorem sortBy_ascending (l : List LotRecord) (h : l.Pairwise (fun x y => x.number ≠ y.number)) :
    (sortBy (fun x y => decide (x.number < y.number)) l).Pairwise (fun x y => x.number < y.number) := by
  induction l with
  | nil => exact List.Pairwise.nil
  | cons x l ih =>
    obtain ⟨h1, h2⟩ := List.pairwise_cons.mp h
    exact insertBy_ascending x _ (ih h2) fun y hy => h1 y ((mem_sortBy _ _ _).mp hy)

/-- A list in ascending number is in its order already. -/
theorem sortBy_of_ascending (l : List LotRecord) (h : l.Pairwise (fun x y => x.number < y.number)) :
    sortBy (fun x y => decide (x.number < y.number)) l = l := by
  induction l with
  | nil => rfl
  | cons x l ih =>
    obtain ⟨h1, h2⟩ := List.pairwise_cons.mp h
    show insertBy (fun x y => decide (x.number < y.number)) x (sortBy (fun x y => decide (x.number < y.number)) l) = _
    rw [ih h2]
    cases l with
    | nil => rfl
    | cons y l =>
      have := h1 y (by simp)
      simp [insertBy, this]

/-- The occupied slots are listed once each. -/
theorem occupied_distinct (s : State) : s.occupied.Pairwise (fun x y => x.1 ≠ y.1) := by
  have h1 : (s.occupied.map (·.1)).Sublist (s.slots.toList.zipIdx.map (·.2)) := by
    unfold State.occupied
    generalize s.slots.toList.zipIdx = l
    induction l with
    | nil => exact List.Sublist.slnil
    | cons x l ih =>
      cases hx : x.1.contents with
      | none => simp only [List.filterMap_cons, hx, Option.map_none, List.map_cons]; exact ih.cons _
      | some m => simp only [List.filterMap_cons, hx, Option.map_some, List.map_cons]; exact ih.cons_cons _
  have h2 : (s.occupied.map (·.1)).Nodup := by
    refine h1.nodup ?_
    rw [List.zipIdx_map_snd]; exact List.nodup_range'
  exact List.pairwise_map.mp h2

/-- Over clean lots of different numbers the check of a lot by its number changes nothing and finds its slot. -/
theorem clean_found (s : State) (hc : allClean s) (hd : numbersDiffer s) (k : Nat) (l : Lot)
    (hl : s.lotAt k = some l) : s.checkedPlaced l.record.held.number = (s, some (k, l.record.held)) := by
  have hlc : (s.slot k).contents = some l := hl
  have hcl := hc k l hl
  have hnum := lotNumber_agrees l hcl.1
  have other : ∀ j m, s.lotAt j = some m → m.record.held.number = l.record.held.number → j = k :=
    fun j m hm e => hd j k _ _ (recordAt_of_lotAt s j m hm) (recordAt_of_lotAt s k l hl) e
  have hs : s.slotOf l.record.held.number = some k := by
    refine ((findIdx_first (holdsNumber _) Slot.blank s.slots.toList rfl).2 k).mpr ⟨?_, fun j hj => ?_⟩
    · show holdsNumber _ (s.slot k) = true
      simp [holdsNumber, hlc, hnum]
    · show holdsNumber _ (s.slot j) = false
      cases hm : (s.slot j).contents with
      | none => simp [holdsNumber, hm]
      | some m =>
        simp only [holdsNumber, hm, lotNumber_agrees m (hc j m hm).1]
        rw [beq_eq_false_iff_ne]
        intro e
        have := other j m hm (Option.some.inj e)
        omega
  have hcs : s.checkSlot k = s := checkSlot_clean s k (hc k)
  have hcl2 : s.checkLot l.record.held.number = s := by
    unfold State.checkLot State.placedSlot; rw [hs]; exact hcs
  have hco : s.cleanOf l.record.held.number = some (k, l.record.held) := by
    have : s.slots.toList.findIdx? (holdsClean l.record.held.number) = some k := by
      refine ((findIdx_first (holdsClean _) Slot.blank s.slots.toList rfl).2 k).mpr ⟨?_, fun j hj => ?_⟩
      · show holdsClean _ (s.slot k) = true
        simp [holdsClean, hlc, hnum, cleanBoth_clean l hcl]
      · show holdsClean _ (s.slot j) = false
        cases hm : (s.slot j).contents with
        | none => simp [holdsClean, hm]
        | some m =>
          simp only [holdsClean, hm, lotNumber_agrees m (hc j m hm).1, Bool.and_eq_false_iff]
          left
          rw [beq_eq_false_iff_ne]
          intro e
          have := other j m hm (Option.some.inj e)
          omega
    unfold State.cleanOf
    rw [this]
    simp [recordAt_of_lotAt s k l hl]
  unfold State.checkedPlaced
  rw [hcl2, hco]

/-- Over clean lots of different numbers the walk of SCAN takes the first seventeen records and changes nothing. -/
theorem scanWalk_clean (s : State) (hc : allClean s) (hd : numbersDiffer s) (rs : List LotRecord)
    (h : ∀ r ∈ rs, ∃ k, s.recordAt k = some r) (taken : List LotRecord) :
    scanWalk (rs.map fun r => ⟨r.number, some r.number⟩) s taken = (s, taken ++ rs.take (17 - taken.length)) := by
  induction rs generalizing taken with
  | nil => simp [scanWalk]
  | cons r rs ih =>
    simp only [List.map_cons, scanWalk]
    split
    · rename_i h17
      have : 17 - taken.length = 0 := by omega
      simp [this]
    · rename_i h17
      obtain ⟨k, hk⟩ := h r (by simp)
      have hl : ∃ l, s.lotAt k = some l ∧ l.record.held = r := by
        unfold State.recordAt at hk
        cases hx : s.lotAt k with
        | none => rw [hx] at hk; cases hk
        | some l => rw [hx] at hk; exact ⟨l, rfl, by simpa using hk⟩
      obtain ⟨l, hl, hr⟩ := hl
      have hf := clean_found s hc hd k l hl
      rw [hr] at hf
      simp only [State.checkEntry, hf]
      rw [ih (fun x hx => h x (by simp [hx]))]
      have : 17 - taken.length = (17 - (taken ++ [r]).length) + 1 := by simp; omega
      rw [this, List.take_succ_cons]
      simp

end Sys2Proof.Machine
end

