-- ==== Sys2Proof/Laws/Collections.lean ====
section
/-! SUPPORT. The collections of a state (lanes, reservations, test queue, bench list, channels) and the records they
name: which changes keep them sound, and the operations of the plant that do. -/

namespace Sys2Proof.Machine

/-! ### Places and sizes -/

/-- A number stands in the same collections of two states. -/
def samePlaces (s u : State) (m : Nat) : Prop :=
  (∀ c, (m ∈ (u.cell c).lane ↔ m ∈ (s.cell c).lane) ∧ (m ∈ (u.cell c).reservations ↔ m ∈ (s.cell c).reservations)) ∧
  (m ∈ u.queue ↔ m ∈ s.queue) ∧ (m ∈ u.bench.map (·.lot) ↔ m ∈ s.bench.map (·.lot)) ∧
  ∀ c, (∃ b, u.channel c = some b ∧ b.lot = m) ↔ ∃ b, s.channel c = some b ∧ b.lot = m

/-- The collections hold no number twice and keep their limits (R57 to R59, R96). -/
def sizesSound (s : State) : Prop :=
  (∀ c, (s.cell c).lane.Nodup ∧ (s.cell c).reservations.Nodup ∧
    (s.cell c).lane.length + (s.cell c).reservations.length ≤ 6) ∧
  s.queue.Nodup ∧ (s.bench.map (·.lot)).Nodup ∧ s.queue.length + s.bench.length ≤ 64

/-- The counter has given a number (R11). -/
def givenBy (c : Counter) (m : Nat) : Prop := m < c.next ∨ c.exhausted = true

theorem samePlaces_of_eq (s u : State) (h1 : u.cells = s.cells) (h2 : u.queue = s.queue) (h3 : u.bench = s.bench)
    (h4 : u.channels = s.channels) (m : Nat) : samePlaces s u m := by
  unfold samePlaces State.cell State.channel
  rw [h1, h2, h3, h4]
  exact ⟨fun _ => ⟨Iff.rfl, Iff.rfl⟩, Iff.rfl, Iff.rfl, fun _ => Iff.rfl⟩

theorem sizesSound_of_eq (s u : State) (h1 : u.cells = s.cells) (h2 : u.queue = s.queue) (h3 : u.bench = s.bench)
    (h : sizesSound s) : sizesSound u := by
  unfold sizesSound State.cell at *
  rw [h1, h2, h3]
  exact h

theorem lotPlaced_samePlaces (s u : State) (r : LotRecord) (h : samePlaces s u r.number) (hp : lotPlaced s r) :
    lotPlaced u r := by
  obtain ⟨a, b, c, d⟩ := h
  obtain ⟨p1, p2, p3, p4, p5⟩ := hp
  exact ⟨fun x hx => p1 x ((a x).1.mp hx), fun x => ((a x).2).trans (p2 x), fun hx => p3 (b.mp hx), c.trans p4,
    fun x y hx hy => by
      obtain ⟨z, h1, h2⟩ := (d x).mp ⟨y, hx, hy⟩
      exact p5 x z h1 h2⟩

theorem named_samePlaces (s u : State) (m : Nat) (h : samePlaces s u m) (hn : named u m) : named s m := by
  obtain ⟨a, b, c, d⟩ := h
  rcases hn with ⟨x, hx | hx⟩ | hx | hx | ⟨x, y, hx, hy⟩
  · exact .inl ⟨x, .inl ((a x).1.mp hx)⟩
  · exact .inl ⟨x, .inr ((a x).2.mp hx)⟩
  · exact .inr (.inl (b.mp hx))
  · exact .inr (.inr (.inl (c.mp hx)))
  · obtain ⟨z, h1, h2⟩ := (d x).mp ⟨y, hx, hy⟩
    exact .inr (.inr (.inr ⟨x, z, h1, h2⟩))

/-- The collections are sound after a change that touches the places and records of some numbers alone. -/
theorem collectionsSound_of (s u : State) (t : Nat → Prop) (hs : collectionsSound s) (hclean : allClean u)
    (hdiff : numbersDiffer u) (hgiven : ∀ k r, u.recordAt k = some r → givenBy u.counter r.number)
    (hp : ∀ m, ¬ t m → samePlaces s u m)
    (hr : ∀ k r, u.recordAt k = some r → ¬ t r.number → ∃ j, s.recordAt j = some r)
    (hb : ∀ j r, s.recordAt j = some r → ¬ t r.number → ∃ k q, u.recordAt k = some q ∧ q.number = r.number)
    (ht : ∀ k r, u.recordAt k = some r → t r.number → lotPlaced u r)
    (hn : ∀ m, t m → named u m → ∃ k r, u.recordAt k = some r ∧ r.number = m) (hz : sizesSound u) :
    collectionsSound u := by
  obtain ⟨-, -, h3, h4, -⟩ := hs
  refine ⟨hclean, hdiff, fun k r h => ⟨hgiven k r h, ?_⟩, fun n hx => ?_, hz⟩
  · by_cases hm : t r.number
    · exact ht k r h hm
    · obtain ⟨j, hj⟩ := hr k r h hm
      exact lotPlaced_samePlaces s u r (hp _ hm) (h3 j r hj).2
  · by_cases hm : t n
    · exact hn n hm hx
    · obtain ⟨k, r, a, b⟩ := h4 n (named_samePlaces s u n (hp n hm) hx)
      obtain ⟨j, q, c, d⟩ := hb k r a (b ▸ hm)
      exact ⟨j, q, c, d.trans b⟩

theorem recordAt_eq (s : State) (k : Nat) (r : LotRecord) : s.recordAt k = some r ↔ ∃ l, s.lotAt k = some l ∧
    l.record.held = r := by
  unfold State.recordAt
  rw [Option.map_eq_some_iff]

/-- Nothing that the collections depend on has changed. -/
theorem collectionsSound_congr (s u : State) (h1 : ∀ k, u.lotAt k = s.lotAt k) (h2 : u.counter = s.counter)
    (h3 : u.cells = s.cells) (h4 : u.queue = s.queue) (h5 : u.bench = s.bench) (h6 : u.channels = s.channels)
    (hs : collectionsSound s) : collectionsSound u := by
  have hr : ∀ k, u.recordAt k = s.recordAt k := fun k => by unfold State.recordAt; rw [h1]
  refine collectionsSound_of s u (fun _ => False) hs (fun k l h => hs.1 k l (h1 k ▸ h)) ?_ ?_
    (fun m _ => samePlaces_of_eq s u h3 h4 h5 h6 m) ?_ ?_
    (fun _ _ _ h => h.elim) (fun _ h => h.elim) (sizesSound_of_eq s u h3 h4 h5 hs.2.2.2.2)
  · intro j k q r h g e
    exact hs.2.1 j k q r (hr j ▸ h) (hr k ▸ g) e
  · intro k r h
    rw [h2]
    exact (hs.2.2.1 k r (hr k ▸ h)).1
  · intro k r h _; exact ⟨k, hr k ▸ h⟩
  · intro k r h _; exact ⟨k, r, (hr k).symm ▸ h, rfl⟩

/-- One lot rewritten in its slot, with the places its number has in the collections. -/
theorem collectionsSound_rewrite (s u : State) (k : Nat) (l l' : Lot) (hs : collectionsSound s)
    (hl : s.lotAt k = some l)
    (hl' : u.lotAt k = some l') (hc : cleanLot l') (hn : l'.record.held.number = l.record.held.number)
    (ho : ∀ j, j ≠ k → u.lotAt j = s.lotAt j) (h2 : u.counter = s.counter)
    (hp : ∀ m, m ≠ l.record.held.number → samePlaces s u m) (hpl : lotPlaced u l'.record.held) (hz : sizesSound u) :
    collectionsSound u := by
  have e1 := recordAt_of_lotAt s k l hl
  have e2 := recordAt_of_lotAt u k l' hl'
  have ho' : ∀ j, j ≠ k → u.recordAt j = s.recordAt j := fun j hj => by unfold State.recordAt; rw [ho j hj]
  have other : ∀ j r, j ≠ k → s.recordAt j = some r → r.number ≠ l.record.held.number := fun j r hj h e =>
    hj (hs.2.1 j k r _ h e1 e)
  refine collectionsSound_of s u (fun m => m = l.record.held.number) hs ?_ ?_ ?_ hp ?_ ?_ ?_ ?_ hz
  · intro j m h
    by_cases hj : j = k
    · subst hj; rw [hl'] at h; cases h; exact hc
    · exact hs.1 j m (ho j hj ▸ h)
  · intro i j q r h g e
    by_cases hi : i = k <;> by_cases hj : j = k
    · rw [hi, hj]
    · subst hi
      rw [e2] at h; cases h
      exact absurd (e.symm.trans hn) (other j r hj (ho' j hj ▸ g))
    · subst hj
      rw [e2] at g; cases g
      exact absurd (e.trans hn) (other i q hi (ho' i hi ▸ h))
    · exact hs.2.1 i j q r (ho' i hi ▸ h) (ho' j hj ▸ g) e
  · intro j r h
    rw [h2]
    by_cases hj : j = k
    · subst hj; rw [e2] at h; cases h
      rw [hn]; exact (hs.2.2.1 j _ e1).1
    · exact (hs.2.2.1 j r (ho' j hj ▸ h)).1
  · intro j r h hm
    by_cases hj : j = k
    · subst hj; rw [e2] at h; cases h; exact absurd hn hm
    · exact ⟨j, ho' j hj ▸ h⟩
  · intro j r h hm
    have hj : j ≠ k := fun e => by subst e; rw [e1] at h; cases h; exact hm rfl
    exact ⟨j, r, (ho' j hj).trans h, rfl⟩
  · intro j r h hm
    by_cases hj : j = k
    · subst hj; rw [e2] at h; cases h; exact hpl
    · exact absurd hm (other j r hj (ho' j hj ▸ h))
  · intro m hm _
    exact ⟨k, _, e2, hn.trans hm.symm⟩

/-- One lot removed, its number named no longer. -/
theorem collectionsSound_remove (s u : State) (k : Nat) (l : Lot) (hs : collectionsSound s) (hl : s.lotAt k = some l)
    (hl' : u.lotAt k = none) (ho : ∀ j, j ≠ k → u.lotAt j = s.lotAt j) (h2 : u.counter = s.counter)
    (hp : ∀ m, m ≠ l.record.held.number → samePlaces s u m) (hnn : ¬ named u l.record.held.number) (hz : sizesSound u) :
    collectionsSound u := by
  have e1 := recordAt_of_lotAt s k l hl
  have e2 : u.recordAt k = none := by unfold State.recordAt; rw [hl']; rfl
  have ho' : ∀ j, j ≠ k → u.recordAt j = s.recordAt j := fun j hj => by unfold State.recordAt; rw [ho j hj]
  have ne : ∀ j r, u.recordAt j = some r → j ≠ k := fun j r h e => by subst e; rw [e2] at h; cases h
  have old : ∀ j r, u.recordAt j = some r → s.recordAt j = some r := fun j r h => ho' j (ne j r h) ▸ h
  have other : ∀ j r, j ≠ k → s.recordAt j = some r → r.number ≠ l.record.held.number := fun j r hj h e =>
    hj (hs.2.1 j k r _ h e1 e)
  refine collectionsSound_of s u (fun m => m = l.record.held.number) hs ?_ ?_ ?_ hp ?_ ?_ ?_ ?_ hz
  · intro j m h
    have hj : j ≠ k := fun e => by subst e; rw [hl'] at h; cases h
    exact hs.1 j m (ho j hj ▸ h)
  · intro i j q r h g e
    exact hs.2.1 i j q r (old i q h) (old j r g) e
  · intro j r h
    rw [h2]; exact (hs.2.2.1 j r (old j r h)).1
  · intro j r h _; exact ⟨j, old j r h⟩
  · intro j r h hm
    have hj : j ≠ k := fun e => by subst e; rw [e1] at h; cases h; exact hm rfl
    exact ⟨j, r, (ho' j hj).trans h, rfl⟩
  · intro j r h hm
    exact absurd hm (other j r (ne j r h) (old j r h))
  · intro m hm hx
    subst hm; exact absurd hx hnn

/-- A lot of a number that no lot had, put into a free slot. -/
theorem collectionsSound_add (s u : State) (k : Nat) (l' : Lot) (hs : collectionsSound s) (hl : s.lotAt k = none)
    (hl' : u.lotAt k = some l') (hc : cleanLot l') (ho : ∀ j, j ≠ k → u.lotAt j = s.lotAt j)
    (hnew : ∀ j r, s.recordAt j = some r → r.number ≠ l'.record.held.number)
    (h2 : ∀ m, givenBy s.counter m → givenBy u.counter m) (h3 : givenBy u.counter l'.record.held.number)
    (hp : ∀ m, m ≠ l'.record.held.number → samePlaces s u m) (hpl : lotPlaced u l'.record.held) (hz : sizesSound u) :
    collectionsSound u := by
  have e1 : s.recordAt k = none := by unfold State.recordAt; rw [hl]; rfl
  have e2 := recordAt_of_lotAt u k l' hl'
  have ho' : ∀ j, j ≠ k → u.recordAt j = s.recordAt j := fun j hj => by unfold State.recordAt; rw [ho j hj]
  refine collectionsSound_of s u (fun m => m = l'.record.held.number) hs ?_ ?_ ?_ hp ?_ ?_ ?_ ?_ hz
  · intro j m h
    by_cases hj : j = k
    · subst hj; rw [hl'] at h; cases h; exact hc
    · exact hs.1 j m (ho j hj ▸ h)
  · intro i j q r h g e
    by_cases hi : i = k <;> by_cases hj : j = k
    · rw [hi, hj]
    · subst hi
      rw [e2] at h; cases h
      exact absurd e.symm (hnew j r (ho' j hj ▸ g))
    · subst hj
      rw [e2] at g; cases g
      exact absurd e (hnew i q (ho' i hi ▸ h))
    · exact hs.2.1 i j q r (ho' i hi ▸ h) (ho' j hj ▸ g) e
  · intro j r h
    by_cases hj : j = k
    · subst hj; rw [e2] at h; cases h; exact h3
    · exact h2 _ (hs.2.2.1 j r (ho' j hj ▸ h)).1
  · intro j r h hm
    by_cases hj : j = k
    · subst hj; rw [e2] at h; cases h; exact absurd rfl hm
    · exact ⟨j, ho' j hj ▸ h⟩
  · intro j r h hm
    have hj : j ≠ k := fun e => by subst e; rw [e1] at h; cases h
    exact ⟨j, r, (ho' j hj).trans h, rfl⟩
  · intro j r h hm
    by_cases hj : j = k
    · subst hj; rw [e2] at h; cases h; exact hpl
    · exact absurd hm (hnew j r (ho' j hj ▸ h))
  · intro m hm _
    exact ⟨k, _, e2, hm.symm⟩

/-- A lot moved into a free slot. -/
theorem collectionsSound_move (s u : State) (w f : Nat) (l l' : Lot) (hs : collectionsSound s) (hw : s.lotAt w = some l)
    (hf : s.lotAt f = none) (hl' : u.lotAt f = some l') (hw' : u.lotAt w = none) (hc : cleanLot l')
    (hn : l'.record.held = l.record.held) (ho : ∀ j, j ≠ w → j ≠ f → u.lotAt j = s.lotAt j) (h2 : u.counter = s.counter)
    (h3 : u.cells = s.cells) (h4 : u.queue = s.queue) (h5 : u.bench = s.bench) (h6 : u.channels = s.channels) :
    collectionsSound u := by
  have e1 := recordAt_of_lotAt s w l hw
  have e2 : u.recordAt f = some l.record.held := hn ▸ recordAt_of_lotAt u f l' hl'
  have e3 : u.recordAt w = none := by unfold State.recordAt; rw [hw']; rfl
  have ho' : ∀ j, j ≠ w → j ≠ f → u.recordAt j = s.recordAt j := fun j h g => by unfold State.recordAt; rw [ho j h g]
  -- where a record of the new state stood before
  have back : ∀ j r, u.recordAt j = some r → s.recordAt (if j = f then w else j) = some r := by
    intro j r h
    by_cases hj : j = f
    · subst hj; rw [if_pos rfl]; rw [e2] at h; cases h; exact e1
    · rw [if_neg hj]
      have : j ≠ w := fun e => by subst e; rw [e3] at h; cases h
      exact ho' j this hj ▸ h
  have nw : ∀ j r, u.recordAt j = some r → j ≠ w := fun j r h e => by subst e; rw [e3] at h; cases h
  refine collectionsSound_of s u (fun _ => False) hs ?_ ?_ ?_ (fun m _ => samePlaces_of_eq s u h3 h4 h5 h6 m) ?_ ?_
    (fun _ _ _ h => h.elim) (fun _ h => h.elim) (sizesSound_of_eq s u h3 h4 h5 hs.2.2.2.2)
  · intro j m h
    by_cases hj : j = f
    · subst hj; rw [hl'] at h; cases h; exact hc
    · have : j ≠ w := fun e => by subst e; rw [hw'] at h; cases h
      exact hs.1 j m (ho j this hj ▸ h)
  · intro i j q r h g e
    have := hs.2.1 _ _ q r (back i q h) (back j r g) e
    have hi := nw i q h
    have hj := nw j r g
    split at this <;> split at this <;> simp_all
  · intro j r h
    rw [h2]; exact (hs.2.2.1 _ r (back j r h)).1
  · intro j r h _; exact ⟨_, back j r h⟩
  · intro j r h _
    by_cases hj : j = w
    · subst hj; rw [e1] at h; cases h; exact ⟨f, _, e2, rfl⟩
    · have : j ≠ f := fun e => by subst e; unfold State.recordAt at h; rw [hf] at h; cases h
      exact ⟨j, r, (ho' j hj this).trans h, rfl⟩

/-! ### One record -/

theorem lotAt_setSlot (s : State) (k j : Nat) (x : Slot) :
    (s.setSlot k x).lotAt j = if k = j ∧ k < Config.slotCount then x.contents else s.lotAt j := by
  unfold State.lotAt; rw [slot_setSlot]; split <;> rfl

theorem lotAt_putLot_ne (s : State) (k j : Nat) (l : Lot) (h : j ≠ k) : (s.putLot k l).lotAt j = s.lotAt j := by
  rw [State.putLot, lotAt_setSlot, if_neg fun e => h e.1.symm]

/-- The fields by which a record agrees with the collections. -/
def placedAlike (q r : LotRecord) : Prop :=
  q.number = r.number ∧ q.state = r.state ∧ q.cell = r.cell ∧ q.targetCell = r.targetCell ∧ q.channel = r.channel ∧
    q.queueStatus = r.queueStatus

theorem lotPlaced_alike (s : State) (q r : LotRecord) (h : placedAlike q r) (hp : lotPlaced s r) : lotPlaced s q := by
  obtain ⟨a, b, c, d, e, f⟩ := h
  unfold lotPlaced at *
  rw [a, b, c, d, e, f]
  exact hp

/-- A lot put back with a record placed alike. -/
theorem collectionsSound_putLot (s : State) (k : Nat) (l l' : Lot) (hs : collectionsSound s) (hl : s.lotAt k = some l)
    (hc : cleanLot l') (hn : l'.record.held.number = l.record.held.number) (hp : lotPlaced s l'.record.held) :
    collectionsSound (s.putLot k l') :=
  collectionsSound_rewrite s _ k l l' hs hl (lotAt_putLot s k l' (slot_of_lotAt s k l hl)) hc hn
    (fun j hj => lotAt_putLot_ne s k j l' hj) rfl (fun m _ => samePlaces_of_eq _ _ rfl rfl rfl rfl m)
    (lotPlaced_samePlaces s _ _ (samePlaces_of_eq _ _ rfl rfl rfl rfl _) hp)
      (sizesSound_of_eq s _ rfl rfl rfl hs.2.2.2.2)

theorem collectionsSound_placed (s : State) (hs : collectionsSound s) (k : Nat) (l : Lot) (hl : s.lotAt k = some l) :
    lotPlaced s l.record.held := (hs.2.2.1 k _ (recordAt_of_lotAt s k l hl)).2

/-- A change of a record that its entry does not mirror. -/
theorem collectionsSound_changeRecord (s : State) (k : Nat) (f : LotRecord → LotRecord) (hs : collectionsSound s)
    (hf : ∀ r, s.recordAt k = some r → entryOf (f r) = entryOf r ∧ (f r).number = r.number ∧
      (lotPlaced s r → lotPlaced s (f r))) :
    collectionsSound (s.changeRecord k f) := by
  unfold State.changeRecord
  split
  · rename_i l hl
    obtain ⟨a, b, c⟩ := hs.1 k l hl
    obtain ⟨e1, e2, e3⟩ := hf l.record.held (recordAt_of_lotAt s k l hl)
    refine collectionsSound_putLot s k l _ hs hl ⟨?_, b, ?_⟩ e2 (e3 (collectionsSound_placed s hs k l hl))
    · simp only [modifyStored, a]
    · exact c.trans e1.symm
  · exact hs

theorem collectionsSound_changeAlike (s : State) (k : Nat) (f : LotRecord → LotRecord) (hs : collectionsSound s)
    (hf : ∀ r, entryOf (f r) = entryOf r ∧ placedAlike (f r) r) : collectionsSound (s.changeRecord k f) :=
  collectionsSound_changeRecord s k f hs fun r _ => ⟨(hf r).1, (hf r).2.1, lotPlaced_alike s _ r (hf r).2⟩

/-- A change of what the collections do not depend on: notices, the account and the like. -/
theorem collectionsSound_raise (s : State) (k : Notice) (hs : collectionsSound s) : collectionsSound (s.raise k) :=
  collectionsSound_congr s _ (fun _ => rfl) rfl rfl rfl rfl rfl hs

/-! ### The test queue and holds -/

/-- A queue that holds some of the numbers it held, each once. -/
theorem collectionsSound_fewer (s : State) (q : List Nat) (hs : collectionsSound s) (h : q.Sublist s.queue) :
    collectionsSound { s with queue := q } := by
  obtain ⟨a, b, c, d, e1, e2, e3, e4⟩ := hs
  refine ⟨a, b, fun k r hr => ⟨(c k r hr).1, ?_⟩, fun n hn => d n ?_, e1, e2.sublist h, e3, ?_⟩
  · obtain ⟨p1, p2, p3, p4, p5⟩ := (c k r hr).2
    exact ⟨p1, p2, fun hx => p3 (h.subset hx), p4, p5⟩
  · rcases hn with hn | hn | hn | hn
    · exact .inl hn
    · exact .inr (.inl (h.subset hn))
    · exact .inr (.inr (.inl hn))
    · exact .inr (.inr (.inr hn))
  · have := h.length_le
    show q.length + s.bench.length ≤ 64
    omega

theorem collectionsSound_leaveQueue (s : State) (n : Nat) (hs : collectionsSound s) :
    collectionsSound (s.leaveQueue n) :=
  collectionsSound_fewer s _ hs List.filter_sublist

/-- A status set for a lot that the queue does not hold, or set as the queue has it. -/
theorem collectionsSound_setStatus (s : State) (k : Nat) (q : QueueStatus) (hs : collectionsSound s)
    (h : ∀ r, s.recordAt k = some r → r.number ∈ s.queue → q = .queued) : collectionsSound (s.setStatus k q) := by
  refine collectionsSound_changeRecord s k _ hs fun r hr => ⟨rfl, rfl, fun hp => ?_⟩
  obtain ⟨p1, p2, p3, p4, p5⟩ := hp
  exact ⟨p1, p2, fun hx => ⟨(p3 hx).1, by rw [h r hr hx]⟩, p4, p5⟩

/-- A CURED lot that the queue does not hold joins it, in front or at the back, while there is room. -/
theorem collectionsSound_enqueue (s : State) (k : Nat) (r : LotRecord) (q : List Nat) (hs : collectionsSound s)
    (hr : s.recordAt k = some r) (hc : r.state = .cured) (hn : r.number ∉ s.queue)
      (ho : s.queueCount < Config.queueLimit)
    (hq : q = s.queue ++ [r.number] ∨ q = r.number :: s.queue) :
    collectionsSound (({ s with queue := q }).setStatus k .queued) := by
  obtain ⟨l, hl, rfl⟩ := (recordAt_eq s k r).mp hr
  have hm : ∀ m, m ∈ q ↔ m = l.record.held.number ∨ m ∈ s.queue := by
    intro m; rcases hq with rfl | rfl
    · simp [or_comm]
    · simp
  have hlen : q.length = s.queue.length + 1 := by rcases hq with rfl | rfl <;> simp
  have hnd : q.Nodup := by
    rcases hq with rfl | rfl
    · exact List.nodup_append.mpr ⟨hs.2.2.2.2.2.1, by simp, fun a ha b hb => by
        simp only [List.mem_singleton] at hb; subst hb; exact fun e => hn (e ▸ ha)⟩
    · exact List.nodup_cons.mpr ⟨hn, hs.2.2.2.2.2.1⟩
  obtain ⟨a, b, c⟩ := hs.1 k l hl
  have e : ({ s with queue := q }).setStatus k .queued = ({ s with queue := q } : State).putLot k
      { l with record := modifyStored (fun r => { r with queueStatus := some .queued }) l.record } := by
    show State.changeRecord _ k _ = _
    unfold State.changeRecord
    rw [show State.lotAt { s with queue := q } k = some l from hl]
  rw [e]
  have hk := slot_of_lotAt s k l hl
  obtain ⟨p1, p2, p3, p4, p5⟩ := collectionsSound_placed s hs k l hl
  refine collectionsSound_rewrite s _ k l _ hs hl (lotAt_putLot { s with queue := q } k _ hk) ⟨?_, b, ?_⟩ rfl
    (fun j hj => lotAt_putLot_ne { s with queue := q } k j _ hj) rfl (fun m hx => ?_) ?_ ?_
  · simp only [modifyStored, a]
  · exact c
  · refine ⟨fun _ => ⟨Iff.rfl, Iff.rfl⟩, ?_, Iff.rfl, fun _ => Iff.rfl⟩
    show m ∈ q ↔ _
    rw [hm]; simp [hx]
  · exact ⟨p1, p2, fun _ => ⟨hc, rfl⟩, p4, p5⟩
  · obtain ⟨-, -, -, -, z1, z2, z3, z4⟩ := hs
    refine ⟨z1, hnd, z3, ?_⟩
    show q.length + s.bench.length ≤ 64
    have : s.queue.length + s.bench.length < 64 := ho
    omega

theorem numberAt_sound (s : State) (k : Nat) (r : LotRecord) (hs : collectionsSound s) (hr : s.recordAt k = some r) :
    s.numberAt k = r.number := by
  obtain ⟨l, hl, rfl⟩ := (recordAt_eq s k r).mp hr
  exact numberAt_agrees s k l hl (hs.1 k l hl).1

theorem collectionsSound_giveRoom (s : State) (hs : collectionsSound s) : collectionsSound s.giveRoom := by
  unfold State.giveRoom
  split
  · rename_i ho
    split
    · rename_i w hw
      have hm : w ∈ s.waitingLots := List.mem_of_mem_head? hw
      obtain ⟨l, hl, hc, hq, -, -⟩ := mem_waitingLots s w hm
      have hr := recordAt_of_lotAt s w.slot l hl
      rw [numberAt_sound s _ _ hs hr]
      refine collectionsSound_enqueue s w.slot _ _ hs hr hc (fun hx => ?_) ho (.inl rfl)
      have := ((collectionsSound_placed s hs _ l hl).2.2.1 hx).2
      rw [hq] at this; cases this
    · exact hs
  · exact hs

theorem collectionsSound_giveRooms (n : Nat) (s : State) (hs : collectionsSound s) :
    collectionsSound (s.giveRooms n) := by
  induction n generalizing s with
  | zero => exact hs
  | succ n ih => exact ih _ (collectionsSound_giveRoom s hs)

theorem collectionsSound_admitLot (s : State) (k : Nat) (hs : collectionsSound s)
    (h : ∀ r, s.recordAt k = some r → r.state = .cured ∧ (r.holds ≠ 0 → r.number ∉ s.queue)) :
    collectionsSound (s.admitLot k) := by
  unfold State.admitLot
  split
  · exact hs
  · rename_i r hr
    obtain ⟨hc, hh⟩ := h r hr
    split
    · rename_i h0
      exact collectionsSound_setStatus s k _ hs fun q hq hx => by rw [hr] at hq; cases hq; exact absurd hx (hh h0)
    · split
      · exact hs
      · rename_i hq
        have hn : r.number ∉ s.queue := fun hx => by
          obtain ⟨l, hl, rfl⟩ := (recordAt_eq s k r).mp hr
          exact hq ((collectionsSound_placed s hs k l hl).2.2.1 hx).2
        split
        · rename_i ho
          exact collectionsSound_enqueue s k r _ hs hr hc hn ho (.inl rfl)
        · exact collectionsSound_setStatus s k _ hs fun q hq hx => by rw [hr] at hq; cases hq; exact absurd hx hn

theorem collectionsSound_parkHeld (s : State) (k : Nat) (hs : collectionsSound s) :
    collectionsSound (s.parkHeld k) := by
  unfold State.parkHeld
  split
  · exact hs
  · rename_i r hr
    split
    · refine collectionsSound_giveRoom _
        (collectionsSound_setStatus _ k _ (collectionsSound_leaveQueue s _ hs) fun q hq hx => ?_)
      have hq' : s.recordAt k = some q := hq
      rw [hr] at hq'; cases hq'
      rw [numberAt_sound s k r hs hr] at hx
      have hx' : r.number ∈ s.queue.filter (· != r.number) := hx
      simp at hx'
    · split
      · rename_i hc
        refine collectionsSound_setStatus s k _ hs fun q hq hx => ?_
        rw [hr] at hq; cases hq
        obtain ⟨l, hl, rfl⟩ := (recordAt_eq s k r).mp hr
        have := ((collectionsSound_placed s hs k l hl).2.2.1 hx).2
        rw [hc.2] at this; cases this
      · exact hs

theorem collectionsSound_addHold (s : State) (k : Nat) (h : Hold) (hs : collectionsSound s) :
    collectionsSound (s.addHold k h) := by
  unfold State.addHold
  split
  · exact hs
  · split
    · exact hs
    · exact collectionsSound_parkHeld _ k (collectionsSound_raise _ _ (collectionsSound_changeAlike s k _ hs
        fun r => ⟨rfl, rfl, rfl, rfl, rfl, rfl, rfl⟩))

theorem collectionsSound_addHoldTo (s : State) (n : Nat) (h : Hold) (hs : collectionsSound s) :
    collectionsSound (s.addHoldTo n h) := by
  unfold State.addHoldTo
  split
  · exact collectionsSound_addHold s _ h hs
  · exact hs

theorem collectionsSound_foldl {α : Type} (f : State → α → State) (h : ∀ s x, collectionsSound s →
    collectionsSound (f s x))
    (l : List α) (s : State) (hs : collectionsSound s) : collectionsSound (l.foldl f s) := by
  induction l generalizing s with
  | nil => exact hs
  | cons x l ih => exact ih _ (h s x hs)

theorem collectionsSound_judgePotLife (s : State) (hs : collectionsSound s) : collectionsSound s.judgePotLife :=
  collectionsSound_foldl _ (fun s _ h => collectionsSound_raise _ _ (collectionsSound_addHoldTo s _ _ h)) _ _
    (collectionsSound_congr s _ (fun _ => rfl) rfl rfl rfl rfl rfl hs)

theorem collectionsSound_sensorLane (s : State) (lane : List Nat) (hs : collectionsSound s) :
    collectionsSound (s.sensorLane lane) := by
  refine collectionsSound_foldl _ (fun s n h => ?_) lane s hs
  split
  · split
    · exact collectionsSound_addHoldTo s n _ h
    · exact h
  · exact h

/-! ### Slots -/

theorem collectionsSound_slots (s u : State) (hs : collectionsSound s) (h : ∀ k, u.lotAt k = s.lotAt k)
    (e : u = { s with slots := u.slots }) : collectionsSound u :=
  collectionsSound_congr s u h (by rw [e]) (by rw [e]) (by rw [e]) (by rw [e]) (by rw [e]) hs

theorem cleanLot_relocated (l : Lot) (h : cleanLot l) : cleanLot (relocated l) := ⟨rfl, rfl, h.2.2⟩

theorem collectionsSound_moveLot (s : State) (w f : Nat) (hs : collectionsSound s) (hf : s.lotAt f = none)
    (hk : f < Config.slotCount) : collectionsSound (s.moveLot w f) := by
  unfold State.moveLot
  split
  · rename_i l hl
    have hwf : w ≠ f := fun e => by subst e; rw [hf] at hl; cases hl
    have hw := slot_of_lotAt s w l hl
    have e : ∀ j, ((s.putLot f (relocated l)).emptySlot w).lotAt j = if j = w then none else if j =
      f then some (relocated l) else s.lotAt j := by
      intro j
      rw [State.emptySlot, lotAt_setSlot]
      by_cases hj : j = w
      · subst hj; rw [if_pos ⟨rfl, hw⟩, if_pos rfl]
      · rw [if_neg (fun x => hj x.1.symm), if_neg hj]
        by_cases hj2 : j = f
        · subst hj2; rw [if_pos rfl]; exact lotAt_putLot s j _ hk
        · rw [if_neg hj2]; exact lotAt_putLot_ne s f j _ hj2
    refine collectionsSound_move s _ w f l (relocated l) hs hl hf ?_ ?_
      (cleanLot_relocated l (hs.1 w l hl)) rfl ?_ rfl rfl rfl rfl rfl
    · rw [e, if_neg (fun x => hwf x.symm), if_pos rfl]
    · rw [e, if_pos rfl]
    · intro j h1 h2
      rw [e, if_neg h1, if_neg h2]
  · exact hs

theorem collectionsSound_offerSlot (s : State) (k : Nat) (hs : collectionsSound s) (hf : s.lotAt k = none)
    (hk : k < Config.slotCount) :
    collectionsSound (s.offerSlot k) := by
  unfold State.offerSlot
  split
  · exact hs
  · split
    · exact collectionsSound_moveLot s _ k hs hf hk
    · exact hs

theorem lowestFree_some (s : State) (f : Nat) (h : s.lowestFree = some f) :
    s.lotAt f = none ∧ f < Config.slotCount := by
  have h1 := ((findIdx_first freeHealthy { Slot.blank with worn := true } s.slots.toList rfl).2 f).mp h
  have h2 : f < Config.slotCount := by
    have := (List.findIdx?_eq_some_iff_findIdx_eq.mp h).1
    simpa using this
  refine ⟨?_, h2⟩
  have h3 := h1.1
  rw [List.getD_eq_getElem _ _ (by simpa using h2)] at h3
  unfold State.lotAt State.slot
  rw [List.getD_eq_getElem _ _ (by simpa using h2)]
  simp only [freeHealthy, Bool.and_eq_true, Option.isNone_iff_eq_none] at h3
  exact h3.1

theorem collectionsSound_relocate (s : State) (k : Nat) (hs : collectionsSound s) :
    collectionsSound (s.relocate k) := by
  unfold State.relocate
  split
  · exact hs
  · split
    · rename_i f hf
      obtain ⟨h1, h2⟩ := lowestFree_some s f hf
      exact collectionsSound_moveLot s k f hs h1 h2
    · refine collectionsSound_slots s _ hs (fun j => ?_) rfl
      rw [lotAt_setSlot]
      split
      · rename_i h; rw [← h.1]; rfl
      · rfl

theorem lotAt_emptySlot (s : State) (k j : Nat) : (s.emptySlot k).lotAt j = if k = j then none else s.lotAt j := by
  rw [State.emptySlot, lotAt_setSlot]
  by_cases h : k = j
  · subst h
    by_cases hk : k < Config.slotCount
    · rw [if_pos ⟨rfl, hk⟩, if_pos rfl]
    · rw [if_neg (fun x => hk x.2), if_pos rfl]
      unfold State.lotAt; rw [slot_beyond s k (by omega)]; rfl
  · rw [if_neg (fun x => h x.1), if_neg h]

/-- A lot that no collection names leaves its slot, which is disposed of. -/
theorem collectionsSound_freeSlot (s u : State) (k : Nat) (l : Lot) (hs : collectionsSound s) (hl : s.lotAt k = some l)
    (hu : u.slots = s.slots) (h2 : u.counter = s.counter) (hp : ∀ m, m ≠ l.record.held.number → samePlaces s u m)
    (hnn : ¬ named u l.record.held.number) (hz : sizesSound u) : collectionsSound (u.freeSlot k) := by
  have hk := slot_of_lotAt s k l hl
  have hlu : ∀ j, u.lotAt j = s.lotAt j := fun j => by unfold State.lotAt State.slot; rw [hu]
  refine collectionsSound_offerSlot (u.emptySlot k) k ?_ (by rw [lotAt_emptySlot, if_pos rfl]) hk
  refine collectionsSound_remove s (u.emptySlot k) k l hs hl (by rw [lotAt_emptySlot, if_pos rfl])
    (fun j hj => by rw [lotAt_emptySlot, if_neg (Ne.symm hj), hlu]) h2 (fun m hm => hp m hm) hnn hz

/-- A lot named nowhere by its state: neither in a lane or a reservation set nor queued, under test or bound. -/
theorem not_named (s : State) (hs : collectionsSound s) (k : Nat) (l : Lot) (hl : s.lotAt k = some l)
    (h1 : standsInLane l.record.held.state = false) (h2 : l.record.held.state ≠ .sealed)
      (h3 : l.record.held.state ≠ .cured)
    (h4 : l.record.held.state ≠ .testing) (h5 : l.record.held.state ≠ .mixing ∨ ∀ c b, s.channel c = some b →
      b.lot ≠ l.record.held.number) :
    ¬ named s l.record.held.number := by
  obtain ⟨p1, p2, p3, p4, p5⟩ := collectionsSound_placed s hs k l hl
  rintro (⟨c, h | h⟩ | h | h | ⟨c, b, h, g⟩)
  · have := (p1 c h).1; rw [h1] at this; cases this
  · exact h2 ((p2 c).mp h).1
  · exact h3 (p3 h).1
  · exact h4 (p4.mp h)
  · rcases h5 with h5 | h5
    · exact h5 (p5 c b h g).1
    · exact h5 c b h g

/-! ### Cells -/

theorem mem_leave (n m : Nat) (l : List Nat) (h : m ≠ n) : m ∈ l.filter (· != n) ↔ m ∈ l := by simp [h]

theorem cell_beyond (s : State) (c : Nat) (h : Config.cellCount ≤ c) : s.cell c = Cell.blank := by
  unfold State.cell
  rw [List.getD_eq_getElem?_getD, List.getElem?_eq_none (by simpa using h)]
  rfl

/-- A cell rewritten with the lane and the reservations it had. -/
theorem collectionsSound_setCell (s : State) (c : Nat) (x : Cell) (hs : collectionsSound s)
    (h1 : x.lane = (s.cell c).lane)
    (h2 : x.reservations = (s.cell c).reservations) : collectionsSound (s.setCell c x) := by
  have e : ∀ d, ((s.setCell c x).cell d).lane = (s.cell d).lane ∧ ((s.setCell c x).cell d).reservations =
    (s.cell d).reservations := by
    intro d
    rw [cell_setCell]
    split
    · rename_i h; rw [← h.1]; exact ⟨h1, h2⟩
    · exact ⟨rfl, rfl⟩
  obtain ⟨a, b, c', d, e1, e2⟩ := hs
  refine ⟨a, b, fun k r hr => ⟨(c' k r hr).1, ?_⟩, fun n hn => d n ?_, fun d => ?_, e2⟩
  · obtain ⟨p1, p2, p3, p4, p5⟩ := (c' k r hr).2
    exact ⟨fun d hd => p1 d ((e d).1 ▸ hd), fun d => by rw [(e d).2]; exact p2 d, p3, p4, p5⟩
  · rcases hn with ⟨y, hn⟩ | hn
    · rw [(e y).1, (e y).2] at hn; exact .inl ⟨y, hn⟩
    · exact .inr hn
  · rw [(e d).1, (e d).2]; exact e1 d

theorem collectionsSound_outageRule (s : State) (hs : collectionsSound s) : collectionsSound s.outageRule := by
  unfold State.outageRule
  dsimp only
  split
  · exact hs
  · refine collectionsSound_raise _ _ (collectionsSound_foldl _ (fun s c h => ?_) _ s hs)
    exact collectionsSound_sensorLane _ _ (collectionsSound_setCell s c _ h rfl rfl)

/-! ### Channels -/

theorem collectionsSound_orphanChannel (s : State) (c : Nat) (hs : collectionsSound s) :
    collectionsSound (s.orphanChannel c) := by
  unfold State.orphanChannel
  split
  · rename_i b hb
    have hch : ∀ d, (s.setChannel c none).channel d = if c = d ∧
      c < Config.channelCount then none else s.channel d := fun d => channel_setChannel s c d none
    have hc : c < Config.channelCount := by
      by_contra h
      unfold State.channel at hb
      rw [List.getD_eq_getElem?_getD, List.getElem?_eq_none (by simpa using h)] at hb
      cases hb
    -- the lot that the channel binds
    obtain ⟨k, r, hr, hn⟩ := hs.2.2.2.1 b.lot (.inr (.inr (.inr ⟨c, b, hb, rfl⟩)))
    obtain ⟨l, hl, rfl⟩ := (recordAt_eq s k r).mp hr
    obtain ⟨p1, p2, p3, p4, p5⟩ := collectionsSound_placed s hs k l hl
    have hcl := hs.1 k l hl
    have hslot : (s.setChannel c none).slotOf b.lot = some k := by
      rw [← hn]
      have := clean_found s hs.1 hs.2.1 k l hl
      show s.slotOf _ = _
      refine ((findIdx_first (holdsNumber _) Slot.blank s.slots.toList rfl).2 k).mpr ⟨?_, fun j hj => ?_⟩
      · show holdsNumber _ (s.slot k) = true
        have hx : (s.slot k).contents = some l := hl
        simp [holdsNumber, hx, lotNumber_agrees l hcl.1]
      · show holdsNumber _ (s.slot j) = false
        cases hm : (s.slot j).contents with
        | none => simp [holdsNumber, hm]
        | some m =>
          simp only [holdsNumber, hm, lotNumber_agrees m (hs.1 j m hm).1]
          rw [beq_eq_false_iff_ne]
          intro e
          have := hs.2.1 j k _ _ (recordAt_of_lotAt s j m hm) (recordAt_of_lotAt s k l hl) (Option.some.inj e)
          omega
    unfold State.clearChannelField
    rw [hslot]
    dsimp only
    have e : (s.setChannel c none).changeRecord k (fun r => { r with channel := none }) = (s.setChannel c none).putLot k
        { l with record := modifyStored (fun r => { r with channel := none }) l.record } := by
      unfold State.changeRecord
      rw [show State.lotAt (s.setChannel c none) k = some l from hl]
    rw [e]
    have hk := slot_of_lotAt s k l hl
    refine collectionsSound_rewrite s _ k l _ hs hl (lotAt_putLot (s.setChannel c none) k _ hk) ⟨?_, hcl.2.1,
      hcl.2.2⟩ rfl
      (fun j hj => lotAt_putLot_ne (s.setChannel c none) k j _ hj) rfl (fun m hx => ?_) ?_
        (sizesSound_of_eq s _ rfl rfl rfl hs.2.2.2.2)
    · simp only [modifyStored, hcl.1]
    · refine ⟨fun _ => ⟨Iff.rfl, Iff.rfl⟩, Iff.rfl, Iff.rfl, fun d => ?_⟩
      show (∃ b', (s.setChannel c none).channel d = some b' ∧ _) ↔ _
      rw [hch]
      split
      · rename_i hd
        rw [← hd.1]
        constructor
        · rintro ⟨_, h, -⟩; cases h
        · rintro ⟨y, h, g⟩
          rw [hb] at h; cases h
          exact absurd (g.symm.trans hn.symm) hx
      · exact Iff.rfl
    · refine ⟨p1, p2, p3, p4, fun d y hd hy => ?_⟩
      have hd' : (s.setChannel c none).channel d = some y := hd
      rw [hch] at hd'
      split at hd'
      · cases hd'
      · rename_i hne
        have h1 := (p5 d y hd' hy).2
        have h2 := (p5 c b hb hn.symm).2
        rw [h2] at h1
        exact absurd ⟨(Option.some.inj h1), hc⟩ hne
  · exact hs

theorem collectionsSound_orphanChannels (s : State) (cs : List Nat) (hs : collectionsSound s) :
    collectionsSound (s.orphanChannels cs) := by
  unfold State.orphanChannels
  split
  · exact hs
  · exact collectionsSound_raise _ _ (collectionsSound_foldl _ collectionsSound_orphanChannel _ s hs)

end Sys2Proof.Machine
end

