-- ==== Sys2Proof/Laws/Starts.lean ====
section
/-! SUPPORT. What the starts and the outage rule do (R90, R182 to R185). -/

namespace Sys2Proof.Machine

theorem potLife_judgePotLife (s : State) :
    s.judgePotLife.potLife = s.potLife.dropWhile fun e => decide (e.deadline ≤ s.clock) := by
  obtain ⟨a, b, c, h⟩ := judgePotLife_frame s
  rw [h]

theorem foldl_slots_frame (f : State → Nat → State) (hf : ∀ s k, ∃ a, f s k = { s with slots := a }) (l : List Nat)
    (s : State) :
    ∃ a, l.foldl f s = { s with slots := a } := by
  induction l generalizing s with
  | nil => exact ⟨s.slots, rfl⟩
  | cons x l ih =>
    obtain ⟨a, h⟩ := hf s x
    obtain ⟨b, g⟩ := ih (f s x)
    exact ⟨b, by rw [List.foldl_cons, g, h]⟩

/-- A raised notice leaves RESTART pending (R176). -/
theorem restart_raise (s : State) (k : Notice) (p : PortName)
    (h : hasNotice (s.port p).notices .restart = true) : hasNotice ((s.raise k).port p).notices .restart = true := by
  have : (s.raise k).port p = receive k (s.port p) := by cases p <;> rfl
  rw [this]
  unfold receive
  split
  · simp only [hasNotice, withNotice] at h ⊢
    rw [BitVec.getLsbD_or, h]; rfl
  · exact h

/-- The health table at a warm start (R161). -/
theorem startAudit_facts (s : State) : portsKept s s.startAudit ∧
    (∀ p, hasNotice (s.port p).notices .restart = true → hasNotice (s.startAudit.port p).notices .restart = true) ∧
    ∃ a c, s.startAudit = { s with slots := a, ports := c } := by
  unfold State.startAudit
  dsimp only
  split
  · exact ⟨fun _ => rfl, fun _ h => h, _, _, rfl⟩
  · obtain ⟨a, h⟩ := foldl_slots_frame State.relocate relocate_frame s.failedHealth
      (State.raise { s with slots := mapVector startHealth s.slots } .worn)
    rw [h]
    refine ⟨portsKept_trans _ _ _ (portsKept_raise s .worn) (portsKept_of_eq _ _ rfl), fun p hp => ?_, _, _, rfl⟩
    exact restart_raise s .worn p hp

/-- The channels at a warm start (R51). -/
theorem startChannels_facts (s : State) : portsKept s s.startChannels ∧
    (∀ p, hasNotice (s.port p).notices .restart = true → hasNotice (s.startChannels.port p).notices .restart = true) ∧
    (∀ c, s.startChannels.channel c = none) ∧
    ∃ a b c, s.startChannels = { s with slots := a, channels := b, ports := c } := by
  refine ⟨?_, ?_, ?_, orphanChannels_frame _ _⟩
  · unfold State.startChannels State.orphanChannels
    split
    · exact fun _ => rfl
    · obtain ⟨x, y, g⟩ := foldl_orphanChannel_frame (s.channelsWhere fun _ _ => true) s
      rw [g]
      exact portsKept_trans _ _ _ (portsKept_of_eq s { s with slots := x, channels := y } rfl) (portsKept_raise _ _)
  · unfold State.startChannels State.orphanChannels
    split
    · exact fun _ h => h
    · obtain ⟨x, y, g⟩ := foldl_orphanChannel_frame (s.channelsWhere fun _ _ => true) s
      rw [g]
      exact fun p hp => restart_raise { s with slots := x, channels := y } .orphan p hp
  · intro c
    unfold State.startChannels
    rw [channel_orphans]
    split
    · rfl
    · rename_i h
      cases hc : s.channel c with
      | none => rfl
      | some b => exact absurd ((mem_channelsWhere s _ c).mpr ⟨b, hc, rfl⟩) h

/-- What a warm start does, but for its cause (R183). -/
theorem warmStart_facts (s : State) :
    s.warmStart.mode = .pause ∧ (∀ c, s.warmStart.channel c = none) ∧
      (∀ p, (s.warmStart.port p).present = true ∧ (s.warmStart.port p).request = .ready ∧
        (s.warmStart.port p).answer = none ∧
        (s.warmStart.port p).idleTimer = none ∧ hasNotice (s.warmStart.port p).notices .restart = true) ∧
    s.warmStart = { s with
        slots := s.warmStart.slots, channels := s.warmStart.channels, ports := s.warmStart.ports
        recipes := s.warmStart.recipes, bank := s.warmStart.bank
        bankStored := s.warmStart.bankStored, bankCheckGood := true, bankWrites := [], commit := none, scan := none
        cyclePosition := 0, setup := cutSetup s.setup, mode := .pause } := by
  let u := s.cutOff.startStores false
  obtain ⟨k1, n1, c1, a, b, c, f1⟩ := startChannels_facts u
  obtain ⟨k2, n2, d, e, f2⟩ := startAudit_facts u.startChannels
  have hw : s.warmStart = { u.startChannels.startAudit with mode := .pause } := rfl
  refine ⟨rfl, fun x => ?_, fun p => ?_, ?_⟩
  · have : s.warmStart.channel x = u.startChannels.channel x := by
      rw [hw, f2]; rfl
    rw [this, c1]
  · have hk : { s.warmStart.port p with notices := (u.port p).notices } = u.port p := portsKept_trans _ _ _ k1 k2 p
    have hu : (u.port p).present = true ∧ (u.port p).request = .ready ∧ (u.port p).answer = none ∧
        (u.port p).idleTimer = none ∧ hasNotice (u.port p).notices .restart = true := by
      have hd : hasNotice restartOnly .restart = true := by decide
      cases p <;> exact ⟨rfl, rfl, rfl, rfl, hd⟩
    refine ⟨?_, ?_, ?_, ?_, ?_⟩
    · exact (congrArg Port.present hk).trans hu.1
    · exact (congrArg Port.request hk).trans hu.2.1
    · exact (congrArg Port.answer hk).trans hu.2.2.1
    · exact (congrArg Port.idleTimer hk).trans hu.2.2.2.1
    · exact n2 p (n1 p hu.2.2.2.2)
  · rw [hw, f2, f1]
    have hcc : ∃ z, s.cutCommit = { s with recipes := z, commit := none } := by
      unfold State.cutCommit
      split
      · exact ⟨_, rfl⟩
      · rename_i h; exact ⟨s.recipes, by rw [← h]⟩
    obtain ⟨z, hz⟩ := hcc
    simp only [u, State.startStores, State.cutOff, hz]

theorem sensorLane_frame (s : State) (l : List Nat) :
    ∃ a b c, s.sensorLane l = { s with slots := a, queue := b, ports := c } := by
  unfold State.sensorLane
  induction l generalizing s with
  | nil => exact ⟨_, _, _, rfl⟩
  | cons n l ih =>
    rw [List.foldl_cons]
    have key : ∀ (v : State), (∃ a b c, v = { s with slots := a, queue := b, ports := c }) →
        ∃ a b c, List.foldl (fun s n => match s.recordOf n with
          | some r => if r.state = LotState.curing then s.addHoldTo n Hold.sensor else s
          | none => s) v l = { s with slots := a, queue := b, ports := c } := by
      rintro v ⟨a, b, c, rfl⟩
      obtain ⟨x, y, z, g⟩ := ih { s with slots := a, queue := b, ports := c }
      exact ⟨x, y, z, g⟩
    apply key
    split
    · split
      · exact addHoldTo_frame s n .sensor
      · exact ⟨_, _, _, rfl⟩
    · exact ⟨_, _, _, rfl⟩

theorem outageCell_frame (s : State) (c : Nat) :
    ∃ x y z, s.outageCell c = { s with
      slots := x, queue := y, ports := z
      cells := s.cells.setIfInBounds c { s.cell c with faulty := true, misses := 5 } } := by
  unfold State.outageCell
  obtain ⟨x, y, z, h⟩ := sensorLane_frame (s.setCell c { s.cell c with faulty := true, misses := 5 }) (s.cell c).lane
  exact ⟨x, y, z, by rw [h]; rfl⟩

theorem outageCell_foldl (l : List Nat) (hl : ∀ c ∈ l, c < Config.cellCount) (s : State) :
    (∀ d, (l.foldl State.outageCell s).cell d =
      if d ∈ l then { s.cell d with faulty := true, misses := 5 } else s.cell d) ∧
    ∃ x y z w, l.foldl State.outageCell s = { s with slots := x, queue := y, ports := z, cells := w } := by
  induction l generalizing s with
  | nil => exact ⟨fun d => by simp, _, _, _, _, rfl⟩
  | cons c l ih =>
    rw [List.foldl_cons]
    obtain ⟨x, y, z, h⟩ := outageCell_frame s c
    obtain ⟨i1, x2, y2, z2, w2, i2⟩ := ih (fun d hd => hl d (by simp [hd])) (s.outageCell c)
    have hc : ∀ d, (s.outageCell c).cell d = if d = c then { s.cell d with faulty := true, misses := 5 } else s.cell d := by
      intro d
      rw [h]
      show (s.setCell c { s.cell c with faulty := true, misses := 5 }).cell d = _
      rw [cell_setCell]
      by_cases hd : d = c
      · subst hd; rw [if_pos ⟨rfl, hl d (by simp)⟩]; simp
      · rw [if_neg (by simp [Ne.symm hd])]; simp [hd]
    refine ⟨fun d => ?_, x2, y2, z2, w2, by rw [i2, h]⟩
    rw [i1, hc]
    by_cases h1 : d ∈ l <;> by_cases h2 : d = c <;> simp [h1, h2]

/-- What the outage rule does (R90). -/
theorem outageRule_facts (s : State) :
    (∀ c, c ≤ 95 → s.outageRule.cell c =
      if (s.cell c).lastStamp + 5 < s.clock then { s.cell c with faulty := true, misses := 5 } else s.cell c) ∧
    ∃ x y z w, s.outageRule = { s with slots := x, queue := y, ports := z, cells := w } := by
  unfold State.outageRule
  dsimp only
  have hm : ∀ c, c ∈ (List.range Config.cellCount).filter s.outageReaches ↔
      c < Config.cellCount ∧ (s.cell c).lastStamp + 5 < s.clock := by
    intro c
    simp [State.outageReaches]
  split
  · rename_i h0
    refine ⟨fun c hc => ?_, _, _, _, _, rfl⟩
    have : ¬ ((s.cell c).lastStamp + 5 < s.clock) := fun hlt => by
      have := (hm c).mpr ⟨by show c < 96; omega, hlt⟩
      rw [h0] at this; cases this
    rw [if_neg this]
  · obtain ⟨g1, x, y, z, w, g2⟩ := outageCell_foldl ((List.range Config.cellCount).filter s.outageReaches)
      (fun c hc => ((hm c).mp hc).1) s
    refine ⟨fun c hc => ?_, ?_⟩
    · refine (g1 c).trans ?_
      by_cases h : (s.cell c).lastStamp + 5 < s.clock
      · rw [if_pos h, if_pos ((hm c).mpr ⟨by show c < 96; omega, h⟩)]
      · rw [if_neg h, if_neg (fun h' => h ((hm c).mp h').2)]
    · rw [g2]; exact ⟨_, _, _, _, rfl⟩

/-- What a cold start does (R185). -/
theorem coldBegin_facts (s : State) : registerEmpty s.coldBegin ∧
      (∀ k, k ≤ 511 → (s.coldBegin.slot k).contents = none ∧ (s.coldBegin.slot k).reported = false ∧
        (s.coldBegin.slot k).waiting = false ∧
        ((s.slot k).checkGood = true → (s.coldBegin.slot k).tally = (s.slot k).tally ∧ (s.coldBegin.slot k).worn = (s.slot k).worn) ∧
        ((s.slot k).checkGood = false → (s.coldBegin.slot k).tally = 4 ∧ (s.coldBegin.slot k).worn = true)) ∧
      (∀ c, c ≤ 95 → s.coldBegin.cell c = Cell.blank) ∧ (∀ c, s.coldBegin.channel c = none) ∧
      (∀ p, (s.coldBegin.port p).mask.kinds = defaultMask (s.coldBegin.port p).role ∧ (s.coldBegin.port p).present = true) ∧
      (∀ r, (s.recipe r).checkGood = true → s.commit = none → s.coldBegin.recipe r = s.recipe r) ∧
      s.coldBegin = { s with
        slots := s.coldBegin.slots, counter := ⟨1, false⟩, account := ⟨0, 0, 0, 0, 0, 0, 0, 0, true⟩,
        channels := s.coldBegin.channels, potLife := [], cells := s.coldBegin.cells, scan := none, queue := [], bench := []
        recipes := s.coldBegin.recipes, bank := s.coldBegin.bank
        bankStored := s.coldBegin.bankStored, bankCheckGood := true, bankWrites := [], commit := none, cyclePosition := 0
        losses := [], ports := s.coldBegin.ports, setup := s.coldBegin.setup, mode := .service, clock := 0
        phase := .starting .cold, signature := false } := by
  let t : State := { s.cutOff.startStores true with
    slots := mapVector coldSlot s.slots
    counter := { next := 1, exhausted := false }
    account := Account.blank
    channels := Vector.replicate Config.channelCount none
    potLife := []
    cells := Vector.replicate Config.cellCount Cell.blank
    queue := []
    bench := []
    losses := []
    mode := .service
    clock := 0
    phase := .starting .cold
    signature := false }
  have hcc : ∃ z, s.cutCommit = { s with recipes := z, commit := none } ∧ (s.commit = none → z = s.recipes) := by
    unfold State.cutCommit
    split
    · rename_i c h; exact ⟨_, rfl, fun h' => by rw [h] at h'; cases h'⟩
    · rename_i h; exact ⟨s.recipes, by rw [← h], fun _ => rfl⟩
  obtain ⟨z, hz, hz2⟩ := hcc
  have ht : s.coldBegin = if s.failedHealth = [] then t else t.raise .worn := rfl
  have hf : ∃ P, s.coldBegin = { t with ports := P } ∧ (∀ p, { P.get p with notices := (t.port p).notices } = t.port p) := by
    rw [ht]
    split
    · exact ⟨t.ports, rfl, fun _ => rfl⟩
    · exact ⟨_, rfl, fun p => portsKept_raise t .worn p⟩
  obtain ⟨P, hP, hPk⟩ := hf
  have hslot : ∀ k, k < Config.slotCount → s.coldBegin.slot k = coldSlot (s.slot k) := by
    intro k hk
    exact slot_mapVector s coldSlot _ (by rw [hP]) k hk
  refine ⟨⟨?_, by rw [hP]⟩, fun k hk => ?_, fun c hc => ?_, fun c => ?_, fun p => ?_, fun r h1 h2 => ?_, ?_⟩
  · refine occupied_none _ fun k => ?_
    by_cases hk : k < Config.slotCount
    · rw [hslot k hk]; rfl
    · rw [slot_beyond _ _ (by omega)]; rfl
  · rw [hslot k (by show k < 512; omega)]
    refine ⟨rfl, rfl, rfl, fun h => ?_, fun h => ?_⟩
    · simp [coldSlot, startHealth, h]
    · simp [coldSlot, startHealth, h, Config.wearTally]
  · rw [hP]
    simp only [State.cell, t, Vector.toList_replicate]
    rw [List.getD_eq_getElem?_getD, List.getElem?_replicate]; split <;> rfl
  · rw [hP]
    simp only [State.channel, t, Vector.toList_replicate]
    rw [List.getD_eq_getElem?_getD, List.getElem?_replicate]; split <;> rfl
  · have hk := hPk p
    have hp : s.coldBegin.port p = P.get p := by rw [hP]; rfl
    have e1 : (P.get p).mask = (t.port p).mask := by rw [← hk]
    have e2 : (P.get p).role = (t.port p).role := by rw [← hk]
    have e3 : (P.get p).present = (t.port p).present := by rw [← hk]
    rw [hp, e1, e2, e3]
    cases p <;> exact ⟨rfl, rfl⟩
  · have : s.coldBegin.recipes = mapVector startRecipe s.recipes := by
      rw [hP]; simp only [t, State.startStores, State.cutOff, hz, hz2 h2]
    unfold State.recipe at h1 ⊢
    rw [this, mapVector_toList]
    rw [List.getD_eq_getElem?_getD] at h1 ⊢
    rw [List.getElem?_map]
    rw [List.getD_eq_getElem?_getD]
    cases hx : s.recipes.toList[8 * r.bank + r.number]? with
    | none => rfl
    | some x =>
      rw [hx] at h1
      have h1' : x.checkGood = true := h1
      show startRecipe x = x
      simp [startRecipe, h1']
  · rw [hP]; simp only [t, State.startStores, State.cutOff, hz]; rfl

end Sys2Proof.Machine
end

