-- ==== Sys2Proof/Laws/Outages.lean ====
section
/-! SUPPORT. What the fifth miss and the outage rule do to the lots of a lane, and what a start does to the slots and the
nonvolatile stores. -/

namespace Sys2Proof.Machine

/-! ### SENSOR over a lane (R87, R90) -/

/-- A hold added to a lot that is not CURED: its hold set alone changes (R5). -/
theorem addHold_curing (s : State) (k : Nat) (h : Hold) (r : LotRecord) (hr : s.recordAt k = some r)
    (hc : r.state = .curing) : s.addHold k h = if hasHold r.holds h then s else
      (s.changeRecord k fun r => { r with holds := withHold r.holds h }).raise .hold := by
  unfold State.addHold
  rw [hr]
  dsimp only
  split
  · rfl
  · unfold State.parkHeld
    have : ((s.changeRecord k fun r => { r with holds := withHold r.holds h }).raise .hold).recordAt k =
        some { r with holds := withHold r.holds h } := by
      have := recordAt_changeRecord s k fun r => { r with holds := withHold r.holds h }
      rw [hr] at this
      exact this
    rw [this]
    simp [hc]

/-- One lot of a lane gains SENSOR while it is CURING. -/
def sensorOne (s : State) (n : Nat) : State :=
  match s.recordOf n with
  | some r => if r.state = .curing then s.addHoldTo n .sensor else s
  | none => s

theorem sensorLane_eq (s : State) (l : List Nat) : s.sensorLane l = l.foldl sensorOne s := rfl

/-- What SENSOR for one lot of a lane can do. -/
theorem sensorOne_eq (s : State) (n : Nat) : sensorOne s n = s ∨ ∃ k r, s.slotOf n = some k ∧ s.recordAt k = some r ∧
    r.state = .curing ∧ sensorOne s n =
      (s.changeRecord k fun r => { r with holds := withHold r.holds .sensor }).raise .hold := by
  unfold sensorOne State.recordOf State.addHoldTo
  cases hk : s.slotOf n with
  | none => exact .inl rfl
  | some k =>
    dsimp only
    cases hr : s.recordAt k with
    | none => exact .inl rfl
    | some r =>
      dsimp only
      by_cases hc : r.state = .curing
      · rw [if_pos hc, addHold_curing s k .sensor r hr hc]
        split
        · exact .inl rfl
        · exact .inr ⟨k, r, rfl, hr, hc, rfl⟩
      · rw [if_neg hc]
        exact .inl rfl

theorem sensorOne_frame (s : State) (n : Nat) : ∃ a c, sensorOne s n = { s with slots := a, ports := c } := by
  rcases sensorOne_eq s n with h | ⟨k, r, -, -, -, h⟩
  · exact ⟨s.slots, s.ports, h⟩
  · obtain ⟨a, g⟩ := changeRecord_frame s k fun r => { r with holds := withHold r.holds .sensor }
    exact ⟨a, _, by rw [h, g]; rfl⟩

/-- SENSOR over a lane changes slots and pending notice sets alone. -/
theorem sensorLane_quiet (l : List Nat) (s : State) : ∃ a c, s.sensorLane l = { s with slots := a, ports := c } := by
  rw [sensorLane_eq]
  induction l generalizing s with
  | nil => exact ⟨s.slots, s.ports, rfl⟩
  | cons n l ih =>
    obtain ⟨a, c, h⟩ := sensorOne_frame s n
    obtain ⟨b, d, g⟩ := ih (sensorOne s n)
    exact ⟨b, d, by rw [List.foldl_cons, g, h]⟩

/-- SENSOR over a lane changes the ports in their pending notice sets alone. -/
theorem portsKept_sensorLane (l : List Nat) (s : State) : portsKept s (s.sensorLane l) := by
  rw [sensorLane_eq]
  induction l generalizing s with
  | nil => exact portsKept_refl s
  | cons n l ih =>
    refine portsKept_trans _ _ _ ?_ (ih _)
    rcases sensorOne_eq s n with h | ⟨k, r, -, -, -, h⟩ <;> rw [h]
    · exact portsKept_refl s
    · obtain ⟨a, g⟩ := changeRecord_frame s k fun r => { r with holds := withHold r.holds .sensor }
      rw [g]
      exact portsKept_trans _ { s with slots := a } _ (portsKept_of_eq _ _ rfl) (portsKept_raise _ _)

/-- A lot's record changed in its own slot stays clean there. -/
theorem liveLot_recordNow (s : State) (n k : Nat) (r q : LotRecord) (h : liveLot s n k r) (he : entryOf q = entryOf r) :
    liveLot (recordNow s k q) n k q := by
  have hn : q.number = r.number := congrArg IndexEntry.number he
  obtain ⟨h1, h2, hk, l, hl, ⟨c1, c2, c3⟩, hr⟩ := h
  refine ⟨h1, h2, ?_, _, lotAt_recordNow s k l q hl, ⟨rfl, c2, ?_⟩, rfl⟩
  · have e : recordNow s k q = s.putLot k { l with record := fresh q } := by
      simp [recordNow, State.putLot, slot_lotAt s k l hl]
    rw [e, slotOf_putLot s k l _ hl ?_ n]
    · exact hk
    · rw [lotNumber_agrees _ (show ({ l with record := fresh q } : Lot).record.code = .agrees from rfl),
        lotNumber_agrees l c1, hr]
      exact congrArg some hn
  · show l.entry.held = entryOf q
    rw [he, c3, hr]

/-- A record changed in another slot, its number kept, leaves a clean lot as it is. -/
theorem liveLot_changeRecord_ne (s : State) (n k j : Nat) (r : LotRecord) (f : LotRecord → LotRecord)
    (hf : ∀ r, (f r).number = r.number) (hj : k ≠ j) (h : liveLot s n k r) : liveLot (s.changeRecord j f) n k r := by
  obtain ⟨h1, h2, hk, l, hl, hc, hr⟩ := h
  refine ⟨h1, h2, by rw [slotOf_changeRecord s j n f hf]; exact hk, l, ?_, hc, hr⟩
  rw [State.lotAt, slot_changeRecord_ne s j k f hj]
  exact hl

/-- SENSOR over a lane, seen from one clean CURING lot. -/
theorem sensorLane_curing (l : List Nat) (s : State) (n k : Nat) (r : LotRecord) (h : liveLot s n k r)
    (hc : r.state = .curing) :
    liveLot (s.sensorLane l) n k { r with holds := if n ∈ l then withHold r.holds .sensor else r.holds } := by
  rw [sensorLane_eq]
  induction l generalizing s r with
  | nil => exact h
  | cons m l ih =>
    rw [List.foldl_cons]
    have one : liveLot (sensorOne s m) n k { r with holds := if m = n then withHold r.holds .sensor else r.holds } := by
      by_cases hm : m = n
      · subst hm
        rw [if_pos rfl]
        have hr := liveLot_recordAt s m k r h
        have e : sensorOne s m = s.addHold k .sensor := by
          unfold sensorOne State.addHoldTo
          rw [liveLot_recordOf s m k r h]
          dsimp only
          rw [if_pos hc]
          obtain ⟨-, -, hk, -⟩ := h
          rw [hk]
        rw [e, addHold_curing s k .sensor r hr hc]
        split
        · rename_i hh
          rw [withHold_of_hasHold _ _ hh]
          exact h
        · have := liveLot_recordNow s m k r { r with holds := withHold r.holds .sensor } h rfl
          rw [← changeRecord_clean s m k r (fun r => { r with holds := withHold r.holds .sensor }) h] at this
          exact this
      · rw [if_neg hm]
        rcases sensorOne_eq s m with e | ⟨j, q, hj, -, -, e⟩
        · rw [e]
          exact h
        · have hne : k ≠ j := by
            rintro rfl
            have e1 := ((findIdx_first (holdsNumber m) Slot.blank s.slots.toList rfl).2 k).mp hj
            have e2 := ((findIdx_first (holdsNumber n) Slot.blank s.slots.toList rfl).2 k).mp h.2.2.1
            have e1' : holdsNumber m (s.slot k) = true := e1.1
            have e2' : holdsNumber n (s.slot k) = true := e2.1
            obtain ⟨-, -, -, l', hl', -⟩ := h
            have hcn : (s.slot k).contents = some l' := hl'
            simp only [holdsNumber, hcn, beq_iff_eq] at e1' e2'
            rw [e1'] at e2'
            exact hm (Option.some.inj e2')
          rw [e]
          exact liveLot_changeRecord_ne s n k j r (fun r => { r with holds := withHold r.holds .sensor }) (fun _ => rfl) hne h
    have := ih (sensorOne s m) _ one hc
    have eh : (if n ∈ m :: l then withHold r.holds .sensor else r.holds) = (if n ∈ l then
        withHold (if m = n then withHold r.holds .sensor else r.holds) .sensor
        else (if m = n then withHold r.holds .sensor else r.holds)) := by
      have ww : withHold (withHold r.holds .sensor) .sensor = withHold r.holds .sensor := by
        simp [withHold, BitVec.or_assoc]
      have e : (m = n) = (n = m) := propext eq_comm
      simp only [List.mem_cons, e]
      by_cases h1 : n = m <;> by_cases h2 : n ∈ l <;> simp [h1, h2, ww]
    rw [eh]
    exact this

/-! ### The outage rule (R90) -/

theorem outageCell_quiet (s : State) (c : Nat) : ∃ a p, s.outageCell c = { s with
    slots := a, ports := p, cells := s.cells.setIfInBounds c { s.cell c with faulty := true, misses := 5 } } := by
  obtain ⟨a, p, h⟩ := sensorLane_quiet (s.cell c).lane (s.setCell c { s.cell c with faulty := true, misses := 5 })
  exact ⟨a, p, by rw [State.outageCell]; exact h⟩

theorem lane_outageCell (s : State) (c d : Nat) : ((s.outageCell c).cell d).lane = (s.cell d).lane := by
  obtain ⟨a, p, h⟩ := outageCell_quiet s c
  rw [h]
  show ((s.setCell c { s.cell c with faulty := true, misses := 5 }).cell d).lane = _
  rw [cell_setCell]
  split
  · rename_i e
    rw [← e.1]
  · rfl

/-- The outage rule over cells, seen from one clean CURING lot. -/
theorem outageCells_curing (cs : List Nat) (s : State) (n k : Nat) (r : LotRecord) (h : liveLot s n k r)
    (hc : r.state = .curing) :
    ∃ x, liveLot (cs.foldl State.outageCell s) n k { r with holds := x } ∧
      (x = r.holds ∨ x = withHold r.holds .sensor) ∧
      ((∃ c ∈ cs, n ∈ (s.cell c).lane) → x = withHold r.holds .sensor) := by
  have ww : withHold (withHold r.holds .sensor) .sensor = withHold r.holds .sensor := by
    simp [withHold, BitVec.or_assoc]
  suffices H : ∀ (cs : List Nat) (s : State) (y : HoldSet), liveLot s n k { r with holds := y } →
      (y = r.holds ∨ y = withHold r.holds .sensor) →
      ∃ x, liveLot (cs.foldl State.outageCell s) n k { r with holds := x } ∧
        (x = r.holds ∨ x = withHold r.holds .sensor) ∧ (y = withHold r.holds .sensor → x = withHold r.holds .sensor) ∧
        ((∃ c ∈ cs, n ∈ (s.cell c).lane) → x = withHold r.holds .sensor) by
    obtain ⟨x, h1, h2, -, h4⟩ := H cs s r.holds h (.inl rfl)
    exact ⟨x, h1, h2, h4⟩
  intro cs
  induction cs with
  | nil => exact fun s y hy he => ⟨y, hy, he, id, fun ⟨_, hm, _⟩ => absurd hm List.not_mem_nil⟩
  | cons c cs ih =>
    intro s y hy he
    let z := if n ∈ (s.cell c).lane then withHold y .sensor else y
    have one : liveLot (s.outageCell c) n k { r with holds := z } := by
      have h1 : liveLot (s.setCell c { s.cell c with faulty := true, misses := 5 }) n k { r with holds := y } := hy
      exact sensorLane_curing (s.cell c).lane _ n k _ h1 hc
    have hz : z = r.holds ∨ z = withHold r.holds .sensor := by
      simp only [z]
      split
      · rcases he with rfl | rfl
        · exact .inr rfl
        · exact .inr ww
      · exact he
    obtain ⟨x, h1, h2, h3, h4⟩ := ih (s.outageCell c) z one hz
    refine ⟨x, h1, h2, fun e => h3 ?_, fun ⟨d, hd, hm⟩ => ?_⟩
    · simp only [z, e]
      split
      · exact ww
      · rfl
    · rcases List.mem_cons.mp hd with rfl | hd
      · refine h3 ?_
        simp only [z, if_pos hm]
        rcases he with rfl | rfl
        · rfl
        · exact ww
      · exact h4 ⟨d, hd, by rw [lane_outageCell]; exact hm⟩

theorem foldl_outageCell_quiet (cs : List Nat) (s : State) :
    ∃ a b c, cs.foldl State.outageCell s = { s with slots := a, cells := b, ports := c } := by
  induction cs generalizing s with
  | nil => exact ⟨s.slots, s.cells, s.ports, rfl⟩
  | cons c cs ih =>
    obtain ⟨a, p, h⟩ := outageCell_quiet s c
    obtain ⟨a', b', p', g⟩ := ih (s.outageCell c)
    exact ⟨a', b', p', by rw [List.foldl_cons, g, h]⟩

/-- The outage rule changes the ports in their pending notice sets alone (R90). -/
theorem portsKept_outageRule (s : State) : portsKept s s.outageRule := by
  have fold : ∀ (cs : List Nat) (s : State), portsKept s (cs.foldl State.outageCell s) := by
    intro cs
    induction cs with
    | nil => exact portsKept_refl
    | cons c cs ih =>
      exact fun s => portsKept_trans _ _ _ (portsKept_sensorLane (s.cell c).lane (s.setCell c _)) (ih _)
  unfold State.outageRule
  dsimp only
  split
  · exact portsKept_refl s
  · exact portsKept_trans _ _ _ (fold _ s) (portsKept_raise _ _)

/-! ### The notices of SENSOR and of the outage rule (R5, R87, R90, R176) -/

/-- A lot of the number, CURING by its record as it stands, does not hold SENSOR. -/
def gainsSensor (s : State) (n : Nat) : Bool :=
  ((s.recordOf n).map fun r => decide (r.state = .curing) && !hasHold r.holds .sensor).getD false

/-- A slot stands for one number. -/
theorem slotOf_inj (s : State) (m n k : Nat) (h1 : s.slotOf m = some k) (h2 : s.slotOf n = some k) : m = n := by
  have first : ∀ n, s.slotOf n = some k → holdsNumber n (s.slot k) = true := fun n h =>
    (((findIdx_first (holdsNumber n) Slot.blank s.slots.toList rfl).2 k).mp h).1
  have a := first m h1
  have b := first n h2
  unfold holdsNumber at a b
  cases hc : (s.slot k).contents with
  | none => rw [hc] at a; cases a
  | some l =>
    rw [hc] at a b
    simp only [beq_iff_eq] at a b
    rw [a] at b
    exact Option.some.inj b

theorem gainsSensor_congr (s u : State) (h : u.slots = s.slots) (n : Nat) : gainsSensor u n = gainsSensor s n := by
  unfold gainsSensor State.recordOf State.slotOf State.recordAt State.lotAt State.slot
  rw [h]

/-- What a raised kind does to a port's pending set. -/
theorem notices_tellKind (k : Notice) (b : Bool) (x : Ports) (p : PortName) :
    ((tellKind k b x).get p).notices = heard (x.get p).mask.kinds k b (x.get p).notices ∧
      ((tellKind k b x).get p).mask = (x.get p).mask := by
  cases b with
  | false => exact ⟨rfl, rfl⟩
  | true =>
    have : (tellKind k true x).get p = receive k (x.get p) := by cases p <;> rfl
    rw [this]
    unfold heard receive
    rw [Bool.true_and]
    split <;> exact ⟨rfl, rfl⟩

/-- SENSOR for one entry of a lane: HOLD is raised where the lot gains it, and then no longer. -/
theorem sensorOne_gains (s : State) (n : Nat) :
    (sensorOne s n).ports = tellKind .hold (gainsSensor s n) s.ports ∧
      ∀ m, gainsSensor (sensorOne s n) m = (gainsSensor s m && decide (m ≠ n)) := by
  by_cases g : gainsSensor s n = true
  · unfold gainsSensor at g
    cases hr : s.recordOf n with
    | none => rw [hr] at g; cases g
    | some r =>
      rw [hr] at g
      simp only [Option.map_some, Option.getD_some, Bool.and_eq_true, decide_eq_true_eq, Bool.not_eq_true'] at g
      obtain ⟨hc, hh⟩ := g
      obtain ⟨k, hk⟩ : ∃ k, s.slotOf n = some k := by
        cases h : s.slotOf n with
        | none => unfold State.recordOf at hr; rw [h] at hr; cases hr
        | some k => exact ⟨k, rfl⟩
      have hra : s.recordAt k = some r := by unfold State.recordOf at hr; rw [hk] at hr; exact hr
      have e : sensorOne s n = (s.changeRecord k fun r => { r with holds := withHold r.holds .sensor }).raise .hold := by
        unfold sensorOne
        rw [hr]
        dsimp only
        rw [if_pos hc]
        unfold State.addHoldTo
        rw [hk]
        dsimp only
        have := addHold_curing s k .sensor r hra hc
        rw [this, hh]
        rfl
      have hg : gainsSensor s n = true := by
        unfold gainsSensor
        rw [hr]
        simp [hc, hh]
      have hports : (s.changeRecord k fun r => { r with holds := withHold r.holds .sensor }).ports = s.ports := by
        unfold State.changeRecord; split <;> rfl
      refine ⟨by rw [e, hg]; unfold State.raise tellKind; rw [hports]; rfl, fun m => ?_⟩
      have h1 : gainsSensor (sensorOne s n) m =
          gainsSensor (s.changeRecord k fun r => { r with holds := withHold r.holds .sensor }) m :=
        gainsSensor_congr _ _ (by rw [e]; rfl) m
      have h2 : (s.changeRecord k fun r => { r with holds := withHold r.holds .sensor }).slotOf m = s.slotOf m :=
        slotOf_changeRecord s k m _ fun _ => rfl
      rw [h1]
      unfold gainsSensor State.recordOf
      rw [h2]
      by_cases hm : m = n
      · subst hm
        rw [hk]
        dsimp only
        rw [recordAt_changeRecord, hra]
        simp [hasHold_withHold]
      · have hne : s.slotOf m ≠ some k := fun hmk => hm (slotOf_inj s m n k hmk hk)
        cases hj : s.slotOf m with
        | none => simp
        | some j =>
          have hjk : j ≠ k := fun x => hne (x ▸ hj)
          have : (s.changeRecord k fun r => { r with holds := withHold r.holds .sensor }).recordAt j = s.recordAt j := by
            unfold State.recordAt State.lotAt
            rw [slot_changeRecord_ne s k j _ hjk]
          dsimp only
          rw [this]
          simp [hm]
  · have g' : gainsSensor s n = false := by simpa using g
    have e : sensorOne s n = s := by
      unfold gainsSensor at g'
      unfold sensorOne
      cases hr : s.recordOf n with
      | none => rfl
      | some r =>
        rw [hr] at g'
        dsimp only
        split
        · rename_i hc
          have hh : hasHold r.holds .sensor = true := by simpa [hc] using g'
          unfold State.recordOf at hr
          unfold State.addHoldTo
          cases hk : s.slotOf n with
          | none => rfl
          | some k =>
            rw [hk] at hr
            dsimp only at hr ⊢
            unfold State.addHold
            rw [hr]
            simp [hh]
        · rfl
    rw [e, g']
    refine ⟨rfl, fun m => ?_⟩
    by_cases hm : m = n
    · subst hm; rw [g']; rfl
    · simp [hm]

/-- SENSOR over a lane: HOLD is raised when some lot of the lane gains it. -/
theorem sensorLane_gains (l : List Nat) (s : State) :
    (s.sensorLane l).ports = tellKind .hold (laneGains s l) s.ports ∧
      ∀ m, gainsSensor (s.sensorLane l) m = (gainsSensor s m && decide (m ∉ l)) := by
  rw [sensorLane_eq]
  show _ = tellKind .hold (l.any (gainsSensor s)) s.ports ∧ _
  induction l generalizing s with
  | nil => exact ⟨rfl, fun m => by simp⟩
  | cons n l ih =>
    obtain ⟨a, b⟩ := sensorOne_gains s n
    obtain ⟨c, d⟩ := ih (sensorOne s n)
    rw [List.foldl_cons]
    refine ⟨?_, fun m => ?_⟩
    · rw [c, a, tellKind_twice, List.any_cons]
      congr 1
      cases hn : gainsSensor s n with
      | true => rfl
      | false =>
        rw [Bool.false_or, Bool.false_or]
        congr 1
        funext m
        rw [b]
        by_cases hm : m = n
        · subst hm; rw [hn]; rfl
        · simp [hm]
    · rw [d, b]
      by_cases hm : m = n <;> by_cases hl : m ∈ l <;> simp [hm, hl]

/-- SENSOR over the lanes of several cells. -/
theorem outageCells_gains (cs : List Nat) (s : State) :
    (cs.foldl State.outageCell s).ports = tellKind .hold (cs.any fun c => laneGains s (s.cell c).lane) s.ports := by
  suffices h : ∀ (lanes : Nat → List Nat) (b : Nat → Bool) (u : State), (∀ c, (u.cell c).lane = lanes c) →
      (∀ m, gainsSensor u m = b m) →
      (cs.foldl State.outageCell u).ports = tellKind .hold (cs.any fun c => (lanes c).any b) u.ports by
    refine (h (fun c => (s.cell c).lane) (gainsSensor s) s (fun _ => rfl) fun _ => rfl).trans ?_
    rfl
  intro lanes
  induction cs with
  | nil => exact fun _ _ _ _ => rfl
  | cons c cs ih =>
    intro b u hl hb
    let x : Cell := { u.cell c with faulty := true, misses := 5 }
    have e : u.outageCell c = (u.setCell c x).sensorLane (lanes c) := by rw [← hl c]; rfl
    have hg : ∀ m, gainsSensor (u.setCell c x) m = b m := fun m =>
      (gainsSensor_congr u (u.setCell c x) rfl m).trans (hb m)
    obtain ⟨p1, p2⟩ := sensorLane_gains (lanes c) (u.setCell c x)
    have hlane : laneGains (u.setCell c x) (lanes c) = (lanes c).any b := by
      show (lanes c).any (gainsSensor (u.setCell c x)) = _
      rw [funext hg]
    rw [List.foldl_cons, List.any_cons]
    rw [ih (fun m => b m && decide (m ∉ lanes c)) (u.outageCell c)
      (fun d => (lane_outageCell u c d).trans (hl d)) (fun m => by rw [e, p2, hg]), e, p1, hlane]
    show tellKind .hold _ (tellKind .hold _ u.ports) = _
    rw [tellKind_twice]
    congr 1
    cases hany : (lanes c).any b with
    | true => rfl
    | false =>
      rw [Bool.false_or, Bool.false_or]
      congr 1
      funext d
      congr 1
      funext m
      by_cases hm : m ∈ lanes c
      · have := (List.any_eq_false.mp hany) m hm
        simp [hm, this]
      · simp [hm]

theorem any_filter_and {α : Type} (l : List α) (p q : α → Bool) : (l.filter p).any q = l.any fun x => p x && q x := by
  induction l with
  | nil => rfl
  | cons x l ih =>
    rw [List.filter_cons, List.any_cons]
    cases h : p x <;> simp [ih]

/-- The pending sets after the outage rule (R90). -/
theorem outageNotices_outageRule (s : State) (p : PortName) :
    (s.outageRule.port p).notices = outageNotices s (s.port p).mask.kinds (s.port p).notices := by
  have hr : outageReached s = !((List.range Config.cellCount).filter s.outageReaches).isEmpty := by
    show (List.range 96).any s.outageReaches = _
    have := any_filter_and (List.range 96) s.outageReaches fun _ => true
    simp only [Bool.and_true] at this
    rw [← this]
    show _ = !((List.range 96).filter s.outageReaches).isEmpty
    cases (List.range 96).filter s.outageReaches <;> simp
  have hg : outageGains s = ((List.range Config.cellCount).filter s.outageReaches).any fun c =>
      laneGains s (s.cell c).lane := (any_filter_and _ _ _).symm
  unfold outageNotices
  rw [hr, hg]
  unfold State.outageRule
  dsimp only
  split
  · rename_i h
    rw [h]
    rfl
  · rename_i h
    have he : ((List.range Config.cellCount).filter s.outageReaches).isEmpty = false := by
      rw [List.isEmpty_eq_false_iff]; exact h
    rw [he]
    have hp := outageCells_gains ((List.range Config.cellCount).filter s.outageReaches) s
    show ((tellKind .cellFault true (((List.range Config.cellCount).filter s.outageReaches).foldl State.outageCell
      s).ports).get p).notices = _
    obtain ⟨a1, a2⟩ := notices_tellKind .hold (((List.range Config.cellCount).filter s.outageReaches).any fun c =>
      laneGains s (s.cell c).lane) s.ports p
    rw [(notices_tellKind _ _ _ p).1, hp, a1, a2]
    rfl

/-- What the outage rule does, and all it may change (R90). -/
theorem outageApplied_outageRule (s : State) : outageApplied s s.outageRule ∧
    ∃ a b c, s.outageRule = { s with slots := a, cells := b, ports := c } := by
  obtain ⟨g1, -⟩ := outageRule_facts s
  have hm : ∀ c, c ∈ (List.range Config.cellCount).filter s.outageReaches ↔
      c < Config.cellCount ∧ (s.cell c).lastStamp + 5 < s.clock := by
    intro c
    simp [State.outageReaches]
  have hne : ∀ c, c ≤ 95 → outageReaches s c → (List.range Config.cellCount).filter s.outageReaches ≠ [] := by
    intro c hc hr e
    have := (hm c).mpr ⟨by show c < 96; omega, hr⟩
    rw [e] at this
    exact absurd this List.not_mem_nil
  refine ⟨⟨outageNotices_outageRule s, g1, fun hno => ?_, fun c n k r hc hr hn hl hs => ?_⟩, ?_⟩
  · have : (List.range Config.cellCount).filter s.outageReaches = [] := by
      apply List.eq_nil_iff_forall_not_mem.mpr
      intro c h
      obtain ⟨h1, h2⟩ := (hm c).mp h
      have h1' : c < 96 := h1
      exact hno c (by omega) h2
    unfold State.outageRule
    simp [this]
  · obtain ⟨x, h1, -, h3⟩ := outageCells_curing ((List.range Config.cellCount).filter s.outageReaches) s n k r hl hs
    have hx := h3 ⟨c, (hm c).mpr ⟨by show c < 96; omega, hr⟩, hn⟩
    unfold State.outageRule
    simp only [if_neg (hne c hc hr)]
    have e := liveLot_recordAt _ n k _ h1
    rw [hx] at e
    exact e
  · unfold State.outageRule
    dsimp only
    split
    · exact ⟨s.slots, s.cells, s.ports, rfl⟩
    · obtain ⟨a, b, c, h⟩ := foldl_outageCell_quiet ((List.range Config.cellCount).filter s.outageReaches) s
      rw [h]
      exact ⟨a, b, _, rfl⟩

/-! ### The stores at a start (R134, R143, R171) -/

theorem recipe_mapVector (s u : State) (f : StoredRecipe → StoredRecipe) (h : u.recipes = mapVector f s.recipes)
    (r : RecipeRef) (hb : r.bank ≤ 1) (hn : r.number ≤ 7) : u.recipe r = f (s.recipe r) := by
  have hk : 8 * r.bank + r.number < s.recipes.toList.length := by
    rw [Vector.length_toList]
    show _ < 16
    omega
  unfold State.recipe
  rw [h, mapVector_toList, List.getD_eq_getElem?_getD, List.getD_eq_getElem?_getD, List.getElem?_map,
    List.getElem?_eq_getElem hk]
  rfl

theorem recipe_setRecipe (s : State) (r q : RecipeRef) (x : StoredRecipe) (hr : r.bank ≤ 1 ∧ r.number ≤ 7)
    (hq : q.bank ≤ 1 ∧ q.number ≤ 7) : (s.setRecipe r x).recipe q = if q = r then x else s.recipe q := by
  have h := getD_setIfInBounds s.recipes (8 * r.bank + r.number) (8 * q.bank + q.number) x StoredRecipe.blank
  have e : (s.setRecipe r x).recipe q = _ := h
  rw [e]
  by_cases hqr : q = r
  · rw [if_pos hqr, if_pos]
    exact ⟨by rw [hqr], by show 8 * r.bank + r.number < 16; omega⟩
  · rw [if_neg hqr, if_neg]
    · rfl
    · rintro ⟨he, -⟩
      apply hqr
      obtain ⟨b, n⟩ := q
      obtain ⟨b', n'⟩ := r
      dsimp only at *
      have h1 : b = b' := by omega
      have h2 : n = n' := by omega
      rw [h1, h2]

/-- Work cut off leaves the records of the recipes as they are, but the one under commit, whose check fails (R143). -/
theorem cutOff_recipes (s : State) (r : RecipeRef) (hr : r.bank ≤ 1 ∧ r.number ≤ 7) :
    (∀ c, s.commit = some c → c.recipe = r → (s.cutOff.recipe r).checkGood = false) ∧
    ((∀ c, s.commit = some c → c.recipe ≠ r ∧ c.recipe.bank ≤ 1 ∧ c.recipe.number ≤ 7) →
      s.cutOff.recipe r = s.recipe r) := by
  have e : s.cutOff.recipe r = s.cutCommit.recipe r := rfl
  rw [e]
  unfold State.cutCommit
  cases hc : s.commit with
  | none => exact ⟨fun c h => absurd h (by simp), fun _ => rfl⟩
  | some x =>
    have e2 : ∀ y, State.recipe { s.setRecipe x.recipe y with commit := none } r = (s.setRecipe x.recipe y).recipe r :=
      fun _ => rfl
    dsimp only
    rw [e2]
    refine ⟨fun c h hcr => ?_, fun h => ?_⟩
    · cases h
      rw [recipe_setRecipe s x.recipe r _ (by rw [hcr]; exact hr) hr, if_pos hcr.symm]
    · obtain ⟨h1, h2⟩ := h x rfl
      rw [recipe_setRecipe s x.recipe r _ h2 hr, if_neg (Ne.symm h1)]

/-- What a start loads into the stores (R134, R143, R171). -/
theorem storesLoaded_startStores (s : State) (cold : Bool) : storesLoaded s (s.cutOff.startStores cold) cold := by
  have hcut : ∃ z, s.cutCommit = { s with recipes := z, commit := none } := by
    unfold State.cutCommit
    split
    · exact ⟨_, rfl⟩
    · rename_i h
      exact ⟨s.recipes, by rw [← h]⟩
  obtain ⟨z, hz⟩ := hcut
  have hrec : ∀ r, r.bank ≤ 1 → r.number ≤ 7 →
      (s.cutOff.startStores cold).recipe r = startRecipe (s.cutOff.recipe r) :=
    fun r h1 h2 => recipe_mapVector s.cutOff _ startRecipe rfl r h1 h2
  have hbank : (s.cutOff.startStores cold).bank = startBank cold s := by
    simp only [State.startStores, State.cutOff, startBank, hz]
  have hb2 : startBank cold s = ⟨(if s.bankCheckGood then s.bankStored else ⟨0, none⟩ : BankState).active,
      if cold then none else (if s.bankCheckGood then s.bankStored else ⟨0, none⟩ : BankState).pending⟩ := by
    unfold startBank
    cases cold <;> rfl
  refine ⟨hbank.trans hb2, ?_, rfl, rfl, ?_, rfl, fun c hc h1 h2 => ?_, fun r h1 h2 h => ?_, fun p => ?_, fun p => ?_⟩
  · have : (s.cutOff.startStores cold).bankStored = (s.cutOff.startStores cold).bank := rfl
    rw [this, hbank, hb2]
  · simp only [State.startStores, State.cutOff, hz]
  · rw [hrec c.recipe h1 h2, startRecipe, (cutOff_recipes s c.recipe ⟨h1, h2⟩).1 c hc rfl]
    rfl
  · rw [hrec r h1 h2, (cutOff_recipes s r ⟨h1, h2⟩).2 h]
    rfl
  · cases p <;> rfl
  · have hp : (s.cutOff.startStores cold).port p = startPort (!cold) (loadedSetup s.cutOff.setup p) (quietPort (s.port p)) := by
      cases p <;> rfl
    rw [hp]
    show startMask (!cold) (s.port p).mask _ = _
    unfold startMask
    cases cold <;> simp [startPort]

/-- `storesLoaded` speaks of the stores and of the ports' roles, windows and masks alone. -/
theorem storesLoaded_congr (s u v : State) (cold : Bool) (h : storesLoaded s u cold) (h1 : v.bank = u.bank)
    (h2 : v.bankStored = u.bankStored) (h3 : v.bankCheckGood = u.bankCheckGood) (h4 : v.bankWrites = u.bankWrites)
    (h5 : v.commit = u.commit) (h6 : v.setup = u.setup) (h7 : v.recipes = u.recipes) (h8 : portsKept u v) :
    storesLoaded s v cold := by
  have hr : ∀ r, v.recipe r = u.recipe r := fun r => by simp only [State.recipe, h7]
  have hp : ∀ p, (⟨(v.port p).role, (v.port p).window⟩ : PortRole) = ⟨(u.port p).role, (u.port p).window⟩ := by
    intro p
    rw [← h8 p]
  have hm : ∀ p, (v.port p).mask = (u.port p).mask ∧ (v.port p).role = (u.port p).role := by
    intro p
    rw [← h8 p]
    exact ⟨rfl, rfl⟩
  obtain ⟨g1, g2, g3, g4, g5, g6, g7, g8, g9, g10⟩ := h
  refine ⟨h1.trans g1, h2.trans g2, h3.trans g3, h4.trans g4, h5.trans g5, h6.trans g6, ?_, ?_, ?_, fun p => ?_⟩
  · exact fun c hc a b => (hr _).trans (g7 c hc a b)
  · exact fun r a b hc => (hr r).trans (g8 r a b hc)
  · exact fun p => (hp p).trans (g9 p)
  · rw [(hm p).1, (hm p).2]
    exact g10 p

/-! ### Disturbances (R184) -/

theorem disturb_phase (s : State) (u : Upset) : (s.disturb u).phase = s.phase := by
  have lot : ∀ k f, (s.disturbLot k f).phase = s.phase := by
    intro k f
    unfold State.disturbLot
    split <;> rfl
  cases u <;> first | rfl | exact lot _ _

/-- Disturbances of the stores leave the phase. -/
theorem disturbAll_phase (us : List Upset) (s : State) : (s.disturbAll us).phase = s.phase := by
  unfold State.disturbAll
  induction us generalizing s with
  | nil => rfl
  | cons u us ih => exact (ih _).trans (disturb_phase s u)

/-! ### The slots at a warm start (R51, R161) -/

theorem mem_failedHealth (s : State) (k : Nat) :
    k ∈ s.failedHealth ↔ k < Config.slotCount ∧ (s.slot k).checkGood = false := by
  unfold State.failedHealth State.slot
  rw [List.mem_map]
  constructor
  · rintro ⟨⟨x, i⟩, hx, rfl⟩
    obtain ⟨h1, h2⟩ := List.mem_filter.mp hx
    have h3 := List.mem_zipIdx_iff_getElem?.mp h1
    dsimp only at h3
    have hlt : i < s.slots.toList.length := (List.getElem?_eq_some_iff.mp h3).1
    refine ⟨by simpa using hlt, ?_⟩
    rw [List.getD_eq_getElem?_getD, h3]
    simpa using h2
  · rintro ⟨h1, h2⟩
    have hlt : k < s.slots.toList.length := by simpa using h1
    rw [List.getD_eq_getElem?_getD, List.getElem?_eq_getElem hlt] at h2
    exact ⟨(s.slots.toList[k], k), List.mem_filter.mpr ⟨List.mem_zipIdx_iff_getElem?.mpr (List.getElem?_eq_getElem hlt),
      by simpa using h2⟩, rfl⟩

theorem failedHealth_nodup (s : State) : s.failedHealth.Nodup := by
  have h1 : s.failedHealth.Sublist (s.slots.toList.zipIdx.map (·.2)) := (List.filter_sublist).map _
  refine h1.nodup ?_
  rw [List.zipIdx_map_snd]
  exact List.nodup_range'

theorem failedHealth_one (s : State) (j : Nat) (h : ∀ k, k ∈ s.failedHealth ↔ k = j) : s.failedHealth = [j] := by
  have : s.failedHealth.Perm [j] :=
    (List.perm_ext_iff_of_nodup (failedHealth_nodup s) (by simp)).mpr fun k => by simp [h k]
  exact List.perm_singleton.mp this

/-- What the health table's checks at a warm start do to each slot. -/
theorem slot_startHealth (s : State) (k : Nat) : State.slot { s with slots := mapVector startHealth s.slots } k =
    if k < Config.slotCount then startHealth (s.slot k) else Slot.blank := by
  split
  · rename_i h
    exact slot_mapVector s startHealth _ rfl k h
  · rename_i h
    exact slot_beyond _ _ (by omega)

theorem lowestFree_congr (s u : State) (h : ∀ k, k < Config.slotCount → freeHealthy (u.slot k) = freeHealthy (s.slot k)) :
    u.lowestFree = s.lowestFree := by
  have e : u.slots.toList.map freeHealthy = s.slots.toList.map freeHealthy := by
    refine List.ext_getElem (by simp) fun k h1 h2 => ?_
    have hk : k < Config.slotCount := by simpa using h1
    have := h k hk
    simp only [State.slot, List.getD_eq_getElem?_getD] at this
    rw [List.getElem?_eq_getElem (by simpa using hk), List.getElem?_eq_getElem (by simpa using hk)] at this
    simpa using this
  have m : ∀ l : List Slot, l.findIdx? freeHealthy = (l.map freeHealthy).findIdx? id := fun l => by
    rw [List.findIdx?_map]
    rfl
  unfold State.lowestFree
  rw [m, m, e]

theorem worn_unbound (x : Slot) : (unbound x).worn = x.worn ∧ (unbound x).checkGood = x.checkGood ∧
    (unbound x).contents.isNone = x.contents.isNone ∧ (x.contents = none → unbound x = x) := by
  rcases x with ⟨c, t, w, p, a, g⟩
  cases c <;> simp [unbound]

/-- What a warm start does to the slots (R51, R158, R161). -/
theorem startedSlots_warmStart (s : State) : startedSlots s s.warmStart := by
  let u := s.cutOff.startStores false
  have hu : u.slots = s.slots ∧ u.channels = s.channels := by
    simp only [u, State.startStores, State.cutOff, State.cutCommit]
    cases s.commit <;> exact ⟨rfl, rfl⟩
  let v := u.startChannels
  have hus : ∀ k, u.slot k = s.slot k := fun k => by simp only [State.slot, hu.1]
  have huc : ∀ c, u.channel c = s.channel c := fun c => by simp only [State.channel, hu.2]
  have hun : ∀ n, u.slotOf n = s.slotOf n := fun n => by simp only [State.slotOf, hu.1]
  have hv : orphansMade s v fun _ => True := by
    intro k
    obtain ⟨h1, h2⟩ := orphansMade_orphanChannels (u.channelsWhere fun _ _ => true) u k
    rw [hus] at h1 h2
    refine ⟨fun ⟨c, b, _, hb, hk⟩ => h1 ⟨c, b, ?_, by rw [huc]; exact hb, by rw [hun]; exact hk⟩,
      fun h => h2 fun c b _ hb => ?_⟩
    · exact (mem_channelsWhere u _ c).mpr ⟨b, by rw [huc]; exact hb, rfl⟩
    · rw [hun]
      exact h c b trivial (by rw [← huc]; exact hb)
  have hvk : ∀ k, v.slot k = unbound (s.slot k) ∨ v.slot k = s.slot k := by
    intro k
    obtain ⟨h1, h2⟩ := hv k
    by_cases h : ∃ c b, True ∧ s.channel c = some b ∧ s.slotOf b.lot = some k
    · exact .inl (h1 h)
    · exact .inr (h2 fun c b _ hb hk => h ⟨c, b, trivial, hb, hk⟩)
  have hgood : ∀ k, (v.slot k).checkGood = (s.slot k).checkGood := by
    intro k
    rcases hvk k with e | e <;> rw [e]
    exact (worn_unbound _).2.1
  have hw : ∀ k, s.warmStart.slot k = v.startAudit.slot k := fun _ => rfl
  let t : State := { v with slots := mapVector startHealth v.slots }
  refine ⟨fun hc k => ?_, fun j hj hbad honly => ?_⟩
  · have hnil : v.failedHealth = [] := by
      apply List.eq_nil_iff_forall_not_mem.mpr
      intro i hi
      obtain ⟨h1, h2⟩ := (mem_failedHealth v i).mp hi
      have h1' : i < 512 := h1
      rw [hgood, hc i (by omega)] at h2
      cases h2
    have e : v.startAudit = t := by
      unfold State.startAudit
      simp only [hnil, if_true]
      rfl
    have e2 : s.warmStart.slot k = v.slot k := by
      rw [hw, e]
      show State.slot { v with slots := mapVector startHealth v.slots } k = _
      rw [slot_startHealth]
      split
      · rename_i hk
        have hk' : k < 512 := hk
        have : (v.slot k).checkGood = true := by rw [hgood, hc k (by omega)]
        simp [startHealth, this]
      · exact (slot_beyond v k (by omega)).symm
    rw [e2]
    exact hv k
  · have hjc : j < Config.slotCount := by show j < 512; omega
    have hone : v.failedHealth = [j] := failedHealth_one v j fun k => by
      rw [mem_failedHealth, hgood]
      constructor
      · rintro ⟨h1, h2⟩
        by_contra hne
        have h1' : k < 512 := h1
        rw [honly k (by omega) hne] at h2
        cases h2
      · rintro rfl
        exact ⟨hjc, hbad⟩
    have e : v.startAudit = (t.raise .worn).relocate j := by
      unfold State.startAudit
      simp only [hone]
      rfl
    let x := t.raise .worn
    have hts : ∀ k, k < Config.slotCount → x.slot k = startHealth (v.slot k) := fun k hk => by
      have := slot_startHealth v k
      rw [if_pos hk] at this
      exact this
    refine ⟨fun hl => ?_, fun l hl hno => ?_⟩
    · have hlc : (s.slot j).contents = none := hl
      have hvj : v.slot j = s.slot j := by
        rcases hvk j with h | h
        · rw [h]
          exact (worn_unbound _).2.2.2 hlc
        · exact h
      have hx : x.slot j = ⟨none, 4, true, false, false, true⟩ := by
        rw [hts j hjc, hvj]
        simp [startHealth, hbad, hlc, Config.wearTally]
      have hxl : x.lotAt j = none := by rw [State.lotAt, hx]
      rw [hw, e]
      show (x.relocate j).slot j = _
      unfold State.relocate
      rw [hxl]
      exact hx
    · have hvj : v.slot j = s.slot j := (hv j).2 fun c b _ hb => hno c b hb
      have hlc : (s.slot j).contents = some l := hl
      have hx : x.slot j = ⟨some l, 4, true, false, false, true⟩ := by
        rw [hts j hjc, hvj]
        simp [startHealth, hbad, hlc, Config.wearTally]
      have hxl : x.lotAt j = some l := by rw [State.lotAt, hx]
      have hfree : x.lowestFree = s.lowestFree := by
        refine lowestFree_congr s x fun k hk => ?_
        rw [hts k hk]
        by_cases hkj : k = j
        · subst hkj
          rw [hvj]
          simp [startHealth, hbad, freeHealthy, hlc]
        · have hk' : k < 512 := hk
          have hg : (v.slot k).checkGood = true := by rw [hgood, honly k (by omega) hkj]
          have : startHealth (v.slot k) = v.slot k := by simp [startHealth, hg]
          rw [this]
          rcases hvk k with h | h <;> rw [h]
          obtain ⟨w1, -, w3, -⟩ := worn_unbound (s.slot k)
          simp only [freeHealthy, w1, w3]
      rw [hw, e]
      refine ⟨fun f hf => ?_, fun hf => ?_⟩
      · have hfx : x.lowestFree = some f := hfree.trans hf
        have hff : freeHealthy (x.slot f) = true ∧ f < Config.slotCount := by
          obtain ⟨hlt, hq, -⟩ := List.findIdx?_eq_some_iff_getElem.mp hfx
          refine ⟨?_, by simpa using hlt⟩
          simp only [State.slot, List.getD_eq_getElem?_getD, List.getElem?_eq_getElem hlt]
          exact hq
        have hne : f ≠ j := by
          rintro rfl
          rw [hx] at hff
          simp [freeHealthy] at hff
        have er : x.relocate j = (x.putLot f (relocated l)).emptySlot j := by
          unfold State.relocate
          rw [hxl, hfx]
          dsimp only
          unfold State.moveLot
          rw [hxl]
        have es : (x.putLot f (relocated l)).slot j = x.slot j := slot_setSlot_ne x f j _ (Ne.symm hne)
        have hwl : s.warmStart.lotAt f = (x.relocate j).lotAt f := by
          simp only [State.lotAt]
          rw [hw, e]
        rw [hwl]
        show (x.relocate j).lotAt f = _ ∧ (x.relocate j).slot j = _
        rw [er]
        refine ⟨?_, ?_⟩
        · have h1 : (x.putLot f (relocated l)).emptySlot j = (x.putLot f (relocated l)).setSlot j _ := rfl
          rw [h1, State.lotAt, slot_setSlot_ne _ j f _ hne]
          exact lotAt_putLot x f _ hff.2
        · have h1 : (x.putLot f (relocated l)).emptySlot j = (x.putLot f (relocated l)).setSlot j
              { (x.putLot f (relocated l)).slot j with contents := none, waiting := false } := rfl
          rw [h1, slot_setSlot_same _ j _ hjc, es, hx]
      · have hfx : x.lowestFree = none := hfree.trans hf
        show (x.relocate j).slot j = _
        unfold State.relocate
        rw [hxl, hfx]
        dsimp only
        rw [slot_setSlot_same _ j _ hjc, hx]

/-- A clean lot that names no channel is left clean, as it is, by a warm start while every health entry checks good. -/
theorem liveLot_warmStart (s : State) (n k : Nat) (r : LotRecord) (h : liveLot s n k r) (hc : r.channel = none)
    (hh : healthChecks s) : liveLot s.warmStart n k r := by
  have hs := (startedSlots_warmStart s).1 hh
  have hk : ∀ j, s.warmStart.slot j = unbound (s.slot j) ∨ s.warmStart.slot j = s.slot j := by
    intro j
    obtain ⟨h1, h2⟩ := hs j
    by_cases e : ∃ c b, True ∧ s.channel c = some b ∧ s.slotOf b.lot = some j
    · exact .inl (h1 e)
    · exact .inr (h2 fun c b _ hb hk => e ⟨c, b, trivial, hb, hk⟩)
  obtain ⟨h1, h2, h3, l, hl, ⟨c1, c2, c3⟩, hr⟩ := h
  refine ⟨h1, h2, ?_, l, ?_, ⟨c1, c2, c3⟩, hr⟩
  · rw [slotOf_congr s s.warmStart n fun j => ?_]
    · exact h3
    · rcases hk j with e | e <;> rw [e]
      exact holdsNumber_unbound _ n
  · rcases hk k with e | e <;> rw [State.lotAt, e]
    · have hlc : (s.slot k).contents = some l := hl
      have el : ({ l with record := modifyStored (fun r => { r with channel := none }) l.record } : Lot) = l := by
        obtain ⟨⟨q, c⟩, e, m⟩ := l
        dsimp only at c1 hr
        subst c1
        subst hr
        obtain ⟨⟩ := q
        dsimp only at hc
        subst hc
        rfl
      simp only [unbound, hlc, Option.map_some, el]
    · exact hl

/-- What a warm start loads into the stores (R134, R143, R171). -/
theorem storesLoaded_warmStart (s : State) : storesLoaded s s.warmStart false := by
  let u := s.cutOff.startStores false
  obtain ⟨k1, -, -, a, b, c, f1⟩ := startChannels_facts u
  obtain ⟨k2, -, d, e, f2⟩ := startAudit_facts u.startChannels
  have hw : s.warmStart = { u.startChannels.startAudit with mode := .pause } := rfl
  have hk : portsKept u s.warmStart := portsKept_trans _ _ _ k1 k2
  refine storesLoaded_congr s u _ false (storesLoaded_startStores s false) ?_ ?_ ?_ ?_ ?_ ?_ ?_ hk <;> rw [hw, f2, f1]

/-- What a cold start loads into the stores (R134, R143, R171). -/
theorem storesLoaded_coldBegin (s : State) : storesLoaded s s.coldBegin true := by
  have hk : portsKept (s.cutOff.startStores true) s.coldBegin := by
    unfold State.coldBegin
    dsimp only
    split
    · exact fun _ => rfl
    · exact fun p => portsKept_raise _ .worn p
  refine storesLoaded_congr s _ _ true (storesLoaded_startStores s true) ?_ ?_ ?_ ?_ ?_ ?_ ?_ hk <;>
    (unfold State.coldBegin; dsimp only; split <;> rfl)

end Sys2Proof.Machine
end

