-- ==== Sys2Proof/Laws/Repairs.lean ====
section
/-! SUPPORT. What counting a fault against a slot, repairing and rebuilding what it holds, and relocating its record can
do (R149 to R153, R157, R158). -/

namespace Sys2Proof.Machine

/-! ### A fault counted -/

/-- A fault counted in a slot: its tally is changed, and it is worn from the threshold on (R150, R157). -/
def countedSlot (x : Slot) (t : Nat) : Slot := { x with tally := t, worn := x.worn || decide (Config.wearTally ≤ t) }

/-- The ports once a slot's wear has been judged. -/
def countedPorts (s : State) (x : Slot) (t : Nat) : Ports :=
  if x.worn = false ∧ Config.wearTally ≤ t then (s.raise .worn).ports else s.ports

theorem countFault_eq (s : State) (k : Nat) (f : Nat → Nat) (hk : k < Config.slotCount) : s.countFault k f = { s with
    slots := s.slots.setIfInBounds k (countedSlot (s.slot k) (f (s.slot k).tally))
    ports := countedPorts s (s.slot k) (f (s.slot k).tally) } := by
  cases hw : (s.slot k).worn with
  | true =>
    rw [countFault_quiet s k f hk (.inl hw)]
    simp only [countedSlot, countedPorts, hw, Bool.true_or, State.setSlot]
    simp
  | false =>
    by_cases ht : Config.wearTally ≤ f (s.slot k).tally
    · rw [countFault_wears s k f hk hw ht]
      simp only [countedSlot, countedPorts, hw, ht, decide_true, Bool.or_true, State.setSlot, State.raise]
      simp
    · rw [countFault_quiet s k f hk (.inr (by omega))]
      simp only [countedSlot, countedPorts, hw, ht, decide_false, Bool.or_false, State.setSlot]
      simp

/-- The state once CORRECTED has been raised, where the slot's reported flag was clear (R150). -/
def told (s : State) (x : Slot) : State := if x.reported then s else s.raise .corrected

/-- A slot's contents replaced and the fault reported and counted (R150, R157). -/
theorem put_counted (s : State) (k : Nat) (l : Lot) (f : Nat → Nat) (hk : k < Config.slotCount) :
    ((s.putLot k l).reportRepair k).countFault k f = { s with
      slots := s.slots.setIfInBounds k
        (countedSlot { s.slot k with contents := some l, reported := true } (f (s.slot k).tally))
      ports := countedPorts (told s (s.slot k)) (s.slot k) (f (s.slot k).tally) } := by
  have h1 : (s.putLot k l).slot k = { s.slot k with contents := some l } := slot_setSlot_same s k _ hk
  let u : State := { s with
    slots := s.slots.setIfInBounds k { s.slot k with contents := some l, reported := true }
    ports := (told s (s.slot k)).ports }
  have hu : (s.putLot k l).reportRepair k = u := by
    unfold State.reportRepair
    dsimp only
    rw [h1]
    dsimp only
    cases hr : (s.slot k).reported with
    | true => simp only [if_true, State.putLot, State.setSlot, u, told, hr]
    | false =>
      simp only [State.putLot, State.setSlot, u, told, hr, State.raise, setIfInBounds_twice]
      simp
  have h2 : u.slot k = { s.slot k with contents := some l, reported := true } := slot_setSlot_same s k _ hk
  rw [hu, countFault_eq u k f hk, h2]
  have hp : countedPorts u { s.slot k with contents := some l, reported := true } (f (s.slot k).tally) =
      countedPorts (told s (s.slot k)) (s.slot k) (f (s.slot k).tally) := by
    simp only [countedPorts, u, State.raise]
  simp only [hp, u, setIfInBounds_twice]

/-! ### A newly worn slot (R158) -/

/-- A slot's contents replaced by others leave the lowest free healthy slot as it was. -/
theorem lowestFree_set (s u : State) (k : Nat) (x : Slot) (h : u.slots = s.slots.setIfInBounds k x)
    (hx : x.contents.isSome = true) (hs : (s.slot k).contents.isSome = true) : u.lowestFree = s.lowestFree := by
  refine lowestFree_congr s u fun j hj => ?_
  have e : u.slot j = (s.setSlot k x).slot j := by simp only [State.slot, h]; rfl
  rw [e, slot_setSlot]
  split
  · rename_i hjk
    rw [← hjk.1]
    cases hc : x.contents with
    | none => rw [hc] at hx; cases hx
    | some a =>
      cases hd : (s.slot k).contents with
      | none => rw [hd] at hs; cases hs
      | some b => simp [freeHealthy, hc, hd]
  · rfl

/-- The record of a worn slot is moved, or waits (R158). -/
theorem relocate_eq (u : State) (k : Nat) (l : Lot) (hl : u.lotAt k = some l) (hr : relocated l = l) :
    (∀ f, u.lowestFree = some f → u.relocate k = { u with
      slots := (u.slots.setIfInBounds f { u.slot f with contents := some l }).setIfInBounds k
        { u.slot k with contents := none, waiting := false } }) ∧
    (u.lowestFree = none → u.relocate k = { u with slots := u.slots.setIfInBounds k { u.slot k with waiting := true } }) := by
  refine ⟨fun f hf => ?_, fun hf => ?_⟩
  · unfold State.relocate
    rw [hl, hf]
    dsimp only
    unfold State.moveLot
    rw [hl]
    dsimp only
    rw [hr]
    have hne : k ≠ f := by
      rintro rfl
      obtain ⟨hlt, hq, -⟩ := List.findIdx?_eq_some_iff_getElem.mp hf
      have : u.slot k = u.slots.toList[k] := by
        simp only [State.slot, List.getD_eq_getElem?_getD, List.getElem?_eq_getElem hlt]
        rfl
      have hc : (u.slot k).contents = some l := hl
      rw [← this] at hq
      simp [freeHealthy, hc] at hq
    have e : (u.putLot f l).slot k = u.slot k := slot_setSlot_ne u f k _ hne
    unfold State.emptySlot
    rw [e]
    rfl
  · unfold State.relocate
    rw [hl, hf]
    rfl

/-! ### What repairs leave (R149 to R151) -/

/-- The slot, and the ports, that repairs of what a slot holds leave. -/
def repairedState (s : State) (k : Nat) (left : Lot) (rise : Nat) : State := { s with
  slots := s.slots.setIfInBounds k
    (countedSlot { s.slot k with contents := some left, reported := true } (min Config.maxTally ((s.slot k).tally + rise)))
  ports := countedPorts (told s (s.slot k)) (s.slot k) (min Config.maxTally ((s.slot k).tally + rise)) }

theorem put_repaired (s : State) (k : Nat) (l : Lot) (hk : k < Config.slotCount) :
    (s.putLot k l).countRepair k = repairedState s k l 1 := put_counted s k l tallyRepair hk

/-- Two repairs, one after the other. -/
theorem repaired_twice (s : State) (k : Nat) (l m : Lot) (hk : k < Config.slotCount) :
    ((repairedState s k l 1).putLot k m).countRepair k = repairedState s k m 2 := by
  have h1 : (repairedState s k l 1).slot k =
      countedSlot { s.slot k with contents := some l, reported := true } (min Config.maxTally ((s.slot k).tally + 1)) :=
    slot_setSlot_same s k _ hk
  rw [put_repaired _ k m hk]
  unfold repairedState
  have ht : min Config.maxTally (min Config.maxTally ((s.slot k).tally + 1) + 1) =
      min Config.maxTally ((s.slot k).tally + 2) := by omega
  have h1' := h1
  unfold repairedState at h1'
  rw [h1']
  simp only [countedSlot, ht, setIfInBounds_twice, told, if_true]
  have hw : (((s.slot k).worn || decide (Config.wearTally ≤ min Config.maxTally ((s.slot k).tally + 1))) ||
      decide (Config.wearTally ≤ min Config.maxTally ((s.slot k).tally + 2))) =
      ((s.slot k).worn || decide (Config.wearTally ≤ min Config.maxTally ((s.slot k).tally + 2))) := by
    rw [Bool.eq_iff_iff]
    simp only [Bool.or_eq_true, decide_eq_true_eq, Config.wearTally, Config.maxTally]
    constructor
    · rintro ((h | h) | h)
      · exact .inl h
      · right; omega
      · exact .inr h
    · rintro (h | h)
      · exact .inl (.inl h)
      · exact .inr h
  rw [hw]
  congr 1
  simp only [countedPorts, State.raise]
  by_cases hx : (s.slot k).worn = true
  · simp [hx]
  · have hx' : (s.slot k).worn = false := by simpa using hx
    simp only [hx', Bool.false_or, decide_eq_false_iff_not, true_and]
    by_cases h4 : Config.wearTally ≤ min Config.maxTally ((s.slot k).tally + 1)
    · have h5 : Config.wearTally ≤ min Config.maxTally ((s.slot k).tally + 2) := by
        simp only [Config.wearTally, Config.maxTally] at *
        omega
      simp [h4, h5]
    · simp [h4]

theorem repairRecord_eq (s : State) (k : Nat) (l : Lot) (hl : s.lotAt k = some l) :
    s.repairRecord k = repairedState s k { l with record := fresh (repairedOf l.record) } 1 := by
  unfold State.repairRecord
  rw [hl]
  exact put_repaired s k _ (slot_of_lotAt s k l hl)

theorem repairEntry_eq (s : State) (k : Nat) (l : Lot) (hl : s.lotAt k = some l) :
    s.repairEntry k = repairedState s k { l with entry := fresh (repairedOf l.entry) } 1 := by
  unfold State.repairEntry
  rw [hl]
  exact put_repaired s k _ (slot_of_lotAt s k l hl)

theorem rebuildEntry_eq (s : State) (k : Nat) (l : Lot) (hl : s.lotAt k = some l) :
    s.rebuildEntry k = repairedState s k { l with entry := fresh (entryOf l.record.held) } 1 := by
  unfold State.rebuildEntry
  rw [hl]
  exact put_repaired s k _ (slot_of_lotAt s k l hl)

theorem lotAt_repairedState (s : State) (k : Nat) (l : Lot) (n : Nat) (hk : k < Config.slotCount) :
    (repairedState s k l n).lotAt k = some l := by
  have : (repairedState s k l n).slot k = _ := slot_setSlot_same s k _ hk
  rw [State.lotAt, this]
  rfl

/-- What the audit's check of a slot with a fault that repairs mend comes to, before any relocation (R149 to R151). -/
theorem checkItems_mended (s : State) (k : Nat) (l left : Lot) (rise : Nat) (hl : s.lotAt k = some l)
    (h : mended l left rise) : s.checkItems k = some ((repairedState s k left rise).relocateNewlyWorn s k) ∧
      relocated left = left := by
  have hk := slot_of_lotAt s k l hl
  unfold State.checkItems
  rw [hl]
  dsimp only
  rcases h with ⟨q, h1, h2, rfl, rfl⟩ | ⟨h1, h2, rfl, rfl⟩ | ⟨q, h1, h2, rfl, rfl⟩ | ⟨h1, h2, rfl, rfl⟩ | ⟨q, h1, h2, rfl, rfl⟩
  · have fr : findingOf l.record = .correctable := by simp [findingOf, h1]
    have fe : entryFinding l = .clean := by simp [entryFinding, findingOf, repairedOf, h1, h2, fresh]
    have e := repairRecord_eq s k l hl
    have hrep : repairedOf l.record = q := by simp [repairedOf, h1]
    rw [hrep] at e
    refine ⟨?_, by simp [relocated, h2, fresh]⟩
    simp only [fr, fe, State.mendRecord, State.mendEntry, if_true, reduceCtorEq, if_false, e]
  · have fr : findingOf l.record = .clean := by simp [findingOf, h1]
    have fe : entryFinding l = .correctable := by simp [entryFinding, findingOf, repairedOf, h1, h2]
    have e := repairEntry_eq s k l hl
    have hrep : repairedOf l.entry = entryOf l.record.held := by simp [repairedOf, h2]
    rw [hrep] at e
    refine ⟨?_, ?_⟩
    · simp only [fr, fe, State.mendRecord, State.mendEntry, if_true, reduceCtorEq, if_false, e]
    · obtain ⟨⟨r, c⟩, y, m⟩ := l
      dsimp only at h1
      subst h1
      rfl
  · have fr : findingOf l.record = .correctable := by simp [findingOf, h1]
    have fe : entryFinding l = .correctable := by simp [entryFinding, findingOf, repairedOf, h1, h2]
    have e := repairRecord_eq s k l hl
    have hrep : repairedOf l.record = q := by simp [repairedOf, h1]
    rw [hrep] at e
    refine ⟨?_, rfl⟩
    have e2 := repairEntry_eq (repairedState s k { l with record := fresh q } 1) k _ (lotAt_repairedState s k _ 1 hk)
    have hrep2 : repairedOf l.entry = entryOf q := by simp [repairedOf, h2]
    have e3 : (repairedState s k { l with record := fresh q } 1).repairEntry k =
        repairedState s k { l with record := fresh q, entry := fresh (entryOf q) } 2 := by
      rw [e2]
      dsimp only
      rw [hrep2, ← put_repaired _ k _ hk, repaired_twice s k _ _ hk]
    simp only [fr, fe, State.mendRecord, State.mendEntry, if_true, e, e3]
  · have fr : findingOf l.record = .clean := by simp [findingOf, h1]
    have fe : entryFinding l = .damaged := by
      rcases h2 with h2 | ⟨h2, h3⟩
      · simp [entryFinding, findingOf, h1, h2]
      · simp [entryFinding, findingOf, repairedOf, h1, h2, Ne.symm h3]
    have e := rebuildEntry_eq s k l hl
    refine ⟨?_, ?_⟩
    · simp only [fr, fe, State.mendRecord, reduceCtorEq, if_false, e]
    · obtain ⟨⟨r, c⟩, y, m⟩ := l
      dsimp only at h1
      subst h1
      rfl
  · have fr : findingOf l.record = .correctable := by simp [findingOf, h1]
    have fe : entryFinding l = .damaged := by
      rcases h2 with h2 | ⟨h2, h3⟩
      · simp [entryFinding, findingOf, h1, h2]
      · simp [entryFinding, findingOf, repairedOf, h1, h2, Ne.symm h3]
    have e := repairRecord_eq s k l hl
    have hrep : repairedOf l.record = q := by simp [repairedOf, h1]
    rw [hrep] at e
    refine ⟨?_, rfl⟩
    have e2 := rebuildEntry_eq (repairedState s k { l with record := fresh q } 1) k _ (lotAt_repairedState s k _ 1 hk)
    have e3 : (repairedState s k { l with record := fresh q } 1).rebuildEntry k =
        repairedState s k { l with record := fresh q, entry := fresh (entryOf q) } 2 := by
      rw [e2, ← put_repaired _ k _ hk, repaired_twice s k _ _ hk]
      rfl
    simp only [fr, fe, State.mendRecord, if_true, e, e3]

/-! ### What a rebuild leaves (R152, R153) -/

/-- The skeleton the rebuild writes is the one the table of R152 gives, field by field. -/
theorem skeleton_eq (s : State) (e : IndexEntry) : s.skeleton e =
    skeletonFrom s e (if e.state = .testing then .cured else e.state) := by
  unfold State.skeleton skeletonFrom
  cases h : e.state <;> simp [skeletonState, standsInLane, Nat.pos_iff_ne_zero]

/-- The lot that a rebuild writes from a good entry (R152). -/
def rebuiltLot (s : State) (e : IndexEntry) : Lot :=
  { record := fresh (s.skeleton e), entry := fresh { e with state := (s.skeleton e).state }, numberCopy := some e.number }

/-- The state in which a rebuilt record stands and the queue places its lot held have been given, before the fault is
counted (R100, R152, R153). -/
def rebuiltState (s : State) (k : Nat) (e : IndexEntry) : State :=
  if (s.skeleton e).state = .cured then (s.putLot k (rebuiltLot s e)).giveUpQueue e.number
  else s.putLot k (rebuiltLot s e)

/-- Giving rooms leaves which slots are free and healthy (R100). -/
theorem freeHealthy_giveRooms (n : Nat) (s : State) (j : Nat) :
    freeHealthy ((s.giveRooms n).slot j) = freeHealthy (s.slot j) := by
  have change : ∀ (s : State) k f, freeHealthy ((s.changeRecord k f).slot j) = freeHealthy (s.slot j) := by
    intro s k f
    unfold State.changeRecord
    split
    · rename_i l hl
      rw [State.putLot, slot_setSlot]
      split
      · rename_i h
        rw [← h.1]
        have : (s.slot k).contents = some l := hl
        simp [freeHealthy, this]
      · rfl
    · rfl
  have one : ∀ s : State, freeHealthy ((s.giveRoom).slot j) = freeHealthy (s.slot j) := by
    intro s
    unfold State.giveRoom
    split
    · split
      · rw [State.setStatus, change]
        rfl
      · rfl
    · rfl
  induction n generalizing s with
  | zero => rfl
  | succ n ih => rw [State.giveRooms, ih, one]

/-- The rebuilt record stands in its slot, and the slots that are free and healthy stay so. -/
theorem rebuiltState_slots (s : State) (k : Nat) (e : IndexEntry) (hk : k < Config.slotCount)
    (ho : (s.slot k).contents.isSome = true) :
    (rebuiltState s k e).slot k = { s.slot k with contents := some (rebuiltLot s e) } ∧
      (rebuiltState s k e).lowestFree = s.lowestFree ∧
      ∀ f, s.lowestFree = some f → (rebuiltState s k e).slot f = s.slot f := by
  let m := rebuiltLot s e
  let t := s.putLot k m
  have ht : t.slot k = { s.slot k with contents := some m } := slot_setSlot_same s k _ hk
  have hf : t.lowestFree = s.lowestFree := lowestFree_set s t k _ rfl rfl ho
  have hmw : m.record.held.queueStatus ≠ some .waiting := by
    show (s.skeleton e).queueStatus ≠ _
    simp only [State.skeleton]
    split <;> simp
  have free : ∀ f, s.lowestFree = some f → (s.slot f).contents = none := by
    intro f hf
    obtain ⟨hlt, hq, -⟩ := List.findIdx?_eq_some_iff_getElem.mp hf
    have : s.slot f = s.slots.toList[f] := by
      simp only [State.slot, List.getD_eq_getElem?_getD, List.getElem?_eq_getElem hlt]
      rfl
    rw [← this] at hq
    simp only [freeHealthy, Bool.and_eq_true, Option.isNone_iff_eq_none] at hq
    exact hq.1
  have hts : ∀ f, s.lowestFree = some f → t.slot f = s.slot f := by
    intro f h
    refine slot_setSlot_ne s k f _ ?_
    rintro rfl
    rw [free f h] at ho
    cases ho
  unfold rebuiltState
  split
  · let u : State := { t with queue := t.queue.filter (· != e.number), bench := t.bench.filter (·.lot != e.number) }
    show (u.giveRooms (t.placesHeld e.number)).slot k = _ ∧ (u.giveRooms (t.placesHeld e.number)).lowestFree = _ ∧
      ∀ f, s.lowestFree = some f → (u.giveRooms (t.placesHeld e.number)).slot f = _
    obtain ⟨-, g⟩ := giveRooms_keeps (t.placesHeld e.number) u
    refine ⟨?_, ?_, fun f h => ?_⟩
    · rw [g k fun r hr _ => ?_]
      · exact ht
      · have : u.recordAt k = some m.record.held := by
          show ((u.slot k).contents.map fun l => l.record.held) = _
          rw [show u.slot k = _ from ht]
          rfl
        rw [this] at hr
        cases hr
        exact hmw
    · rw [← hf]
      exact lowestFree_congr t _ fun j _ => freeHealthy_giveRooms _ u j
    · rw [g f fun r hr _ => ?_]
      · exact hts f h
      · have hn : (u.slot f).contents = none := by
          rw [show u.slot f = _ from hts f h]
          exact free f h
        simp [State.recordAt, State.lotAt, hn] at hr
  · exact ⟨ht, hf, hts⟩

/-- What the audit's check of a damaged record with a good entry comes to, before any relocation (R149, R152, R153). -/
theorem checkItems_rebuilt (s : State) (k : Nat) (l : Lot) (hl : s.lotAt k = some l) (h1 : l.record.code = .beyond)
    (h2 : l.entry.code = .agrees) :
    s.checkItems k = some (State.relocateNewlyWorn { rebuiltState s k l.entry.held with
      slots := (rebuiltState s k l.entry.held).slots.setIfInBounds k (countedSlot
        { s.slot k with contents := some (rebuiltLot s l.entry.held), reported := true } (tallyRebuild (s.slot k).tally))
      ports := countedPorts (told (s.raise .hold) (s.slot k)) (s.slot k) (tallyRebuild (s.slot k).tally) } s k) := by
  have hk := slot_of_lotAt s k l hl
  have ho : (s.slot k).contents.isSome = true := by
    have : (s.slot k).contents = some l := hl
    rw [this]
    rfl
  have fr : findingOf l.record = .damaged := by simp [findingOf, h1]
  have fe : entryFinding l = .clean := by simp [entryFinding, findingOf, h1, h2]
  let e := l.entry.held
  let m := rebuiltLot s e
  obtain ⟨g1, -⟩ := rebuiltState_slots s k e hk ho
  let b : State := { rebuiltState s k e with ports := (s.raise .hold).ports }
  have key : ((if (s.skeleton e).state = .cured then ((s.putLot k m).raise .hold).giveUpQueue e.number
      else (s.putLot k m).raise .hold) : State) = b := by
    simp only [b, rebuiltState]
    split
    · exact giveRooms_withPorts _ (((s.putLot k m).leaveQueue e.number).leaveBench e.number) (s.raise .hold).ports
    · rfl
  have hput : b.putLot k m = b := by
    have h : b.slot k = { s.slot k with contents := some m } := g1
    have hb : b.putLot k m = b.setSlot k (b.slot k) := by rw [State.putLot, h]
    rw [hb]
    exact setSlot_slot b k hk
  have hb : s.rebuildRecord k = ((b.putLot k m).reportRepair k).countFault k tallyRebuild := by
    unfold State.rebuildRecord
    rw [hl, hput]
    exact congrArg (fun x => (State.reportRepair x k).countFault k tallyRebuild) key
  have hbk : b.slot k = { s.slot k with contents := some m } := g1
  unfold State.checkItems
  rw [hl]
  dsimp only
  simp only [fr, fe, State.mendEntry, reduceCtorEq, if_false]
  rw [hb, put_counted b k m tallyRebuild hk, hbk]
  congr 2
  simp only [told, countedPorts, State.raise, b]
  by_cases hr : (s.slot k).reported = true <;> simp [hr, m, e]

/-! ### The slot after its wear has been judged (R157, R158) -/

/-- A slot whose fault has been counted, once a slot that became worn has been relocated: it stays as it is, or its lot
moves into the lowest free healthy slot, or waits. -/
theorem relocateNewlyWorn_cases (s u P : State) (k : Nat) (m : Lot) (t : Nat) (hk : k < Config.slotCount)
    (hu : u = { P with slots :=
      s.slots.setIfInBounds k (countedSlot { s.slot k with contents := some m, reported := true } t) })
    (hm : relocated m = m) (ho : (s.slot k).contents.isSome = true) :
    let x := s.slot k
    let y := { x with contents := some m, tally := t, reported := true }
    (x.worn = true ∨ t < 4 → u.relocateNewlyWorn s k = { P with slots := s.slots.setIfInBounds k y }) ∧
    (x.worn = false → 4 ≤ t →
      (∀ f, s.lowestFree = some f → u.relocateNewlyWorn s k = { P with
        slots := (s.slots.setIfInBounds f { s.slot f with contents := some m }).setIfInBounds k
          { y with worn := true, contents := none, waiting := false } }) ∧
      (s.lowestFree = none → u.relocateNewlyWorn s k = { P with
        slots := s.slots.setIfInBounds k { y with worn := true, waiting := true } })) := by
  intro x y
  have hus : u.slot k = countedSlot { x with contents := some m, reported := true } t := by
    have : u.slot k = (s.setSlot k (countedSlot { x with contents := some m, reported := true } t)).slot k := by
      rw [hu]
      rfl
    rw [this, slot_setSlot_same s k _ hk]
  have hul : u.lotAt k = some m := by
    rw [State.lotAt, hus]
    rfl
  have hlf : u.lowestFree = s.lowestFree := lowestFree_set s u k _ (by rw [hu]) rfl ho
  refine ⟨fun h => ?_, fun h1 h2 => ?_⟩
  · have hq : countedSlot { x with contents := some m, reported := true } t = y := by
      unfold countedSlot
      rcases h with h | h
      · simp [y, h]
      · have : ¬ 4 ≤ t := by omega
        simp [y, Config.wearTally, this]
    unfold State.relocateNewlyWorn
    rw [if_neg]
    · rw [hu, ← hq]
    · rw [hus, hq]
      show ¬ ((!x.worn && x.worn) = true)
      cases x.worn <;> simp
  · have hq : countedSlot { x with contents := some m, reported := true } t = { y with worn := true } := by
      unfold countedSlot
      simp [y, Config.wearTally, h2]
    have hrel : u.relocateNewlyWorn s k = u.relocate k := by
      unfold State.relocateNewlyWorn
      rw [if_pos]
      rw [hus, hq, show (s.slot k).worn = false from h1]
      rfl
    obtain ⟨r1, r2⟩ := relocate_eq u k m hul hm
    refine ⟨fun f hf => ?_, fun hf => ?_⟩
    · rw [hrel, r1 f (hlf.trans hf), hus, hq]
      have hne : f ≠ k := by
        rintro rfl
        obtain ⟨hlt, hq, -⟩ := List.findIdx?_eq_some_iff_getElem.mp hf
        have : s.slot f = s.slots.toList[f] := by
          simp only [State.slot, List.getD_eq_getElem?_getD, List.getElem?_eq_getElem hlt]
          rfl
        rw [← this] at hq
        cases hc : (s.slot f).contents with
        | none => rw [hc] at ho; cases ho
        | some a => simp [freeHealthy, hc] at hq
      have hf' : u.slot f = s.slot f := by
        have : u.slot f = (s.setSlot k (countedSlot { x with contents := some m, reported := true } t)).slot f := by
          rw [hu]
          rfl
        rw [this, slot_setSlot_ne s k f _ hne]
      have swap : ∀ (v : Vector Slot 512) (a b c : Slot),
          ((v.setIfInBounds k a).setIfInBounds f b).setIfInBounds k c = (v.setIfInBounds f b).setIfInBounds k c := by
        intro v a b c
        apply Vector.ext
        intro i hi
        simp only [Vector.getElem_setIfInBounds]
        by_cases h1 : k = i <;> by_cases h2 : f = i <;> simp [h1, h2]
      rw [hf', hu]
      dsimp only
      rw [swap]
    · rw [hrel, r2 (hlf.trans hf), hus, hq, hu]
      dsimp only
      rw [setIfInBounds_twice]

end Sys2Proof.Machine
end

