-- ==== Sys2Proof/Laws/Losses.lean ====
section
/-! SUPPORT. The loss of a lot: what the loss check finds among clean slots, which numbers are lost, and what leaving
every place does (R154 to R156). -/

namespace Sys2Proof.Machine

/-! ### Lists and vectors -/

theorem mapVector_mapVector {α : Type} {n : Nat} (f g : α → α) (v : Vector α n) :
    mapVector f (mapVector g v) = mapVector (fun x => f (g x)) v := by
  apply Vector.toList_inj.mp
  simp only [mapVector_toList, List.map_map]
  rfl

theorem mapVector_self {α : Type} {n : Nat} (f : α → α) (v : Vector α n) (h : ∀ x, f x = x) : mapVector f v = v := by
  apply Vector.toList_inj.mp
  rw [mapVector_toList]
  exact (List.map_congr_left fun x _ => h x).trans (List.map_id _)

theorem getD_mapVector {α : Type} {n : Nat} (f : α → α) (v : Vector α n) (k : Nat) (d : α) (hd : f d = d) :
    (mapVector f v).toList.getD k d = f (v.toList.getD k d) := by
  rw [mapVector_toList, List.getD_eq_getElem?_getD, List.getD_eq_getElem?_getD, List.getElem?_map]
  cases v.toList[k]? with
  | none => exact hd.symm
  | some x => rfl

/-- What remains once one number after another has been left out. -/
theorem filter_ne_contains {α : Type} (f : α → Nat) (n : Nat) (ns : List Nat) (l : List α) :
    (l.filter fun x => f x != n).filter (fun x => !ns.contains (f x)) = l.filter fun x => !(n :: ns).contains (f x) := by
  rw [List.filter_filter]
  refine List.filter_congr fun x _ => ?_
  simp only [List.contains_cons, Bool.not_or, bne]
  rw [Bool.and_comm]

/-- The elements of a list that name one of several different numbers, counted number by number. -/
theorem sum_filter_eq {α : Type} (f : α → Nat) (ns : List Nat) (l : List α) (h : ns.Nodup) :
    (ns.map fun n => (l.filter fun x => f x == n).length).sum = (l.filter fun x => ns.contains (f x)).length := by
  induction ns with
  | nil => simp
  | cons n ns ih =>
    obtain ⟨hn, hns⟩ := List.nodup_cons.mp h
    rw [List.map_cons, List.sum_cons, ih hns]
    clear ih
    induction l with
    | nil => rfl
    | cons x l ihl =>
      simp only [List.filter_cons, List.contains_cons] at ihl ⊢
      by_cases hx : f x = n
      · have hc : ns.contains (f x) = false := by simpa [hx] using hn
        simp only [hx, beq_self_eq_true, Bool.true_or, if_true, List.length_cons] at ihl hc ⊢
        simp only [hc, Bool.false_eq_true, if_false]
        omega
      · have hb : (f x == n) = false := by simpa using hx
        simp only [hb, Bool.false_or, Bool.false_eq_true, if_false] at ihl ⊢
        by_cases hc : ns.contains (f x) = true
        · simp only [hc, if_true, List.length_cons]
          omega
        · have hc' : ns.contains (f x) = false := by simpa using hc
          simp only [hc', Bool.false_eq_true, if_false]
          exact ihl

/-! ### The places that lost numbers leave (R155) -/

/-- A channel bound to one of several lots becomes FREE. -/
def freeIfAmong (ns : List Nat) (c : Channel) : Channel :=
  match c with
  | some b => if ns.contains b.lot then none else some b
  | none => none

/-- A cell that several lots leave. -/
def leaveCell (ns : List Nat) (c : Cell) : Cell :=
  { c with lane := c.lane.filter (!ns.contains ·), reservations := c.reservations.filter (!ns.contains ·) }

/-- Numbers lost one after another leave every place that names one of them. -/
theorem foldl_loseNumber_eq (ns : List Nat) (s : State) : ns.foldl State.loseNumber s = { s with
    cells := mapVector (leaveCell ns) s.cells
    queue := s.queue.filter (!ns.contains ·)
    bench := s.bench.filter fun e => !ns.contains e.lot
    channels := mapVector (freeIfAmong ns) s.channels
    potLife := s.potLife.filter fun e => !ns.contains e.lot } := by
  induction ns generalizing s with
  | nil =>
    have h1 : mapVector (leaveCell []) s.cells = s.cells := mapVector_self _ _ fun c => by simp [leaveCell]
    have h2 : mapVector (freeIfAmong []) s.channels = s.channels :=
      mapVector_self _ _ fun c => by cases c <;> simp [freeIfAmong]
    rw [h1, h2]
    simp
  | cons n ns ih =>
    rw [List.foldl_cons, ih]
    have hc : ∀ c : Cell, leaveCell ns (leaveReservation n (leaveLane n c)) = leaveCell (n :: ns) c := fun c => by
      simp only [leaveCell, leaveReservation, leaveLane]
      congr 1
      · exact filter_ne_contains (fun x => x) n ns c.lane
      · exact filter_ne_contains (fun x => x) n ns c.reservations
    have hch : ∀ c : Channel, freeIfAmong ns (freeIfBound n c) = freeIfAmong (n :: ns) c := fun c => by
      cases c with
      | none => rfl
      | some b =>
        by_cases hb : b.lot = n
        · simp [freeIfAmong, freeIfBound, hb]
        · have : (b.lot == n) = false := by simpa using hb
          simp [freeIfAmong, freeIfBound, hb]
    have e1 := filter_ne_contains (fun x : Nat => x) n ns s.queue
    have e2 := filter_ne_contains BenchEntry.lot n ns s.bench
    have e3 := filter_ne_contains PotEntry.lot n ns s.potLife
    simp only [State.loseNumber, State.removeInPlace, State.leaveQueue, State.leaveBench, State.freeChannelOf,
      State.leavePot, mapVector_mapVector, hc, hch]
    rw [e1, e2, e3]

/-- The queue places that several different numbers hold. -/
theorem placesHeld_sum (s : State) (ns : List Nat) (h : ns.Nodup) : (ns.map s.placesHeld).sum =
    (s.queue.filter (ns.contains ·)).length + (s.bench.filter fun e => ns.contains e.lot).length := by
  rw [← sum_filter_eq (fun x : Nat => x) ns s.queue h, ← sum_filter_eq BenchEntry.lot ns s.bench h,
    ← List.sum_map_add]
  rfl

/-! ### One lot lost among clean ones (R154) -/

/-- The loss check finds no second loss where every other slot is clean. -/
theorem lossCheck_clean (s : State) (k : Nat) (h : ∀ j m, j ≠ k → s.lotAt j = some m → cleanLot m) :
    s.lossCheck k = (s, [k]) := by
  have walk : ∀ js : List Nat, (∀ j ∈ js, j ≠ k) → js.foldl lossCheckOne (s, []) = (s, []) := by
    intro js
    induction js with
    | nil => intro _; rfl
    | cons j js ih =>
      intro hj
      have hi := checkItems_others s j fun m hm => h j m (hj j List.mem_cons_self) hm
      have one : lossCheckOne (s, []) j = (s, []) := by simp only [lossCheckOne, hi]
      rw [List.foldl_cons, one]
      exact ih fun i hi => hj i (List.mem_cons_of_mem j hi)
  unfold State.lossCheck
  rw [walk _ fun j hj => by simpa using (List.mem_filter.mp hj).2]
  rfl

theorem mem_keptLots_one (s : State) (k : Nat) : s.keptLots [k] = s.occupied.filter fun x => x.1 != k := by
  unfold State.keptLots
  refine List.filter_congr fun x _ => ?_
  rw [Bool.eq_iff_iff]
  simp

/-- A number that an entry outside the lost slot holds. -/
theorem kept_number (s : State) (k n : Nat) :
    ((s.keptLots [k]).map fun x => x.2.entry.held.number).contains n =
      s.occupied.any fun x => x.1 != k && x.2.entry.held.number == n := by
  rw [mem_keptLots_one, Bool.eq_iff_iff, List.contains_iff_mem, List.mem_map, List.any_eq_true]
  constructor
  · rintro ⟨x, hx, rfl⟩
    obtain ⟨h1, h2⟩ := List.mem_filter.mp hx
    exact ⟨x, h1, by simp [h2]⟩
  · rintro ⟨x, hx, h⟩
    simp only [Bool.and_eq_true, beq_iff_eq] at h
    exact ⟨x, List.mem_filter.mpr ⟨hx, h.1⟩, h.2⟩

theorem readableLost_one (s : State) (k : Nat) (l : Lot) (hl : s.lotAt k = some l) :
    s.readableLost [k] = [(k, l.numberCopy)] := by simp [State.readableLost, hl]

/-- The numbers that a collection names and one lost slot loses. -/
theorem lostNumbers_one (s : State) (k : Nat) (l : Lot) (n : Nat) (hl : s.lotAt k = some l) (hn : n ∈ s.namedNumbers) :
    (s.lostNumbers [k]).contains n = lostWith s k l n := by
  have hk := kept_number s k n
  rw [Bool.eq_iff_iff, List.contains_iff_mem]
  simp only [State.lostNumbers, readableLost_one s k l hl, State.orphanedNumbers, List.mem_dedup, List.mem_append,
    List.mem_filter, hn, true_and, lostWith, Bool.or_eq_true, hk]
  refine or_congr ?_ Iff.rfl
  cases l.numberCopy with
  | none => simp
  | some m => simpa using eq_comm

/-- What a loss record says of one lost slot: its readable number, or the one number alone that remains (R156). -/
theorem attributed_one (s : State) (k : Nat) (l : Lot) (hl : s.lotAt k = some l) :
    s.attributed [k] = [(k, l.numberCopy)] ∨
      l.numberCopy = none ∧ ∃ n, lostWith s k l n = true ∧ s.attributed [k] = [(k, some n)] := by
  unfold State.attributed
  rw [readableLost_one s k l hl]
  cases hc : l.numberCopy with
  | some m => left; simp
  | none =>
    dsimp only
    split
    · rename_i n j h1 h2
      simp only [List.filter_cons, Option.isNone_none, if_true, List.filter_nil, List.map_cons, List.map_nil,
        List.cons.injEq, and_true] at h2
      subst h2
      right
      refine ⟨rfl, n, ?_, by simp⟩
      have hm : n ∈ s.orphanedNumbers [k] := by
        have : n ∈ [n] := List.mem_singleton.mpr rfl
        rw [← h1] at this
        exact (List.mem_filter.mp this).1
      simp only [State.orphanedNumbers, List.mem_dedup, List.mem_filter, kept_number] at hm
      simp only [lostWith, Bool.or_eq_true]
      exact .inr hm.2
    · left; rfl

end Sys2Proof.Machine
end

