-- ==== Sys2Proof/Laws/Mending.lean ====
section
/-! SUPPORT. The check of a lot that a request names, where its slot holds a fault that repairs mend: what the check
leaves, and the slot and record the request goes on with (R4, R148). -/

namespace Sys2Proof.Machine

/-- A mended lot is clean, and it is the lot its slot stood for. -/
theorem mended_clean (l left : Lot) (rise : Nat) (h : mended l left rise) :
    cleanLot left ∧ lotNumber l = some left.record.held.number := by
  rcases h with ⟨q, h1, h2, rfl, -⟩ | ⟨h1, h2, rfl, -⟩ | ⟨q, h1, h2, rfl, -⟩ | ⟨h1, -, rfl, -⟩ | ⟨q, h1, -, rfl, -⟩
  · exact ⟨⟨rfl, by simp [h2, fresh], by simp [h2, fresh]⟩, by simp [lotNumber, findingOf, repairedOf, h1, fresh]⟩
  · exact ⟨⟨h1, rfl, rfl⟩, lotNumber_agrees l h1⟩
  · exact ⟨⟨rfl, rfl, rfl⟩, by simp [lotNumber, findingOf, repairedOf, h1, fresh]⟩
  · exact ⟨⟨h1, rfl, rfl⟩, lotNumber_agrees l h1⟩
  · exact ⟨⟨rfl, rfl, rfl⟩, by simp [lotNumber, findingOf, repairedOf, h1, fresh]⟩

/-- A mended lot counts at least one repair. -/
theorem mended_rise (l left : Lot) (rise : Nat) (h : mended l left rise) : 1 ≤ rise := by
  rcases h with ⟨_, -, -, -, h⟩ | ⟨-, -, -, h⟩ | ⟨_, -, -, -, h⟩ | ⟨-, -, -, h⟩ | ⟨_, -, -, -, h⟩ <;> omega

/-- The check of a slot with a fault that repairs mend: the slot stays, or is worn and its lot moves or waits (R149 to
R151, R157, R158). -/
theorem checkSlot_mended (s : State) (k : Nat) (l left : Lot) (rise : Nat) (hl : s.lotAt k = some l)
    (hm : mended l left rise) :
    let x := s.slot k
    let y := { x with contents := some left, tally := min 15 (x.tally + rise), reported := true }
    (x.worn = true ∨ x.tally + rise < 4 →
      s.checkSlot k = { s with slots := s.slots.setIfInBounds k y, ports := (told s x).ports }) ∧
    (x.worn = false → 4 ≤ x.tally + rise →
      (∀ f, s.lowestFree = some f → s.checkSlot k = { s with
        slots := (s.slots.setIfInBounds f { s.slot f with contents := some left }).setIfInBounds k
          { y with worn := true, contents := none, waiting := false }
        ports := ((told s x).raise .worn).ports }) ∧
      (s.lowestFree = none → s.checkSlot k = { s with
        slots := s.slots.setIfInBounds k { y with worn := true, waiting := true }
        ports := ((told s x).raise .worn).ports })) := by
  intro x y
  have hk := slot_of_lotAt s k l hl
  obtain ⟨h1, h2⟩ := checkItems_mended s k l left rise hl hm
  have hcs : s.checkSlot k = (repairedState s k left rise).relocateNewlyWorn s k := by simp only [State.checkSlot, h1]
  have ho : x.contents.isSome = true := by
    have : x.contents = some l := hl
    rw [this]
    rfl
  have hrise := mended_rise l left rise hm
  obtain ⟨w1, w2⟩ := relocateNewlyWorn_cases s (repairedState s k left rise)
    { s with ports := countedPorts (told s x) x (min 15 (x.tally + rise)) } k left (min 15 (x.tally + rise)) hk rfl h2 ho
  rw [hcs]
  refine ⟨fun h => ?_, fun h3 h4 => ?_⟩
  · have hp : countedPorts (told s x) x (min 15 (x.tally + rise)) = (told s x).ports := by
      unfold countedPorts
      rw [if_neg]
      rintro ⟨a, b⟩
      rcases h with h | h
      · rw [h] at a
        cases a
      · have b' : 4 ≤ min 15 (x.tally + rise) := b
        omega
    rw [w1 (by rcases h with h | h; exact .inl h; right; omega), hp]
  · have hp : countedPorts (told s x) x (min 15 (x.tally + rise)) = ((told s x).raise .worn).ports := by
      unfold countedPorts
      rw [if_pos ⟨h3, by show 4 ≤ min 15 _; omega⟩]
    refine ⟨fun f hf => ?_, fun hf => ?_⟩
    · rw [(w2 h3 (by omega)).1 f hf, hp]
    · rw [(w2 h3 (by omega)).2 hf, hp]

/-- A clean lot whose number no other slot stands for is the one a request goes on with (R4). -/
theorem cleanOf_only (u : State) (n j : Nat) (m : Lot) (hl : u.lotAt j = some m) (hc : cleanLot m)
    (hn : m.record.held.number = n) (ho : ∀ i, i ≠ j → holdsNumber n (u.slot i) = false) :
    u.cleanOf n = some (j, m.record.held) := by
  have hf : u.slots.toList.findIdx? (holdsClean n) = some j := by
    refine ((findIdx_first (holdsClean n) Slot.blank u.slots.toList rfl).2 j).mpr ⟨?_, fun i hi => ?_⟩
    · show holdsClean n (u.slot j) = true
      simp [holdsClean, slot_lotAt u j m hl, lotNumber_agrees m hc.1, cleanBoth_clean m hc, hn]
    · show holdsClean n (u.slot i) = false
      have := ho i (by omega)
      unfold holdsNumber at this
      unfold holdsClean
      split
      · rename_i l hx
        rw [hx] at this
        dsimp only at this
        rw [this, Bool.false_and]
      · rfl
  unfold State.cleanOf
  rw [hf]
  simp [recordAt_of_lotAt u j m hl]

/-- The slot that a free healthy slot is found in is free and lies in the table. -/
theorem lowestFree_free (s : State) (f : Nat) (h : s.lowestFree = some f) :
    f < Config.slotCount ∧ (s.slot f).contents = none := by
  obtain ⟨hlt, hq, -⟩ := List.findIdx?_eq_some_iff_getElem.mp h
  have e : s.slot f = s.slots.toList[f] := by
    simp only [State.slot, List.getD_eq_getElem?_getD, List.getElem?_eq_getElem hlt]
    rfl
  rw [← e] at hq
  refine ⟨by simpa using hlt, ?_⟩
  cases hc : (s.slot f).contents with
  | none => rfl
  | some a => simp [freeHealthy, hc] at hq

/-- The check of a named lot with a fault that repairs mend, where one slot alone stands for the number: the request goes
on with the mended record, in its slot or in the one the lot was moved into (R4, R148). -/
theorem checkedLot_mended (s : State) (n k : Nat) (l left : Lot) (rise : Nat) (hn : s.slotOf n = some k)
    (ho : ∀ j, holdsNumber n (s.slot j) = true → j = k) (hl : s.lotAt k = some l) (hm : mended l left rise) :
    let x := s.slot k
    (x.worn = true ∨ x.tally + rise < 4 → s.checkedLot n = (s.checkSlot k, some (k, left.record.held))) ∧
    (x.worn = false → 4 ≤ x.tally + rise →
      (∀ f, s.lowestFree = some f → s.checkedLot n = (s.checkSlot k, some (f, left.record.held))) ∧
      (s.lowestFree = none → s.checkedLot n = (s.checkSlot k, some (k, left.record.held)))) := by
  intro x
  have hk := slot_of_lotAt s k l hl
  obtain ⟨hc, hnum⟩ := mended_clean l left rise hm
  have hleft : left.record.held.number = n := by
    have h1 := ((findIdx_first (holdsNumber n) Slot.blank s.slots.toList rfl).2 k).mp hn
    have h2 : holdsNumber n (s.slot k) = true := h1.1
    simp only [holdsNumber, slot_lotAt s k l hl, hnum] at h2
    simpa using h2
  have other : ∀ i, i ≠ k → holdsNumber n (s.slot i) = false := by
    intro i hi
    rw [← Bool.not_eq_true]
    exact fun h => hi (ho i h)
  have found : s.checkedLot n = (s.checkSlot k, (s.checkSlot k).cleanOf n) := by
    unfold State.checkedLot
    rw [hn]
  obtain ⟨c1, c2⟩ := checkSlot_mended s k l left rise hl hm
  have stays : ∀ z : Slot, z.contents = some left → (s.checkSlot k).slots = s.slots.setIfInBounds k z →
      s.checkedLot n = (s.checkSlot k, some (k, left.record.held)) := by
    intro z hz he
    have hs : ∀ i, (s.checkSlot k).slot i = (s.setSlot k z).slot i := fun i => by
      simp only [State.slot, he]
      rfl
    rw [found, cleanOf_only _ n k left ?_ hc hleft fun i hi => ?_]
    · rw [State.lotAt, hs, slot_setSlot_same s k z hk, hz]
    · rw [hs, slot_setSlot_ne s k i z hi]
      exact other i hi
  refine ⟨fun h => ?_, fun h3 h4 => ⟨fun f hf => ?_, fun hf => ?_⟩⟩
  · exact stays _ rfl (by rw [c1 h])
  · obtain ⟨hfl, hfree⟩ := lowestFree_free s f hf
    have hfk : f ≠ k := by
      rintro rfl
      rw [slot_lotAt s f l hl] at hfree
      cases hfree
    have e := (c2 h3 h4).1 f hf
    have hs : ∀ i, (s.checkSlot k).slot i = ((s.setSlot f { s.slot f with contents := some left }).setSlot k
        { s.slot k with
          contents := none, tally := min 15 ((s.slot k).tally + rise), reported := true, worn := true
          waiting := false }).slot i := fun i => by
      rw [e]
      rfl
    rw [found, cleanOf_only _ n f left ?_ hc hleft fun i hi => ?_]
    · rw [State.lotAt, hs, slot_setSlot_ne _ k f _ hfk, slot_setSlot_same s f _ hfl]
    · rw [hs]
      by_cases hik : i = k
      · subst hik
        rw [slot_setSlot_same _ i _ hk]
        rfl
      · rw [slot_setSlot_ne _ k i _ hik, slot_setSlot_ne s f i _ hi]
        exact other i hik
  · exact stays _ rfl (by rw [(c2 h3 h4).2 hf])

end Sys2Proof.Machine
end

