-- ==== Sys2Proof/Laws/Notices.lean ====
section
/-! SUPPORT. What orphans, starts and the outage rule do to the pending notice sets (R51, R90, R161, R183). -/

namespace Sys2Proof.Machine

/-- What a notice raised does to a port's pending set and mask. -/
theorem notices_raise (s : State) (k : Notice) (p : PortName) :
    ((s.raise k).port p).notices = heard (s.port p).mask.kinds k true (s.port p).notices ∧
      ((s.raise k).port p).mask = (s.port p).mask := notices_tellKind k true s.ports p

/-- What freeing channels does to a port's pending set and mask. -/
theorem notices_orphanChannels (s : State) (cs : List Nat) (p : PortName) :
    ((s.orphanChannels cs).port p).notices =
        heard (s.port p).mask.kinds .orphan (!cs.isEmpty) (s.port p).notices ∧
      ((s.orphanChannels cs).port p).mask = (s.port p).mask := by
  unfold State.orphanChannels
  split
  · rename_i h; rw [h]; exact ⟨rfl, rfl⟩
  · rename_i h
    obtain ⟨x, y, g⟩ := foldl_orphanChannel_frame cs s
    rw [g, List.isEmpty_eq_false_iff.mpr h]
    exact notices_raise { s with slots := x, channels := y } .orphan p

/-- The list of failing health entries is empty when none fails. -/
theorem healthFails_eq (s : State) : healthFails s = !s.failedHealth.isEmpty := by
  rw [Bool.eq_iff_iff, healthFails, List.any_eq_true, Bool.not_eq_true', List.isEmpty_eq_false_iff_exists_mem]
  constructor
  · rintro ⟨x, hx, hb⟩
    obtain ⟨i, hi, rfl⟩ := List.getElem_of_mem hx
    refine ⟨i, (mem_failedHealth s i).mpr ⟨by simpa using hi, ?_⟩⟩
    rw [State.slot, List.getD_eq_getElem?_getD, List.getElem?_eq_getElem hi]
    simpa using hb
  · rintro ⟨i, hi⟩
    obtain ⟨h1, h2⟩ := (mem_failedHealth s i).mp hi
    have hi' : i < s.slots.toList.length := by rw [Vector.length_toList]; exact h1
    rw [State.slot, List.getD_eq_getElem?_getD, List.getElem?_eq_getElem hi'] at h2
    exact ⟨_, List.getElem_mem hi', by rw [show s.slots.toList[i].checkGood = false from h2]; rfl⟩

/-- The list of bound channels is empty when none is bound. -/
theorem anyBound_eq (s : State) : anyBound s = !(s.channelsWhere fun _ _ => true).isEmpty := by
  rw [Bool.eq_iff_iff, anyBound, List.any_eq_true, Bool.not_eq_true', List.isEmpty_eq_false_iff_exists_mem]
  constructor
  · rintro ⟨x, hx, hb⟩
    obtain ⟨i, hi, rfl⟩ := List.getElem_of_mem hx
    obtain ⟨b, hb⟩ := Option.isSome_iff_exists.mp hb
    refine ⟨i, (mem_channelsWhere s _ i).mpr ⟨b, ?_, rfl⟩⟩
    rw [State.channel, List.getD_eq_getElem?_getD, List.getElem?_eq_getElem hi]
    exact hb
  · rintro ⟨i, hi⟩
    obtain ⟨b, hb, -⟩ := (mem_channelsWhere s _ i).mp hi
    rw [State.channel, List.getD_eq_getElem?_getD] at hb
    cases hx : s.channels.toList[i]? with
    | none => rw [hx] at hb; cases hb
    | some y => rw [hx] at hb; exact ⟨y, List.mem_of_getElem? hx, by rw [show y = some b from hb]; rfl⟩

/-- The channels at a warm start leave each slot as it stood or unbound (R51). -/
theorem slot_startChannels (s : State) (k : Nat) :
    s.startChannels.slot k = unbound (s.slot k) ∨ s.startChannels.slot k = s.slot k := by
  obtain ⟨h1, h2⟩ := orphansMade_orphanChannels (s.channelsWhere fun _ _ => true) s k
  by_cases h : ∃ c b, c ∈ (s.channelsWhere fun _ _ => true) ∧ s.channel c = some b ∧ s.slotOf b.lot = some k
  · exact .inl (h1 h)
  · exact .inr (h2 fun c b hc hb hk => h ⟨c, b, hc, hb, hk⟩)

theorem failedHealth_startChannels (s : State) (k : Nat) :
    k ∈ s.startChannels.failedHealth ↔ k ∈ s.failedHealth := by
  rw [mem_failedHealth, mem_failedHealth]
  rcases slot_startChannels s k with e | e <;> rw [e]
  rw [(worn_unbound _).2.1]

/-- The pending set of a port after the health table's check at a warm start (R161). -/
theorem notices_startAudit (s : State) (p : PortName) :
    (s.startAudit.port p).notices = heard (s.port p).mask.kinds .worn (healthFails s) (s.port p).notices ∧
      (s.startAudit.port p).mask = (s.port p).mask := by
  rw [healthFails_eq]
  unfold State.startAudit
  dsimp only
  split
  · rename_i h; rw [h]; exact ⟨rfl, rfl⟩
  · rename_i h
    obtain ⟨a, g⟩ := foldl_slots_frame State.relocate relocate_frame s.failedHealth
      (State.raise { s with slots := mapVector startHealth s.slots } .worn)
    rw [g, List.isEmpty_eq_false_iff.mpr h]
    exact notices_raise { s with slots := mapVector startHealth s.slots } .worn p

/-- The pending set of a port after a warm start (R51, R161, R183). -/
theorem notices_warmStart (s : State) (p : PortName) :
    (s.warmStart.port p).notices = startNotices s (s.warmStart.port p).mask.kinds := by
  let u := s.cutOff.startStores false
  have hu : u.slots = s.slots ∧ u.channels = s.channels := by
    simp only [u, State.startStores, State.cutOff, State.cutCommit]
    cases s.commit <;> exact ⟨rfl, rfl⟩
  have hn : (u.port p).notices = restartOnly := by cases p <;> rfl
  have e1 : healthFails u.startChannels = healthFails s := by
    have : healthFails s = healthFails u := by rw [healthFails, healthFails, hu.1]
    rw [this, Bool.eq_iff_iff, healthFails_eq, healthFails_eq]
    simp only [Bool.not_eq_true', List.isEmpty_eq_false_iff_exists_mem, failedHealth_startChannels]
  have e2 : (!(u.channelsWhere fun _ _ => true).isEmpty) = anyBound s := by
    rw [← anyBound_eq, anyBound, anyBound, hu.2]
  obtain ⟨a1, a2⟩ := notices_orphanChannels u (u.channelsWhere fun _ _ => true) p
  obtain ⟨b1, b2⟩ := notices_startAudit u.startChannels p
  show (u.startChannels.startAudit.port p).notices = startNotices s (u.startChannels.startAudit.port p).mask.kinds
  have a1' : (u.startChannels.port p).notices = _ := a1
  have a2' : (u.startChannels.port p).mask = _ := a2
  rw [b1, b2, e1, a1', a2', e2, hn]
  rfl

/-- The pending set of a port after a cold start (R161, R183). -/
theorem notices_coldBegin (s : State) (p : PortName) :
    (s.coldBegin.port p).notices = heard (s.coldBegin.port p).mask.kinds .worn (healthFails s) restartOnly := by
  rw [healthFails_eq]
  unfold State.coldBegin
  dsimp only
  split
  · rename_i h; rw [h]; cases p <;> rfl
  · rename_i h
    rw [List.isEmpty_eq_false_iff.mpr h]
    rw [(notices_raise _ .worn p).1, (notices_raise _ .worn p).2]
    cases p <;> rfl

/-- A warm start, while every health entry checks good, leaves which lots the outage rule would give SENSOR. -/
theorem gainsSensor_warmStart (s : State) (hh : healthChecks s) (n : Nat) :
    gainsSensor s.warmStart n = gainsSensor s n := by
  have hs := (startedSlots_warmStart s).1 hh
  have hk : ∀ j, s.warmStart.slot j = unbound (s.slot j) ∨ s.warmStart.slot j = s.slot j := by
    intro j
    obtain ⟨h1, h2⟩ := hs j
    by_cases e : ∃ c b, True ∧ s.channel c = some b ∧ s.slotOf b.lot = some j
    · exact .inl (h1 e)
    · exact .inr (h2 fun c b _ hb hk => e ⟨c, b, trivial, hb, hk⟩)
  have e1 : s.warmStart.slotOf n = s.slotOf n := slotOf_congr s s.warmStart n fun j => by
    rcases hk j with e | e <;> rw [e]
    exact holdsNumber_unbound _ n
  unfold gainsSensor State.recordOf
  rw [e1]
  cases s.slotOf n with
  | none => rfl
  | some k =>
    show Option.getD (Option.map _ (s.warmStart.recordAt k)) false = Option.getD (Option.map _ (s.recordAt k)) false
    unfold State.recordAt State.lotAt
    rcases hk k with e | e <;> rw [e]
    simp only [unbound]
    cases (s.slot k).contents with
    | none => rfl
    | some l => rfl

/-- A warm start leaves which cells the outage rule reaches, and, while every health entry checks good, whether it would
give a lot SENSOR (R90). -/
theorem outage_warmStart (s : State) : outageReached s.warmStart = outageReached s ∧
    (healthChecks s ∨ outageReached s = false → outageGains s.warmStart = outageGains s) := by
  obtain ⟨-, -, -, w4⟩ := warmStart_facts s
  have hc : s.warmStart.cells = s.cells := by rw [w4]
  have hcl : s.warmStart.clock = s.clock := by rw [w4]
  have hr : ∀ c, outageReaches s.warmStart c ↔ outageReaches s c := fun c => by
    unfold outageReaches State.cell; rw [hc, hcl]
  have e1 : outageReached s.warmStart = outageReached s := by simp only [outageReached, hr]
  refine ⟨e1, ?_⟩
  rintro (hh | hn)
  · have hg : ∀ l, laneGains s.warmStart l = laneGains s l := fun l =>
      congrArg (List.any l) (funext fun n => gainsSensor_warmStart s hh n)
    have hl : ∀ c, (s.warmStart.cell c).lane = (s.cell c).lane := fun c => by unfold State.cell; rw [hc]
    simp only [outageGains, hg, hl, hr]
  · have key : ∀ u, outageReached u = false → outageGains u = false := fun u h => by
      rw [outageReached, List.any_eq_false] at h
      rw [outageGains, List.any_eq_false]
      intro c hm
      rw [eq_false_of_ne_true (h c hm)]
      simp
    rw [key _ (e1.trans hn), key _ hn]

end Sys2Proof.Machine
end

