-- ==== Sys2Proof/WellFormed.lean ====
section
/-! DEFINITION. Which commands are well formed: each field fits the width section 11.6 gives it on the wire. A field
that fits its width and lies outside its stated range is well formed, and is refused by its owning rule. -/

namespace Sys2Proof

/-- A one-byte field. -/
def fits8 (n : Nat) : Bool := n < 256
/-- A two-byte field. -/
def fits16 (n : Nat) : Bool := n < 65536
/-- A three-byte field: a lot number. -/
def fits24 (n : Nat) : Bool := n < 16777216
/-- A four-byte field: a mass, a maturity, a minute. -/
def fits32 (n : Nat) : Bool := n < 4294967296
/-- A two-byte signed field: a temperature. -/
def fitsS16 (z : Int) : Bool := decide (-32768 ≤ z) && decide (z < 32768)
/-- A four-byte signed field: the amount of INTAKE. -/
def fitsS32 (z : Int) : Bool := decide (-2147483648 ≤ z) && decide (z < 2147483648)

/-- The 21 value bytes of a recipe (section 11.4). -/
def RecipeValues.fits (v : RecipeValues) : Bool :=
  fits16 v.cementRatio && fits16 v.waterRatio && fits8 v.doseTolerance && fitsS16 v.datum && fitsS16 v.frostLimit &&
    fits8 v.potLife && fits32 v.maturityTarget && fits32 v.retestIncrement && fits16 v.minStrength && fits8 v.maxLeach

/-- A command whose fields fit the wire (section 11.6); an event is well formed when the readings and numbers it
carries fit the bus (R76). -/
def Instr.wellFormed : Instr → Bool
  | .intake _ t a => fits8 t && fitsS32 a
  | .account _ t => fits8 t
  | .lookup _ t n => fits8 t && fits24 n
  | .scan _ t f n => fits8 t && fits8 f && fits24 n
  | .amendTarget _ t part n m => fits8 t && fits8 part && fits24 n && fits32 m
  | .amendRecipe _ t part n b r => fits8 t && fits8 part && fits24 n && fits8 b && fits8 r
  | .amendDosed _ t part n a c w => fits8 t && fits8 part && fits24 n && fits32 a && fits32 c && fits32 w
  | .holdLot _ t n => fits8 t && fits24 n
  | .clearHold _ t n h => fits8 t && fits24 n && fits8 h
  | .withdraw _ t n => fits8 t && fits24 n
  | .cellOpen _ t c => fits8 t && fits8 c
  | .cellClose _ t c => fits8 t && fits8 c
  | .cellStatus _ t c => fits8 t && fits8 c
  | .queueStatus _ t => fits8 t
  | .recipeRead _ t b r => fits8 t && fits8 b && fits8 r
  | .recipeWrite _ t b r f v => fits8 t && fits8 b && fits8 r && fits8 f && v.all RecipeValues.fits
  | .bankSelect _ t b => fits8 t && fits8 b
  | .mode _ t m => fits8 t && fits8 m
  | .portSetup _ t q r f l => fits8 t && fits8 q && fits8 r && fits8 f && fits8 l
  | .noticeMask _ t q k => fits8 t && fits8 q && fits16 k
  | .notices _ t => fits8 t
  | .slotHealth _ t => fits8 t
  | .reinstateSlot _ t k => fits8 t && fits16 k
  | .clock _ t m => fits8 t && m.all fits32
  | .restart _ t => fits8 t
  | .clearRegister _ t n => fits8 t && fits16 n
  | .openLot _ t c r a => fits8 t && fits8 c && fits8 r && fits32 a
  | .remixOpen _ t c r a n => fits8 t && fits8 c && fits8 r && fits32 a && fits24 n
  | .dose _ t c a b w => fits8 t && fits8 c && fits32 a && fits32 b && fits32 w
  | .sealLot _ t c k => fits8 t && fits8 c && fits8 k
  | .stall _ t c => fits8 t && fits8 c
  | .resume _ t c => fits8 t && fits8 c
  | .rebind _ t n c => fits8 t && fits24 n && fits8 c
  | .channelStatus _ t c => fits8 t && fits8 c
  | .take _ t => fits8 t
  | .returnLot _ t n => fits8 t && fits24 n
  | .verdictResult _ t n k a l => fits8 t && fits24 n && fits8 k && fits16 a && fits8 l
  | .verdictRetest _ t n k => fits8 t && fits24 n && fits8 k
  | .place _ t n c => fits8 t && fits24 n && fits8 c
  | .release _ t n c => fits8 t && fits24 n && fits8 c
  | .extract _ t n c => fits8 t && fits24 n && fits8 c
  | .frame _ bytes => decide (1 ≤ bytes.length) && decide (bytes.length ≤ 1031)
  | .portBusy _ t => fits8 t
  | .unknownRequestCode _ t c n => fits8 t && fits8 c && decide (n ≤ 1024)
  | .frameGapTimeout _ => true
  | .bodyLengthAbandon _ n => fits16 n
  | .answerSent _ => true
  | .clockAdvance => true
  | .conversionCompletion c r => fits8 c && fitsS16 r
  | .conversionTimeout => true
  | .strayCompletion c r _ => fits8 c && fitsS16 r
  | .potLifeExpiry => true
  | .idleTimerExpiry _ => true
  | .portSetupWriteEnd => true
  | .bankStateWriteEnd => true
  | .auditStep _ => true
  | .recipeCommitCompletion => true
  | .warmRestart => true
  | .coldStart => true
  | .resetLineAssert => true
  | .resetLineRelease => true
  | .startComplete => true
  | .mainSupplyLoss => true
  | .mainSupplyReturn _ => true

end Sys2Proof
end

