-- ==== Sys2Proof/Tests/Slice0.lean ====
section
/-! SUPPORT. Tests: what the well-formedness check refuses, the bytes of frames, one step of each command on a small
state (the figures are those of the worked sequences where they give them), and, for the statements' hypotheses,
states and operands that meet them. -/

namespace Sys2Proof.Tests

set_option Elab.async false

open Sys2Proof.Machine

/-! ### Well-formedness: each width refuses a value beyond it -/

theorem test_wf_tag : (Instr.account .a 256).wellFormed = false ∧ (Instr.account .a 255).wellFormed = true := by decide
theorem test_wf_byte : (Instr.stall .b 1 256).wellFormed = false := by decide
theorem test_wf_two_bytes : (Instr.clearRegister .a 1 65536).wellFormed = false := by decide
theorem test_wf_lot : (Instr.lookup .a 1 16777216).wellFormed = false := by decide
theorem test_wf_mass : (Instr.openLot .b 1 0 0 4294967296).wellFormed = false := by decide
theorem test_wf_amount : (Instr.intake .a 1 2147483648).wellFormed = false ∧
    (Instr.intake .a 1 (-2147483649)).wellFormed = false := by decide
theorem test_wf_reading : (Instr.conversionCompletion 0 32768).wellFormed = false ∧
    (Instr.strayCompletion 0 (-32769) true).wellFormed = false := by decide
theorem test_wf_recipe : (Instr.recipeWrite .a 1 0 0 1 (some ⟨0, 0, 256, 0, 0, 0, 0, 0, 0, 0⟩)).wellFormed = false := by
  decide
theorem test_wf_minute : (Instr.clock .a 1 (some 4294967296)).wellFormed = false := by decide
theorem test_wf_frame : (Instr.frame .a []).wellFormed = false ∧ (Instr.frame .a [195]).wellFormed = true := by decide
theorem test_wf_length : (Instr.unknownRequestCode .a 1 0 1025).wellFormed = false := by decide
theorem test_wf_kinds : (Instr.noticeMask .a 1 0 65536).wellFormed = false := by decide

/-! ### Small states -/

/-- The state a step answers. -/
def after (o : Host.Outcome State Fault Refusal) : State :=
  match o with
  | .next s => s
  | .fault _ => State.reset
  | .refused _ => State.reset

/-- The answer a port is BUSY with. -/
def answerOn (p : PortName) (s : State) : Option (Nat × OutcomeCode × List Machine.Field) :=
  (s.port p).answer.map fun a => (a.tag, a.outcome, a.body)

/-- What a command makes port `p` answer. -/
def answers (p : PortName) (i : Instr) (s : State) : Option (Nat × OutcomeCode × List Machine.Field) :=
  answerOn p (after (exec i s))

/-- The recipe of the worked sequences. -/
def values : RecipeValues := ⟨200, 300, 50, -50, -20, 60, 500000, 100000, 1200, 2⟩

/-- Lot 5,231 with its snapshot of recipe 0/3, in one of its states. -/
def lot (st : LotState) : LotRecord :=
  { number := 5231, state := st, holds := 0, recipe := some ⟨⟨0, 3⟩, snapshotOf values⟩, generation := 0, parent := none
    reservation := none, carriedAsh := none, dosed := some ⟨24600, 4900, 7400⟩, ashMass := some 24600, channel := none
    mixDeadline := none, targetCell := none, cell := some 12, maturity := some 0, target := some 500000
    pendingTarget := none, frostRun := none, retests := 0, tester := none, result := none, failCause := none
    opened := some 10000, sealedAt := some 10041, placed := some 10070, cured := none, queueStatus := none }

def mixing : LotRecord :=
  { lot .mixing with
    reservation := some 24000, dosed := some ⟨12000, 2400, 3600⟩, ashMass := none, channel := some 1
    mixDeadline := some 10060, cell := none, maturity := none, sealedAt := none, placed := none }
def sealed : LotRecord := { lot .sealed with targetCell := some 12, cell := none, maturity := none, placed := none }
def curing : LotRecord := { lot .curing with maturity := some 349500, frostRun := some 0 }
def cured (q : QueueStatus) : LotRecord :=
  { lot .cured with maturity := some 560100, cured := some 13804, queueStatus := some q }
def testing : LotRecord := { lot .testing with maturity := some 560100, cured := some 13804, tester := some .c }
def extracted : LotRecord := { lot .extracted with cell := none }

/-- The register with one lot, in slot 17. -/
def one (r : LotRecord) : State := State.reset.writeLot 17 r

/-- A cell whose lane and reservation set are given. -/
def cell (lane reserved : List Nat) : Machine.Cell := { Machine.Cell.blank with lane := lane, reservations := reserved }

/-- A state with cell 12 as given. -/
def withCell (c : Machine.Cell) (s : State) : State := s.setCell 12 c

/-- In RUN, with recipe 0/3 VALID and the balance of the worked sequence. -/
def inRun (s : State) : State :=
  { s with
    mode := .run, clock := 10000, counter := ⟨5231, false⟩
    recipes := s.recipes.setIfInBounds 3 ⟨some values, true⟩
    account := { s.account with intake := 300000, balance := 60000, live := 240000 } }

/-- The lot MIXING on channel 1, held by port B, with its reservation taken. -/
def mixed (r : LotRecord) (doses : Nat) : State :=
  { inRun (one r) with
    channels := State.reset.channels.setIfInBounds 1 (some ⟨false, .b, 5231, doses⟩), potLife := [⟨5231, 10060⟩]
    account := { Account.blank with intake := 300000, balance := 36000, reserved := 24000, live := 240000 } }

theorem slot_reset (k : Nat) : State.reset.slot k = Slot.blank := by
  simp only [State.slot, State.reset, Vector.toList_replicate]
  rw [List.getD_eq_getElem?_getD, List.getElem?_replicate]
  split <;> rfl

theorem slot_one (r : LotRecord) (k : Nat) (h : k ≠ 17) : (one r).slot k = Slot.blank :=
  (slot_writeLot_ne _ 17 k r h).trans (slot_reset k)

theorem lotAt_one (r : LotRecord) : (one r).lotAt 17 = some (freshLot r) := lotAt_writeLot _ 17 r (by decide)

theorem clean_one (r : LotRecord) : allClean (one r) := by
  intro k l h
  by_cases hk : k = 17
  · rw [hk, lotAt_one] at h
    cases h
    exact ⟨rfl, rfl, rfl⟩
  · unfold State.lotAt at h
    rw [slot_one r k hk] at h
    cases h

theorem live (r : LotRecord) (h : r.number = 5231) : liveLot (one r) 5231 17 r := by
  refine ⟨by decide, by decide, ?_, freshLot r, lotAt_one r, ⟨rfl, rfl, rfl⟩, rfl⟩
  refine ((findIdx_first (holdsNumber 5231) Slot.blank _ rfl).2 17).mpr ⟨?_, fun j hj => ?_⟩
  · show holdsNumber 5231 ((one r).slot 17) = true
    have : ((one r).slot 17).contents = some (freshLot r) := lotAt_one r
    simp only [holdsNumber, this]
    show (r.number == 5231) = true
    rw [h]; rfl
  · show holdsNumber 5231 ((one r).slot j) = false
    rw [slot_one r j (by omega)]; rfl

/-- The register with two lots, in slots 17 and 20. -/
def pair (q r : LotRecord) : State := (one q).writeLot 20 r

/-- A record under the number of the second lot. -/
def second (r : LotRecord) : LotRecord := { r with number := 5240 }

theorem slot_pair (q r : LotRecord) (k : Nat) (h1 : k ≠ 17) (h2 : k ≠ 20) : (pair q r).slot k = Slot.blank :=
  (slot_writeLot_ne _ 20 k r h2).trans (slot_one q k h1)

theorem lotAt_pair (q r : LotRecord) :
    (pair q r).lotAt 17 = some (freshLot q) ∧ (pair q r).lotAt 20 = some (freshLot r) := by
  refine ⟨?_, lotAt_writeLot _ 20 r (by decide)⟩
  have := slot_writeLot_ne (one q) 20 17 r (by decide)
  unfold State.lotAt pair
  rw [this]
  exact lotAt_one q

theorem recordAt_pair (q r : LotRecord) (k : Nat) (x : LotRecord) (h : (pair q r).recordAt k = some x) :
    k = 17 ∧ x = q ∨ k = 20 ∧ x = r := by
  unfold State.recordAt at h
  by_cases h1 : k = 17
  · rw [h1, (lotAt_pair q r).1] at h
    cases h
    exact .inl ⟨h1, rfl⟩
  · by_cases h2 : k = 20
    · rw [h2, (lotAt_pair q r).2] at h
      cases h
      exact .inr ⟨h2, rfl⟩
    · unfold State.lotAt at h
      rw [slot_pair q r k h1 h2] at h
      cases h

theorem live_pair (q r : LotRecord) (h1 : q.number = 5231) (h2 : r.number = 5240) :
    liveLot (pair q r) 5231 17 q ∧ liveLot (pair q r) 5240 20 r := by
  have e : ∀ n k x, (pair q r).lotAt k = some (freshLot x) → x.number = n →
      (∀ j, j < k → holdsNumber n ((pair q r).slot j) = false) → (pair q r).slotOf n = some k := by
    intro n k x hx hn hj
    refine ((findIdx_first (holdsNumber n) Slot.blank _ rfl).2 k).mpr ⟨?_, hj⟩
    show holdsNumber n ((pair q r).slot k) = true
    have : ((pair q r).slot k).contents = some (freshLot x) := hx
    simp only [holdsNumber, this]
    show (x.number == n) = true
    rw [hn]
    exact beq_self_eq_true n
  refine ⟨⟨by decide, by decide, e 5231 17 q (lotAt_pair q r).1 h1 fun j hj => ?_, freshLot q, (lotAt_pair q r).1,
    ⟨rfl, rfl, rfl⟩, rfl⟩, by decide, by decide, e 5240 20 r (lotAt_pair q r).2 h2 fun j hj => ?_, freshLot r,
    (lotAt_pair q r).2, ⟨rfl, rfl, rfl⟩, rfl⟩
  · rw [slot_pair q r j (by omega) (by omega)]
    rfl
  · by_cases hk : j = 17
    · have : ((pair q r).slot 17).contents = some (freshLot q) := (lotAt_pair q r).1
      rw [hk]
      simp only [holdsNumber, this]
      show (q.number == 5240) = false
      rw [h1]
      rfl
    · rw [slot_pair q r j hk (by omega)]
      rfl

/-- A lot lives wherever the slots are the same. -/
theorem live_slots (s u : State) (n k : Nat) (r : LotRecord) (e : u.slots = s.slots) (h : liveLot s n k r) :
    liveLot u n k r := by
  have h1 : u.slotOf n = s.slotOf n := by unfold State.slotOf; rw [e]
  have h2 : u.lotAt k = s.lotAt k := by unfold State.lotAt State.slot; rw [e]
  rw [liveLot, h1, h2]
  exact h

/-! ### Requests of the plant -/

theorem test_intake : answers .a (.intake .a 5 500) State.reset = some (5, .done, [.u32 500]) := by decide
theorem test_intake_debit : (after (exec (.intake .a 5 (-200000)) (inRun State.reset))).account.balance = 0 := by decide
theorem test_account : answers .a (.account .a 9) (one curing) = some (9, .done,
    [.u48 0, .u48 0, .u48 0, .u48 0, .u48 0, .u48 0, .u48 0, .u48 0, .u16 1, .u16 511, .u16 0, .u24 1, .u8 0, .u32 0]) := by
  decide +kernel
theorem test_lookup : (answers .b (.lookup .b 1 5231) (withCell (cell [5201, 5231] []) (one curing))).map
    (fun x => (x.2.1, x.2.2.take 3, x.2.2.drop 40)) =
    some (.done, [.u24 5231, .u8 3, .u8 0], [.u8 0, .u16 17, .u8 2, .u8 0]) := by decide +kernel
theorem test_lookup_unknown : answers .c (.lookup .c 1 5230) (one curing) = some (1, .unknown, []) := by decide +kernel
theorem test_scan : answers .a (.scan .a 1 4 1) (one curing) = some (1, .done,
    [.u8 1, .u24 5231, .u8 3, .u8 0, .u32 24600, .u8 0, .u8 12, .u8 0, .u8 0, .u24 0]) := by decide +kernel
theorem test_amendTarget : ((after (exec (.amendTarget .a 1 1 5231 560000) (one curing))).recordAt 17).map
    (fun r => (r.target, r.pendingTarget)) = some (some 500000, some 560000) := by decide +kernel
theorem test_amendRecipe : ((after (exec (.amendRecipe .a 1 2 5231 0 3)
    (inRun (one { curing with recipe := none })))).recordAt 17).map (·.recipe) =
    some (some ⟨⟨0, 3⟩, snapshotOf values⟩) := by decide +kernel
theorem test_amendDosed : ((after (exec (.amendDosed .a 1 3 5231 120000 0 1) (one mixing))).recordAt 17).map (·.dosed) =
    some (some ⟨120000, 0, 1⟩) := by decide +kernel
/-- A part code that does not match the body. -/
theorem test_amend_part : ∀ i ∈ [Instr.amendTarget .a 1 2 5231 560000, .amendRecipe .a 1 3 5231 0 3,
    .amendDosed .a 1 1 5231 0 0 1], answers .a i (one curing) = some (1, .range, []) := by decide +kernel
theorem test_holdLot : answers .a (.holdLot .a 1 5231) (one curing) = some (1, .done, [.u24 5231, .u8 64]) := by
  decide +kernel
theorem test_clearHold : answers .a (.clearHold .a 1 5231 127) (one { curing with holds := 0b1000100#7 }) =
    some (1, .done, [.u8 0]) := by decide +kernel
theorem test_withdraw : ((after (exec (.withdraw .a 1 5231) (mixed mixing 1))).account.discard,
    (after (exec (.withdraw .a 1 5231) (mixed mixing 1))).account.balance) = (12000, 48000) := by decide +kernel
theorem test_cells : ((after (exec (.cellClose .a 1 95) State.reset)).cell 95).closed = true ∧
    answers .a (.cellOpen .a 1 96) State.reset = some (1, .range, []) := by decide +kernel
theorem test_cellStatus : (answers .d (.cellStatus .d 1 12) (withCell (cell [5231] [5300]) (one curing))).map
    (fun x => (x.2.1, x.2.2.take 6)) = some (.done, [.u8 12, .u8 0, .u8 0, .u16 1, .u16 1, .u16 4]) := by decide +kernel
theorem test_queueStatus : (answers .c (.queueStatus .c 1) { one (cured .queued) with queue := [5231] }).map
    (fun x => x.2.2.take 3) = some [.u8 1, .u8 0, .u16 63] := by decide +kernel
theorem test_recipeRead : (answers .b (.recipeRead .b 1 0 3) (inRun State.reset)).map (fun x => x.2.2.take 5) =
    some [.u8 0, .u8 3, .u8 1, .u16 200, .u16 300] := by decide +kernel
theorem test_recipeWrite : (after (exec (.recipeWrite .a 1 1 7 1 (some values)) (inRun State.reset))).commit =
    some ⟨⟨1, 7⟩, some values⟩ := by decide
theorem test_bankSelect : answers .a (.bankSelect .a 1 1) State.reset = some (1, .done, [.u8 0, .u8 1, .u8 0]) := by
  decide +kernel
theorem test_mode : (after (exec (.mode .a 1 0) State.reset)).mode = .run ∧
    answers .a (.mode .a 1 3) State.reset = some (1, .range, []) := by decide
theorem test_portSetup : ((after (exec (.portSetup .a 1 2 3 10 19) State.reset)).port .c).window = some ⟨10, 19⟩ ∧
    ((after (exec (.portSetup .a 1 2 3 10 19) State.reset)).port .c).mask.kinds = defaultMask .yard := by decide +kernel
theorem test_noticeMask : answers .a (.noticeMask .a 1 3 1) State.reset = some (1, .done, [.u8 3, .u8 3, .u16 1025]) := by
  decide
theorem test_notices : answers .c (.notices .c 1) State.reset = some (1, .done, [.u16 1024, .u32 0]) := by decide
theorem test_slotHealth : answers .a (.slotHealth .a 1) State.reset = some (1, .done,
    [.u16 0, .u16 512, .u16 0, .u16 0, .u16 0, .u16 0, .u16 0]) := by decide +kernel
theorem test_reinstateSlot : answers .a (.reinstateSlot .a 1 511) State.reset = some (1, .state, []) ∧
    answers .a (.reinstateSlot .a 1 511) (State.reset.setSlot 511 { Slot.blank with tally := 4, worn := true }) =
      some (1, .done, [.u16 511, .u8 0, .u16 0, .u16 512]) := by decide +kernel
theorem test_clock : answers .a (.clock .a 1 (some 70)) State.reset = some (1, .done, [.u32 0, .u32 70]) := by decide
theorem test_restart : ((after (exec (.restart .a 1) State.reset)).port .a).startAfter = some .warm := by decide
theorem test_clearRegister : answers .a (.clearRegister .a 1 0) (one curing) = some (1, .range, [.u16 1]) := by
  decide +kernel

/-! ### Requests of the mixer -/

theorem test_open : answers .b (.openLot .b 1 1 3 24000) (inRun State.reset) = some (1, .done,
    [.u24 5231, .u8 0, .u8 3, .u16 200, .u16 190, .u16 210, .u32 10060, .u8 0, .u32 0]) := by decide +kernel
theorem test_remix : (answers .b (.remixOpen .b 1 1 3 0 5231) { inRun (one extracted) with counter := ⟨5300, false⟩ }).map
    (fun x => (x.2.1, x.2.2.drop 6)) = some (.done, [.u32 10060, .u8 1, .u32 24600]) := by decide +kernel
theorem test_dose : answers .b (.dose .b 1 1 12600 2500 3800) (mixed mixing 1) = some (1, .done,
    [.u32 24600, .u32 4900, .u32 7400, .u16 2, .u8 1, .u16 199, .u8 1]) := by decide +kernel
theorem test_dose_range : answers .b (.dose .b 1 1 0 20001 0) (mixed mixing 1) = some (1, .range, []) := by
  decide +kernel
/-- An excess that the balance covers in part is answered both drawn and unbooked (R42). -/
theorem test_settlement_mixed : settlement 300 24000 24600 = ⟨0, 300, 300⟩ := by decide
theorem test_seal : (after (exec (.sealLot .b 1 1 12) (mixed { mixing with dosed := some ⟨24600, 4900, 7400⟩ } 2))).account =
    { Account.blank with intake := 300000, balance := 35400, live := 264600 } := by decide +kernel
theorem test_seal_empty : answers .b (.sealLot .b 1 1 255) (mixed { mixing with dosed := some ⟨0, 0, 0⟩ } 2) =
    some (1, .range, []) ∧ answers .b (.sealLot .b 1 1 12) (mixed { mixing with dosed := some ⟨0, 9, 0⟩ } 2) =
    some (1, .emptyLot, [.u24 5231, .u32 24000]) := by decide +kernel
theorem test_stall : answers .b (.stall .b 1 1) (mixed mixing 1) =
    some (1, .done, [.u8 2, .u8 1, .u8 1, .u24 5231, .u16 1]) := by decide +kernel
theorem test_resume : answers .b (.resume .b 1 1) (mixed mixing 1) = some (1, .channel, [.u8 1, .u8 1, .u8 1]) := by
  decide +kernel
theorem test_rebind : (after (exec (.rebind .b 1 5231 2) (inRun (one { mixing with channel := none })))).channel 2 =
    some ⟨false, .b, 5231, 0⟩ := by decide +kernel
theorem test_rebind_bound : answers .b (.rebind .b 1 5231 1) (mixed mixing 1) =
    some (1, .channel, [.u8 1, .u8 1, .u8 1]) := by decide +kernel
theorem test_channelStatus : (answers .b (.channelStatus .b 1 0) (mixed mixing 1)).map (fun x => x.2.2.take 5) =
    some [.u8 0, .u8 0, .u8 0, .u24 0, .u16 0] := by decide +kernel

/-! ### Requests of the lab and the yard -/

theorem test_take : ((after (exec (.take .c 1) { inRun (one (cured .queued)) with queue := [5231] })).bench,
    (after (exec (.take .c 1) { inRun (one (cured .queued)) with queue := [5231] })).queue) =
    ([⟨5231, .c⟩], []) := by decide +kernel
theorem test_return : answers .c (.returnLot .c 1 5231) { one testing with bench := [⟨5231, .c⟩] } =
    some (1, .done, [.u24 5231, .u8 1, .u8 1, .u8 1]) := by decide +kernel
theorem test_verdict : ((after (exec (.verdictResult .c 1 5231 1 1450 2)
    { one testing with bench := [⟨5231, .c⟩] })).recordAt 17).map (fun r => (r.state, r.result)) =
    some (.cleared, some ⟨1450, 2⟩) := by decide +kernel
theorem test_retest : ((after (exec (.verdictRetest .c 1 5231 2)
    { one testing with bench := [⟨5231, .c⟩] })).recordAt 17).map (fun r => (r.state, r.target, r.retests)) =
    some (.curing, some 600000, 1) := by decide +kernel
theorem test_place : answers .d (.place .d 1 5231 12) (withCell (cell [5201] [5231]) (inRun (one sealed))) =
    some (1, .done, [.u24 5231, .u8 12, .u8 2, .u16 2, .u16 0, .u8 0, .u8 0, .u8 0]) := by decide +kernel
theorem test_release : (after (exec (.release .d 1 5231 12) (withCell (cell [5231] []) (inRun (one (lot .cleared)))))).account =
    { Account.blank with intake := 300000, balance := 60000, live := 215400, released := 24600 } := by decide +kernel
theorem test_release_blocked : (answers .d (.release .d 1 5231 12)
    (withCell (cell [5201, 5231] []) (inRun (one (lot .cleared))))).map (·.2.1) = some .blocked := by decide +kernel
theorem test_extract : ((after (exec (.extract .d 1 5231 12)
    (withCell (cell [5231] []) (inRun (one (lot .rejected)))))).recordAt 17).map (fun r => (r.state, r.cell)) =
    some (.extracted, none) := by decide +kernel

/-! ### Frames -/

/-- ACCOUNT with tag 7: the start mark, tag, code 02H, body length 0 and the check. -/
theorem test_frame_account : commandOfFrame .a (frameBytes [7, 2, 0, 0]) = some (.account .a 7) := by decide +kernel
/-- The check of R186 over the ASCII digits 1 to 9 is 29B1H. -/
theorem test_crc : crcOf [49, 50, 51, 52, 53, 54, 55, 56, 57] = 0x29B1#16 := by decide +kernel
/-- INTAKE of minus 2 kg, and CLOCK without and with a minute. -/
theorem test_frame_bodies : commandOfFrame .a (frameBytes [1, 1, 0, 4, 255, 255, 255, 254]) = some (.intake .a 1 (-2)) ∧
    commandOfFrame .a (frameBytes [1, 22, 0, 0]) = some (.clock .a 1 none) ∧
    commandOfFrame .a (frameBytes [1, 22, 0, 4, 0, 0, 1, 0]) = some (.clock .a 1 (some 256)) := by decide +kernel
theorem test_frame_bad : answerOn .a (after (exec (.frame .a [195, 7, 2, 0, 0, 0, 0]) State.reset)) = none ∧
    ((after (exec (.frame .a [195, 7, 2, 0, 0, 0, 0]) State.reset)).port .a).immediate = [⟨0, .frame, []⟩] := by decide +kernel
/-- Bytes before the start mark are passed over, and a frame cut short stays on the port (R164). -/
theorem test_frame_partial : ((after (exec (.frame .a [1, 2, 195, 7, 2]) State.reset)).port .a).partialFrame = [195, 7, 2] := by
  decide +kernel
/-- The rest of the frame arrives later, and its request is carried out. -/
theorem test_frame_joined : answerOn .a (after (exec (.frame .a ((frameBytes [7, 22, 0, 0]).drop 3))
    (after (exec (.frame .a [9, 195, 7, 22]) State.reset)))) = some (7, .done, [.u32 0]) := by decide +kernel
/-- A body length of 1,025 abandons the frame with no answer, and the bytes after it begin anew. -/
theorem test_frame_long : let x := (after (exec (.frame .a [195, 7, 2, 4, 1, 0, 0]) State.reset)).port .a
    (x.immediate, x.partialFrame) = ([], []) := by decide +kernel
theorem test_portBusy : ((after (exec (.portBusy .a 8) (after (exec (.account .a 7) State.reset)))).port .a).immediate =
    [⟨8, .portBusy, []⟩] := by decide +kernel
theorem test_unknown : answers .a (.unknownRequestCode .a 3 25 0) State.reset = some (3, .range, []) := by decide +kernel
theorem test_gap : ((after (exec (.frameGapTimeout .a) { State.reset with
    ports := State.reset.ports.set .a { State.reset.port .a with partialFrame := [195] } })).port .a).partialFrame = [] := by
  decide +kernel
theorem test_abandon : commandOfFrame .a [195, 7, 2, 4, 1] = some (.bodyLengthAbandon .a 1025) := by decide +kernel
theorem test_sent : ((after (exec (.answerSent .a) (after (exec (.restart .a 7) State.reset)))).warmDue,
    ((after (exec (.answerSent .a) (after (exec (.restart .a 7) State.reset)))).port .a).request) = (true, .ready) := by
  decide +kernel

/-! ### Events -/

theorem test_clockAdvance : (after (exec .clockAdvance State.reset)).scan = some ⟨0, 1⟩ := by decide
/-- The sample of minute 12,401 applies the pending target, then credits 150. -/
theorem test_sample : ((after (exec (.conversionCompletion 12 100) { withCell (cell [5231] [])
    (one { curing with pendingTarget := some 560000 }) with scan := some ⟨12, 12401⟩ })).recordAt 17).map
    (fun r => (r.maturity, r.target, r.pendingTarget)) = some (some 349650, some 560000, none) := by decide +kernel
theorem test_timeout : (after (exec .conversionTimeout { withCell { cell [] [] with misses := 4 } State.reset with
    scan := some ⟨12, 9⟩ })).cell 12 = { cell [] [] with misses := 5, faulty := true, lastStamp := 9 } := by decide +kernel
theorem test_stray : (after (exec (.strayCompletion 11 100 true) { State.reset with scan := some ⟨12, 9⟩ })).scan =
    some ⟨12, 9⟩ := by decide
theorem test_potLife : ((after (exec .potLifeExpiry { mixed mixing 1 with clock := 10060 })).recordAt 17).map (·.holds) =
    some 0b0000010#7 := by decide +kernel
theorem test_idle : (after (exec (.idleTimerExpiry .b) (mixed mixing 1))).channel 1 = none ∧
    ((after (exec (.idleTimerExpiry .b) (mixed mixing 1))).recordAt 17).map (·.channel) = some none := by decide +kernel
/-- A lot handed back keeps, once repaired, the status that its hold set gave as it stood. -/
theorem test_returned_status : let held : LotRecord := { testing with holds := 1 }
    let s : State := { one held with bench := [⟨5231, .c⟩] }
    let t := after (exec (.idleTimerExpiry .c) (s.putLot 17 ⟨⟨testing, .oneWord held⟩, fresh (entryOf held), some 5231⟩))
    (t.queue, (t.checkSlot 17).recordAt 17) =
      ([5231], some { held with state := .cured, tester := none, queueStatus := some .queued }) := by decide +kernel
/-- A lot with a hold handed back is PARKED, and its place goes to the lot that waits. -/
theorem test_returned_place : let s : State := { pair { testing with holds := 1 } (second (cured .waiting)) with
      bench := [⟨5231, .c⟩] }
    let t := after (exec (.idleTimerExpiry .c) s)
    (t.bench, t.queue, (t.recordAt 17).map (·.queueStatus), (t.recordAt 20).map (·.queueStatus)) =
      ([], [5240], some (some .parked), some (some .queued)) := by decide +kernel
/-- A tester whose port a start has made a yard port hands its lots back when it becomes ABSENT. -/
theorem test_tester_moved : let s : State := { one testing with bench := [⟨5231, .d⟩] }
    let t := after (exec (.idleTimerExpiry .d) s)
    (t.bench, t.queue, (t.port .d).present) = ([], [5231], false) := by decide +kernel
theorem test_writes : (after (exec .bankStateWriteEnd (after (exec (.bankSelect .a 1 1) State.reset)))).bankStored =
    ⟨0, some 1⟩ ∧ (after (exec .recipeCommitCompletion { State.reset with commit := some ⟨⟨1, 7⟩, some values⟩ })).recipe
      ⟨1, 7⟩ = ⟨some values, true⟩ := by decide +kernel
theorem test_setupWrite : (after (exec .portSetupWriteEnd (after (exec (.portSetup .a 1 2 3 10 19) State.reset)))).setup =
    ⟨⟨⟨.mixer, some ⟨0, 3⟩⟩, ⟨.yard, some ⟨10, 19⟩⟩, ⟨.yard, some ⟨0, 95⟩⟩⟩, true, none, none⟩ := by decide +kernel
/-- One wrong word is repaired, and counted. -/
theorem test_audit : ((after (exec (.auditStep [.recordWord 17 { curing with maturity := none }])
    { one curing with cyclePosition := 17 })).recordAt 17, (((after (exec (.auditStep
    [.recordWord 17 { curing with maturity := none }]) { one curing with cyclePosition := 17 })).slot 17).tally)) =
    (some curing, 1) := by decide +kernel
/-- A lot whose entry's number word is disturbed is found by the number a check would find, and the entry repaired. -/
theorem test_disturbed_number : let s := (one testing).disturb (.entryWord 17 { entryOf testing with number := 9 })
    (s.slotOf 5231, s.slotOf 9, ((after (exec (.holdLot .a 1 5231) s)).lotAt 17).map (·.entry.held.number)) =
    (some 17, none, some 5231) := by decide +kernel
/-- The loss of the one lot moves all the live ash of the account to the lost total. -/
theorem test_loss : ((inRun (one curing)).retireLost [17]).account.lost = 240000 := by decide +kernel
theorem test_starts : (after (exec .warmRestart { mixed mixing 1 with warmDue := true })).phase = .starting .restart ∧
    (after (exec .coldStart { mixed mixing 1 with coldDue := true })).account = Account.blank ∧
    (after (exec .startComplete { State.reset with phase := .starting .cold, signature := false })).signature = true := by
  decide +kernel
theorem test_resetLine : (after (exec .resetLineAssert (mixed mixing 1))).mode = .pause ∧
    ((after (exec .resetLineRelease { State.reset with
      phase := .starting .resetLine, resetLine := true, clock := 6 })).cell 95).misses = 5 := by decide +kernel
theorem test_supply : (after (exec .mainSupplyLoss State.reset)).phase = .off ∧
    (after (exec (.mainSupplyReturn []) { mixed mixing 1 with phase := .off })).phase = .starting .powerUp ∧
    (after (exec (.mainSupplyReturn [.total]) { mixed mixing 1 with phase := .off })).phase = .starting .cold := by
  decide +kernel

/-! ### The statements' hypotheses are met: one state and operands for each clause, at its boundary -/

/-- RUN with port B BUSY. -/
def busyB : State := State.reset.setPort .b { State.reset.port .b with request := .busy 9 }

theorem witness_StepTakesFrontCommand :
    ({ State.reset with pending := [.clockAdvance] } : State).pending = .clockAdvance :: [] := rfl

theorem witness_RequestsAreGatedInOrder :
    (askedOf (.intake .b 1 5) = plantAsked .b 1 ∧ (State.reset.port .b).role ∉ [Role.plant]) ∧
    (askedOf (.stall .b 1 4) = mixerAsked .b 1 4 anyMode ∧ (State.reset.port .b).role ∈ [Role.mixer] ∧
      inWindow (State.reset.port .b) 4 = false) ∧
    (askedOf (.openLot .b 1 3 7 100) = mixerAsked .b 1 3 [.run] ∧ inWindow (State.reset.port .b) 3 = true ∧
      State.reset.mode ∉ [PlantMode.run]) ∧
    State.reset.phase = .running ∧ (State.reset.port .b).request = .ready := by decide

theorem witness_FramesThatNoBlockIsGiven :
    (busyB.phase = .running ∧ (busyB.port .b).request = .busy 9 ∧ askedOf (.stall .b 1 4) = mixerAsked .b 1 4 anyMode ∧
      knownRequest 25 0 = false) ∧
      (({ State.reset with phase := .off } : State).phase ≠ .running ∧
        ({ State.reset with phase := .starting .cold } : State).phase ≠ .running ∧
        askedOf (.account .a 1) = plantAsked .a 1) ∧
      State.reset.phase = .running ∧ (State.reset.port .a).request = .ready ∧ knownRequest 255 0 = false := by decide

theorem witness_frames :
    State.reset.phase = .running ∧ (State.reset.port .a).partialFrame = [] ∧ (7 : Byte) ≠ startMark ∧
      1024 < numberOf [4, 1] ∧ numberOf [0, 0] ≤ 1024 ∧ ([0, 0] : List Byte).length = numberOf [0, 0] + 2 ∧
      frameGood [195, 7, 2, 0, 0, 0, 0] = false ∧ frameBytes [7, 2, 0, 0] = startMark :: 7 :: 2 :: 0 :: 0 :: [187, 141] ∧
      frameGood (frameBytes [7, 2, 0, 0]) = true ∧ knownRequest 24 1 = false ∧ knownRequest 255 0 = false ∧
      (State.reset.port .a).request = .ready := by decide +kernel

/-- A plant port is ready at reset, and a mixer, a lab and a yard port, with their windows. -/
theorem witness_ready :
    ready State.reset .a .plant ∧ ready State.reset .b .mixer ∧ windowed State.reset .b 3 ∧ windowed State.reset .b 0 ∧
      ready State.reset .c .lab ∧ ready State.reset .d .yard ∧ windowed State.reset .d 95 ∧ windowed State.reset .d 0 := by
  decide

theorem witness_IntakeBooksAndDebitsAsh :
    let s : State := { State.reset with account := { Account.blank with intake := 1000000000000 - 10000000 } }
    ready s .a .plant ∧ (1000000000000 - 10000000 : Int) < s.account.intake + s.account.unbooked + 1 ∧
      State.reset.account.intake + State.reset.account.unbooked + 200000 ≤ (1000000000000 - 10000000 : Int) := by decide

theorem witness_LookupAnswersTheRecord :
    State.reset.slotOf 16777215 = none ∧ (one (cured .queued)).phase = .running ∧
      ((one (cured .queued)).port .c).request = .ready ∧ liveLot (one (cured .queued)) 5231 17 (cured .queued) :=
  ⟨by decide +kernel, by decide, by decide, live _ rfl⟩

theorem differ_one (r : LotRecord) : numbersDiffer (one r) := by
  intro j k q x h1 h2 _
  have only : ∀ i y, (one r).recordAt i = some y → i = 17 := by
    intro i y h
    by_contra hi
    unfold State.recordAt State.lotAt at h
    rw [slot_one _ i hi] at h
    cases h
  rw [only j q h1, only k x h2]

theorem witness_ScanWalksTheIndex :
    allClean (one curing) ∧ numbersDiffer (one curing) ∧ ((one curing).port .a).role ≠ .mixer ∧
      (4 : Nat).testBit (stateCode curing.state - 1) = true := ⟨clean_one _, differ_one _, by decide, by decide⟩

theorem witness_AmendTargetByState :
    (liveLot (one { curing with target := none }) 5231 17 { curing with target := none }) ∧
      (liveLot (one mixing) 5231 17 mixing ∧ liveLot (one sealed) 5231 17 sealed) ∧
      (liveLot (one curing) 5231 17 curing ∧ curing.target ≠ none) ∧ liveLot (one testing) 5231 17 testing ∧
      testing.target ≠ none := ⟨live _ rfl, ⟨live _ rfl, live _ rfl⟩, ⟨live _ rfl, by decide⟩, live _ rfl, by decide⟩

theorem witness_AmendRecipeRestoresSnapshot :
    let bad : LotRecord := { curing with recipe := none }
    let s := inRun (one bad)
    (ready s .a .plant ∧ liveLot s 5231 17 bad ∧ bad.recipe = none) ∧ (s.recipe ⟨1, 7⟩).values = none ∧
      (s.recipe ⟨0, 3⟩).values = some values ∧ s.committing ⟨0, 3⟩ = false ∧
      ({ s with commit := some ⟨⟨0, 3⟩, none⟩ } : State).committing ⟨0, 3⟩ = true ∧ curing.recipe ≠ none :=
  ⟨⟨by decide, live _ rfl, rfl⟩, by decide +kernel, by decide +kernel, by decide, by decide, by decide⟩

theorem witness_HoldLotAddsManual :
    (liveLot (one (cured .queued)) 5231 17 (cured .queued) ∧ hasHold (cured .queued).holds .manual = false) ∧
      liveLot (one (cured .waiting)) 5231 17 (cured .waiting) ∧
      (liveLot (one { cured .parked with holds := 1 }) 5231 17 { cured .parked with holds := 1 } ∧
        hasHold 1 .manual = false) ∧
      liveLot (one { curing with holds := 64 }) 5231 17 { curing with holds := 64 } ∧ hasHold 64 .manual = true :=
  ⟨⟨live _ rfl, by decide⟩, live _ rfl, ⟨live _ rfl, by decide⟩, live _ rfl, by decide⟩

theorem witness_ClearHoldRemovesListedReasons :
    let bad : LotRecord := { curing with recipe := none, holds := 0b0010000#7 }
    let parked : LotRecord := { cured .parked with holds := 0b1000000#7 }
    (liveLot (one bad) 5231 17 bad ∧ hasHold (BitVec.ofNat 7 127) .audit = true ∧ hasHold bad.holds .audit = true ∧
      complete bad = false) ∧
      (liveLot (one parked) 5231 17 parked ∧ parked.holds ≠ 0 ∧ parked.holds &&& ~~~(BitVec.ofNat 7 64) = 0) ∧
      ((one parked).queue.length + (one parked).bench.length < 64) ∧
      64 ≤ ({ one parked with queue := List.replicate 64 1 } : State).queue.length :=
  ⟨⟨live _ rfl, by decide, by decide, by decide⟩, ⟨live _ rfl, by decide, by decide⟩, by decide, by decide⟩

/-- OPEN with no bank pending, and with bank 1 pending, and with a pot life due. -/
theorem witness_OpenCreatesMixingLot :
    let s := inRun State.reset
    let u : State := { s with bank := ⟨0, some 1⟩, recipes := s.recipes.setIfInBounds 11 ⟨some values, true⟩ }
    (ready s .b .mixer ∧ windowed s .b 1 ∧ s.mode = .run ∧ s.channel 1 = none ∧
      (s.recipe ⟨s.bank.pending.getD s.bank.active, 3⟩).values = some values ∧
      s.committing ⟨s.bank.pending.getD s.bank.active, 3⟩ = false ∧ (60000 : Int) ≤ s.account.balance ∧
      s.lowestFree = some 0 ∧ s.counter.exhausted = false ∧ nothingDue s ∧
      s.clock < min 4294967295 (s.clock + values.potLife)) ∧
      ((u.recipe ⟨u.bank.pending.getD u.bank.active, 3⟩).values = some values ∧ u.bank.pending = some 1) ∧
      potOrdered ({ s with potLife := [⟨5200, 9999⟩] } : State).potLife :=
  ⟨by decide +kernel, by decide +kernel, List.pairwise_singleton _ _⟩

theorem witness_OpenIsRefusedInOrder :
    let s := inRun State.reset
    let held : LotRecord := { extracted with holds := 0b0010000#7 }
    let third : LotRecord := { extracted with generation := 2 }
    let heavy : LotRecord := { extracted with ashMass := some 60001 }
    (s.channel 0 = none ∧ (s.recipe ⟨0, 7⟩).values = none) ∧
      ({ s with commit := some ⟨⟨0, 3⟩, none⟩ } : State).committing ⟨0, 3⟩ = true ∧ s.account.balance < 60001 ∧
      ({ s with slots := Vector.replicate 512 { Slot.blank with worn := true } } : State).lowestFree = none ∧
      s.lowestFree ≠ none ∧ ({ s with bank := ⟨0, some 1⟩ } : State).bank.pending = some 1 ∧ s.slotOf 1 = none ∧
      (mixed mixing 1).channel 1 = some ⟨false, .b, 5231, 1⟩ ∧ liveLot (inRun (one curing)) 5231 17 curing ∧
      (liveLot (inRun (one held)) 5231 17 held ∧ hasHold held.holds .audit = true) ∧
      liveLot (inRun (one third)) 5231 17 third ∧ liveLot (inRun (one heavy)) 5231 17 heavy :=
  ⟨by decide +kernel, by decide, by decide, by decide +kernel, by decide +kernel, rfl, by decide +kernel,
    by decide +kernel, live _ rfl, ⟨live _ rfl, by decide⟩, live _ rfl, live _ rfl⟩

/-- A remix refused past its parent: without a recipe, NORECIPE, BUSY, SHORT, NOSLOT and NUMBERS. -/
theorem witness_RemixIsRefusedInOrder :
    let s := inRun (one extracted)
    let bare : LotRecord := { extracted with recipe := none }
    let x : LotRecipe := ⟨⟨0, 3⟩, snapshotOf values⟩
    (liveLot s 5231 17 extracted ∧ s.channel 0 = none ∧ extracted.state = .extracted ∧
      hasHold extracted.holds .audit = false ∧ extracted.generation ≤ 1 ∧ extracted.ashMass.getD 0 ≤ 60000 ∧
      extracted.recipe = some x) ∧
      (liveLot (inRun (one bare)) 5231 17 bare ∧ bare.recipe = none) ∧ (s.recipe ⟨x.ref.bank, 7⟩).values = none ∧
      ((s.recipe ⟨x.ref.bank, 3⟩).values = some values ∧ s.committing ⟨x.ref.bank, 3⟩ = false ∧
        ({ s with commit := some ⟨⟨0, 3⟩, none⟩ } : State).committing ⟨x.ref.bank, 3⟩ = true) ∧
      (s.account.balance = 60000 ∧ ({ s with account := { s.account with balance := 0 } } : State).account.balance < 1) ∧
      (s.lowestFree = some 0 ∧ ({ s with
        slots := (Vector.replicate 512 { Slot.blank with worn := true }).setIfInBounds 17 (s.slot 17) } :
          State).lowestFree = none) ∧
      ({ s with counter := ⟨16777215, true⟩ } : State).counter.exhausted = true :=
  ⟨⟨live _ rfl, by decide +kernel⟩, ⟨live _ rfl, rfl⟩, by decide +kernel, by decide +kernel, by decide,
    by decide +kernel, rfl⟩

theorem witness_RemixPassesAshToChild :
    let s := { inRun (one extracted) with counter := ⟨5300, false⟩ }
    (ready s .b .mixer ∧ windowed s .b 1 ∧ s.channel 1 = none ∧ extracted.state = .extracted ∧
      hasHold extracted.holds .audit = false ∧ extracted.ashMass = some 24600 ∧
      (s.recipe ⟨0, 3⟩).values = some values ∧ s.committing ⟨0, 3⟩ = false ∧ (0 : Int) ≤ s.account.balance ∧
      s.lowestFree = some 0 ∧ nothingDue s ∧ s.clock < min 4294967295 (s.clock + values.potLife)) ∧
      liveLot s 5231 17 extracted := ⟨by decide +kernel, live _ rfl⟩

theorem witness_ChannelIsCheckedFirst :
    let s : State := { mixed mixing 1 with mode := .service }
    (ready s .b .mixer ∧ windowed s .b 1 ∧ s.channel 0 = none) ∧
      ((mixed mixing 1).mode ≠ .service ∧ ∃ b, (mixed mixing 1).channel 1 = some b ∧ b.stalled = false) ∧
      (∃ b, (s.setChannel 1 (some ⟨true, .b, 5231, 1⟩)).channel 1 = some b ∧ b.stalled = true) ∧
      ∃ b, (s.setChannel 1 (some ⟨false, .c, 5231, 1⟩)).channel 1 = some b ∧ b.holder ≠ .b :=
  ⟨by decide +kernel, ⟨by decide, _, rfl, rfl⟩, ⟨_, rfl, rfl⟩, ⟨_, rfl, by decide⟩⟩

/-- DOSE, STALL, SEAL with ash and SEAL with none, on channel 1 held by port B. -/
theorem witness_bound :
    let s := mixed mixing 1
    let lost : LotRecord := { mixing with dosed := none }
    let bare : LotRecord := { mixing with dosed := some ⟨0, 0, 0⟩ }
    let full : LotRecord := { mixing with dosed := some ⟨24600, 4900, 7400⟩ }
    let brim : LotRecord := { mixing with dosed := some ⟨100000, 120000, 0⟩ }
    (ready s .b .mixer ∧ windowed s .b 1 ∧ s.mode ≠ .service ∧ s.channel 1 = some ⟨false, .b, 5231, 1⟩) ∧
      liveLot s 5231 17 mixing ∧ liveLot (mixed lost 1) 5231 17 lost ∧
      (liveLot (mixed brim 1) 5231 17 brim ∧ 100000 + 20000 ≤ 120000 ∧ 120000 < 120000 + 1) ∧
      (liveLot (mixed full 2) 5231 17 full ∧ (s.cell 95).closed = false ∧
        (s.cell 95).lane.length + (s.cell 95).reservations.length < 6 ∧
        s.account.intake + s.account.unbooked + (settlement s.account.balance 24000 24600).unbooked ≤ 1000000000000) ∧
      (liveLot (mixed bare 2) 5231 17 bare ∧ bare.carriedAsh.getD 0 + 0 = 0 ∧ bare.reservation = some 24000) :=
  ⟨by decide +kernel, live _ rfl, live _ rfl, ⟨live _ rfl, by decide, by decide⟩,
    ⟨live _ rfl, by decide +kernel, by decide +kernel, by decide +kernel⟩, live _ rfl, by decide, by decide⟩

theorem witness_BandAndSettlementAreExact :
    let k := snapshotOf values
    (1000 * |(1000 * 4900 : Int) - k.cementRatio * 24600| ≤ k.cementRatio * k.doseTolerance * 24600) ∧
      (k.cementRatio * k.doseTolerance * 1000 : Int) < 1000 * |(1000 * 189 : Int) - k.cementRatio * 1000| ∧
      (k.cementRatio * k.doseTolerance * 1000 : Int) < 1000 * |(1000 * 211 : Int) - k.cementRatio * 1000| ∧
      ((24000 : Nat) ≤ 24000 ∧ (24600 : Int) - 24000 ≤ (inRun State.reset).account.balance ∧
        (inRun State.reset).account.balance < (90000 : Int) - 24000) := by decide

/-- SEAL past the channel: a cell out of range, a lot without its figures, a cell closed and a cell full, and a
settlement past the bound. -/
theorem witness_SealIsRefusedInOrder :
    let s := mixed mixing 1
    let lost : LotRecord := { mixing with dosed := none }
    let full := s.setCell 95 (cell [1, 2, 3] [4, 5, 6])
    let brim : State := { s with account := { s.account with intake := 1000000000000, balance := 0 } }
    let heavy : LotRecord := { mixing with dosed := some ⟨24001, 0, 0⟩ }
    (ready s .b .mixer ∧ windowed s .b 1 ∧ s.mode ≠ .service ∧ s.channel 1 = some ⟨false, .b, 5231, 1⟩) ∧
      liveLot (mixed lost 1) 5231 17 lost ∧ (liveLot s 5231 17 mixing ∧ 0 < mixing.carriedAsh.getD 0 + 12000) ∧
      ((s.setCell 95 { cell [1, 2, 3] [4, 5, 6] with closed := true }).cell 95).closed = true ∧
      ((full.cell 95).closed = false ∧ 6 ≤ (full.cell 95).lane.length + (full.cell 95).reservations.length ∧
        liveLot full 5231 17 mixing) ∧
      ((brim.cell 95).closed = false ∧ (brim.cell 95).lane.length + (brim.cell 95).reservations.length < 6 ∧
        liveLot { brim with slots := (one heavy).slots } 5231 17 heavy ∧ 1000000000000 < brim.account.intake +
          brim.account.unbooked + (settlement brim.account.balance 24000 24001).unbooked) :=
  ⟨by decide +kernel, live _ rfl, ⟨live _ rfl, by decide⟩, by decide +kernel,
    ⟨by decide +kernel, by decide +kernel, live _ rfl⟩, by decide +kernel, by decide +kernel, live _ rfl, by decide⟩

theorem witness_StallResumeAndRebind :
    let s := mixed mixing 1
    let orphan : LotRecord := { mixing with channel := none }
    (s.channel 1 = some ⟨false, .b, 5231, 1⟩ ∧ s.channel 3 = none) ∧ liveLot s 5231 17 mixing ∧ mixing.channel ≠ none ∧
      liveLot (one orphan) 5231 17 orphan ∧ orphan.channel = none ∧
      (s.setChannel 1 (some ⟨true, .b, 5231, 1⟩)).channel 1 = some ⟨true, .b, 5231, 1⟩ :=
  ⟨by decide +kernel, live _ rfl, by decide, live _ rfl, rfl, by decide +kernel⟩

theorem witness_PotLifeExpires :
    let s := { mixed mixing 1 with clock := 10060 }
    s.phase = .running ∧ potOrdered s.potLife ∧ s.potLife = [⟨5231, 10060⟩] ∧ 10060 ≤ s.clock ∧
      liveLot s 5231 17 mixing ∧ hasHold mixing.holds .potLife = false :=
  ⟨rfl, List.pairwise_singleton _ _, rfl, by decide, live _ rfl, by decide⟩

/-- Two due entries, one of whose lots holds POTLIFE already, before an entry that is not due. -/
theorem witness_PotLifeExpires_list :
    let held : LotRecord := second { mixing with holds := 0b0000010#7 }
    let s : State := { pair mixing held with potLife := [⟨5231, 10059⟩, ⟨5240, 10060⟩, ⟨5300, 10061⟩], clock := 10060 }
    s.phase = .running ∧ potOrdered s.potLife ∧
      (∀ e ∈ s.potLife, e.deadline ≤ s.clock → ∃ k r, liveLot s e.lot k r ∧ r.state = .mixing) ∧
      (s.potLife.filter fun e => decide (e.deadline ≤ s.clock)) = [⟨5231, 10059⟩, ⟨5240, 10060⟩] := by
  intro held s
  have h := live_pair mixing held rfl rfl
  refine ⟨rfl, ?_, fun e he hd => ?_, by decide⟩
  · show List.Pairwise _ [(⟨5231, 10059⟩ : PotEntry), ⟨5240, 10060⟩, ⟨5300, 10061⟩]
    decide
  rcases List.mem_cons.mp he with rfl | he
  · exact ⟨17, mixing, live_slots (pair mixing held) s 5231 17 mixing rfl h.1, rfl⟩
  · rcases List.mem_cons.mp he with rfl | he
    · exact ⟨20, held, live_slots (pair mixing held) s 5240 20 held rfl h.2, rfl⟩
    · rw [List.mem_singleton.mp he] at hd
      exact absurd hd (by decide)

theorem witness_StatusRequestsReadOnly :
    allClean (mixed mixing 1) ∧ (mixed mixing 1).channel 0 = none ∧
      (mixed mixing 1).channel 1 = some ⟨false, .b, 5231, 1⟩ ∧ ready (one curing) .c .lab ∧ windowed (one curing) .d 95 :=
  ⟨clean_one _, by decide +kernel, by decide +kernel, by decide, by decide⟩

theorem witness_PlaceJoinsTheLane :
    let s := inRun (one sealed)
    (ready s .d .yard ∧ windowed s .d 12 ∧ s.mode ≠ .service) ∧ liveLot s 5231 17 sealed ∧ sealed.targetCell = some 12 ∧
      ((withCell { cell [] [] with closed := true } s).cell 12).closed = true ∧
      (6 ≤ ((s.setCell 95 (cell [1, 2, 3] [4, 5, 6])).cell 95).lane.length +
        ((s.setCell 95 (cell [1, 2, 3] [4, 5, 6])).cell 95).reservations.length) ∧
      liveLot (one curing) 5231 17 curing ∧ curing.state ≠ .sealed :=
  ⟨by decide, live _ rfl, rfl, by decide +kernel, by decide +kernel, live _ rfl, by decide⟩

theorem witness_ValidSampleTreatsCuringLots :
    let s := { withCell (cell [5231] []) (one curing) with scan := some ⟨12, 12401⟩ }
    let near : LotRecord := { curing with maturity := some 499850 }
    let held : LotRecord := { near with holds := 1 }
    (s.scan = some ⟨12, 12401⟩ ∧ (s.cell 12).lane = [5231] ∧ (s.cell 95).lane = []) ∧ liveLot s 5231 17 curing ∧
      min 16777215 (349500 + (100 - (-50) : Int).toNat) < 500000 ∧
      (liveLot (one near) 5231 17 near ∧ 500000 ≤ min 16777215 (499850 + (100 - (-50) : Int).toNat)) ∧
      liveLot (one held) 5231 17 held ∧ queueOpen s ∧ ¬ queueOpen { s with queue := List.replicate 64 1 } :=
  ⟨by decide +kernel, live _ rfl, by decide, ⟨live _ rfl, by decide⟩, live _ rfl, by decide, by decide⟩

/-- A lane of a CURING lot and a lot that is not, and one of two CURING lots of which one reaches its target. -/
theorem witness_lane_of_two :
    let near : LotRecord := second { curing with maturity := some 499850 }
    let s : State := withCell { cell [5231, 5240] [] with misses := 4 } (pair curing near)
    let u : State := withCell { cell [5231, 5240] [] with misses := 4 } (pair curing (second testing))
    ((s.cell 12).lane = [5231, 5240] ∧ (s.cell 12).lane.Nodup ∧ (s.cell 12).misses = 4) ∧
      (∀ v ∈ [(s, near), (u, second testing)], ∀ n ∈ [5231, 5240], ∃ k r, liveLot v.1 n k r ∧
        (r.state = .curing → r.queueStatus ≠ some .queued)) ∧
      sampleCures 100 near = true ∧ sampleCures 100 curing = false ∧ testing.state ≠ .curing := by
  refine ⟨by decide +kernel, fun v hv n hn => ?_, by decide, by decide, by decide⟩
  have h : ∀ r, r.number = 5240 → (r.state = .curing → r.queueStatus ≠ some .queued) → ∃ k x,
      liveLot (withCell { cell [5231, 5240] [] with misses := 4 } (pair curing r)) n k x ∧
        (x.state = .curing → x.queueStatus ≠ some .queued) := by
    intro r h1 h2
    have hp := live_pair curing r rfl h1
    rcases List.mem_cons.mp hn with rfl | hn
    · exact ⟨17, curing, live_slots (pair curing r) _ 5231 17 curing rfl hp.1, by decide⟩
    · rw [List.mem_singleton.mp hn]
      exact ⟨20, r, live_slots (pair curing r) _ 5240 20 r rfl hp.2, h2⟩
  rcases List.mem_cons.mp hv with rfl | hv
  · exact h _ rfl (by decide)
  · rw [List.mem_singleton.mp hv]
    exact h _ rfl (by decide)

theorem witness_MissIsCounted :
    let s := { withCell { cell [5231] [] with misses := 4 } (one curing) with scan := some ⟨12, 9⟩ }
    let u := { withCell { cell [] [] with misses := 4 } State.reset with scan := some ⟨12, 9⟩ }
    (s.scan = some ⟨12, 9⟩ ∧ (s.cell 12).misses = 4 ∧ (s.cell 12).lane = [5231]) ∧ liveLot s 5231 17 curing ∧
      hasHold curing.holds .sensor = false ∧ ((u.cell 12).misses = 4 ∧ (u.cell 12).lane = []) ∧ (u.cell 95).misses ≠ 4 ∧
      State.reset.scan = none := ⟨by decide +kernel, live _ rfl, by decide, by decide +kernel, by decide +kernel, rfl⟩

theorem witness_ClockMovesForward :
    ({ State.reset with clock := 4294967295 } : State).clock = 4294967295 ∧ State.reset.clock < 4294967295 ∧
      potOrdered (mixed mixing 1).potLife ∧ ∀ e ∈ (mixed mixing 1).potLife, 10059 < e.deadline :=
  ⟨rfl, by decide, List.pairwise_singleton _ _, by decide⟩

theorem witness_lab :
    let q := { inRun (one (cured .queued)) with queue := [5231] }
    let s := { one testing with bench := [⟨5231, .c⟩] }
    let held : LotRecord := { testing with holds := 1 }
    let twice : LotRecord := { testing with retests := 2 }
    (ready q .c .lab ∧ q.mode ≠ .service ∧ q.queue = [5231] ∧ (inRun State.reset).queue = []) ∧
      liveLot q 5231 17 (cured .queued) ∧ liveLot s 5231 17 testing ∧
      (testing.tester = some .c ∧ testing.holds = 0 ∧ testing.retests < 2) ∧ liveLot (one held) 5231 17 held ∧
      liveLot (one twice) 5231 17 twice ∧ (cured .queued).state ≠ .testing :=
  ⟨by decide, live _ rfl, live _ rfl, by decide, live _ rfl, live _ rfl, by decide⟩

theorem witness_RoomGoesToTheEarliest :
    let s := one (cured .waiting)
    queueOpen s ∧ liveLot s 5231 17 (cured .waiting) ∧ (∀ j q, j ≠ 17 → s.recordAt j = some q → False) := by
  refine ⟨by decide, live _ rfl, fun j q hj h => ?_⟩
  unfold State.recordAt State.lotAt at h
  rw [slot_one _ j hj] at h
  cases h

theorem witness_ReleaseAndExtractFromTheFront :
    let s := withCell (cell [5231] []) (inRun (one (lot .cleared)))
    let u := withCell (cell [5201, 5231] []) (inRun (one (lot .rejected)))
    let held : LotRecord := { lot .cleared with holds := 1 }
    (ready s .d .yard ∧ windowed s .d 12 ∧ s.mode = .run ∧ (s.cell 12).lane.head? = some 5231 ∧
      (u.cell 12).lane.head? ≠ some 5231) ∧ liveLot s 5231 17 (lot .cleared) ∧ liveLot u 5231 17 (lot .rejected) ∧
      liveLot (one held) 5231 17 held ∧ (lot .cleared).ashMass = some 24600 :=
  ⟨by decide +kernel, live _ rfl, live _ rfl, live _ rfl, rfl⟩

theorem witness_WithdrawRetiresInAnyState :
    let s := mixed mixing 1
    let full : State := { s with account := { s.account with intake := 1000000000000, balance := 0, reserved := 0 } }
    (liveLot s 5231 17 mixing ∧ s.account.intake + s.account.unbooked +
      (settlement s.account.balance 24000 12000).unbooked ≤ 1000000000000) ∧
      (liveLot full 5231 17 mixing ∧ 1000000000000 < full.account.intake + full.account.unbooked +
        (settlement full.account.balance 0 12000).unbooked) ∧ liveLot (one curing) 5231 17 curing :=
  ⟨⟨live _ rfl, by decide +kernel⟩, ⟨live _ rfl, by decide +kernel⟩, live _ rfl⟩

/-- Requests by lot number: each port READY in its role, no lot of the number, and the values they check first. -/
theorem witness_LotRequestsFindTheirLot :
    let s := inRun State.reset
    s.phase = .running ∧ (∀ x ∈ [(PortName.a, Role.plant), (.b, .mixer), (.c, .lab), (.d, .yard)],
      (s.port x.1).request = .ready ∧ (s.port x.1).role = x.2) ∧ windowed s .b 3 ∧ s.channel 3 = none ∧
      windowed s .d 95 ∧ s.mode = .run ∧ s.slotOf 1 = none ∧ s.slotOf 16777215 = none := by decide +kernel

theorem witness_recipes :
    let s := inRun State.reset
    ready s .b .mixer ∧ s.committing ⟨1, 7⟩ = false ∧ s.commit = none ∧ 0 = s.bank.active ∧ s.mode ≠ .service ∧
      valuesInRange values = true ∧ (State.reset.mode = .service) ∧
      ({ s with bankWrites := [⟨0, some 1⟩] } : State).bankWrites = ⟨0, some 1⟩ :: [] ∧ s.bankWrites = [] := by decide

/-- Slot 17 holds the only lot, as given, in a slot of the tally and wear given, at the cycle position. -/
def hurt (l : Lot) (tally : Nat) (worn : Bool) : State :=
  { one curing with
    slots := (one curing).slots.setIfInBounds 17 { Slot.blank with contents := some l, tally := tally, worn := worn }
    cyclePosition := 17 }

theorem lotAt_hurt (l : Lot) (t : Nat) (w : Bool) : (hurt l t w).lotAt 17 = some l := by
  show ((State.setSlot (one curing) 17 _).slot 17).contents = some l
  rw [slot_setSlot_same _ 17 _ (by decide)]

theorem slot_hurt_ne (l : Lot) (t : Nat) (w : Bool) (j : Nat) (h : j ≠ 17) : (hurt l t w).slot j = Slot.blank := by
  have e : (hurt l t w).slot j = (one curing).slot j := slot_setSlot_ne (one curing) 17 j _ h
  rw [e, slot_one _ j h]

/-- The five kinds of fault that repairs mend, in a slot that is healthy, that wears out and that is worn. -/
theorem witness_audit :
    let e := entryOf curing
    let bad : LotRecord := { curing with maturity := none }
    let bent : Lot := ⟨⟨bad, .oneWord curing⟩, fresh e, some 5231⟩
    let torn : Lot := ⟨fresh curing, ⟨{ e with ash := 1 }, .oneWord e⟩, some 5231⟩
    let both : Lot := ⟨⟨bad, .oneWord curing⟩, ⟨{ e with ash := 1 }, .oneWord e⟩, some 5231⟩
    let lost : Lot := ⟨fresh curing, ⟨e, .beyond⟩, some 5231⟩
    let odd : Lot := ⟨⟨bad, .oneWord curing⟩, fresh { e with state := .cured }, some 5231⟩
    (∀ l ∈ [bent, torn, both, lost, odd], (hurt l 3 false).lotAt (hurt l 3 false).cyclePosition = some l) ∧
      (mended bent (freshLot curing) 1 ∧ mended torn (freshLot curing) 1 ∧ mended both (freshLot curing) 2 ∧
        mended lost (freshLot curing) 1 ∧ mended odd (freshLot curing) 2) ∧
      (((hurt bent 2 false).slot 17).tally + 1 < 4 ∧ 4 ≤ ((hurt both 2 false).slot 17).tally + 2 ∧
        ((hurt both 2 false).slot 17).worn = false ∧ ((hurt bent 4 true).slot 17).worn = true) ∧
      ((hurt both 2 false).lowestFree = some 0 ∧
        ({ hurt both 2 false with slots := ((Vector.replicate 512 { Slot.blank with worn := true }).setIfInBounds 17
          { Slot.blank with contents := some both }) } : State).lowestFree = none) ∧
      ∀ l, State.reset.lotAt 0 = some l → cleanLot l := by
  refine ⟨fun l _ => lotAt_hurt l _ _, ⟨.inl ⟨_, rfl, rfl, rfl, rfl⟩, .inr (.inl ⟨rfl, rfl, rfl, rfl⟩),
    .inr (.inr (.inl ⟨_, rfl, rfl, rfl, rfl⟩)), .inr (.inr (.inr (.inl ⟨rfl, .inl rfl, rfl, rfl⟩))),
    .inr (.inr (.inr (.inr ⟨_, rfl, .inr ⟨rfl, by decide⟩, rfl, rfl⟩)))⟩, by decide +kernel, by decide +kernel,
    fun l h => ?_⟩
  unfold State.lotAt at h
  rw [slot_reset] at h
  cases h

/-- The states of `witness_audit` name the lot by one slot alone, so LOOKUP finds and mends it. -/
theorem witness_lookup_mended :
    let bent : Lot := ⟨⟨{ curing with maturity := none }, .oneWord curing⟩, fresh (entryOf curing), some 5231⟩
    let both : Lot := ⟨⟨{ curing with maturity := none }, .oneWord curing⟩,
      ⟨{ entryOf curing with ash := 1 }, .oneWord (entryOf curing)⟩, some 5231⟩
    ∀ l ∈ [bent, both], (hurt l 2 false).slotOf 5231 = some 17 ∧ (hurt l 2 false).phase = .running ∧
      ((hurt l 2 false).port .a).request = .ready ∧
      ∀ j, holdsNumber 5231 ((hurt l 2 false).slot j) = true → j = 17 := by
  intro bent both l hl
  refine ⟨?_, rfl, rfl, fun j h => ?_⟩
  · rcases List.mem_cons.mp hl with rfl | hl
    · decide +kernel
    · rw [List.mem_singleton.mp hl]
      decide +kernel
  · by_contra hj
    rw [slot_hurt_ne _ _ _ j hj] at h
    cases h

/-- A record beyond repair beside a good entry, and a loss. -/
theorem witness_rebuild :
    let dead : Lot := ⟨⟨curing, .beyond⟩, fresh (entryOf curing), none⟩
    let gone : Lot := ⟨⟨curing, .beyond⟩, ⟨entryOf curing, .beyond⟩, none⟩
    ((hurt dead 4 true).lotAt (hurt dead 4 true).cyclePosition = some dead ∧ dead.record.code = .beyond ∧
      dead.entry.code = .agrees ∧ ((hurt dead 4 true).slot 17).worn = true ∧
      ((hurt dead 0 false).slot 17).worn = false ∧ (hurt dead 0 false).lowestFree = some 0) ∧
      ((hurt gone 4 true).lotAt (hurt gone 4 true).cyclePosition = some gone ∧
        ∀ j m, j ≠ 17 → (hurt gone 4 true).lotAt j = some m → cleanLot m) := by
  refine ⟨⟨lotAt_hurt _ _ _, rfl, rfl, by decide +kernel, by decide +kernel, by decide +kernel⟩, lotAt_hurt _ _ _,
    fun j m hj h => ?_⟩
  unfold State.lotAt at h
  rw [slot_hurt_ne _ _ _ j hj] at h
  cases h

/-- A QUEUED lot rebuilt while another is WAITING: the skeleton is PARKED, and the place goes to the lot that waits. -/
theorem witness_rebuild_gives_the_place :
    let dead : Lot := ⟨⟨cured .queued, .beyond⟩, fresh (entryOf (cured .queued)), none⟩
    let s : State := { (hurt dead 4 true).writeLot 20 (second (cured .waiting)) with queue := [5231] }
    let t := after (exec (.auditStep []) s)
    s.lotAt s.cyclePosition = some dead ∧ dead.record.code = .beyond ∧ dead.entry.code = .agrees ∧
      (s.slot 17).worn = true ∧ s.placesHeld 5231 = 1 ∧
      (t.queue, (t.recordAt 17).map (·.queueStatus), (t.recordAt 20).map (·.queueStatus)) =
        ([5240], some (some .parked), some (some .queued)) := by
  intro dead s t
  have h17 : s.lotAt 17 = some dead := by
    show ((hurt dead 4 true).writeLot 20 (second (cured .waiting))).lotAt 17 = _
    unfold State.lotAt
    rw [slot_writeLot_ne (hurt dead 4 true) 20 17 _ (by decide)]
    exact lotAt_hurt dead 4 true
  exact ⟨h17, rfl, rfl, by decide +kernel, by decide +kernel, by decide +kernel⟩

/-- A loss that frees a place in the queue while another lot is WAITING. -/
theorem witness_loss_frees_a_place :
    let gone : Lot := ⟨⟨curing, .beyond⟩, ⟨entryOf curing, .beyond⟩, none⟩
    let w := second (cured .waiting)
    let s : State := { (hurt gone 4 true).writeLot 20 w with queue := [5231] }
    s.lotAt s.cyclePosition = some gone ∧ (s.queue.filter (lostWith s 17 gone)).length = 1 ∧
      s.lotAt 20 = some (freshLot w) ∧ w.queueStatus = some .waiting ∧
      (∀ j m, j ≠ s.cyclePosition → s.lotAt j = some m → cleanLot m) := by
  intro gone w s
  have h20 : s.lotAt 20 = some (freshLot w) := lotAt_writeLot (hurt gone 4 true) 20 w (by decide)
  refine ⟨?_, by decide +kernel, h20, rfl, fun j m hj h => ?_⟩
  · show ((hurt gone 4 true).writeLot 20 w).lotAt 17 = _
    unfold State.lotAt
    rw [slot_writeLot_ne (hurt gone 4 true) 20 17 w (by decide)]
    exact lotAt_hurt gone 4 true
  · by_cases hk : j = 20
    · rw [hk, h20] at h
      cases h
      exact ⟨rfl, rfl, rfl⟩
    · have e : s.slot j = (hurt gone 4 true).slot j := slot_writeLot_ne (hurt gone 4 true) 20 j w hk
      unfold State.lotAt at h
      rw [e, slot_hurt_ne _ _ _ j hj] at h
      cases h

theorem witness_SlotsAreReportedAndReused :
    let worn := State.reset.setSlot 511 { Slot.blank with tally := 4, worn := true }
    let full := (one curing).setSlot 17 { Slot.blank with contents := some (freshLot curing), worn := true, waiting := true }
    let back := full.setSlot 511 { Slot.blank with tally := 4, worn := true }
    (worn.mode = .service ∧ (worn.slot 511).contents = none ∧ (worn.slot 511).worn = true) ∧
      (inRun worn).mode ≠ .service ∧ (worn.slot 0).worn = false ∧
      ((full.slot 17).waiting = true ∧ full.lotAt 17 = some (freshLot curing) ∧ (full.slot 20).worn = false) ∧
      (∀ j, j < 17 → j ≠ 20 → awaits (full.slot j) = false) ∧
      ((back.slot 511).contents = none ∧ (back.slot 511).worn = true ∧ back.lotAt 17 = some (freshLot curing) ∧
        (back.slot 17).waiting = true) ∧
      (∀ j, j < 17 → awaits (back.slot j) = false) ∧ ∀ j, awaits (State.reset.slot j) = false := by
  refine ⟨by decide +kernel, by decide, by decide +kernel, by decide +kernel, fun j hj _ => ?_, by decide +kernel,
    fun j hj => ?_, fun j => ?_⟩
  · rw [slot_setSlot_ne _ 17 j _ (by omega), slot_one _ j (by omega)]
    rfl
  · rw [slot_setSlot_ne _ 511 j _ (by omega), slot_setSlot_ne _ 17 j _ (by omega), slot_one _ j (by omega)]
    rfl
  · rw [slot_reset]
    rfl

theorem witness_PortSetupTakesEffectAtOnce :
    let s : State := { mixed mixing 1 with mode := .service }
    let u : State := { s with bench := [⟨5231, .c⟩], setup := { s.setup with writing := some SetupRecord.default } }
    ready s .a .plant ∧ s.mode = .service ∧ (1, PortName.b) ∈ [(1, PortName.b), (2, .c), (3, .d)] ∧
      (1, Role.mixer) ∈ [(0, Role.plant), (1, .mixer), (2, .lab), (3, .yard)] ∧ s.channel 1 = some ⟨false, .b, 5231, 1⟩ ∧
      s.channel 0 = none ∧ s.setup.writing = none ∧ (s.port .b).role = .mixer ∧ (s.port .c).role ≠ .mixer ∧
      ((u.port .c).role = .lab ∧ u.setup.writing ≠ none ∧ ∀ c, c ≤ 3 → ∀ b, u.channel c = some b → b.holder ≠ .c) := by
  refine ⟨by decide +kernel, by decide, by decide, by decide, by decide +kernel, by decide +kernel, by decide +kernel,
    by decide +kernel, by decide +kernel, by decide +kernel, by decide +kernel, fun c hc b h => ?_⟩
  have : b = ⟨false, .b, 5231, 1⟩ := by
    have h' : (mixed mixing 1).channel c = some b := h
    interval_cases c
    · cases h'
    · cases h'; rfl
    · cases h'
    · cases h'
  rw [this]
  decide

theorem witness_SilentPortBecomesAbsent :
    let s := mixed mixing 1
    let u : State := { one testing with bench := [⟨5231, .c⟩] }
    (s.phase = .running ∧ (s.port .b).present = true ∧ (s.port .b).idleTimer ≠ none ∧
      s.channel 1 = some ⟨false, .b, 5231, 1⟩ ∧ s.slotOf 5231 = some 17 ∧ (s.port .c).role = .lab ∧
      (s.port .d).role = .yard ∧ (s.setPort .b { s.port .b with present := false }).phase = .running) ∧
      ((u.port .c).role = .lab ∧ 5231 ∈ (u.bench.filter (·.tester == .c)).map (·.lot) ∧ u.slotOf 5231 = some 17 ∧
        (u.lotAt 17).map (·.record.held) = some testing) ∧ u.slotOf 1 = none ∧
      ((∃ e ∈ ({ s with bench := [⟨5231, .b⟩] } : State).bench, e.tester = .b) ∧ s.bench = [] ∧
        (s.port .b).role = .mixer ∧ (s.port .d).role ≠ .mixer) := by decide +kernel

/-- A start due, the reset line held and released, an outage of 6 minutes, a failing health entry, and the supply. -/
theorem witness_starts :
    let s := mixed mixing 1
    let held : State := { s with phase := .starting .resetLine, resetLine := true }
    let late : State := { withCell (cell [5231] []) (one curing) with phase := .starting .resetLine, clock := 6 }
    let bad := s.setSlot 40 { Slot.blank with checkGood := false }
    (({ s with warmDue := true } : State).phase = .running ∧ ({ s with coldDue := true } : State).coldDue = true ∧
      (held.resetLine = true ∧ StartCause.resetLine ≠ .cold) ∧ nothingDue s ∧ potOrdered s.potLife ∧
      State.reset.liveCount = 0 ∧ (s.phase ≠ .off ∧ ({ s with phase := .off } : State).phase = .off) ∧
      (s.signature = true ∧ s.account.checksGood = true ∧ balanced s.account = true)) ∧
      (({ held with coldDue := true } : State).phase ≠ .off ∧ ({ held with coldDue := true } : State).coldDue = true) ∧
      (outageReaches late 12 ∧ ¬ outageReaches { late with clock := 5 } 12 ∧ (late.cell 12).lane = [5231] ∧
        liveLot late 5231 17 curing ∧ curing.channel = none ∧ late.resetLine = false) ∧
      ((bad.slot 40).checkGood = false ∧ (bad.slot 17).checkGood = true ∧ bad.lotAt 40 = none) ∧
      ({ s with commit := some ⟨⟨1, 7⟩, none⟩ } : State).commit = some ⟨⟨1, 7⟩, none⟩ :=
  ⟨⟨rfl, rfl, ⟨rfl, by decide⟩, by decide, List.pairwise_singleton _ _, by decide +kernel, ⟨by decide, rfl⟩, by decide⟩,
    ⟨by decide, rfl⟩, ⟨by decide +kernel, by decide +kernel, by decide +kernel, live _ rfl, rfl, rfl⟩, by decide +kernel,
    rfl⟩

/-- A lab port set up as plant port, with channels freed and a bench lot with a hold while another lot is WAITING. -/
theorem witness_setup_leaves :
    let s : State := { pair { testing with holds := 1 } (second (cured .waiting)) with
      bench := [⟨5231, .c⟩], channels := State.reset.channels.setIfInBounds 1 (some ⟨false, .c, 5231, 0⟩) }
    let t := after (exec (.portSetup .a 1 2 0 0 0) s)
    ready s .a .plant ∧ s.mode = .service ∧ (s.port .c).role = .lab ∧
      (t.channel 1, t.bench, t.queue, (t.recordAt 20).map (·.queueStatus)) = (none, [], [5240], some (some .queued)) ∧
      (t.port .c).notices = heard (t.port .c).mask.kinds .orphan true (s.port .c).notices := by decide +kernel

/-- The pending sets after a warm start and a cold one: of the default masks, only that of a plant port hears WORN. -/
theorem test_start_notices :
    let bad := (mixed mixing 1).setSlot 40 { Slot.blank with checkGood := false }
    let t := after (exec .warmRestart { bad with warmDue := true })
    let u := after (exec .coldStart { bad with coldDue := true })
    healthFails bad = true ∧ anyBound bad = true ∧ anyBound State.reset = false ∧ healthFails State.reset = false ∧
      startNotices State.reset (State.reset.port .a).mask.kinds = restartOnly ∧
      (t.port .a).notices = withNotice (heard (t.port .a).mask.kinds .orphan true restartOnly) .worn ∧
      (u.port .a).notices = withNotice restartOnly .worn ∧ (u.port .d).notices = restartOnly := by decide +kernel

/-- The outage rule reaches cell 12 alone, whose CURING lot gains SENSOR: HOLD and CELLFAULT are pending. -/
theorem test_outage_notices :
    let s : State := { withCell (cell [5231] []) (one curing) with phase := .starting .resetLine, clock := 6 }
    let t := after (exec .startComplete s)
    outageReached s = true ∧ outageGains s = true ∧ outageReached { s with clock := 5 } = false ∧
      (t.port .a).notices = withNotice (withNotice restartOnly .hold) .cellFault := by decide +kernel

/-- A pot life that a start by the reset line overtook: the lot gains POTLIFE. -/
theorem witness_start_overtakes :
    let s : State := { mixed mixing 1 with clock := 10060, phase := .starting .resetLine }
    let t := after (exec .startComplete s)
    s.resetLine = false ∧ potOrdered s.potLife ∧ ¬ nothingDue s ∧ liveLot s 5231 17 mixing ∧
      (t.recordAt 17).map (·.holds) = some 0b0000010#7 ∧ hasNotice (t.port .a).notices .hold = true ∧
      hasNotice (t.port .b).notices .potLife = true :=
  ⟨rfl, List.pairwise_singleton _ _, by decide, live _ rfl, by decide +kernel, by decide +kernel, by decide +kernel⟩

/-- The account beside a MIXING lot with carried ash. -/
theorem test_ash_mixing : ashAgrees { one { mixing with carriedAsh := some 5 } with
    account := { Account.blank with intake := 24005, reserved := 24000, live := 5 } } :=
  ⟨by decide +kernel, by decide +kernel⟩

theorem healthChecks_one (r : LotRecord) : healthChecks (one r) := by
  intro k _
  by_cases h : k = 17
  · rw [h]
    show ((State.setSlot State.reset 17 _).slot 17).checkGood = true
    rw [slot_setSlot_same _ 17 _ (by decide), slot_reset]
    rfl
  · rw [slot_one r k h]
    rfl

theorem portsSound_reset : portsSound State.reset := by
  refine ⟨rfl, fun p => ?_, ⟨⟨by decide, by decide⟩, trivial, ⟨by decide, by decide⟩⟩, fun x h => ?_, fun x h => ?_⟩
  · cases p <;> refine ⟨?_, rfl⟩
    · trivial
    · exact ⟨by decide, by decide⟩
    · trivial
    · exact ⟨by decide, by decide⟩
  · cases h
  · cases h

theorem healthSound_reset : healthSound State.reset := by
  intro x hx
  have e : State.reset.slots.toList = List.replicate 512 Slot.blank := by simp [State.reset, Config.slotCount]
  rw [e] at hx
  rw [List.eq_of_mem_replicate hx]
  exact ⟨Nat.zero_le _, fun h => by cases h⟩

/-- The invariants hold in a state from which a step answers a next state. -/
theorem witness_invariants :
    let s := { State.reset with pending := [.clockAdvance] }
    balanced s.account = true ∧ portsSound s ∧ healthSound s ∧ countersSound s ∧ potOrdered s.potLife ∧
      (∃ s', step s = .next s') ∧ bankSound s.bank :=
  ⟨rfl, portsSound_reset, healthSound_reset, ⟨by decide, by decide, by decide⟩, List.Pairwise.nil, ⟨_, rfl⟩,
    ⟨by decide, fun x h => by cases h⟩⟩

/-- A CURING lot at the front of cell 12's lane and a QUEUED one behind it: the collections are sound, and a step of the
command at the front of the queue answers a next state. -/
theorem witness_StepKeepsTheCollections :
    let s : State := { withCell (cell [5231, 5240] []) (pair curing (second (cured .queued))) with
      queue := [5240], counter := ⟨5241, false⟩, pending := [.clockAdvance]
      account := { Account.blank with intake := 49200, live := 49200 } }
    ashAgrees s ∧ collectionsSound s ∧ (∀ c ∈ s.pending.head?, listsNoFault c) ∧ (∃ s', step s = .next s') ∧
      s.lotAt 17 ≠ none := by
  intro s
  have hr : ∀ k r, s.recordAt k = some r → k = 17 ∧ r = curing ∨ k = 20 ∧ r = second (cured .queued) := fun k r h =>
    recordAt_pair curing (second (cured .queued)) k r h
  have hl : s.lotAt 17 = some (freshLot curing) ∧ s.lotAt 20 = some (freshLot (second (cured .queued))) :=
    lotAt_pair curing (second (cured .queued))
  have hc : ∀ c, s.cell c = if 12 = c then cell [5231, 5240] [] else Machine.Cell.blank := by
    intro c
    show (State.setCell (pair curing (second (cured .queued))) 12 _).cell c = _
    rw [cell_setCell]
    by_cases h : 12 = c
    · rw [if_pos ⟨h, by decide⟩, if_pos h]
    · rw [if_neg fun x => h x.1, if_neg h]
      have e : (pair curing (second (cured .queued))).cells = State.reset.cells := rfl
      unfold State.cell
      rw [e]
      simp only [State.reset, Vector.toList_replicate]
      rw [List.getD_eq_getElem?_getD, List.getElem?_replicate]
      split <;> rfl
  have hch : ∀ c b, s.channel c ≠ some b := by
    intro c b h
    have e : s.channel c = none := by
      show State.reset.channel c = none
      simp only [State.channel, State.reset, Vector.toList_replicate]
      rw [List.getD_eq_getElem?_getD, List.getElem?_replicate]
      split <;> rfl
    rw [e] at h
    cases h
  have hlane : ∀ c n, n ∈ (s.cell c).lane → c = 12 ∧ (n = 5231 ∨ n = 5240) := by
    intro c n h
    rw [hc] at h
    split at h
    · rename_i e
      exact ⟨e.symm, by simpa [cell] using h⟩
    · cases h
  have hres : ∀ c, (s.cell c).reservations = [] := by
    intro c
    rw [hc]
    split <;> rfl
  refine ⟨⟨by decide +kernel, by decide +kernel⟩,
    ⟨fun k l h => ?_, fun j k q r h1 h2 e => ?_, fun k r h => ?_, fun n h => ?_, fun c => ?_, ?_, ?_, ?_⟩,
    fun c h => ?_, ⟨_, rfl⟩, by rw [hl.1]; exact Option.some_ne_none _⟩
  · have hk : s.recordAt k = some l.record.held := by
      unfold State.recordAt
      rw [h]
      rfl
    rcases hr k _ hk with ⟨rfl, -⟩ | ⟨rfl, -⟩
    · rw [hl.1] at h
      cases h
      exact ⟨rfl, rfl, rfl⟩
    · rw [hl.2] at h
      cases h
      exact ⟨rfl, rfl, rfl⟩
  · rcases hr j q h1 with ⟨rfl, rfl⟩ | ⟨rfl, rfl⟩ <;> rcases hr k r h2 with ⟨rfl, rfl⟩ | ⟨rfl, rfl⟩
    · rfl
    · exact absurd e (by decide)
    · exact absurd e (by decide)
    · rfl
  · have hbound : ∀ c b, s.channel c = some b → b.lot = r.number → r.state = .mixing ∧ r.channel = some c :=
      fun c b hb _ => absurd hb (hch c b)
    have hbench : s.bench = [] := rfl
    rcases hr k r h with ⟨-, rfl⟩ | ⟨-, rfl⟩
    · refine ⟨.inl (by decide), fun c hx => ⟨by decide, by rw [(hlane c _ hx).1]; rfl⟩, fun c => ?_, fun hx => ?_, ?_,
        hbound⟩
      · rw [hres c]
        exact ⟨fun hx => absurd hx List.not_mem_nil, fun hx => absurd hx.1 (by decide)⟩
      · exact absurd hx (by decide)
      · rw [hbench]
        exact ⟨fun hx => absurd hx List.not_mem_nil, fun hx => absurd hx (by decide)⟩
    · refine ⟨.inl (by decide), fun c hx => ⟨by decide, by rw [(hlane c _ hx).1]; rfl⟩, fun c => ?_, fun _ => by decide, ?_,
        hbound⟩
      · rw [hres c]
        exact ⟨fun hx => absurd hx List.not_mem_nil, fun hx => absurd hx.1 (by decide)⟩
      · rw [hbench]
        exact ⟨fun hx => absurd hx List.not_mem_nil, fun hx => absurd hx (by decide)⟩
  · have key : n = 5231 ∨ n = 5240 := by
      rcases h with ⟨c, h | h⟩ | h | h | ⟨c, b, h, -⟩
      · exact (hlane c n h).2
      · rw [hres c] at h
        cases h
      · exact .inr (List.mem_singleton.mp h)
      · cases h
      · exact absurd h (hch c b)
    rcases key with rfl | rfl
    · exact ⟨17, curing, by unfold State.recordAt; rw [hl.1]; rfl, rfl⟩
    · exact ⟨20, second (cured .queued), by unfold State.recordAt; rw [hl.2]; rfl, rfl⟩
  · rw [hres c, hc]
    split
    · exact ⟨by decide, List.nodup_nil, by decide⟩
    · exact ⟨List.nodup_nil, List.nodup_nil, by decide⟩
  · exact List.nodup_singleton _
  · exact List.nodup_nil
  · decide
  · cases h
    trivial

/-- The attention line at work with a notice pending, with none, and outside work. -/
theorem witness_attention :
    attention State.reset (State.reset.port .a) = true ∧ (State.reset.port .a).notices ≠ 0 ∧
      attention State.reset { State.reset.port .a with notices := 0 } = false ∧
      attention { State.reset with phase := .off } (State.reset.port .a) = false := by decide

end Sys2Proof.Tests
end

section
/-! The step of a command, said once for every relation between states: what the body of each request, each event and a
change of the ports keep, every step keeps. -/

namespace Sys2Proof.Machine

/-- The owning block's part of a request; a command that is no request has none and leaves the state. -/
def bodyOf : Instr → State → State × Reply
  | .intake _ _ amount => intakeBody amount
  | .account _ _ => accountBody
  | .lookup _ _ lot => lookupBody lot
  | .scan _ _ filter start => scanBody filter start
  | .amendTarget _ _ part lot target => amendTargetBody part lot target
  | .amendRecipe _ _ part lot bank number => amendRecipeBody part lot bank number
  | .amendDosed _ _ part lot ash cement water => amendDosedBody part lot ash cement water
  | .holdLot _ _ lot => holdLotBody lot
  | .clearHold _ _ lot reasons => clearHoldBody lot reasons
  | .withdraw _ _ lot => withdrawBody lot
  | .cellOpen _ _ cell => closeBody false cell
  | .cellClose _ _ cell => closeBody true cell
  | .cellStatus _ _ cell => cellStatusBody cell
  | .queueStatus _ _ => queueStatusBody
  | .recipeRead _ _ bank number => recipeReadBody bank number
  | .recipeWrite _ _ bank number form values => recipeWriteBody bank number form values
  | .bankSelect _ _ bank => bankSelectBody bank
  | .mode _ _ code => modeBody code
  | .portSetup _ _ port role first last => portSetupBody port role first last
  | .noticeMask _ _ port kinds => noticeMaskBody port kinds
  | .notices p _ => noticesBody p
  | .slotHealth _ _ => slotHealthBody
  | .reinstateSlot _ _ slot => reinstateBody slot
  | .clock _ _ minute => clockBody minute
  | .restart _ _ => restartBody
  | .clearRegister _ _ count => clearRegisterBody count
  | .openLot p _ channel recipe planned => openBody p channel recipe planned
  | .remixOpen p _ channel recipe planned parent => remixBody p channel recipe planned parent
  | .dose p _ channel ash cement water => doseBody p channel ash cement water
  | .sealLot p _ channel cell => sealBody p channel cell
  | .stall p _ channel => stallBody p channel
  | .resume p _ channel => resumeBody p channel
  | .rebind p _ lot channel => rebindBody p lot channel
  | .channelStatus _ _ channel => channelStatusBody channel
  | .take p _ => takeBody p
  | .returnLot p _ lot => returnBody p lot
  | .verdictResult p _ lot kind strength leachClass => resultBody p lot kind strength leachClass
  | .verdictRetest p _ lot kind => retestBody p lot kind
  | .place _ _ lot cell => placeBody lot cell
  | .release _ _ lot cell => releaseBody lot cell
  | .extract _ _ lot cell => extractBody lot cell
  | _ => fun s => (s, refuse .range [])

/-- Every request of the tables is taken by the Port Unit and handed to its body (R164 to R169). -/
theorem exec_asked (i : Instr) (h : (askedOf i).isSome = true) :
    ∃ p t q f, ∀ s, exec i s = .next (s.takeRequest p t q f (bodyOf i)) := by
  cases i <;> first | exact ⟨_, _, _, _, fun _ => rfl⟩ | cases h

/-- A request that a frame carries is taken as the request itself (R164). -/
theorem carryOut_asked (i : Instr) (s : State) (h : (askedOf i).isSome = true) : carryOut i s = exec i s := by
  cases i <;> first | rfl | cases h

section
variable {R : State → State → Prop}

/-- A request keeps what its body and a change of the ports keep. -/
theorem takeRequest_related (htrans : ∀ s u v, R s u → R u v → R s v) (hports : ∀ (s : State) a, R s { s with ports := a })
    (s : State) (p : PortName) (t : Nat) (q : Request) (f : Option Nat) (body : State → State × Reply)
    (hbody : ∀ s, R s (body s).1) : R s (s.takeRequest p t q f body) := by
  rcases takeRequest_frame s p t q f body with ⟨a, e⟩ | ⟨a, e⟩
  · rw [e]
    exact hports s a
  · rw [e]
    have received : R s (s.received p t) := hports s (s.received p t).ports
    exact htrans _ _ _ (htrans _ _ _ received (hbody _)) (hports _ a)

/-- A request keeps what the bodies of requests and a change of the ports keep. -/
theorem exec_asked_related (htrans : ∀ s u v, R s u → R u v → R s v)
    (hports : ∀ (s : State) a, R s { s with ports := a }) (hbody : ∀ i s, R s (bodyOf i s).1) (i : Instr) (s s' : State)
    (h : (askedOf i).isSome = true) (e : exec i s = .next s') : R s s' := by
  obtain ⟨p, t, q, f, hi⟩ := exec_asked i h
  rw [hi s, Host.Outcome.next.injEq] at e
  exact e ▸ takeRequest_related htrans hports s p t q f (bodyOf i) (hbody i)

/-- An unknown request code changes the ports alone (R165, R166). -/
theorem execUnknownRequestCode_ports (p : PortName) (t code length : Nat) (s s' : State)
    (e : execUnknownRequestCode p t code length s = .next s') : ∃ a, s' = { s with ports := a } := by
  unfold execUnknownRequestCode at e
  rw [Host.Outcome.next.injEq] at e
  subst e
  split
  · split
    · exact ⟨_, rfl⟩
    · exact ⟨_, rfl⟩
  · exact ⟨s.ports, rfl⟩

/-- An abandoned body length changes the ports alone (R186). -/
theorem execBodyLengthAbandon_ports (p : PortName) (length : Nat) (s s' : State)
    (e : execBodyLengthAbandon p length s = .next s') : ∃ a, s' = { s with ports := a } := by
  unfold execBodyLengthAbandon at e
  rw [Host.Outcome.next.injEq] at e
  subst e
  split
  · exact ⟨_, rfl⟩
  · exact ⟨s.ports, rfl⟩

/-- What a complete frame carries out keeps what the bodies of requests and a change of the ports keep. -/
theorem carryOut_related (htrans : ∀ s u v, R s u → R u v → R s v) (hports : ∀ (s : State) a, R s { s with ports := a })
    (hbody : ∀ i s, R s (bodyOf i s).1) (i : Instr) (s s' : State) (e : carryOut i s = .next s') : R s s' := by
  by_cases h : (askedOf i).isSome = true
  · rw [carryOut_asked i s h] at e
    exact exec_asked_related htrans hports hbody i s s' h e
  · have kept : ∃ a, s' = { s with ports := a } := by
      cases i
      case unknownRequestCode p t code length => exact execUnknownRequestCode_ports p t code length s s' e
      case bodyLengthAbandon p length => exact execBodyLengthAbandon_ports p length s s' e
      all_goals first | exact absurd rfl h | (cases e; exact ⟨_, rfl⟩)
    obtain ⟨a, rfl⟩ := kept
    exact hports s a

/-- One byte keeps what the bodies of requests and a change of the ports keep. -/
theorem takeByte_related (htrans : ∀ s u v, R s u → R u v → R s v) (hports : ∀ (s : State) a, R s { s with ports := a })
    (hbody : ∀ i s, R s (bodyOf i s).1) (p : PortName) (b : Byte) (s s' : State) (e : takeByte p b s = .next s') :
    R s s' := by
  have assembled : R s (s.assemble p b).1 := by
    unfold State.assemble
    dsimp only
    split
    · exact hports s _
    · exact hports s _
  unfold takeByte at e
  split at e
  · split at e
    case h_1 t c ha =>
      rw [ha] at assembled
      exact htrans _ _ _ assembled (carryOut_related htrans hports hbody c t s' e)
    case h_2 t ha =>
      rw [ha] at assembled
      cases e
      exact assembled
  · cases e
    exact hports s s.ports

/-- The bytes of frames keep what the bodies of requests and a change of the ports keep (R164). -/
theorem takeBytes_related (htrans : ∀ s u v, R s u → R u v → R s v) (hports : ∀ (s : State) a, R s { s with ports := a })
    (hbody : ∀ i s, R s (bodyOf i s).1) (p : PortName) (bytes : List Byte) :
    ∀ s s', takeBytes p bytes s = .next s' → R s s' := by
  induction bytes with
  | nil =>
    intro s s' e
    cases e
    exact hports s s.ports
  | cons b bs ih =>
    intro s s' e
    unfold takeBytes at e
    split at e
    case h_1 t ht =>
      exact htrans _ _ _ (takeByte_related htrans hports hbody p b s t ht) (ih t s' e)
    case h_2 ht => exact absurd e (ht s')

/-- The commands that are neither requests nor bytes: the events of the table. -/
def isEvent : Instr → Bool
  | .frame _ _ => false
  | i => (askedOf i).isNone

/-- A command keeps what the bodies of requests, a change of the ports and the events keep. -/
theorem exec_related (htrans : ∀ s u v, R s u → R u v → R s v) (hports : ∀ (s : State) a, R s { s with ports := a })
    (hbody : ∀ i s, R s (bodyOf i s).1) (i : Instr) (s s' : State)
    (hevent : isEvent i = true → exec i s = .next s' → R s s') (e : exec i s = .next s') : R s s' := by
  by_cases h : (askedOf i).isSome = true
  · exact exec_asked_related htrans hports hbody i s s' h e
  · by_cases hf : isEvent i = true
    · exact hevent hf e
    · cases i
      case frame p bytes => exact takeBytes_related htrans hports hbody p bytes s s' e
      all_goals first | exact absurd rfl h | exact absurd rfl hf

end

end Sys2Proof.Machine
end

section
/-! The ledger of the register: the account, the counter, the clock and the pot-life list. Most operations leave it; what
the others do to it keeps the balance (R22), the ranges (R11, R181) and the order of the list (R48). -/

namespace Sys2Proof.Machine

/-- The account, the counter, the clock and the pot-life list. -/
def ledger (s : State) : Account × Counter × Nat × List PotEntry := (s.account, s.counter, s.clock, s.potLife)

/-! ### Operations that leave the ledger -/

@[simp] theorem ledger_setPort (s : State) (p : PortName) (v : Port) : ledger (s.setPort p v) = ledger s := rfl

@[simp] theorem ledger_raise (s : State) (k : Notice) : ledger (s.raise k) = ledger s := rfl

@[simp] theorem ledger_setSlot (s : State) (k : Nat) (x : Slot) : ledger (s.setSlot k x) = ledger s := rfl

@[simp] theorem ledger_setCell (s : State) (c : Nat) (x : Cell) : ledger (s.setCell c x) = ledger s := rfl

@[simp] theorem ledger_setChannel (s : State) (c : Nat) (x : Channel) : ledger (s.setChannel c x) = ledger s := rfl

@[simp] theorem ledger_writeLot (s : State) (k : Nat) (r : LotRecord) : ledger (s.writeLot k r) = ledger s := rfl

@[simp] theorem ledger_leaveQueue (s : State) (n : Nat) : ledger (s.leaveQueue n) = ledger s := rfl

@[simp] theorem ledger_leaveBench (s : State) (n : Nat) : ledger (s.leaveBench n) = ledger s := rfl

@[simp] theorem ledger_frontRemoval (s : State) (n c : Nat) : ledger (s.frontRemoval n c) = ledger s := rfl

@[simp] theorem ledger_freeChannelOf (s : State) (n : Nat) : ledger (s.freeChannelOf n) = ledger s := rfl

@[simp] theorem ledger_changeRecord (s : State) (k : Nat) (f : LotRecord → LotRecord) :
    ledger (s.changeRecord k f) = ledger s := by
  obtain ⟨_, e⟩ := changeRecord_frame s k f
  rw [e]
  rfl

@[simp] theorem ledger_setStatus (s : State) (k : Nat) (q : QueueStatus) : ledger (s.setStatus k q) = ledger s :=
  ledger_changeRecord s k _

@[simp] theorem ledger_offerSlot (s : State) (k : Nat) : ledger (s.offerSlot k) = ledger s := by
  obtain ⟨_, e⟩ := offerSlot_frame s k
  rw [e]
  rfl

@[simp] theorem ledger_freeSlot (s : State) (k : Nat) : ledger (s.freeSlot k) = ledger s := by
  obtain ⟨_, e⟩ := freeSlot_frame s k
  rw [e]
  rfl

@[simp] theorem ledger_giveRoom (s : State) : ledger s.giveRoom = ledger s := by
  obtain ⟨_, _, e⟩ := giveRoom_frame s
  rw [e]
  rfl

@[simp] theorem ledger_giveRooms (s : State) (n : Nat) : ledger (s.giveRooms n) = ledger s := by
  obtain ⟨_, _, e⟩ := giveRooms_frame n s
  rw [e]
  rfl

@[simp] theorem ledger_admitLot (s : State) (k : Nat) : ledger (s.admitLot k) = ledger s := by
  obtain ⟨_, _, e⟩ := admitLot_frame s k
  rw [e]
  rfl

@[simp] theorem ledger_addHold (s : State) (k : Nat) (h : Hold) : ledger (s.addHold k h) = ledger s := by
  obtain ⟨_, _, _, e⟩ := addHold_frame s k h
  rw [e]
  rfl

@[simp] theorem ledger_sensorHold (s : State) (k c : Nat) : ledger (s.sensorHold k c) = ledger s := by
  unfold State.sensorHold
  split
  · exact ledger_addHold s k .sensor
  · rfl

@[simp] theorem ledger_sealHolds (s : State) (k : Nat) (u : Bool) (b : Band) : ledger (s.sealHolds k u b) = ledger s := by
  unfold State.sealHolds
  cases u <;> by_cases hb : b = .inside <;> simp [hb]

@[simp] theorem ledger_sensorLane (s : State) (l : List Nat) : ledger (s.sensorLane l) = ledger s := by
  obtain ⟨_, _, _, e⟩ := sensorLane_frame s l
  rw [e]
  rfl

@[simp] theorem ledger_outageRule (s : State) : ledger s.outageRule = ledger s := by
  obtain ⟨_, _, _, _, _, e⟩ := outageRule_facts s
  rw [e]
  rfl

@[simp] theorem ledger_changeBank (s : State) (b : BankState) : ledger (s.changeBank b) = ledger s := by
  unfold State.changeBank
  split <;> rfl

@[simp] theorem ledger_applyPendingBank (s : State) : ledger s.applyPendingBank = ledger s := by
  unfold State.applyPendingBank
  split
  · exact ledger_changeBank s _
  · rfl

@[simp] theorem ledger_setupInto (s : State) (q : PortName) (r : PortRole) : ledger (s.setupInto q r) = ledger s := by
  obtain ⟨-, -, -, -, e⟩ := setupInto_facts s q r
  rw [e]
  rfl

@[simp] theorem ledger_warmStart (s : State) : ledger s.warmStart = ledger s := by
  obtain ⟨-, -, -, e⟩ := warmStart_facts s
  rw [e]
  rfl

@[simp] theorem ledger_makeAbsent (s : State) (p : PortName) : ledger (s.makeAbsent p) = ledger s := by
  unfold State.makeAbsent
  dsimp only
  obtain ⟨_, _, _, e⟩ := returnBench_frame (if (s.port p).role = .mixer then
    (s.setPort p { s.port p with present := false, idleTimer := none }).orphanChannels
      ((s.setPort p { s.port p with present := false, idleTimer := none }).channelsWhere fun _ b =>
        decide (b.holder = p))
    else s.setPort p { s.port p with present := false, idleTimer := none }) p
  rw [e]
  split
  · obtain ⟨_, _, _, e'⟩ := orphanChannels_frame (s.setPort p { s.port p with present := false, idleTimer := none })
      ((s.setPort p { s.port p with present := false, idleTimer := none }).channelsWhere fun _ b =>
        decide (b.holder = p))
    rw [e']
    rfl
  · rfl

@[simp] theorem ledger_disturb (s : State) (u : Upset) (h : u ≠ .total) : ledger (s.disturb u) = ledger s := by
  have lot (k : Nat) (f : Lot → Lot) : ledger (s.disturbLot k f) = ledger s := by
    unfold State.disturbLot
    split <;> rfl
  cases u
  case recordWord k r => exact lot k _
  case recordWords k r => exact lot k _
  case numberCopy k => exact lot k _
  case entryWord k e => exact lot k _
  case entryWords k e => exact lot k _
  case entryDisagrees k e => exact lot k _
  case total => exact absurd rfl h
  all_goals rfl

/-! ### What is kept of the ledger -/

/-- A counter that has not moved back from itself. -/
theorem counterHolds_refl (c : Counter) : counterHolds c c := .inr ⟨rfl, id⟩

theorem counterHolds_trans (c d e : Counter) (h : counterHolds c d) (g : counterHolds d e) : counterHolds c e := by
  rcases h with h | ⟨h, hx⟩
  · rcases g with g | ⟨g, -⟩
    · exact .inl (h.trans g)
    · exact .inl (g ▸ h)
  · rcases g with g | ⟨g, gx⟩
    · exact .inl (h ▸ g)
    · exact .inr ⟨h.trans g, fun x => gx (hx x)⟩

/-- The balance is kept, clock and counter stay in their ranges, the counter does not move back, and the pot-life list
stays in order (R11, R22, R48, R181). -/
structure ledgerKept (s u : State) : Prop where
  balance : balanced s.account = true → balanced u.account = true
  counters : countersSound s → countersSound u ∧ counterHolds s.counter u.counter
  pots : potOrdered s.potLife → potOrdered u.potLife

theorem ledgerKept_trans (s u v : State) (h : ledgerKept s u) (g : ledgerKept u v) : ledgerKept s v where
  balance := fun b => g.balance (h.balance b)
  counters := fun c => by
    obtain ⟨cu, hu⟩ := h.counters c
    obtain ⟨cv, hv⟩ := g.counters cu
    exact ⟨cv, counterHolds_trans _ _ _ hu hv⟩
  pots := fun p => g.pots (h.pots p)

/-- A state with the same counter and clock, a balanced account where it was balanced, and a part of the pot-life list. -/
theorem ledgerKept_of_sublist (s u : State) (ha : balanced s.account = true → balanced u.account = true)
    (hc : u.counter = s.counter) (ht : u.clock = s.clock) (hp : u.potLife.Sublist s.potLife) : ledgerKept s u where
  balance := ha
  counters := fun h => by
    unfold countersSound at h ⊢
    rw [hc, ht]
    exact ⟨h, counterHolds_refl _⟩
  pots := fun h => h.sublist hp

theorem ledgerKept_of_eq (s u : State) (h : ledger u = ledger s) : ledgerKept s u := by
  simp only [ledger, Prod.mk.injEq] at h
  obtain ⟨ha, hc, ht, hp⟩ := h
  exact ledgerKept_of_sublist s u (fun b => ha ▸ b) hc ht (hp ▸ List.Sublist.refl _)

theorem ledgerKept_refl (s : State) : ledgerKept s s := ledgerKept_of_eq s s rfl

theorem ledgerKept_withAccount (s : State) (a : Account) (h : balanced s.account = true → balanced a = true) :
    ledgerKept s (s.withAccount a) :=
  ledgerKept_of_sublist s _ h rfl rfl (List.Sublist.refl _)

theorem ledgerKept_leavePot (s : State) (n : Nat) : ledgerKept s (s.leavePot n) :=
  ledgerKept_of_sublist s _ id rfl rfl List.filter_sublist

theorem ledgerKept_judgePotLife (s : State) : ledgerKept s s.judgePotLife := by
  obtain ⟨_, _, _, e⟩ := judgePotLife_frame s
  rw [e]
  exact ledgerKept_of_sublist s _ id rfl rfl (List.dropWhile_sublist _)

/-- The clock set forward, within its range (R181). -/
theorem ledgerKept_clock (s u : State) (m : Nat) (h : m ≤ Config.maxClock)
    (e : ledger u = (s.account, s.counter, m, s.potLife)) : ledgerKept s u := by
  have clocked : ledgerKept s { s with clock := m } :=
    { balance := id, counters := fun ⟨_, h1, h2⟩ => ⟨⟨h, h1, h2⟩, counterHolds_refl _⟩, pots := id }
  exact ledgerKept_trans _ _ _ clocked (ledgerKept_of_eq _ _ e)

/-- The counter that has given a number stays in its range and has moved forward, or is exhausted (R11). -/
theorem advanceCounter_holds (c : Counter) (h1 : 1 ≤ c.next) (h2 : c.next ≤ Config.maxLot) :
    (1 ≤ (advanceCounter c).next ∧ (advanceCounter c).next ≤ Config.maxLot) ∧ counterHolds c (advanceCounter c) := by
  unfold advanceCounter
  split
  · exact ⟨⟨h1, h2⟩, .inr ⟨rfl, fun _ => rfl⟩⟩
  · rename_i h
    refine ⟨⟨Nat.le_add_left 1 c.next, ?_⟩, .inl (Nat.lt_succ_self c.next)⟩
    exact Nat.lt_of_le_of_ne h2 h

/-! ### The audit -/

/-- A loss takes the lost numbers off the pot-life list (R155). -/
theorem retireLost_potLife (s : State) (lost : List Nat) :
    (s.retireLost lost).potLife = s.potLife.filter fun e => !(s.lostNumbers lost).contains e.lot := by
  simp only [State.retireLost]
  obtain ⟨_, _, h1⟩ := foldl_loseSlot_frame lost
    (s.withAccount (loseAsh s.account (s.lostAsh lost) (s.lostReservation lost)))
  rw [h1, foldl_loseNumber_eq]
  obtain ⟨_, _, h2⟩ := giveRooms_frame ((s.lostNumbers lost).map s.placesHeld).sum
    { s.withAccount (loseAsh s.account (s.lostAsh lost) (s.lostReservation lost)) with
      slots := _, ports := _
      cells := mapVector (leaveCell (s.lostNumbers lost)) s.cells
      queue := s.queue.filter (fun n => !(s.lostNumbers lost).contains n)
      bench := s.bench.filter (fun e => !(s.lostNumbers lost).contains e.lot)
      channels := mapVector (freeIfAmong (s.lostNumbers lost)) s.channels
      potLife := s.potLife.filter fun e => !(s.lostNumbers lost).contains e.lot }
  exact (congrArg State.potLife h2)

/-- A check of a slot leaves a part of the pot-life list. -/
theorem checkSlot_potLife (s : State) (k : Nat) : (s.checkSlot k).potLife.Sublist s.potLife := by
  unfold State.checkSlot
  split
  case h_1 t ht =>
    obtain ⟨_, _, _, _, e⟩ := checkItems_frame s t k ht
    rw [e]
  case h_2 =>
    obtain ⟨_, _, _, _, e⟩ := lossCheck_frame s k
    rw [retireLost_potLife]
    exact List.filter_sublist.trans (by rw [e])

theorem ledgerKept_checkSlot (s : State) (k : Nat) : ledgerKept s (s.checkSlot k) := by
  have pots := checkSlot_potLife s k
  obtain ⟨_, _, _, _, _, _, g, _, m, e, hm⟩ := checkSlot_frame s k
  refine ledgerKept_of_sublist s _ (fun b => ?_) (by rw [e]) (by rw [e]) pots
  rw [e]
  rcases hm with rfl | ⟨x, y, rfl⟩
  · exact b
  · exact loseAsh_balanced _ _ _ b

end Sys2Proof.Machine
end

section
/-! Every step keeps the ledger: the balance of the account (R22), the ranges and the direction of clock and counter (R11,
R181), the order of the pot-life list (R48). -/

namespace Sys2Proof.Machine

/-! ### Requests on a lot or a channel -/

section
variable {R : State → State → Prop}

/-- A request on a lot keeps what the check of a slot and its body keep (R4, R148). -/
theorem onLot_related (hrefl : ∀ s, R s s) (htrans : ∀ s u v, R s u → R u v → R s v)
    (hcheck : ∀ s k, R s (s.checkSlot k)) (s : State) (n : Nat) (body : State → Nat → LotRecord → State × Reply)
    (hbody : ∀ s k r, R s (body s k r).1) : R s (s.onLot n body).1 := by
  have checked : R s (s.checkedLot n).1 := by
    unfold State.checkedLot
    split
    · exact hrefl s
    · exact hcheck s _
  unfold State.onLot
  split
  · exact hrefl s
  · split
    · exact checked
    · exact htrans _ _ _ checked (hbody _ _ _)

/-- The check of a lot that a collection names keeps what the check of a slot keeps (R29, R148). -/
theorem checkLot_related (hrefl : ∀ s, R s s) (hcheck : ∀ s k, R s (s.checkSlot k)) (s : State) (n : Nat) :
    R s (s.checkLot n) := by
  unfold State.checkLot
  split
  · exact hcheck s _
  · exact hrefl s

/-- A request on a bound channel keeps what the check of a slot and its body keep (R28, R29). -/
theorem onChannel_related (hrefl : ∀ s, R s s) (htrans : ∀ s u v, R s u → R u v → R s v)
    (hcheck : ∀ s k, R s (s.checkSlot k)) (s : State) (p : PortName) (c : Nat) (active stalled : Bool)
    (body : State → Binding → Nat → LotRecord → State × Reply) (hbody : ∀ s b k r, R s (body s b k r).1) :
    R s (s.onChannel p c active stalled body).1 := by
  unfold State.onChannel
  split
  · exact hrefl s
  case h_2 b _ =>
    generalize (if b.stalled then stalled else active) = taken
    split
    · have checked : R s (s.checkedPlaced b.lot).1 := checkLot_related hrefl hcheck s b.lot
      split
      · exact checked
      · exact htrans _ _ _ checked (hbody _ _ _ _)
    · exact hrefl s

/-- Steps taken over a list keep what each of them keeps. -/
theorem foldl_related {α : Type} (hrefl : ∀ s, R s s) (htrans : ∀ s u v, R s u → R u v → R s v) (f : State → α → State)
    (h : ∀ s x, R s (f s x)) (l : List α) (s : State) : R s (l.foldl f s) := by
  induction l generalizing s with
  | nil => exact hrefl s
  | cons x l ih => exact htrans _ _ _ (h s x) (ih (f s x))

/-- The walk of SCAN keeps what the check of a slot keeps (R15). -/
theorem scanWalk_related (hrefl : ∀ s, R s s) (htrans : ∀ s u v, R s u → R u v → R s v)
    (hcheck : ∀ s k, R s (s.checkSlot k)) (es : List ScanEntry) (s : State) (taken : List LotRecord) :
    R s (scanWalk es s taken).1 := by
  induction es generalizing s taken with
  | nil => exact hrefl s
  | cons x xs ih =>
    have checked : R s (s.checkEntry x).1 := by
      unfold State.checkEntry
      split
      · exact checkLot_related hrefl hcheck s _
      · show R s s.checkUnnamed
        unfold State.checkUnnamed
        split
        · exact hcheck s _
        · exact hrefl s
    unfold scanWalk
    split
    · exact hrefl s
    · split
      · exact htrans _ _ _ checked (ih _ _)
      · exact htrans _ _ _ checked (ih _ _)

/-- TAKE keeps what the check of a slot and the taking of a lot keep (R102). -/
theorem takeFront_related (hrefl : ∀ s, R s s) (htrans : ∀ s u v, R s u → R u v → R s v)
    (hcheck : ∀ s k, R s (s.checkSlot k)) (p : PortName) (htake : ∀ s k r, R s (s.takeInto p k r)) (fuel : Nat)
    (s : State) : R s (takeFront p fuel s).1 := by
  induction fuel generalizing s with
  | zero => exact hrefl s
  | succ fuel ih =>
    unfold takeFront
    split
    · exact hrefl s
    case h_2 n _ _ =>
      have checked : R s (s.checkedPlaced n).1 := checkLot_related hrefl hcheck s n
      dsimp only
      split
      · split
        · exact htrans _ _ _ checked (htake _ _ _)
        · exact htrans _ _ _ checked (ih _)
      · exact htrans _ _ _ checked (ih _)

end

/-! ### The requests -/

/-- A request on a lot whose body leaves the ledger. -/
theorem ledgerKept_onLot (s : State) (n : Nat) (body : State → Nat → LotRecord → State × Reply)
    (h : ∀ s k r, ledger (body s k r).1 = ledger s) : ledgerKept s (s.onLot n body).1 :=
  onLot_related ledgerKept_refl ledgerKept_trans ledgerKept_checkSlot s n body fun s k r =>
    ledgerKept_of_eq _ _ (h s k r)

/-- A request on a channel whose body leaves the ledger. -/
theorem ledgerKept_onChannel (s : State) (p : PortName) (c : Nat) (active stalled : Bool)
    (body : State → Binding → Nat → LotRecord → State × Reply) (h : ∀ s b k r, ledger (body s b k r).1 = ledger s) :
    ledgerKept s (s.onChannel p c active stalled body).1 :=
  onChannel_related ledgerKept_refl ledgerKept_trans ledgerKept_checkSlot s p c active stalled body fun s b k r =>
    ledgerKept_of_eq _ _ (h s b k r)

/-- INTAKE books its amount, or debits it (R23). -/
theorem ledgerKept_intakeBody (amount : Int) (s : State) : ledgerKept s (intakeBody amount s).1 := by
  unfold intakeBody
  split
  · exact ledgerKept_refl s
  · split
    · split
      · exact ledgerKept_refl s
      · exact ledgerKept_withAccount s _ (book_balanced _ _)
    · exact ledgerKept_withAccount s _ (book_balanced _ _)

/-- CLOCK moves the clock in its range and judges the pot-life list (R181). -/
theorem ledgerKept_clockBody (minute : Option Nat) (s : State) : ledgerKept s (clockBody minute s).1 := by
  unfold clockBody
  split
  · exact ledgerKept_refl s
  · split
    · exact ledgerKept_refl s
    case isFalse m h =>
      exact ledgerKept_trans _ _ _ (ledgerKept_clock s { s with clock := m } m (not_lt.mp fun g => h (.inr g)) rfl)
        (ledgerKept_judgePotLife _)

/-- A taken OPEN reserves the planned ash, advances the counter and joins the pot-life list in its place, which is then
judged (R34, R35, R49). -/
theorem ledgerKept_openInto (s : State) (p : PortName) (slot channel planned : Nat) (ref : RecipeRef) (k : Snapshot)
    (parent : Option Parent) : ledgerKept s (s.openInto p slot channel planned ref k parent) := by
  unfold State.openInto
  dsimp only
  refine ledgerKept_trans _ _ _ ?_ (ledgerKept_judgePotLife _)
  let s3 := (({ s.writeLot slot (openedRecord s s.counter.next channel planned ref k parent) with
    counter := advanceCounter s.counter, account := reserveAsh s.account planned }).setChannel channel
      (some ⟨false, p, s.counter.next, 0⟩)).joinPot ⟨s.counter.next, deadlineOf s.clock k.potLife⟩
  have opened : ledgerKept s s3 := {
    balance := reserveAsh_balanced s.account planned
    counters := fun ⟨ht, h1, h2⟩ => by
      obtain ⟨range, holds⟩ := advanceCounter_holds s.counter h1 h2
      exact ⟨⟨ht, range⟩, holds⟩
    pots := fun h => potOrdered_insertBy _ _ h }
  split
  · exact ledgerKept_trans _ _ _ opened (ledgerKept_of_eq _ _ (ledger_freeSlot _ _))
  · exact opened

theorem ledgerKept_openRecipe (s : State) (p : PortName) (channel planned : Nat) (ref : RecipeRef)
    (parent : Option Parent) : ledgerKept s (s.openRecipe p channel planned ref parent).1 := by
  unfold State.openRecipe
  split
  · exact ledgerKept_refl s
  · split
    · exact ledgerKept_refl s
    · split
      · exact ledgerKept_refl s
      · split
        · exact ledgerKept_refl s
        · split
          · exact ledgerKept_refl s
          · exact ledgerKept_openInto s p _ channel planned ref _ parent

theorem ledgerKept_openBody (p : PortName) (channel recipe planned : Nat) (s : State) :
    ledgerKept s (openBody p channel recipe planned s).1 := by
  unfold openBody
  split
  · exact ledgerKept_refl s
  · split
    · exact ledgerKept_refl s
    · exact ledgerKept_trans _ _ _ (ledgerKept_of_eq _ _ (ledger_applyPendingBank s))
        (ledgerKept_openRecipe _ p channel planned _ none)

theorem ledgerKept_remixBody (p : PortName) (channel recipe planned parent : Nat) (s : State) :
    ledgerKept s (remixBody p channel recipe planned parent s).1 := by
  unfold remixBody
  split
  · exact ledgerKept_refl s
  · split
    · exact ledgerKept_refl s
    · refine onLot_related ledgerKept_refl ledgerKept_trans ledgerKept_checkSlot s parent _ fun u k r => ?_
      split_ifs
      · exact ledgerKept_refl u
      · exact ledgerKept_refl u
      · exact ledgerKept_refl u
      · exact ledgerKept_refl u
      · unfold State.openRemix
        split
        · exact ledgerKept_openRecipe u p channel planned _ _
        · exact ledgerKept_refl u

/-- A taken SEAL settles the reservation and takes the lot off the pot-life list (R42, R44, R48). -/
theorem ledgerKept_sealInto (s : State) (k cell : Nat) (r : LotRecord) (d : Dosed) :
    ledgerKept s (s.sealInto k cell r d) := by
  have settled := ledgerKept_withAccount s (settle s.account (r.reservation.getD 0) d.ash) (settle_balanced _ _ _)
  refine ledgerKept_trans _ _ _ settled (ledgerKept_trans _ _ _ (ledgerKept_leavePot _ r.number) ?_)
  exact ledgerKept_of_eq _ _ (ledger_sealHolds _ k _ _)

theorem ledgerKept_sealBody (p : PortName) (channel cell : Nat) (s : State) :
    ledgerKept s (sealBody p channel cell s).1 := by
  unfold sealBody
  split
  · exact ledgerKept_refl s
  · refine onChannel_related ledgerKept_refl ledgerKept_trans ledgerKept_checkSlot s p channel true true _
      fun u b k r => ?_
    split
    · exact ledgerKept_refl u
    · split_ifs
      · exact ledgerKept_trans _ _ _ (ledgerKept_withAccount u _ (returnReservation_balanced _ _))
          (ledgerKept_trans _ _ _ (ledgerKept_leavePot _ r.number) (ledgerKept_of_eq _ _ (ledger_freeSlot _ k)))
      · exact ledgerKept_refl u
      · exact ledgerKept_refl u
      · exact ledgerKept_refl u
      · exact ledgerKept_sealInto u k cell r _

/-- A taken WITHDRAW settles a MIXING lot, discards the ash and takes the lot off the pot-life list (R48, R122). -/
theorem ledgerKept_withdrawInto (s : State) (k : Nat) (r : LotRecord) : ledgerKept s (s.withdrawInto k r) := by
  have moved := ledgerKept_withAccount s (withdrawAccount s.account r) (withdrawAccount_balanced _ _)
  refine ledgerKept_trans _ _ _ moved (ledgerKept_trans _ _ _ (ledgerKept_leavePot _ r.number) ?_)
  exact ledgerKept_of_eq _ _ ((ledger_giveRooms _ _).trans (ledger_freeSlot _ k))

theorem ledgerKept_withdrawBody (lot : Nat) (s : State) : ledgerKept s (withdrawBody lot s).1 := by
  refine onLot_related ledgerKept_refl ledgerKept_trans ledgerKept_checkSlot s lot _ fun u k r => ?_
  split_ifs
  · exact ledgerKept_refl u
  · exact ledgerKept_withdrawInto u k r

theorem ledgerKept_releaseBody (lot cell : Nat) (s : State) : ledgerKept s (releaseBody lot cell s).1 := by
  refine onLot_related ledgerKept_refl ledgerKept_trans ledgerKept_checkSlot s lot _ fun u k r => ?_
  split_ifs
  · exact ledgerKept_refl u
  · exact ledgerKept_refl u
  · exact ledgerKept_refl u
  · exact ledgerKept_trans _ _ _ (ledgerKept_withAccount u _ (releaseAsh_balanced _ _))
      (ledgerKept_of_eq _ _ (ledger_freeSlot _ k))

end Sys2Proof.Machine
end

section
/-! The remaining requests and the events keep the ledger; every step does (R11, R22, R48, R181). -/

namespace Sys2Proof.Machine

/-- A list of checks keeps the ledger (R71, R113). -/
theorem ledgerKept_checkLots (l : List Nat) (s : State) : ledgerKept s (l.foldl State.checkLot s) :=
  foldl_related ledgerKept_refl ledgerKept_trans State.checkLot
    (checkLot_related ledgerKept_refl ledgerKept_checkSlot) l s

/-- The body of every request keeps the ledger. -/
theorem ledgerKept_bodyOf (i : Instr) (s : State) : ledgerKept s (bodyOf i s).1 := by
  cases i with
  | intake p t amount => exact ledgerKept_intakeBody amount s
  | lookup p t lot => exact ledgerKept_onLot s lot _ fun _ _ _ => rfl
  | scan p t filter start =>
    show ledgerKept s (scanBody filter start s).1
    unfold scanBody
    split
    · exact ledgerKept_refl s
    · exact scanWalk_related ledgerKept_refl ledgerKept_trans ledgerKept_checkSlot _ s []
  | amendTarget p t part lot target =>
    show ledgerKept s (amendTargetBody part lot target s).1
    unfold amendTargetBody
    split
    · exact ledgerKept_refl s
    · refine ledgerKept_onLot s lot _ fun u k r => ?_
      dsimp only
      split
      · exact ledger_changeRecord u k _
      · split
        · exact ledger_changeRecord u k _
        · exact ledger_changeRecord u k _
        · exact ledger_changeRecord u k _
        · exact ledger_changeRecord u k _
        · exact ledger_changeRecord u k _
        all_goals rfl
  | amendRecipe p t part lot bank number =>
    show ledgerKept s (amendRecipeBody part lot bank number s).1
    unfold amendRecipeBody
    split
    · exact ledgerKept_refl s
    · refine ledgerKept_onLot s lot _ fun u k r => ?_
      split
      · rfl
      · split
        · rfl
        · split
          · rfl
          · exact ledger_changeRecord u k _
  | amendDosed p t part lot ash cement water =>
    show ledgerKept s (amendDosedBody part lot ash cement water s).1
    unfold amendDosedBody
    split
    · exact ledgerKept_refl s
    · refine ledgerKept_onLot s lot _ fun u k r => ?_
      split
      · exact ledger_changeRecord u k _
      · rfl
  | holdLot p t lot => exact ledgerKept_onLot s lot _ fun u k _ => ledger_addHold u k .manual
  | clearHold p t lot reasons =>
    show ledgerKept s (clearHoldBody lot reasons s).1
    unfold clearHoldBody
    split
    · exact ledgerKept_refl s
    · refine ledgerKept_onLot s lot _ fun u k r => ?_
      dsimp only
      split
      · rfl
      · dsimp only
        split
        · exact (ledger_admitLot _ k).trans (ledger_changeRecord u k _)
        · exact ledger_changeRecord u k _
  | withdraw p t lot => exact ledgerKept_withdrawBody lot s
  | cellOpen p t cell =>
    show ledgerKept s (closeBody false cell s).1
    unfold closeBody
    split <;> exact ledgerKept_of_eq _ _ rfl
  | cellClose p t cell =>
    show ledgerKept s (closeBody true cell s).1
    unfold closeBody
    split <;> exact ledgerKept_of_eq _ _ rfl
  | cellStatus p t cell =>
    show ledgerKept s (cellStatusBody cell s).1
    unfold cellStatusBody
    split
    · exact ledgerKept_refl s
    · exact ledgerKept_checkLots _ s
  | queueStatus p t => exact ledgerKept_checkLots _ s
  | recipeRead p t bank number =>
    show ledgerKept s (recipeReadBody bank number s).1
    unfold recipeReadBody
    split <;> exact ledgerKept_refl s
  | recipeWrite p t bank number form values =>
    show ledgerKept s (recipeWriteBody bank number form values s).1
    unfold recipeWriteBody
    split_ifs
    · exact ledgerKept_refl s
    · exact ledgerKept_refl s
    · exact ledgerKept_refl s
    · split <;> exact ledgerKept_of_eq _ _ rfl
  | bankSelect p t bank =>
    show ledgerKept s (bankSelectBody bank s).1
    unfold bankSelectBody
    split
    · exact ledgerKept_refl s
    · exact ledgerKept_of_eq _ _ (ledger_changeBank s _)
  | mode p t code =>
    show ledgerKept s (modeBody code s).1
    unfold modeBody
    split <;> exact ledgerKept_of_eq _ _ rfl
  | portSetup p t port role first last =>
    show ledgerKept s (portSetupBody port role first last s).1
    unfold portSetupBody
    split
    · exact ledgerKept_refl s
    · exact ledgerKept_refl s
    · exact ledgerKept_refl s
    · split
      · exact ledgerKept_refl s
      · exact ledgerKept_of_eq _ _ (ledger_setupInto s _ _)
  | noticeMask p t port kinds =>
    show ledgerKept s (noticeMaskBody port kinds s).1
    unfold noticeMaskBody
    split
    · exact ledgerKept_refl s
    · split <;> exact ledgerKept_of_eq _ _ rfl
  | reinstateSlot p t slot =>
    show ledgerKept s (reinstateBody slot s).1
    unfold reinstateBody
    split_ifs
    · exact ledgerKept_refl s
    · exact ledgerKept_refl s
    · exact ledgerKept_refl s
    · exact ledgerKept_of_eq _ _ (ledger_offerSlot _ slot)
  | clock p t minute => exact ledgerKept_clockBody minute s
  | clearRegister p t count =>
    show ledgerKept s (clearRegisterBody count s).1
    unfold clearRegisterBody
    split_ifs <;> exact ledgerKept_refl s
  | openLot p t channel recipe planned => exact ledgerKept_openBody p channel recipe planned s
  | remixOpen p t channel recipe planned parent => exact ledgerKept_remixBody p channel recipe planned parent s
  | dose p t channel ash cement water =>
    show ledgerKept s (doseBody p channel ash cement water s).1
    unfold doseBody
    split
    · exact ledgerKept_refl s
    · refine ledgerKept_onChannel s p channel true false _ fun u b k r => ?_
      split
      · rfl
      · dsimp only
        split
        · exact ledger_changeRecord u k _
        · rfl
  | sealLot p t channel cell => exact ledgerKept_sealBody p channel cell s
  | stall p t channel => exact ledgerKept_onChannel s p channel true false _ fun _ _ _ _ => rfl
  | resume p t channel => exact ledgerKept_onChannel s p channel false true _ fun _ _ _ _ => rfl
  | rebind p t lot channel =>
    show ledgerKept s (rebindBody p lot channel s).1
    unfold rebindBody
    split
    · exact ledgerKept_refl s
    · split
      · exact ledgerKept_refl s
      · refine ledgerKept_onLot s lot _ fun u k r => ?_
        split
        · rfl
        · exact ledger_changeRecord u k _
  | channelStatus p t channel =>
    show ledgerKept s (match s.channel channel with
      | some b => s.checkLot b.lot
      | none => s)
    split
    · exact checkLot_related ledgerKept_refl ledgerKept_checkSlot s _
    · exact ledgerKept_refl s
  | take p t =>
    exact takeFront_related ledgerKept_refl ledgerKept_trans ledgerKept_checkSlot p
      (fun u _ _ => ledgerKept_of_eq u _ rfl) _ s
  | returnLot p t lot =>
    refine ledgerKept_onLot s lot _ fun u k r => ?_
    split
    · show ledger (u.returnInto k r) = ledger u
      unfold State.returnInto
      dsimp only
      split
      · rfl
      · exact ledger_giveRoom _
    · rfl
  | verdictResult p t lot kind strength leachClass =>
    show ledgerKept s (resultBody p lot kind strength leachClass s).1
    unfold resultBody
    split
    · exact ledgerKept_refl s
    · refine ledgerKept_onLot s lot _ fun u k r => ?_
      split
      · split
        · exact ledger_giveRoom _
        · rfl
      · rfl
  | verdictRetest p t lot kind =>
    show ledgerKept s (retestBody p lot kind s).1
    unfold retestBody
    split
    · exact ledgerKept_refl s
    · refine ledgerKept_onLot s lot _ fun u k r => ?_
      split
      · split
        · rfl
        · refine (ledger_giveRoom _).trans ?_
          split
          · exact ledger_sensorHold _ k _
          · rfl
      · rfl
  | place p t lot cell =>
    refine ledgerKept_onLot s lot _ fun u k r => ?_
    split_ifs
    · rfl
    · rfl
    · rfl
    · refine (ledger_sensorHold _ k cell).trans ?_
      show ledger (match r.targetCell with
        | some c => _
        | none => _) = ledger u
      split <;> rfl
  | release p t lot cell => exact ledgerKept_releaseBody lot cell s
  | extract p t lot cell =>
    refine ledgerKept_onLot s lot _ fun u k r => ?_
    split_ifs <;> rfl
  | _ => exact ledgerKept_of_eq _ _ rfl

/-! ### The events -/

/-- A valid reading leaves the ledger (R80 to R86), but for what the checks of its lots do. -/
theorem ledgerKept_sampleValid (s : State) (cell : Nat) (reading : Int) (minute : Nat) :
    ledgerKept s (s.sampleValid cell reading minute) := by
  have treated (u : State) (k : Nat) (r : LotRecord) : ledger (u.treatLot k r reading minute).1 = ledger u := by
    have held : ledger (if completesFrost reading r then
        (u.changeRecord k fun r => stepFrost reading (accumulate reading (applyPending r))).addHold k .frost
        else u.changeRecord k fun r => stepFrost reading (accumulate reading (applyPending r))) = ledger u := by
      split <;> simp
    unfold State.treatLot
    dsimp only
    split
    · split
      · exact (ledger_admitLot _ k).trans held
      · exact held
    · exact held
  have one (x : State × Bool) (n : Nat) : ledgerKept x.1 (sampleLot cell reading minute x n).1 := by
    unfold sampleLot
    dsimp only
    split
    · split
      · have checked : ledgerKept x.1 (x.1.checkedPlaced n).1 :=
          checkLot_related ledgerKept_refl ledgerKept_checkSlot x.1 n
        split
        · split
          · exact ledgerKept_trans _ _ _ checked (ledgerKept_of_eq _ _ (treated _ _ _))
          · exact checked
        · exact checked
      · exact ledgerKept_refl x.1
    · exact ledgerKept_refl x.1
  have all (l : List Nat) : ∀ x : State × Bool, ledgerKept x.1 (l.foldl (sampleLot cell reading minute) x).1 := by
    induction l with
    | nil => exact fun x => ledgerKept_refl x.1
    | cons n l ih => exact fun x => ledgerKept_trans _ _ _ (one x n) (ih _)
  have marked : ledgerKept s (s.setCell cell (cellValid reading minute (s.cell cell))) := ledgerKept_of_eq _ _ rfl
  have lane := ledgerKept_trans _ _ _ marked
    (all (s.cell cell).lane (s.setCell cell (cellValid reading minute (s.cell cell)), false))
  unfold State.sampleValid
  dsimp only
  split
  · exact ledgerKept_trans _ _ _ lane (ledgerKept_of_eq _ _ rfl)
  · exact lane

/-- A miss leaves the ledger (R87). -/
theorem ledger_sampleMiss (s : State) (cell minute : Nat) : ledger (s.sampleMiss cell minute) = ledger s := by
  unfold State.sampleMiss
  dsimp only
  split
  · exact ledger_sensorLane _ _
  · rfl

theorem ledgerKept_endConversion (s : State) (x : Scan) (reading : Option Int) :
    ledgerKept s (s.endConversion x reading) := by
  have ended (t : State) : ledgerKept t { t with scan := nextScan x } := ledgerKept_of_eq _ _ rfl
  unfold State.endConversion
  dsimp only
  refine ledgerKept_trans _ _ _ ?_ (ended _)
  split
  · split
    · exact ledgerKept_sampleValid s x.cell _ x.minute
    · exact ledgerKept_of_eq _ _ (ledger_sampleMiss s x.cell x.minute)
  · exact ledgerKept_of_eq _ _ (ledger_sampleMiss s x.cell x.minute)

theorem ledgerKept_completion (s : State) (cell : Nat) (reading : Int) (good : Bool) :
    ledgerKept s (s.completion cell reading good) := by
  unfold State.completion
  split
  · split
    · exact ledgerKept_endConversion s _ _
    · exact ledgerKept_refl s
  · exact ledgerKept_refl s

/-- A disturbance leaves the totals, though it may spoil the check of one (R184). -/
theorem ledgerKept_disturb (s : State) (u : Upset) : ledgerKept s (s.disturb u) := by
  by_cases h : u = .total
  · subst h
    exact ledgerKept_withAccount s { s.account with checksGood := false } id
  · exact ledgerKept_of_eq _ _ (ledger_disturb s u h)

theorem ledgerKept_disturbAll (s : State) (us : List Upset) : ledgerKept s (s.disturbAll us) :=
  foldl_related ledgerKept_refl ledgerKept_trans State.disturb ledgerKept_disturb us s

/-- What every step keeps of the ledger: a cold start alone may move the counter back, as it empties the register. -/
structure ledgerStepped (s u : State) : Prop where
  balance : balanced s.account = true → balanced u.account = true
  counters : countersSound s → countersSound u ∧ (counterHolds s.counter u.counter ∨ registerEmpty u)
  pots : potOrdered s.potLife → potOrdered u.potLife

theorem ledgerKept.stepped {s u : State} (h : ledgerKept s u) : ledgerStepped s u where
  balance := h.balance
  counters := fun c => ⟨(h.counters c).1, .inl (h.counters c).2⟩
  pots := h.pots

/-- A cold start leaves an empty account, the counter at 1, the clock at 0 and no pot life (R26, R185). -/
theorem coldBegin_stepped (s : State) : ledgerStepped s s.coldBegin := by
  obtain ⟨empty, -, -, -, -, -, e⟩ := coldBegin_facts s
  have counter : s.coldBegin.counter = ⟨1, false⟩ := by rw [e]
  have clock : s.coldBegin.clock = 0 := by rw [e]
  have account : s.coldBegin.account = Account.blank := by rw [e]; rfl
  have pots : s.coldBegin.potLife = [] := by rw [e]
  refine ⟨fun _ => by rw [account]; rfl, fun _ => ⟨?_, .inr empty⟩, fun _ => ?_⟩
  · unfold countersSound
    rw [counter, clock]
    exact ⟨Nat.zero_le _, le_refl 1, by decide⟩
  · rw [pots]
    exact List.Pairwise.nil

/-- A state that differs from one stepped to in the port or start registers alone. -/
theorem ledgerStepped_congr (s u v : State) (h : ledgerStepped s u) (e : ledger v = ledger u) (hs : v.slots = u.slots) :
    ledgerStepped s v := by
  have kept := ledgerKept_of_eq u v e
  refine ⟨fun b => kept.balance (h.balance b), fun c => ?_, fun p => kept.pots (h.pots p)⟩
  obtain ⟨cu, hu⟩ := h.counters c
  have counter : v.counter = u.counter := congrArg (fun x => x.2.1) e
  have occupied : v.occupied = u.occupied := by unfold State.occupied; rw [hs]
  refine ⟨(kept.counters cu).1, hu.imp (fun g => counter ▸ g) fun ⟨g1, g2⟩ => ⟨occupied ▸ g1, counter ▸ g2⟩⟩

theorem ledgerStepped_of_eq (s u : State) (h : ledger u = ledger s) : ledgerStepped s u := (ledgerKept_of_eq s u h).stepped

theorem ledgerStepped_refl (s : State) : ledgerStepped s s := ledgerStepped_of_eq s s rfl

/-- A start that completes judges the pot lives it overtook (R49, R183). -/
theorem ledgerStepped_startComplete (s s' : State) (e : execStartComplete s = .next s') : ledgerStepped s s' := by
  cases e
  split
  · split
    · exact ledgerStepped_refl s
    · dsimp only
      refine (ledgerKept_trans _ _ _ ?_ (ledgerKept_judgePotLife _)).stepped
      split
      · exact ledgerKept_of_eq _ _ (ledger_outageRule _)
      · exact ledgerKept_of_eq _ _ rfl
  · exact ledgerStepped_refl s
  · exact ledgerStepped_refl s

/-- A warm power-up keeps the ledger, and a cold start empties it (R184). -/
theorem ledgerStepped_mainSupplyReturn (upsets : List Upset) (s s' : State)
    (e : execMainSupplyReturn upsets s = .next s') : ledgerStepped s s' := by
  have disturbed := ledgerKept_disturbAll s upsets
  generalize ht : s.disturbAll upsets = t at disturbed
  unfold execMainSupplyReturn at e
  rw [ht, Host.Outcome.next.injEq] at e
  subst e
  split
  · dsimp only
    split
    · refine (ledgerKept_trans _ _ _ disturbed (ledgerKept_of_eq _ _ ?_)).stepped
      rw [ledger_outageRule]
      exact ledger_warmStart t
    · have cold := coldBegin_stepped t
      refine ⟨fun b => cold.balance (disturbed.balance b), fun c => ?_, fun p => cold.pots (disturbed.pots p)⟩
      exact ⟨(cold.counters (disturbed.counters c).1).1, .inr (coldBegin_facts t).1⟩
  · exact ledgerStepped_refl s
  · exact ledgerStepped_refl s

/-- Every event keeps the ledger, but for the cold starts. -/
theorem ledgerStepped_event (i : Instr) (hi : isEvent i = true) (s s' : State) (e : exec i s = .next s') :
    ledgerStepped s s' := by
  cases i with
  | portBusy p t =>
    cases e
    split <;> exact ledgerStepped_of_eq _ _ rfl
  | unknownRequestCode p t code length =>
    obtain ⟨a, rfl⟩ := execUnknownRequestCode_ports p t code length s s' e
    exact ledgerStepped_of_eq _ _ rfl
  | frameGapTimeout p =>
    cases e
    split <;> exact ledgerStepped_of_eq _ _ rfl
  | bodyLengthAbandon p length =>
    obtain ⟨a, rfl⟩ := execBodyLengthAbandon_ports p length s s' e
    exact ledgerStepped_of_eq _ _ rfl
  | answerSent p =>
    cases e
    split <;> exact ledgerStepped_of_eq _ _ rfl
  | clockAdvance =>
    cases e
    split
    case isTrue h =>
      split
      · exact (ledgerKept_trans _ _ _
          (ledgerKept_clock s { s with clock := s.clock + 1, scan := some ⟨0, s.clock + 1⟩ } _ h rfl)
          (ledgerKept_judgePotLife _)).stepped
      · exact (ledgerKept_clock s _ _ h rfl).stepped
    · exact ledgerStepped_refl s
  | conversionCompletion cell reading =>
    cases e
    exact (ledgerKept_completion s cell reading true).stepped
  | conversionTimeout =>
    cases e
    split
    · exact (ledgerKept_endConversion s _ none).stepped
    · exact ledgerStepped_refl s
  | strayCompletion cell reading good =>
    cases e
    exact (ledgerKept_completion s cell reading good).stepped
  | potLifeExpiry =>
    cases e
    split
    · exact (ledgerKept_judgePotLife s).stepped
    · exact ledgerStepped_refl s
  | idleTimerExpiry p =>
    cases e
    split
    · exact ledgerStepped_of_eq _ _ (ledger_makeAbsent s p)
    · exact ledgerStepped_refl s
  | portSetupWriteEnd =>
    cases e
    split <;> exact ledgerStepped_of_eq _ _ rfl
  | bankStateWriteEnd =>
    cases e
    split <;> exact ledgerStepped_of_eq _ _ rfl
  | auditStep upsets =>
    cases e
    split
    · refine (ledgerKept_trans _ _ _ (ledgerKept_trans _ _ _ (ledgerKept_disturbAll s upsets)
        (ledgerKept_checkSlot _ s.cyclePosition)) ?_).stepped
      exact ledgerKept_of_eq _ _ rfl
    · exact ledgerStepped_refl s
  | recipeCommitCompletion =>
    cases e
    split <;> exact ledgerStepped_of_eq _ _ rfl
  | warmRestart =>
    cases e
    split
    · split
      · exact ledgerStepped_of_eq _ _ (ledger_warmStart s)
      · exact ledgerStepped_of_eq _ _ rfl
      · exact ledgerStepped_of_eq _ _ rfl
    · exact ledgerStepped_refl s
  | coldStart =>
    cases e
    split
    · split
      · exact ledgerStepped_congr _ _ _ (coldBegin_stepped s) rfl rfl
      · exact ledgerStepped_congr _ _ _ (coldBegin_stepped s) rfl rfl
      · exact ledgerStepped_of_eq _ _ rfl
    · exact ledgerStepped_refl s
  | resetLineAssert =>
    cases e
    split
    · exact ledgerStepped_of_eq _ _ (ledger_warmStart s)
    · exact ledgerStepped_of_eq _ _ rfl
    · exact ledgerStepped_of_eq _ _ rfl
  | resetLineRelease =>
    cases e
    split
    · dsimp only
      split
      · split
        · exact ledgerStepped_of_eq _ _ rfl
        · exact ledgerStepped_of_eq _ _ (ledger_outageRule _)
      · exact ledgerStepped_of_eq _ _ rfl
      · exact ledgerStepped_of_eq _ _ rfl
    · exact ledgerStepped_refl s
  | startComplete =>
    exact ledgerStepped_startComplete s s' e
  | mainSupplyLoss =>
    have cut : ledger s.cutOff = ledger s := by
      unfold State.cutOff State.cutCommit
      split <;> rfl
    cases e
    split
    · exact ledgerStepped_refl s
    · exact ledgerStepped_of_eq _ _ cut
    · exact ledgerStepped_of_eq _ _ cut
  | mainSupplyReturn upsets =>
    exact ledgerStepped_mainSupplyReturn upsets s s' e
  | _ => cases hi

/-- Every step keeps the ledger. -/
theorem ledgerStepped_step (s s' : State) (e : step s = .next s') : ledgerStepped s s' := by
  unfold step at e
  split at e
  · cases e
    exact ledgerStepped_refl s
  case h_2 i rest _ =>
    have taken : ledgerStepped { s with pending := rest } s' := by
      by_cases hi : isEvent i = true
      · exact ledgerStepped_event i hi _ s' e
      · exact (exec_related ledgerKept_trans (fun u a => ledgerKept_of_eq u _ rfl) ledgerKept_bodyOf i _ s'
          (fun h => absurd h hi) e).stepped
    exact ⟨taken.balance, taken.counters, taken.pots⟩

/-- Settles O56: every operation that moves the account keeps its equality, and the others leave it. -/
theorem stepKeepsTheAccountBalanced : Obligations.StepKeepsTheAccountBalanced :=
  fun s s' b e => (ledgerStepped_step s s' e).balance b

/-- Settles O59: a given number advances the counter, and a cold start alone moves it back. -/
theorem stepNeverMovesTheCounterBack : Obligations.StepNeverMovesTheCounterBack := fun s s' e =>
  ⟨(ledgerStepped_step s s' e).counters, (ledgerStepped_step s s' e).pots⟩

end Sys2Proof.Machine
end

section
/-! The second equality of R22, as one figure: what the account holds beyond the live lots. An operation that moves lots
and account together leaves it, and the account agrees with the lots where it is zero. -/

namespace Sys2Proof.Machine

/-! ### The figures of records and slots -/

/-- The ash and the reservation that a record's index entry carries (R12). -/
def figuresOf (r : LotRecord) : Int × Int := (((entryOf r).ash : Int), (((entryOf r).reservation.getD 0 : Nat) : Int))

/-- The figures of what a slot holds. -/
def slotFigures (x : Slot) : Int × Int := ((x.contents.map fun l => figuresOf l.record.held).getD 0)

/-- The figures of every live lot together. -/
def lotFigures (s : State) : Int × Int := (s.slots.toList.map slotFigures).sum

/-- What the live and the reserved total hold beyond the live lots. -/
def ashExcess (s : State) : Int × Int := (s.account.live, s.account.reserved) - lotFigures s

theorem figuresOf_congr (q r : LotRecord) (h : entryOf q = entryOf r) : figuresOf q = figuresOf r := by
  unfold figuresOf
  rw [h]

theorem figuresOf_mixing (r : LotRecord) (h : r.state = .mixing) :
    figuresOf r = (((r.carriedAsh.getD 0 : Nat) : Int), ((r.reservation.getD 0 : Nat) : Int)) := by
  simp [figuresOf, entryOf, h]

theorem figuresOf_mixed (r : LotRecord) (h : r.state ≠ .mixing) : figuresOf r = (((r.ashMass.getD 0 : Nat) : Int), 0) := by
  simp [figuresOf, entryOf, h]

/-- A sum over the occupied slots is a sum over all slots, the free ones giving nothing. -/
theorem sum_occupied (s : State) (g : LotRecord → Int) :
    (s.occupied.map fun x => g x.2.record.held).sum =
      (s.slots.toList.map fun x => (x.contents.map fun l => g l.record.held).getD 0).sum := by
  unfold State.occupied
  generalize s.slots.toList = slots
  suffices ∀ m, (((slots.zipIdx m).filterMap fun x => x.1.contents.map fun l => (x.2, l)).map
      fun x => g x.2.record.held).sum = (slots.map fun x => (x.contents.map fun l => g l.record.held).getD 0).sum from
    this 0
  induction slots with
  | nil => exact fun _ => rfl
  | cons x xs ih =>
    intro m
    rw [List.zipIdx_cons]
    cases hx : x.contents with
    | none => simp [hx, ih]
    | some l => simp [hx, ih]

/-- The account agrees with the lots when it holds nothing beyond them (R22). -/
theorem ashAgrees_iff (s : State) : ashAgrees s ↔ ashExcess s = 0 := by
  have live : liveAsh s = (lotFigures s).1 := by
    refine (sum_occupied s fun r => ((if r.state = .mixing then r.carriedAsh.getD 0 else r.ashMass.getD 0 : Nat) : Int)).trans ?_
    refine Eq.trans ?_ (map_list_sum (AddMonoidHom.fst Int Int) (s.slots.toList.map slotFigures)).symm
    rw [List.map_map]
    refine congrArg List.sum (List.map_congr_left fun x _ => ?_)
    cases hx : x.contents <;> simp [slotFigures, figuresOf, entryOf, hx]
  have reserved : reservedAsh s = (lotFigures s).2 := by
    refine (sum_occupied s fun r => ((if r.state = .mixing then r.reservation.getD 0 else 0 : Nat) : Int)).trans ?_
    refine Eq.trans ?_ (map_list_sum (AddMonoidHom.snd Int Int) (s.slots.toList.map slotFigures)).symm
    rw [List.map_map]
    refine congrArg List.sum (List.map_congr_left fun x _ => ?_)
    cases hx : x.contents with
    | none => simp [slotFigures, hx]
    | some l => by_cases h : l.record.held.state = .mixing <;> simp [slotFigures, figuresOf, entryOf, hx, h]
  unfold ashAgrees ashExcess
  rw [live, reserved, sub_eq_zero, Prod.ext_iff]

/-! ### Slots -/

theorem lotFigures_setSlot (s : State) (k : Nat) (x : Slot) (hk : k < Config.slotCount) :
    lotFigures (s.setSlot k x) = lotFigures s - slotFigures (s.slot k) + slotFigures x := by
  have hlen : k < s.slots.toList.length := by simpa using hk
  have hset : (s.setSlot k x).slots.toList = s.slots.toList.set k x := by simp [State.setSlot]
  unfold lotFigures
  rw [hset, List.map_set, List.sum_set', dif_pos (by simpa using hlen), List.getElem_map]
  unfold State.slot
  rw [List.getD_eq_getElem _ _ hlen]
  abel

theorem ashExcess_congr (s u : State) (h : u.slots = s.slots) (ha : u.account = s.account) : ashExcess u = ashExcess s := by
  unfold ashExcess lotFigures
  rw [h, ha]

theorem slotFigures_at (s : State) (k : Nat) (l : Lot) (h : s.lotAt k = some l) :
    slotFigures (s.slot k) = figuresOf l.record.held := by
  have : (s.slot k).contents = some l := h
  simp [slotFigures, this]

theorem slotFigures_free (s : State) (k : Nat) (h : s.lotAt k = none) : slotFigures (s.slot k) = 0 := by
  have : (s.slot k).contents = none := h
  simp [slotFigures, this]

theorem ashExcess_setSlot (s : State) (k : Nat) (x : Slot) (hk : k < Config.slotCount) :
    ashExcess (s.setSlot k x) = ashExcess s + slotFigures (s.slot k) - slotFigures x := by
  show (s.account.live, s.account.reserved) - lotFigures (s.setSlot k x) = _
  rw [lotFigures_setSlot s k x hk]
  unfold ashExcess
  abel

/-- A lot put back in its slot. -/
theorem ashExcess_putLot (s : State) (k : Nat) (l l' : Lot) (h : s.lotAt k = some l) :
    ashExcess (s.putLot k l') = ashExcess s + figuresOf l.record.held - figuresOf l'.record.held := by
  rw [State.putLot, ashExcess_setSlot s k _ (slot_of_lotAt s k l h), slotFigures_at s k l h]
  rfl

/-- A lot put into a free slot. -/
theorem ashExcess_putFree (s : State) (k : Nat) (l' : Lot) (hk : k < Config.slotCount) (h : s.lotAt k = none) :
    ashExcess (s.putLot k l') = ashExcess s - figuresOf l'.record.held := by
  rw [State.putLot, ashExcess_setSlot s k _ hk, slotFigures_free s k h, add_zero]
  rfl

/-- A lot taken out of its slot. -/
theorem ashExcess_emptySlot (s : State) (k : Nat) (l : Lot) (h : s.lotAt k = some l) :
    ashExcess (s.emptySlot k) = ashExcess s + figuresOf l.record.held := by
  rw [State.emptySlot, ashExcess_setSlot s k _ (slot_of_lotAt s k l h), slotFigures_at s k l h]
  exact sub_zero _

/-- A record moved into a free slot carries its figures with it (R158). -/
theorem ashExcess_moveLot (s : State) (w f : Nat) (hf : s.lotAt f = none) (hk : f < Config.slotCount) :
    ashExcess (s.moveLot w f) = ashExcess s := by
  unfold State.moveLot
  split
  case h_1 l hl =>
    have hwf : w ≠ f := fun e => by rw [e, hf] at hl; cases hl
    rw [ashExcess_emptySlot _ w l (by rw [lotAt_putLot_ne s f w _ hwf, hl]), ashExcess_putFree s f _ hk hf]
    exact sub_add_cancel _ _
  · rfl

theorem ashExcess_offerSlot (s : State) (k : Nat) (hf : s.lotAt k = none) (hk : k < Config.slotCount) :
    ashExcess (s.offerSlot k) = ashExcess s := by
  unfold State.offerSlot
  split
  · rfl
  · split
    · exact ashExcess_moveLot s _ k hf hk
    · rfl

/-- A freed slot takes the figures of its lot out (R3, R9). -/
theorem ashExcess_freeSlot (s : State) (k : Nat) (l : Lot) (h : s.lotAt k = some l) :
    ashExcess (s.freeSlot k) = ashExcess s + figuresOf l.record.held := by
  unfold State.freeSlot
  rw [ashExcess_offerSlot _ k (by rw [lotAt_emptySlot, if_pos rfl]) (slot_of_lotAt s k l h), ashExcess_emptySlot s k l h]

theorem ashExcess_relocate (s : State) (k : Nat) : ashExcess (s.relocate k) = ashExcess s := by
  unfold State.relocate
  split
  · rfl
  case h_2 l hl =>
    split
    case h_1 f hf =>
      obtain ⟨h1, h2⟩ := lowestFree_some s f hf
      exact ashExcess_moveLot s k f h1 h2
    · rw [ashExcess_setSlot s k _ (slot_of_lotAt s k l hl)]
      exact add_sub_cancel_right _ _

/-- Slots changed one by one in what the figures do not depend on. -/
theorem ashExcess_mapSlots (s u : State) (f : Slot → Slot) (hu : u.slots = mapVector f s.slots)
    (ha : u.account = s.account) (hf : ∀ x, (f x).contents = x.contents) : ashExcess u = ashExcess s := by
  unfold ashExcess lotFigures
  rw [hu, ha, mapVector_toList, List.map_map]
  refine congrArg (fun l => _ - List.sum l) (List.map_congr_left fun x _ => ?_)
  simp [slotFigures, hf]

/-! ### Records -/

/-- A change of a record that its entry does not mirror (R13). -/
theorem ashExcess_changeRecord (s : State) (k : Nat) (f : LotRecord → LotRecord)
    (hf : ∀ r, s.recordAt k = some r → entryOf (f r) = entryOf r) : ashExcess (s.changeRecord k f) = ashExcess s := by
  unfold State.changeRecord
  split
  case h_1 l hl =>
    rw [ashExcess_putLot s k l _ hl]
    have kept : figuresOf (f l.record.held) = figuresOf l.record.held :=
      figuresOf_congr _ _ (hf _ (recordAt_of_lotAt s k l hl))
    show ashExcess s + figuresOf l.record.held - figuresOf (f l.record.held) = ashExcess s
    rw [kept, add_sub_cancel_right]
  · rfl

/-- A record rewritten with its entry (R13). -/
theorem ashExcess_writeLot (s : State) (k : Nat) (r q : LotRecord) (h : s.recordAt k = some r) :
    ashExcess (s.writeLot k q) = ashExcess s + figuresOf r - figuresOf q := by
  obtain ⟨l, hl, rfl⟩ := (recordAt_eq s k r).mp h
  exact ashExcess_putLot s k l _ hl

theorem ashExcess_changeEntry (s : State) (k : Nat) (f : IndexEntry → IndexEntry) :
    ashExcess (s.changeEntry k f) = ashExcess s := by
  unfold State.changeEntry
  split
  case h_1 l hl =>
    rw [ashExcess_putLot s k l _ hl]
    exact add_sub_cancel_right _ _
  · rfl

theorem ashExcess_setStatus (s : State) (k : Nat) (q : QueueStatus) : ashExcess (s.setStatus k q) = ashExcess s :=
  ashExcess_changeRecord s k _ fun _ _ => rfl

theorem ashExcess_giveRoom (s : State) : ashExcess s.giveRoom = ashExcess s := by
  unfold State.giveRoom
  split
  · split
    · exact ashExcess_setStatus _ _ _
    · rfl
  · rfl

theorem ashExcess_giveRooms (n : Nat) (s : State) : ashExcess (s.giveRooms n) = ashExcess s := by
  induction n generalizing s with
  | zero => rfl
  | succ n ih => exact (ih s.giveRoom).trans (ashExcess_giveRoom s)

theorem ashExcess_admitLot (s : State) (k : Nat) : ashExcess (s.admitLot k) = ashExcess s := by
  unfold State.admitLot
  split
  · rfl
  · split_ifs
    · exact ashExcess_setStatus _ _ _
    · rfl
    · exact ashExcess_setStatus _ _ _
    · exact ashExcess_setStatus _ _ _

theorem ashExcess_parkHeld (s : State) (k : Nat) : ashExcess (s.parkHeld k) = ashExcess s := by
  unfold State.parkHeld
  split
  · rfl
  · split_ifs
    · exact (ashExcess_giveRoom _).trans (ashExcess_setStatus (s.leaveQueue _) _ _)
    · exact ashExcess_setStatus _ _ _
    · rfl

theorem ashExcess_addHold (s : State) (k : Nat) (h : Hold) : ashExcess (s.addHold k h) = ashExcess s := by
  unfold State.addHold
  split
  · rfl
  · split
    · rfl
    · refine (ashExcess_parkHeld _ k).trans ?_
      exact (ashExcess_changeRecord s k (fun r => { r with holds := withHold r.holds h }) fun _ _ => rfl)

theorem ashExcess_addHoldTo (s : State) (n : Nat) (h : Hold) : ashExcess (s.addHoldTo n h) = ashExcess s := by
  unfold State.addHoldTo
  split
  · exact ashExcess_addHold s _ h
  · rfl

theorem ashExcess_sensorHold (s : State) (k c : Nat) : ashExcess (s.sensorHold k c) = ashExcess s := by
  unfold State.sensorHold
  split
  · exact ashExcess_addHold s k .sensor
  · rfl

theorem ashExcess_foldl {α : Type} (f : State → α → State) (h : ∀ s x, ashExcess (f s x) = ashExcess s) (l : List α)
    (s : State) : ashExcess (l.foldl f s) = ashExcess s := by
  induction l generalizing s with
  | nil => rfl
  | cons x l ih => exact (ih _).trans (h s x)

theorem ashExcess_judgePotLife (s : State) : ashExcess s.judgePotLife = ashExcess s :=
  ashExcess_foldl State.expireOne (fun s e => ashExcess_addHoldTo s e.lot .potLife) _ _

theorem ashExcess_sensorLane (s : State) (l : List Nat) : ashExcess (s.sensorLane l) = ashExcess s := by
  refine ashExcess_foldl _ (fun s n => ?_) l s
  split
  · split
    · exact ashExcess_addHoldTo s n .sensor
    · rfl
  · rfl

theorem ashExcess_outageRule (s : State) : ashExcess s.outageRule = ashExcess s := by
  unfold State.outageRule
  dsimp only
  split
  · rfl
  · exact ashExcess_foldl State.outageCell (fun s c => ashExcess_sensorLane _ _) _ s

theorem ashExcess_clearChannelField (s : State) (n : Nat) : ashExcess (s.clearChannelField n) = ashExcess s := by
  unfold State.clearChannelField
  split
  · exact ashExcess_changeRecord s _ _ fun _ _ => rfl
  · rfl

theorem ashExcess_orphanChannels (s : State) (cs : List Nat) : ashExcess (s.orphanChannels cs) = ashExcess s := by
  unfold State.orphanChannels
  split
  · rfl
  · refine ashExcess_foldl State.orphanChannel (fun s c => ?_) cs s
    unfold State.orphanChannel
    split
    · exact ashExcess_clearChannelField (s.setChannel c none) _
    · rfl

end Sys2Proof.Machine
end

section
/-! The places of numbers in the collections, operation by operation, and the collections' limits (R27, R57 to R59, R96,
R97). -/

namespace Sys2Proof.Machine

/-! ### The places of other numbers -/

theorem samePlaces_refl (s : State) (m : Nat) : samePlaces s s m := samePlaces_of_eq s s rfl rfl rfl rfl m

theorem samePlaces_trans (s u v : State) (m : Nat) (h : samePlaces s u m) (g : samePlaces u v m) : samePlaces s v m := by
  obtain ⟨a, b, c, d⟩ := h
  obtain ⟨a', b', c', d'⟩ := g
  exact ⟨fun x => ⟨(a' x).1.trans (a x).1, (a' x).2.trans (a x).2⟩, b'.trans b, c'.trans c, fun x => (d' x).trans (d x)⟩

theorem samePlaces_setCell (s : State) (c : Nat) (x : Cell) (m : Nat) (h1 : m ∈ x.lane ↔ m ∈ (s.cell c).lane)
    (h2 : m ∈ x.reservations ↔ m ∈ (s.cell c).reservations) : samePlaces s (s.setCell c x) m := by
  refine ⟨fun d => ?_, Iff.rfl, Iff.rfl, fun _ => Iff.rfl⟩
  rw [cell_setCell]
  split
  case isTrue h => exact h.1 ▸ ⟨h1, h2⟩
  · exact ⟨Iff.rfl, Iff.rfl⟩

theorem samePlaces_leaveQueue (s : State) (n m : Nat) (h : m ≠ n) : samePlaces s (s.leaveQueue n) m :=
  ⟨fun _ => ⟨Iff.rfl, Iff.rfl⟩, mem_leave n m s.queue h, Iff.rfl, fun _ => Iff.rfl⟩

theorem mem_leaveBench (s : State) (n m : Nat) :
    m ∈ (s.leaveBench n).bench.map (·.lot) ↔ m ≠ n ∧ m ∈ s.bench.map (·.lot) := by
  simp only [State.leaveBench, List.mem_map, List.mem_filter, bne_iff_ne]
  exact ⟨fun ⟨e, ⟨h, g⟩, q⟩ => ⟨q ▸ g, e, h, q⟩, fun ⟨g, e, h, q⟩ => ⟨e, ⟨h, q ▸ g⟩, q⟩⟩

theorem samePlaces_leaveBench (s : State) (n m : Nat) (h : m ≠ n) : samePlaces s (s.leaveBench n) m :=
  ⟨fun _ => ⟨Iff.rfl, Iff.rfl⟩, Iff.rfl, (mem_leaveBench s n m).trans (and_iff_right h), fun _ => Iff.rfl⟩

theorem channel_freeChannelOf (s : State) (n c : Nat) : (s.freeChannelOf n).channel c = freeIfBound n (s.channel c) :=
  getD_mapVector (freeIfBound n) s.channels c none rfl

/-- A freed lot's channel is FREE, and the others are bound as they were (R54). -/
theorem freeIfBound_iff (n : Nat) (x : Channel) (b : Binding) : freeIfBound n x = some b ↔ x = some b ∧ b.lot ≠ n := by
  cases x with
  | none => simp [freeIfBound]
  | some y =>
    by_cases h : y.lot = n
    · simp only [freeIfBound, if_pos h]
      exact ⟨fun g => (by cases g), fun ⟨g, g'⟩ => absurd (Option.some.inj g ▸ h) g'⟩
    · simp only [freeIfBound, if_neg h]
      exact ⟨fun g => ⟨g, Option.some.inj g ▸ h⟩, And.left⟩

theorem samePlaces_freeChannelOf (s : State) (n m : Nat) (h : m ≠ n) : samePlaces s (s.freeChannelOf n) m := by
  refine ⟨fun _ => ⟨Iff.rfl, Iff.rfl⟩, Iff.rfl, Iff.rfl, fun c => ?_⟩
  simp only [channel_freeChannelOf, freeIfBound_iff]
  exact ⟨fun ⟨b, ⟨h1, _⟩, h2⟩ => ⟨b, h1, h2⟩, fun ⟨b, h1, h2⟩ => ⟨b, ⟨h1, h2 ▸ h⟩, h2⟩⟩

theorem cell_removeInPlace (s : State) (n c : Nat) :
    (s.removeInPlace n).cell c = leaveReservation n (leaveLane n (s.cell c)) :=
  getD_mapVector (fun c => leaveReservation n (leaveLane n c)) s.cells c Cell.blank rfl

theorem samePlaces_removeInPlace (s : State) (n m : Nat) (h : m ≠ n) : samePlaces s (s.removeInPlace n) m := by
  refine ⟨fun c => ?_, Iff.rfl, Iff.rfl, fun _ => Iff.rfl⟩
  rw [cell_removeInPlace]
  exact ⟨mem_leave n m _ h, mem_leave n m _ h⟩

theorem samePlaces_setChannel (s : State) (c : Nat) (x : Channel) (m : Nat)
    (h : (∃ b, x = some b ∧ b.lot = m) ↔ ∃ b, s.channel c = some b ∧ b.lot = m) :
    samePlaces s (s.setChannel c x) m := by
  refine ⟨fun _ => ⟨Iff.rfl, Iff.rfl⟩, Iff.rfl, Iff.rfl, fun d => ?_⟩
  rw [channel_setChannel]
  split
  case isTrue hd => exact hd.1 ▸ h
  · exact Iff.rfl

/-- The lot of an ACTIVE or STALLED channel, by its number, stands in a channel of the part. -/
theorem channel_lt (s : State) (c : Nat) (b : Binding) (h : s.channel c = some b) : c < Config.channelCount := by
  by_contra hc
  unfold State.channel at h
  rw [List.getD_eq_getElem?_getD, List.getElem?_eq_none (by simpa using hc)] at h
  cases h

/-! ### Cells that gain or lose a number -/

theorem length_insertBy {α : Type} (before : α → α → Bool) (x : α) (l : List α) :
    (insertBy before x l).length = l.length + 1 := by
  induction l with
  | nil => rfl
  | cons y l ih =>
    unfold insertBy
    split
    · rfl
    · simp [ih]

theorem nodup_insertBy {α : Type} (before : α → α → Bool) (x : α) (l : List α) (h : l.Nodup) (hx : x ∉ l) :
    (insertBy before x l).Nodup := by
  induction l with
  | nil => exact List.nodup_singleton x
  | cons y l ih =>
    unfold insertBy
    split
    · exact List.nodup_cons.mpr ⟨hx, h⟩
    · obtain ⟨hy, hl⟩ := List.nodup_cons.mp h
      obtain ⟨hne, hxl⟩ := not_or.mp (List.mem_cons.not.mp hx)
      refine List.nodup_cons.mpr ⟨fun g => ?_, ih hl hxl⟩
      rcases (mem_insertBy before x y l).mp g with rfl | g
      · exact hne rfl
      · exact hy g

theorem mem_reserveIn (n m : Nat) (c : Cell) : m ∈ (reserveIn n c).reservations ↔ m = n ∨ m ∈ c.reservations := by
  unfold reserveIn
  rw [mem_insertBy]
  by_cases h : m = n <;> simp [h]

theorem nodup_reserveIn (n : Nat) (c : Cell) (h : c.reservations.Nodup) : (reserveIn n c).reservations.Nodup :=
  nodup_insertBy _ n _ (h.filter _) (by simp)

theorem length_reserveIn (n : Nat) (c : Cell) : (reserveIn n c).reservations.length ≤ c.reservations.length + 1 := by
  unfold reserveIn
  rw [length_insertBy]
  exact Nat.succ_le_succ (List.length_filter_le _ _)

/-- A filter that leaves out a member is shorter. -/
theorem length_leave (n : Nat) (l : List Nat) (h : n ∈ l) : (l.filter (· != n)).length + 1 ≤ l.length :=
  List.length_filter_lt_length_iff_exists.mpr ⟨n, h, by simp⟩

/-! ### The limits -/

theorem collectionsSound_sizes (s : State) (hs : collectionsSound s) : sizesSound s := hs.2.2.2.2

/-- A cell of a sound state: no number twice, and at most six together (R57 to R59). -/
theorem sizesSound_cell (s : State) (hz : sizesSound s) (c : Nat) : (s.cell c).lane.Nodup ∧
    (s.cell c).reservations.Nodup ∧ (s.cell c).lane.length + (s.cell c).reservations.length ≤ 6 := hz.1 c

theorem sizesSound_setCell (s : State) (c : Nat) (x : Cell) (hz : sizesSound s) (h1 : x.lane.Nodup)
    (h2 : x.reservations.Nodup) (h3 : x.lane.length + x.reservations.length ≤ 6) : sizesSound (s.setCell c x) := by
  refine ⟨fun d => ?_, hz.2⟩
  rw [cell_setCell]
  split
  · exact ⟨h1, h2, h3⟩
  · exact hz.1 d

theorem sizesSound_leaveQueue (s : State) (n : Nat) (hz : sizesSound s) : sizesSound (s.leaveQueue n) := by
  obtain ⟨z1, z2, z3, z4⟩ := hz
  exact ⟨z1, z2.filter _, z3, (Nat.add_le_add_right (List.length_filter_le _ _) _).trans z4⟩

theorem bench_leaveBench_sublist (s : State) (n : Nat) : ((s.leaveBench n).bench.map (·.lot)).Sublist (s.bench.map (·.lot)) :=
  List.filter_sublist.map _

theorem sizesSound_leaveBench (s : State) (n : Nat) (hz : sizesSound s) : sizesSound (s.leaveBench n) := by
  obtain ⟨z1, z2, z3, z4⟩ := hz
  exact ⟨z1, z2, z3.sublist (bench_leaveBench_sublist s n), (Nat.add_le_add_left (List.length_filter_le _ _) _).trans z4⟩

theorem sizesSound_removeInPlace (s : State) (n : Nat) (hz : sizesSound s) : sizesSound (s.removeInPlace n) := by
  refine ⟨fun c => ?_, hz.2⟩
  obtain ⟨h1, h2, h3⟩ := hz.1 c
  rw [cell_removeInPlace]
  exact ⟨h1.filter _, h2.filter _,
    (Nat.add_le_add (List.length_filter_le _ _) (List.length_filter_le _ _)).trans h3⟩

/-! ### One lot rewritten, and its places with it -/

/-- A record rewritten with its entry, after the places of its number have changed. -/
theorem collectionsSound_write (s v : State) (k : Nat) (r q : LotRecord) (hs : collectionsSound s)
    (hr : s.recordAt k = some r) (hv : v.slots = s.slots) (h2 : v.counter = s.counter) (hn : q.number = r.number)
    (hp : ∀ m, m ≠ r.number → samePlaces s v m) (hpl : lotPlaced v q) (hz : sizesSound v) :
    collectionsSound (v.writeLot k q) := by
  obtain ⟨l, hl, rfl⟩ := (recordAt_eq s k r).mp hr
  have hlot : ∀ j, v.lotAt j = s.lotAt j := fun j => by unfold State.lotAt State.slot; rw [hv]
  exact collectionsSound_rewrite s _ k l (freshLot q) hs hl (lotAt_writeLot v k q (slot_of_lotAt s k l hl))
    ⟨rfl, rfl, rfl⟩ hn (fun j hj => (lotAt_putLot_ne v k j _ hj).trans (hlot j)) h2 hp hpl hz

/-- A record changed without its entry, after the places of its number have changed. -/
theorem collectionsSound_change (s v : State) (k : Nat) (r : LotRecord) (f : LotRecord → LotRecord)
    (hs : collectionsSound s) (hr : s.recordAt k = some r) (hv : v.slots = s.slots) (h2 : v.counter = s.counter)
    (hf : entryOf (f r) = entryOf r) (hp : ∀ m, m ≠ r.number → samePlaces s v m) (hpl : lotPlaced v (f r))
    (hz : sizesSound v) : collectionsSound (v.changeRecord k f) := by
  obtain ⟨l, hl, rfl⟩ := (recordAt_eq s k r).mp hr
  obtain ⟨a, b, c⟩ := hs.1 k l hl
  have hlot : ∀ j, v.lotAt j = s.lotAt j := fun j => by unfold State.lotAt State.slot; rw [hv]
  have hn : (f l.record.held).number = l.record.held.number := congrArg IndexEntry.number hf
  have e : v.changeRecord k f = v.putLot k { l with record := modifyStored f l.record } := by
    unfold State.changeRecord
    rw [hlot k, hl]
  rw [e]
  refine collectionsSound_rewrite s _ k l _ hs hl (lotAt_putLot v k _ (slot_of_lotAt s k l hl)) ⟨?_, b, c.trans hf.symm⟩
    hn (fun j hj => (lotAt_putLot_ne v k j _ hj).trans (hlot j)) h2 hp hpl hz
  simp only [modifyStored, a]

/-- What the collections hold of a live lot, by its record. -/
theorem collectionsSound_lotPlaced (s : State) (hs : collectionsSound s) (k : Nat) (r : LotRecord)
    (hr : s.recordAt k = some r) : lotPlaced s r := (hs.2.2.1 k r hr).2

/-- A number that a collection names is that of a live lot (R154). -/
theorem collectionsSound_named (s : State) (hs : collectionsSound s) (n : Nat) (h : named s n) :
    ∃ k r, s.recordAt k = some r ∧ r.number = n := hs.2.2.2.1 n h

/-- The slot of a live lot's number is the slot that holds it (R12). -/
theorem slotOf_sound (s : State) (hs : collectionsSound s) (k : Nat) (r : LotRecord) (hr : s.recordAt k = some r) :
    s.slotOf r.number = some k := by
  obtain ⟨l, hl, rfl⟩ := (recordAt_eq s k r).mp hr
  have holds (j : Nat) (m : Lot) (hm : s.lotAt j = some m) (n : Nat) :
      holdsNumber n (s.slot j) = (some m.record.held.number == some n) := by
    have hc : (s.slot j).contents = some m := hm
    simp only [holdsNumber, hc, lotNumber_agrees m (hs.1 j m hm).1]
  refine ((findIdx_first (holdsNumber _) Slot.blank s.slots.toList rfl).2 k).mpr ⟨?_, fun j hj => ?_⟩
  · exact (holds k l hl _).trans (beq_self_eq_true _)
  · show holdsNumber _ (s.slot j) = false
    cases hm : s.lotAt j with
    | none =>
      have hc : (s.slot j).contents = none := hm
      simp [holdsNumber, hc]
    | some m =>
      rw [holds j m hm, beq_eq_false_iff_ne]
      exact fun e => absurd (hs.2.1 j k _ _ (recordAt_of_lotAt s j m hm) hr (Option.some.inj e)) hj.ne

/-- The check of a live lot by its number finds it and changes nothing (R29, R148). -/
theorem checkedPlaced_sound (s : State) (hs : collectionsSound s) (k : Nat) (r : LotRecord) (hr : s.recordAt k = some r) :
    s.checkedPlaced r.number = (s, some (k, r)) := by
  obtain ⟨l, hl, rfl⟩ := (recordAt_eq s k r).mp hr
  exact clean_found s hs.1 hs.2.1 k l hl

end Sys2Proof.Machine
end

section
/-! What the requests do to one lot and its places keeps the collections sound, and the account in agreement with the
lots (R22, R27, R57 to R59, R96, R97). -/

namespace Sys2Proof.Machine

/-- A channel's change and a record's do not meet. -/
theorem changeRecord_setChannel (s : State) (k : Nat) (f : LotRecord → LotRecord) (c : Nat) (x : Channel) :
    (s.changeRecord k f).setChannel c x = (s.setChannel c x).changeRecord k f := by
  unfold State.changeRecord
  rw [show (s.setChannel c x).lotAt k = s.lotAt k from rfl]
  cases s.lotAt k <;> rfl

/-! ### Where a lot of a state cannot stand -/

section
variable {s : State} {r : LotRecord} (hp : lotPlaced s r)
include hp

theorem lotPlaced.not_inLane (h : standsInLane r.state = false) (c : Nat) : r.number ∉ (s.cell c).lane := fun g => by
  have := (hp.1 c g).1
  rw [h] at this
  cases this

theorem lotPlaced.not_reserved (h : r.state ≠ .sealed) (c : Nat) : r.number ∉ (s.cell c).reservations :=
  fun g => h ((hp.2.1 c).mp g).1

theorem lotPlaced.not_queued (h : r.state ≠ .cured) : r.number ∉ s.queue := fun g => h (hp.2.2.1 g).1

theorem lotPlaced.not_benched (h : r.state ≠ .testing) : r.number ∉ s.bench.map (·.lot) := fun g => h (hp.2.2.2.1.mp g)

theorem lotPlaced.benched (h : r.state = .testing) : r.number ∈ s.bench.map (·.lot) := hp.2.2.2.1.mpr h

theorem lotPlaced.not_bound (h : r.state ≠ .mixing) (c : Nat) (b : Binding) (hb : s.channel c = some b) :
    b.lot ≠ r.number := fun g => h (hp.2.2.2.2 c b hb g).1

/-- The record of a lot that stands where it stood: in its lane, and in no reservation set and no channel. -/
theorem lotPlaced.standing {v : State} {q : LotRecord} (hn : q.number = r.number) (hc : q.cell = r.cell)
    (hl : standsInLane q.state = true) (hr : r.state ≠ .sealed) (hq : q.state ≠ .sealed) (hm : r.state ≠ .mixing)
    (cells : v.cells = s.cells) (channels : v.channels = s.channels)
    (queue : r.number ∈ v.queue → q.state = .cured ∧ q.queueStatus = some .queued)
    (bench : r.number ∈ v.bench.map (·.lot) ↔ q.state = .testing) : lotPlaced v q := by
  unfold lotPlaced State.cell State.channel
  rw [hn, cells, channels]
  exact ⟨fun c h => ⟨hl, hc.trans (hp.1 c h).2⟩,
    fun c => ⟨fun h => absurd h (hp.not_reserved hr c), fun h => absurd h.1 hq⟩, queue, bench,
    fun c b h g => absurd g (hp.not_bound hm c b h)⟩

end

/-! ### The test queue: TAKE, RETURN and VERDICT -/

theorem collectionsSound_sensorHold (u : State) (j c : Nat) (hu : collectionsSound u) :
    collectionsSound (u.sensorHold j c) := by
  unfold State.sensorHold
  split
  · exact collectionsSound_addHold u j .sensor hu
  · exact hu

section
variable (s : State) (k : Nat) (r : LotRecord) (hs : collectionsSound s) (hr : s.recordAt k = some r)
include hs hr

/-- The front lot leaves the queue for the bench (R102). -/
theorem collectionsSound_takeInto (p : PortName) (hc : r.state = .cured) (hq : r.number ∈ s.queue) :
    collectionsSound (s.takeInto p k r) := by
  have hp := collectionsSound_lotPlaced s hs k r hr
  obtain ⟨z1, z2, z3, z4⟩ := collectionsSound_sizes s hs
  let v : State := { s.leaveQueue r.number with bench := s.bench ++ [(⟨r.number, p⟩ : BenchEntry)] }
  have bench (m : Nat) : m ∈ v.bench.map (·.lot) ↔ m ∈ s.bench.map (·.lot) ∨ m = r.number := by simp [v]
  show collectionsSound (v.writeLot k (testingRecord r p))
  refine collectionsSound_write s v k r _ hs hr rfl rfl rfl (fun m hm => ?_) ?_ ⟨z1, z2.filter _, ?_, ?_⟩
  · exact ⟨fun _ => ⟨Iff.rfl, Iff.rfl⟩, mem_leave r.number m s.queue hm, (bench m).trans (or_iff_left hm),
      fun _ => Iff.rfl⟩
  · refine hp.standing rfl rfl rfl (by simp [hc]) (by simp [testingRecord]) (by simp [hc]) rfl rfl (fun h => ?_)
      ⟨fun _ => rfl, fun _ => (bench r.number).mpr (.inr rfl)⟩
    exact absurd rfl (bne_iff_ne.mp (List.mem_filter.mp h).2)
  · show ((s.bench ++ [(⟨r.number, p⟩ : BenchEntry)]).map (·.lot)).Nodup
    rw [List.map_append]
    refine List.nodup_append.mpr ⟨z3, List.nodup_singleton _, fun a ha b hb e => ?_⟩
    rw [e, List.mem_singleton.mp hb] at ha
    exact hp.not_benched (by simp [hc]) ha
  · have := length_leave r.number s.queue hq
    show (s.queue.filter (· != r.number)).length + (s.bench ++ [(⟨r.number, p⟩ : BenchEntry)]).length ≤ 64
    rw [List.length_append, List.length_singleton]
    omega

/-- A lot handed back leaves the bench for the front of the queue, or is PARKED (R104). -/
theorem collectionsSound_returnInto (ht : r.state = .testing) : collectionsSound (s.returnInto k r) := by
  have hp := collectionsSound_lotPlaced s hs k r hr
  have hz := collectionsSound_sizes s hs
  have gone : r.number ∉ (s.leaveBench r.number).bench.map (·.lot) := fun h => ((mem_leaveBench s _ _).mp h).1 rfl
  have fewer : (s.leaveBench r.number).bench.length + 1 ≤ s.bench.length := by
    obtain ⟨e, he, hn⟩ := List.mem_map.mp (hp.benched ht)
    exact List.length_filter_lt_length_iff_exists.mpr ⟨e, he, by simp [hn]⟩
  have out : r.number ∉ s.queue := hp.not_queued (by simp [ht])
  unfold State.returnInto
  dsimp only
  split
  · let v : State := { s.leaveBench r.number with queue := r.number :: s.queue }
    obtain ⟨z1, z2, z3, z4⟩ := hz
    refine collectionsSound_write s v k r (returnedRecord r .queued) hs hr rfl rfl rfl (fun m hm => ?_) ?_
      ⟨z1, List.nodup_cons.mpr ⟨out, z2⟩, z3.sublist (bench_leaveBench_sublist s _), ?_⟩
    · refine samePlaces_trans _ _ _ m (samePlaces_leaveBench s r.number m hm)
        ⟨fun _ => ⟨Iff.rfl, Iff.rfl⟩, ?_, Iff.rfl, fun _ => Iff.rfl⟩
      exact List.mem_cons.trans (or_iff_right hm)
    · exact hp.standing rfl rfl rfl (by simp [ht]) (by simp [returnedRecord]) (by simp [ht]) rfl rfl
        (fun _ => ⟨rfl, rfl⟩) ⟨fun h => absurd h gone, fun h => by cases h⟩
    · show s.queue.length + 1 + (s.leaveBench r.number).bench.length ≤ 64
      omega
  · refine collectionsSound_giveRoom _ (collectionsSound_write s _ k r (returnedRecord r .parked) hs hr rfl rfl rfl
      (fun m hm => samePlaces_leaveBench s r.number m hm) ?_ (sizesSound_leaveBench s _ hz))
    exact hp.standing rfl rfl rfl (by simp [ht]) (by simp [returnedRecord]) (by simp [ht]) rfl rfl
      (fun h => absurd h out) ⟨fun h => absurd h gone, fun h => by cases h⟩

/-- A TESTING lot that leaves the bench for a state of its lane other than CURED and TESTING (R106, R107). -/
theorem collectionsSound_leaveTest (ht : r.state = .testing) (q : LotRecord) (hn : q.number = r.number)
    (hc : q.cell = r.cell) (hl : standsInLane q.state = true) (hq : q.state ≠ .testing) :
    collectionsSound ((s.leaveBench r.number).writeLot k q) := by
  have hp := collectionsSound_lotPlaced s hs k r hr
  have gone : r.number ∉ (s.leaveBench r.number).bench.map (·.lot) := fun h => ((mem_leaveBench s _ _).mp h).1 rfl
  refine collectionsSound_write s _ k r q hs hr rfl rfl hn (fun m hm => samePlaces_leaveBench s r.number m hm) ?_
    (sizesSound_leaveBench s _ (collectionsSound_sizes s hs))
  exact hp.standing hn hc hl (by simp [ht]) (fun e => by rw [e] at hl; cases hl) (by simp [ht]) rfl rfl
    (fun h => absurd h (hp.not_queued (by simp [ht]))) ⟨fun h => absurd h gone, fun h => absurd h hq⟩

/-- A judged lot (R106, R108). -/
theorem collectionsSound_judgeInto (ht : r.state = .testing) (x : TestResult) (f : Option FailCause) :
    collectionsSound (s.judgeInto k r x f) := by
  refine collectionsSound_giveRoom _ (collectionsSound_raise _ _
    (collectionsSound_leaveTest s k r hs hr ht (judgedRecord r x f) rfl rfl ?_ ?_))
  · cases f <;> rfl
  · cases f <;> simp [judgedRecord]

/-- A lot sent back to cure further (R107, R108). -/
theorem collectionsSound_retestInto (ht : r.state = .testing) : collectionsSound (s.retestInto k r) := by
  have left := collectionsSound_leaveTest s k r hs hr ht (retestRecord r) rfl rfl rfl (by simp [retestRecord])
  unfold State.retestInto
  dsimp only
  refine collectionsSound_giveRoom _ ?_
  split
  · exact collectionsSound_sensorHold _ k _ left
  · exact left

/-! ### The lanes: PLACE, the cure decision and EXTRACT -/

/-- A CURING lot that cures stands where it stood (R85). -/
theorem collectionsSound_cured (hc : r.state = .curing) (minute : Nat) :
    collectionsSound (s.writeLot k (curedRecord r minute)) := by
  have hp := collectionsSound_lotPlaced s hs k r hr
  refine collectionsSound_write s s k r _ hs hr rfl rfl rfl (fun m _ => samePlaces_refl s m) ?_
    (collectionsSound_sizes s hs)
  exact hp.standing rfl rfl rfl (by simp [hc]) (by simp [curedRecord]) (by simp [hc]) rfl rfl
    (fun h => absurd h (hp.not_queued (by simp [hc])))
    ⟨fun h => absurd h (hp.not_benched (by simp [hc])), fun h => by cases h⟩

/-- The cells once a SEALED lot has left its reservation set (R64). -/
def unreserved (s : State) (r : LotRecord) : State :=
  match r.targetCell with
  | some c => s.setCell c (leaveReservation r.number (s.cell c))
  | none => s

omit hs hr in
theorem cell_unreserved (d : Nat) : (unreserved s r).cell d = { s.cell d with
    reservations := if r.targetCell = some d then (s.cell d).reservations.filter (· != r.number)
      else (s.cell d).reservations } := by
  unfold unreserved
  cases r.targetCell with
  | none => rfl
  | some c =>
    simp only [cell_setCell, Option.some.injEq]
    by_cases hc : c = d
    · subst hc
      rw [if_pos rfl]
      split
      · rfl
      case isFalse h =>
        rw [cell_beyond s c (not_lt.mp fun g => h ⟨rfl, g⟩)]
        rfl
    · rw [if_neg hc, if_neg fun g => hc g.1]

/-- The cells once the lot has joined the lane as well (R65). -/
def placedCells (s : State) (cell : Nat) (r : LotRecord) : State :=
  (unreserved s r).setCell cell (appendLane r.number ((unreserved s r).cell cell))

omit hs hr in
theorem cell_placedCells (cell d : Nat) :
    ((placedCells s cell r).cell d).lane =
      (if cell = d ∧ cell < Config.cellCount then (s.cell d).lane ++ [r.number] else (s.cell d).lane) ∧
    ((placedCells s cell r).cell d).reservations =
      if r.targetCell = some d then (s.cell d).reservations.filter (· != r.number) else (s.cell d).reservations := by
  unfold placedCells
  rw [cell_setCell]
  split
  case isTrue h =>
    obtain ⟨rfl, -⟩ := h
    simp only [appendLane, cell_unreserved]
    exact ⟨trivial, trivial⟩
  · rw [cell_unreserved]
    exact ⟨rfl, rfl⟩

/-- A SEALED lot placed in a cell with room, or with a place reserved for it (R63 to R66). -/
theorem collectionsSound_placeInto (cell : Nat) (hc : r.state = .sealed)
    (room : r.targetCell = some cell ∨ hasRoom (s.cell cell) = true) : collectionsSound (s.placeInto k cell r) := by
  have hp := collectionsSound_lotPlaced s hs k r hr
  obtain ⟨z1, z2⟩ := collectionsSound_sizes s hs
  have e : s.placeInto k cell r =
      ((placedCells s cell r).writeLot k (placedRecord r cell s.clock)).sensorHold k cell := by
    unfold State.placeInto placedCells unreserved
    cases r.targetCell <;> rfl
  have fields : (placedCells s cell r).slots = s.slots ∧ (placedCells s cell r).counter = s.counter ∧
      (placedCells s cell r).queue = s.queue ∧ (placedCells s cell r).bench = s.bench ∧
      (placedCells s cell r).channels = s.channels := by
    unfold placedCells unreserved
    cases r.targetCell <;> exact ⟨rfl, rfl, rfl, rfl, rfl⟩
  obtain ⟨slots, counter, queue, bench, channels⟩ := fields
  have out (c : Nat) : r.number ∉ (s.cell c).lane := hp.not_inLane (by simp [hc, standsInLane]) c
  rw [e]
  refine collectionsSound_sensorHold _ k cell (collectionsSound_write s _ k r _ hs hr slots counter rfl
    (fun m hm => ⟨fun c => ?_, by rw [queue], by rw [bench], fun c => by unfold State.channel; rw [channels]⟩)
    ⟨fun c h => ?_, fun c => ⟨fun h => ?_, fun h => by cases h.1⟩, fun h => ?_, ⟨fun h => ?_, fun h => by cases h⟩,
      fun c b hb g => ?_⟩ ⟨fun c => ?_, by rw [queue, bench]; exact z2⟩)
  · obtain ⟨lane, reservations⟩ := cell_placedCells s r cell c
    rw [lane, reservations]
    exact ⟨by split <;> simp [hm], by split <;> simp [hm]⟩
  · refine ⟨rfl, ?_⟩
    change r.number ∈ _ at h
    rw [(cell_placedCells s r cell c).1] at h
    split at h
    case isTrue g => exact congrArg some g.1
    · exact absurd h (out c)
  · change r.number ∈ _ at h
    rw [(cell_placedCells s r cell c).2] at h
    split at h
    · exact absurd rfl (bne_iff_ne.mp (List.mem_filter.mp h).2)
    case isFalse g => exact absurd ((hp.2.1 c).mp h).2 g
  · rw [queue] at h
    exact absurd h (hp.not_queued (by simp [hc]))
  · rw [bench] at h
    exact absurd h (hp.not_benched (by simp [hc]))
  · unfold State.channel at hb
    rw [channels] at hb
    exact absurd g (hp.not_bound (by simp [hc]) c b hb)
  · obtain ⟨lane, reservations⟩ := cell_placedCells s r cell c
    obtain ⟨n1, n2, n3⟩ := z1 c
    rw [lane, reservations]
    refine ⟨?_, ?_, ?_⟩
    · split
      · exact List.nodup_append.mpr ⟨n1, List.nodup_singleton _, fun a ha b hb g =>
          out c (List.mem_singleton.mp hb ▸ g ▸ ha)⟩
      · exact n1
    · split
      · exact n2.filter _
      · exact n2
    · by_cases hd : cell = c ∧ cell < Config.cellCount
      · rw [if_pos hd, List.length_append, List.length_singleton]
        obtain ⟨rfl, -⟩ := hd
        by_cases ht : r.targetCell = some cell
        · have := length_leave r.number (s.cell cell).reservations ((hp.2.1 cell).mpr ⟨hc, ht⟩)
          rw [if_pos ht]
          omega
        · have := of_decide_eq_true (room.resolve_left ht)
          rw [if_neg ht]
          have : (s.cell cell).lane.length + (s.cell cell).reservations.length < 6 := this
          omega
      · rw [if_neg hd]
        split
        · exact (Nat.add_le_add_left (List.length_filter_le _ _) _).trans n3
        · exact n3

omit hs hr in
/-- The cells once a lot has left the front of its lane (R68). -/
theorem cell_frontRemoval (n cell d : Nat) : ((s.frontRemoval n cell).cell d).lane =
      (if cell = d then (s.cell d).lane.filter (· != n) else (s.cell d).lane) ∧
    ((s.frontRemoval n cell).cell d).reservations = (s.cell d).reservations := by
  unfold State.frontRemoval
  rw [cell_setCell]
  by_cases h : cell = d
  · subst h
    rw [if_pos rfl]
    split
    · exact ⟨rfl, rfl⟩
    case isFalse g =>
      rw [cell_beyond s cell (not_lt.mp fun x => g ⟨rfl, x⟩)]
      exact ⟨rfl, rfl⟩
  · rw [if_neg h, if_neg fun g => h g.1]
    exact ⟨rfl, rfl⟩

/-- A lot that has left the lane of its cell stands in no lane (R68). -/
theorem frontRemoval_out (cell : Nat) (hc : r.cell = some cell) (c : Nat) :
    r.number ∉ ((s.frontRemoval r.number cell).cell c).lane := by
  have hp := collectionsSound_lotPlaced s hs k r hr
  rw [(cell_frontRemoval s r.number cell c).1]
  split
  · exact fun h => absurd rfl (bne_iff_ne.mp (List.mem_filter.mp h).2)
  case isFalse h => exact fun g => h (Option.some.inj (hc.symm.trans (hp.1 c g).2))

omit hs hr in
theorem samePlaces_frontRemoval (n m cell : Nat) (h : m ≠ n) : samePlaces s (s.frontRemoval n cell) m :=
  samePlaces_setCell s cell _ m (mem_leave n m _ h) Iff.rfl

omit hr in
theorem sizesSound_frontRemoval (n cell : Nat) : sizesSound (s.frontRemoval n cell) := by
  have hz := collectionsSound_sizes s hs
  obtain ⟨h1, h2, h3⟩ := sizesSound_cell s hz cell
  exact sizesSound_setCell s cell _ hz (h1.filter _) h2 ((Nat.add_le_add_right (List.length_filter_le _ _) _).trans h3)

/-- A REJECTED lot is taken out of its lane (R119). -/
theorem collectionsSound_extractInto (cell : Nat) (hj : r.state = .rejected) (hc : r.cell = some cell) :
    collectionsSound (s.extractInto k cell r) := by
  have hp := collectionsSound_lotPlaced s hs k r hr
  refine collectionsSound_write s (s.frontRemoval r.number cell) k r (extractedRecord r) hs hr rfl rfl rfl
    (fun m hm => samePlaces_frontRemoval s r.number m cell hm) ?_ (sizesSound_frontRemoval s hs r.number cell)
  refine ⟨fun c h => absurd h (frontRemoval_out s k r hs hr cell hc c), fun c => ⟨fun h => ?_, fun h => by cases h.1⟩,
    fun h => absurd h (hp.not_queued (by simp [hj])), ⟨fun h => absurd h (hp.not_benched (by simp [hj])), fun h => by cases h⟩,
    fun c b hb g => absurd g (hp.not_bound (by simp [hj]) c b hb)⟩
  rw [(cell_frontRemoval s r.number cell c).2] at h
  exact absurd h (hp.not_reserved (by simp [hj]) c)

/-! ### Lots that leave the register: RELEASE, WITHDRAW and the empty lot of a SEAL -/

/-- A lot that no collection names any more is removed from its slot. -/
theorem collectionsSound_freed (u : State) (hu : u.slots = s.slots) (h2 : u.counter = s.counter)
    (hp : ∀ m, m ≠ r.number → samePlaces s u m) (hn : ¬ named u r.number) (hz : sizesSound u) :
    collectionsSound (u.freeSlot k) := by
  obtain ⟨l, hl, rfl⟩ := (recordAt_eq s k r).mp hr
  exact collectionsSound_freeSlot s u k l hs hl hu h2 hp hn hz

/-- A CLEARED lot is released from the front of its lane (R116). -/
theorem collectionsSound_releaseInto (cell : Nat) (hj : r.state = .cleared) (hc : r.cell = some cell) :
    collectionsSound (s.releaseInto k cell r) := by
  have hp := collectionsSound_lotPlaced s hs k r hr
  refine collectionsSound_freed s k r hs hr
    ((s.frontRemoval r.number cell).withAccount (releaseAsh s.account (r.ashMass.getD 0))) rfl rfl
    (fun m hm => samePlaces_frontRemoval s r.number m cell hm) ?_ (sizesSound_frontRemoval s hs r.number cell)
  rintro (⟨c, h | h⟩ | h | h | ⟨c, b, h, g⟩)
  · exact frontRemoval_out s k r hs hr cell hc c h
  · change r.number ∈ ((s.frontRemoval r.number cell).cell c).reservations at h
    rw [(cell_frontRemoval s r.number cell c).2] at h
    exact hp.not_reserved (by simp [hj]) c h
  · exact hp.not_queued (by simp [hj]) h
  · exact hp.not_benched (by simp [hj]) h
  · exact hp.not_bound (by simp [hj]) c b h g

/-- A withdrawn lot gives up its places and leaves its slot (R54, R69, R112, R122). -/
theorem collectionsSound_withdrawInto : collectionsSound (s.withdrawInto k r) := by
  have hz := collectionsSound_sizes s hs
  let u := (s.withAccount (withdrawAccount s.account r)).giveUpPlaces r.number
  have others (m : Nat) (hm : m ≠ r.number) : samePlaces s u m :=
    samePlaces_trans _ _ _ m (samePlaces_removeInPlace s r.number m hm)
      (samePlaces_trans _ _ _ m (samePlaces_freeChannelOf (s.removeInPlace r.number) r.number m hm)
        (samePlaces_trans _ _ _ m (samePlaces_leaveQueue _ r.number m hm)
          (samePlaces_leaveBench ((s.removeInPlace r.number).freeChannelOf r.number |>.leaveQueue r.number)
            r.number m hm)))
  refine collectionsSound_giveRooms _ _ (collectionsSound_freed s k r hs hr u rfl rfl others ?_
    (sizesSound_leaveBench _ r.number (sizesSound_leaveQueue _ r.number (sizesSound_removeInPlace s r.number hz))))
  rintro (⟨c, h | h⟩ | h | h | ⟨c, b, h, g⟩)
  · change r.number ∈ ((s.removeInPlace r.number).cell c).lane at h
    rw [cell_removeInPlace] at h
    exact absurd rfl (bne_iff_ne.mp (List.mem_filter.mp h).2)
  · change r.number ∈ ((s.removeInPlace r.number).cell c).reservations at h
    rw [cell_removeInPlace] at h
    exact absurd rfl (bne_iff_ne.mp (List.mem_filter.mp h).2)
  · exact absurd rfl (bne_iff_ne.mp (List.mem_filter.mp h).2)
  · exact ((mem_leaveBench s r.number r.number).mp h).1 rfl
  · change (s.freeChannelOf r.number).channel c = some b at h
    rw [channel_freeChannelOf, freeIfBound_iff] at h
    exact h.2 g

/-- A MIXING lot without ash is retired at its SEAL (R41). -/
theorem collectionsSound_sealEmpty (hm : r.state = .mixing) (R : Nat) :
    collectionsSound (s.sealEmpty r.number k R).1 := by
  have hp := collectionsSound_lotPlaced s hs k r hr
  refine collectionsSound_freed s k r hs hr
    (((s.withAccount (returnReservation s.account R)).leavePot r.number).freeChannelOf r.number) rfl rfl
    (fun m h => samePlaces_freeChannelOf s r.number m h) ?_ (collectionsSound_sizes s hs)
  rintro (⟨c, h | h⟩ | h | h | ⟨c, b, h, g⟩)
  · exact hp.not_inLane (by simp [hm, standsInLane]) c h
  · exact hp.not_reserved (by simp [hm]) c h
  · exact hp.not_queued (by simp [hm]) h
  · exact hp.not_benched (by simp [hm]) h
  · change (s.freeChannelOf r.number).channel c = some b at h
    rw [channel_freeChannelOf, freeIfBound_iff] at h
    exact h.2 g

/-! ### SEAL, and the channels -/

/-- A MIXING lot is sealed into a cell with room (R42 to R44). -/
theorem collectionsSound_sealInto (cell : Nat) (d : Dosed) (hm : r.state = .mixing) (hc : cell < Config.cellCount)
    (room : hasRoom (s.cell cell) = true) : collectionsSound (s.sealInto k cell r d) := by
  have hp := collectionsSound_lotPlaced s hs k r hr
  have hz := collectionsSound_sizes s hs
  obtain ⟨z1, z2, z3⟩ := sizesSound_cell s hz cell
  let v := ((((s.withAccount (settle s.account (r.reservation.getD 0) d.ash)).leavePot r.number).setCell cell
    (reserveIn r.number (s.cell cell))).freeChannelOf r.number)
  let q := sealedRecord r (r.carriedAsh.getD 0 + d.ash) cell s.clock
  have cells (c : Nat) : v.cell c = if cell = c ∧ cell < Config.cellCount then reserveIn r.number (s.cell cell)
      else s.cell c := cell_setCell s cell c _
  have sealed : collectionsSound (v.writeLot k q) := by
    refine collectionsSound_write s v k r q hs hr rfl rfl rfl (fun m h => ?_)
      ⟨fun c h => ?_, fun c => ?_, fun h => absurd h (hp.not_queued (by simp [hm])),
        ⟨fun h => absurd h (hp.not_benched (by simp [hm])), fun h => (by cases h)⟩, fun c b hb g => ?_⟩
      (sizesSound_setCell s cell _ hz z1 (nodup_reserveIn _ _ z2) ?_)
    · refine samePlaces_trans _ _ _ m (samePlaces_setCell s cell (reserveIn r.number (s.cell cell)) m Iff.rfl ?_)
        (samePlaces_freeChannelOf _ r.number m h)
      exact (mem_reserveIn r.number m (s.cell cell)).trans (or_iff_right h)
    · change r.number ∈ _ at h
      rw [cells] at h
      have out := hp.not_inLane (by simp [hm, standsInLane])
      split at h
      · exact absurd h (out cell)
      · exact absurd h (out c)
    · have out := hp.not_reserved (by simp [hm])
      show r.number ∈ (v.cell c).reservations ↔ LotState.sealed = .sealed ∧ some cell = some c
      rw [cells]
      split
      case isTrue h => exact ⟨fun _ => ⟨rfl, congrArg some h.1⟩, fun _ => (mem_reserveIn _ _ _).mpr (.inl rfl)⟩
      case isFalse h => exact ⟨fun g => absurd g (out c), fun g => absurd ⟨Option.some.inj g.2, hc⟩ h⟩
    · change (s.freeChannelOf r.number).channel c = some b at hb
      rw [channel_freeChannelOf, freeIfBound_iff] at hb
      exact absurd g hb.2
    · have := length_reserveIn r.number (s.cell cell)
      have room : (s.cell cell).lane.length + (s.cell cell).reservations.length < 6 := of_decide_eq_true room
      show (s.cell cell).lane.length + (reserveIn r.number (s.cell cell)).reservations.length ≤ 6
      omega
  have held (u : State) (hu : collectionsSound u) (b : Bool) (x : Band) : collectionsSound (u.sealHolds k b x) := by
    unfold State.sealHolds
    dsimp only
    split_ifs
    · exact collectionsSound_addHold u k .intake hu
    · exact hu
    · exact collectionsSound_addHold _ k .dose (collectionsSound_addHold u k .intake hu)
    · exact collectionsSound_addHold u k .dose hu
  exact held _ sealed _ _

omit hr in
/-- A channel's binding rewritten for the lot it binds (R37, R46, R47). -/
theorem collectionsSound_setBinding (c : Nat) (b b' : Binding) (hb : s.channel c = some b) (h : b'.lot = b.lot) :
    collectionsSound (s.setChannel c (some b')) := by
  have bound (m : Nat) : (∃ x, some b' = some x ∧ x.lot = m) ↔ ∃ x, s.channel c = some x ∧ x.lot = m := by
    simp [hb, h]
  obtain ⟨h1, h2, h3, h4, hz⟩ := hs
  have same (m : Nat) := samePlaces_setChannel s c (some b') m (bound m)
  exact ⟨h1, h2, fun k r hr => ⟨(h3 k r hr).1, lotPlaced_samePlaces _ _ r (same _) (h3 k r hr).2⟩,
    fun n hn => h4 n (named_samePlaces _ _ n (same n) hn), hz⟩

/-- An orphan bound to a FREE channel (R53). -/
theorem collectionsSound_bind (c : Nat) (b : Binding) (hm : r.state = .mixing) (ho : r.channel = none)
    (hc : s.channel c = none) (hb : b.lot = r.number) :
    collectionsSound ((s.changeRecord k fun r => { r with channel := some c }).setChannel c (some b)) := by
  have hp := collectionsSound_lotPlaced s hs k r hr
  have e : (s.changeRecord k fun r => { r with channel := some c }).setChannel c (some b) =
      (s.setChannel c (some b)).changeRecord k fun r => { r with channel := some c } := changeRecord_setChannel s k _ c _
  rw [e]
  refine collectionsSound_change s _ k r _ hs hr rfl rfl rfl (fun m h => samePlaces_setChannel s c _ m ?_) ?_
    (collectionsSound_sizes s hs)
  · simp only [hc, Option.some.injEq, exists_eq_left', hb]
    exact ⟨fun g => absurd g.symm h, fun ⟨_, g, _⟩ => by cases g⟩
  · refine ⟨hp.1, hp.2.1, hp.2.2.1, hp.2.2.2.1, fun d x hx g => ⟨hm, ?_⟩⟩
    rw [channel_setChannel] at hx
    split at hx
    case isTrue h => exact congrArg some h.1
    · have := (hp.2.2.2.2 d x hx g).2
      rw [ho] at this
      cases this

end

end Sys2Proof.Machine
end

section
/-! OPEN, the lots a lab port hands back, a valid reading and the starts keep the collections sound (R34, R81 to R86,
R110, R182 to R185). -/

namespace Sys2Proof.Machine

/-! ### OPEN -/

/-- The state of a taken OPEN before its parent is retired and the pot lives are judged (R34, R35). -/
def openedState (s : State) (p : PortName) (slot channel planned : Nat) (ref : RecipeRef) (k : Snapshot)
    (parent : Option Parent) : State :=
  let s1 := s.writeLot slot (openedRecord s s.counter.next channel planned ref k parent)
  (({ s1 with counter := advanceCounter s1.counter, account := reserveAsh s1.account planned }).setChannel channel
    (some ⟨false, p, s.counter.next, 0⟩)).joinPot ⟨s.counter.next, deadlineOf s.clock k.potLife⟩

theorem openInto_eq (s : State) (p : PortName) (slot channel planned : Nat) (ref : RecipeRef) (k : Snapshot)
    (parent : Option Parent) : s.openInto p slot channel planned ref k parent =
      (match parent with
        | some x => (openedState s p slot channel planned ref k parent).freeSlot x.slot
        | none => openedState s p slot channel planned ref k parent).judgePotLife := by
  cases parent <;> rfl

/-- The counter has not given its next number while it is not exhausted (R11). -/
theorem next_not_given (s : State) (hs : collectionsSound s) (hx : s.counter.exhausted = false) (j : Nat) (r : LotRecord)
    (hr : s.recordAt j = some r) : r.number ≠ s.counter.next := by
  rcases (hs.2.2.1 j r hr).1 with h | h
  · exact h.ne
  · rw [hx] at h
    cases h

theorem advanceCounter_given (c : Counter) (m : Nat) (h : givenBy c m) : givenBy (advanceCounter c) m := by
  unfold advanceCounter
  split
  · exact .inr rfl
  · exact h.imp_left fun g => g.trans (Nat.lt_succ_self _)

theorem advanceCounter_gives (c : Counter) : givenBy (advanceCounter c) c.next := by
  unfold advanceCounter
  split
  · exact .inr rfl
  · exact .inl (Nat.lt_succ_self _)

section
variable (s : State) (hs : collectionsSound s) (p : PortName) (slot channel planned : Nat) (ref : RecipeRef) (k : Snapshot)
  (parent : Option Parent) (hf : s.lowestFree = some slot)

include hf in
theorem lotAt_openedState (j : Nat) : (openedState s p slot channel planned ref k parent).lotAt j =
    if j = slot then some (freshLot (openedRecord s s.counter.next channel planned ref k parent)) else s.lotAt j := by
  obtain ⟨-, hk⟩ := lowestFree_some s slot hf
  show (s.writeLot slot _).lotAt j = _
  split
  case isTrue h => exact h ▸ lotAt_writeLot s slot _ hk
  case isFalse h => exact lotAt_putLot_ne s slot j _ h

include hs hf in
/-- The new lot has a number of its own, which no collection named but its channel (R11, R34). -/
theorem collectionsSound_openedState (hx : s.counter.exhausted = false) (hc : s.channel channel = none) :
    collectionsSound (openedState s p slot channel planned ref k parent) := by
  let b : Binding := ⟨false, p, s.counter.next, 0⟩
  have hnew := next_not_given s hs hx
  have unnamed : ¬ named s s.counter.next := fun h => by
    obtain ⟨j, r, hr, hn⟩ := collectionsSound_named s hs _ h
    exact hnew j r hr hn
  have lots := lotAt_openedState s p slot channel planned ref k parent hf
  refine collectionsSound_add s _ slot _ hs (lowestFree_some s slot hf).1 ((lots slot).trans (if_pos rfl))
    ⟨rfl, rfl, rfl⟩ (fun j hj => (lots j).trans (if_neg hj)) hnew (advanceCounter_given s.counter)
    (advanceCounter_gives s.counter) (fun m hm => samePlaces_setChannel s channel (some b) m ?_)
    ⟨fun c h => absurd (.inl ⟨c, .inl h⟩) unnamed,
      fun c => ⟨fun h => absurd (.inl ⟨c, .inr h⟩) unnamed, fun h => by cases h.1⟩,
      fun h => absurd (.inr (.inl h)) unnamed,
      ⟨fun h => absurd (.inr (.inr (.inl h))) unnamed, fun h => by cases h⟩, fun c x hb g => ⟨rfl, ?_⟩⟩
    (collectionsSound_sizes s hs)
  · simp only [hc, Option.some.injEq, exists_eq_left']
    exact ⟨fun g => absurd g.symm hm, fun ⟨_, g, _⟩ => by cases g⟩
  · change (s.setChannel channel (some b)).channel c = some x at hb
    rw [channel_setChannel] at hb
    split at hb
    case isTrue h => exact congrArg some h.1
    · exact absurd (.inr (.inr (.inr ⟨c, x, hb, g⟩))) unnamed

include hs hf in
/-- A taken OPEN, with the retirement of a remix's EXTRACTED parent (R34, R35, R128). -/
theorem collectionsSound_openInto (hx : s.counter.exhausted = false) (hc : s.channel channel = none)
    (hp : ∀ x, parent = some x → ∃ r, s.recordAt x.slot = some r ∧ r.state = .extracted) :
    collectionsSound (s.openInto p slot channel planned ref k parent) := by
  have opened := collectionsSound_openedState s hs p slot channel planned ref k parent hf hx hc
  rw [openInto_eq]
  refine collectionsSound_judgePotLife _ ?_
  split
  case h_1 x =>
    obtain ⟨r, hr, he⟩ := hp x rfl
    obtain ⟨l, hl, rfl⟩ := (recordAt_eq s x.slot r).mp hr
    have hne : x.slot ≠ slot := fun e => by
      rw [e, (lowestFree_some s slot hf).1] at hl
      cases hl
    have hl' := (lotAt_openedState s p slot channel planned ref k (some x) hf x.slot).trans (if_neg hne)
    rw [hl] at hl'
    exact collectionsSound_freeSlot _ _ x.slot l opened hl' rfl rfl (fun m _ => samePlaces_refl _ m)
      (not_named _ opened x.slot l hl' (by simp [he, standsInLane]) (by simp [he]) (by simp [he]) (by simp [he])
        (.inl (by simp [he]))) (collectionsSound_sizes _ opened)
  · exact opened

end

/-! ### Lots handed back (R110) -/

/-- The entries of the bench list that a port holds, and the others, are the whole list. -/
theorem length_bench (s : State) (p : PortName) :
    (s.benchOf p).length + (s.bench.filter (·.tester != p)).length = s.bench.length := by
  unfold State.benchOf
  rw [List.length_map]
  exact (List.length_eq_length_filter_add (l := s.bench) (fun e => e.tester == p)).symm

theorem benchOf_sublist (s : State) (p : PortName) : (s.benchOf p).Sublist (s.bench.map (·.lot)) :=
  List.filter_sublist.map _

/-- A lot that one port holds on the bench is held there by no other (R96). -/
theorem benchOf_alone (s : State) (p : PortName) (hn : (s.bench.map (·.lot)).Nodup) (m : Nat) :
    m ∈ (s.bench.filter (·.tester != p)).map (·.lot) ↔ m ∈ s.bench.map (·.lot) ∧ m ∉ s.benchOf p := by
  simp only [State.benchOf, List.mem_map, List.mem_filter, bne_iff_ne, beq_iff_eq]
  refine ⟨fun ⟨e, ⟨h, g⟩, q⟩ => ⟨⟨e, h, q⟩, fun ⟨e', ⟨h', g'⟩, q'⟩ => g ?_⟩, fun ⟨⟨e, h, q⟩, g⟩ =>
    ⟨e, ⟨h, fun g' => g ⟨e, ⟨h, g'⟩, q⟩⟩, q⟩⟩
  rw [List.inj_on_of_nodup_map hn h h' (q.trans q'.symm)]
  exact g'

section
variable (s : State) (hs : collectionsSound s) (p : PortName)

/-- The state in which a port's lots have been handed back, before their places are given (R110). -/
def handedState (s : State) (p : PortName) : State :=
  (s.benchOf p).foldl State.uncheckedReturn
    { s with bench := s.bench.filter (·.tester != p), queue := (s.benchOf p).filter s.returnsToQueue ++ s.queue }

theorem handedState_frame : ∃ a, handedState s p = { s with
    slots := a, bench := s.bench.filter (·.tester != p)
    queue := (s.benchOf p).filter s.returnsToQueue ++ s.queue } := by
  obtain ⟨a, e⟩ := foldl_uncheckedReturn_frame (s.benchOf p)
    { s with bench := s.bench.filter (·.tester != p), queue := (s.benchOf p).filter s.returnsToQueue ++ s.queue }
  exact ⟨a, e⟩

include hs in
/-- What the slots hold once a port's lots have been handed back: those lots handed back, the others as they were. -/
theorem lotAt_handedState (k : Nat) (l : Lot) (hl : s.lotAt k = some l) : (handedState s p).lotAt k =
    some (if l.record.held.number ∈ s.benchOf p then handedBack l else l) := by
  obtain ⟨-, given, others⟩ := foldl_uncheckedReturn_slots (s.benchOf p)
    { s with bench := s.bench.filter (·.tester != p), queue := (s.benchOf p).filter s.returnsToQueue ++ s.queue }
  have hr := recordAt_of_lotAt s k l hl
  split
  case isTrue h =>
    refine (congrArg Slot.contents (given k ⟨_, h, slotOf_sound s hs k _ hr⟩)).trans ?_
    show (s.lotAt k).map handedBack = _
    rw [hl]
    rfl
  case isFalse h =>
    refine (congrArg Slot.contents (others k fun n hn e => h ?_)).trans hl
    have found : s.slotOf n = some k := e
    rw [← slotOf_inj s n l.record.held.number k found (slotOf_sound s hs k _ hr)]
    exact hn

theorem lotAt_handedState_free (k : Nat) (h : s.lotAt k = none) : (handedState s p).lotAt k = none := by
  obtain ⟨-, given, others⟩ := foldl_uncheckedReturn_slots (s.benchOf p)
    { s with bench := s.bench.filter (·.tester != p), queue := (s.benchOf p).filter s.returnsToQueue ++ s.queue }
  by_cases hk : ∃ n ∈ s.benchOf p, s.slotOf n = some k
  · refine (congrArg Slot.contents (given k hk)).trans ?_
    show (s.lotAt k).map handedBack = none
    rw [h]
    rfl
  · refine (congrArg Slot.contents (others k fun n hn e => hk ⟨n, hn, e⟩)).trans h

include hs in
/-- A lot on the bench is TESTING (R96). -/
theorem benchOf_testing (k : Nat) (r : LotRecord) (hr : s.recordAt k = some r) (h : r.number ∈ s.benchOf p) :
    r.state = .testing :=
  (collectionsSound_lotPlaced s hs k r hr).2.2.2.1.mp ((benchOf_sublist s p).subset h)

theorem handedBack_entry (l : Lot) (hc : cleanLot l) (h : l.record.held.state = .testing) :
    cleanLot (handedBack l) ∧ figuresOf (handedBack l).record.held = figuresOf l.record.held := by
  obtain ⟨a, b, c⟩ := hc
  refine ⟨⟨by simp [handedBack, modifyStored, a], by simp [handedBack, modifyStored, b], ?_⟩, ?_⟩
  · simp [handedBack, modifyStored, c, entryOf, h]
  · simp [handedBack, modifyStored, figuresOf, entryOf, h]

include hs in
theorem returnsToQueue_sound (k : Nat) (r : LotRecord) (hr : s.recordAt k = some r) :
    s.returnsToQueue r.number = (r.holds == 0) := by
  unfold State.returnsToQueue State.recordOf
  rw [slotOf_sound s hs k r hr]
  dsimp only
  rw [hr]

include hs in
/-- A slot of the handed-back state by the lot it held before. -/
theorem recordAt_handedState (k : Nat) (q : LotRecord) (h : (handedState s p).recordAt k = some q) :
    ∃ l, s.lotAt k = some l ∧ q = (if l.record.held.number ∈ s.benchOf p then handedBack l else l).record.held := by
  cases hl : s.lotAt k with
  | none =>
    unfold State.recordAt at h
    rw [lotAt_handedState_free s p k hl] at h
    cases h
  | some l =>
    unfold State.recordAt at h
    rw [lotAt_handedState s hs p k l hl] at h
    exact ⟨l, rfl, (Option.some.inj h).symm⟩

theorem handedBack_number (l : Lot) (b : Prop) [Decidable b] :
    (if b then handedBack l else l).record.held.number = l.record.held.number := by
  split <;> rfl

include hs in
/-- A TESTING lot handed back stands in its lane, CURED, and in the queue where it has no holds (R110). -/
theorem lotPlaced_handedBack (k : Nat) (l : Lot) (hl : s.lotAt k = some l) (hin : l.record.held.number ∈ s.benchOf p) :
    lotPlaced (handedState s p) (handedBack l).record.held := by
  have z3 := (collectionsSound_sizes s hs).2.2.1
  have hr := recordAt_of_lotAt s k l hl
  have hp := collectionsSound_lotPlaced s hs k _ hr
  have ht := benchOf_testing s hs p k _ hr hin
  obtain ⟨a, e⟩ := handedState_frame s p
  refine hp.standing rfl rfl rfl (by simp [ht]) (by simp [handedBack, modifyStored]) (by simp [ht]) (by rw [e])
    (by rw [e]) (fun h => ⟨rfl, ?_⟩) ⟨fun h => ?_, fun h => by cases h⟩
  · rw [e, List.mem_append] at h
    rcases h with h | h
    · have := (List.mem_filter.mp h).2
      rw [returnsToQueue_sound s hs k _ hr, beq_iff_eq] at this
      simp [handedBack, modifyStored, this]
    · exact absurd h (hp.not_queued (by simp [ht]))
  · rw [e] at h
    exact absurd hin ((benchOf_alone s p z3 _).mp h).2

include hs in
theorem sizesSound_handedState : sizesSound (handedState s p) := by
  obtain ⟨z1, z2, z3, z4⟩ := collectionsSound_sizes s hs
  obtain ⟨a, e⟩ := handedState_frame s p
  have nodup : (s.benchOf p).Nodup := z3.sublist (benchOf_sublist s p)
  rw [e]
  refine ⟨z1, List.nodup_append.mpr ⟨nodup.filter _, z2, fun m h j g q => ?_⟩, z3.sublist (List.filter_sublist.map _), ?_⟩
  · obtain ⟨k, r, hr, hn⟩ := collectionsSound_named s hs m (.inr (.inl (q ▸ g)))
    have hin : r.number ∈ s.benchOf p := hn ▸ (List.mem_filter.mp h).1
    have ht := benchOf_testing s hs p k r hr hin
    exact (collectionsSound_lotPlaced s hs k r hr).not_queued (by simp [ht]) (hn ▸ q ▸ g)
  · have := length_bench s p
    have := List.length_filter_le s.returnsToQueue (s.benchOf p)
    show ((s.benchOf p).filter s.returnsToQueue ++ s.queue).length + (s.bench.filter (·.tester != p)).length ≤ 64
    rw [List.length_append]
    omega

include hs in
theorem collectionsSound_handedState : collectionsSound (handedState s p) := by
  have records := recordAt_handedState s hs p
  have z3 := (collectionsSound_sizes s hs).2.2.1
  obtain ⟨a, e⟩ := handedState_frame s p
  refine collectionsSound_of s _ (· ∈ s.benchOf p) hs (fun k m hm => ?_) (fun i j q r hq hr h => ?_)
    (fun k q hq => ?_) (fun m hm => ?_) (fun k q hq hn => ?_) (fun k r hr hn => ?_) (fun k q hq hn => ?_)
    (fun m hm _ => ?_) (sizesSound_handedState s hs p)
  · cases hl : s.lotAt k with
    | none =>
      rw [lotAt_handedState_free s p k hl] at hm
      cases hm
    | some l =>
      rw [lotAt_handedState s hs p k l hl] at hm
      obtain rfl := Option.some.inj hm
      split
      case isTrue hin =>
        exact (handedBack_entry l (hs.1 k l hl) (benchOf_testing s hs p k _ (recordAt_of_lotAt s k l hl) hin)).1
      · exact hs.1 k l hl
  · obtain ⟨l, hl, rfl⟩ := records i q hq
    obtain ⟨m, hm, rfl⟩ := records j r hr
    rw [handedBack_number, handedBack_number] at h
    exact hs.2.1 i j _ _ (recordAt_of_lotAt s i l hl) (recordAt_of_lotAt s j m hm) h
  · obtain ⟨l, hl, rfl⟩ := records k q hq
    rw [handedBack_number, e]
    exact (hs.2.2.1 k _ (recordAt_of_lotAt s k l hl)).1
  · rw [e]
    refine ⟨fun _ => ⟨Iff.rfl, Iff.rfl⟩, ?_, (benchOf_alone s p z3 m).trans (and_iff_left hm), fun _ => Iff.rfl⟩
    exact List.mem_append.trans (or_iff_right fun h => hm (List.mem_filter.mp h).1)
  · obtain ⟨l, hl, rfl⟩ := records k q hq
    rw [handedBack_number] at hn
    rw [if_neg hn]
    exact ⟨k, recordAt_of_lotAt s k l hl⟩
  · obtain ⟨l, hl, rfl⟩ := (recordAt_eq s k r).mp hr
    refine ⟨k, _, recordAt_of_lotAt _ k _ (lotAt_handedState s hs p k l hl), handedBack_number l _⟩
  · obtain ⟨l, hl, rfl⟩ := records k q hq
    rw [handedBack_number] at hn
    rw [if_pos hn]
    exact lotPlaced_handedBack s hs p k l hl hn
  · obtain ⟨k, r, hr, rfl⟩ := collectionsSound_named s hs m (.inr (.inr (.inl ((benchOf_sublist s p).subset hm))))
    obtain ⟨l, hl, rfl⟩ := (recordAt_eq s k r).mp hr
    exact ⟨k, _, recordAt_of_lotAt _ k _ (lotAt_handedState s hs p k l hl), handedBack_number l _⟩

include hs in
/-- A lab port's lots handed back in one change (R110, R111). -/
theorem collectionsSound_returnBench : collectionsSound (s.returnBench p) :=
  collectionsSound_giveRooms _ _ (collectionsSound_handedState s hs p)

theorem lotFigures_congr (s u : State) (h : ∀ k, slotFigures (u.slot k) = slotFigures (s.slot k)) :
    lotFigures u = lotFigures s := by
  unfold lotFigures
  refine congrArg List.sum (List.ext_getElem (by simp) fun k h1 h2 => ?_)
  simp only [List.getElem_map]
  have := h k
  unfold State.slot at this
  rw [List.getD_eq_getElem _ _ (by simpa using h1), List.getD_eq_getElem _ _ (by simpa using h2)] at this
  exact this

include hs in
theorem ashExcess_returnBench : ashExcess (s.returnBench p) = ashExcess s := by
  obtain ⟨a, e⟩ := handedState_frame s p
  have figures : lotFigures (handedState s p) = lotFigures s := by
    refine lotFigures_congr _ _ fun k => ?_
    cases hl : s.lotAt k with
    | none => rw [slotFigures_free s k hl, slotFigures_free _ k (lotAt_handedState_free s p k hl)]
    | some l =>
      rw [slotFigures_at s k l hl, slotFigures_at _ k _ (lotAt_handedState s hs p k l hl)]
      split
      case isTrue hin =>
        exact (handedBack_entry l (hs.1 k l hl) (benchOf_testing s hs p k _ (recordAt_of_lotAt s k l hl) hin)).2
      · rfl
  have account : (handedState s p).account = s.account := by rw [e]
  refine (ashExcess_giveRooms _ (handedState s p)).trans ?_
  unfold ashExcess
  rw [figures, account]

end

end Sys2Proof.Machine
end

section
/-! A valid reading and the starts keep the collections sound and the account in agreement with the lots (R22, R81 to R86,
R161, R182 to R185). -/

namespace Sys2Proof.Machine

/-- A change between two states that keeps the collections sound, and beside sound collections the agreement of the
account with the lots. -/
def lotsKept (s u : State) : Prop := collectionsSound s → collectionsSound u ∧ (ashAgrees s → ashAgrees u)

theorem lotsKept_refl (s : State) : lotsKept s s := fun h => ⟨h, id⟩

theorem lotsKept_trans (s u v : State) (h : lotsKept s u) (g : lotsKept u v) : lotsKept s v := fun hs =>
  have ⟨hu, au⟩ := h hs
  have ⟨hv, av⟩ := g hu
  ⟨hv, fun a => av (au a)⟩

theorem lotsKept_of (s u : State) (h : collectionsSound s → collectionsSound u) (ha : ashExcess u = ashExcess s) :
    lotsKept s u := fun hs => ⟨h hs, fun a => by rwa [ashAgrees_iff, ha, ← ashAgrees_iff]⟩

/-- Only what neither the collections nor the account depend on has changed. -/
theorem lotsKept_congr (s u : State) (h1 : u.slots = s.slots) (h2 : u.counter = s.counter) (h3 : u.cells = s.cells)
    (h4 : u.queue = s.queue) (h5 : u.bench = s.bench) (h6 : u.channels = s.channels) (h7 : u.account = s.account) :
    lotsKept s u :=
  lotsKept_of s u (collectionsSound_congr s u (fun k => by unfold State.lotAt State.slot; rw [h1]) h2 h3 h4 h5 h6)
    (ashExcess_congr s u h1 h7)

theorem lotsKept_ports (s : State) (a : Ports) : lotsKept s { s with ports := a } := lotsKept_congr _ _ rfl rfl rfl rfl rfl rfl rfl

/-- The check of a slot of sound collections changes nothing (R149). -/
theorem lotsKept_checkSlot (s : State) (k : Nat) : lotsKept s (s.checkSlot k) := fun hs =>
  (checkSlot_clean s k (hs.1 k)).symm ▸ lotsKept_refl s hs

/-! ### A valid reading -/

/-- A CURING lot after the first steps of a reading is placed and weighed as before (R82 to R84). -/
theorem sampled_alike (y : Int) (r : LotRecord) : entryOf (stepFrost y (accumulate y (applyPending r))) = entryOf r ∧
    placedAlike (stepFrost y (accumulate y (applyPending r))) r := by
  rw [sampledRecord_steps]
  exact ⟨rfl, rfl, rfl, rfl, rfl, rfl, rfl⟩

/-- The state of a CURING lot's record stands while it gains a hold. -/
theorem recordAt_addHold_curing (s : State) (k : Nat) (h : Hold) (r : LotRecord) (hr : s.recordAt k = some r)
    (hc : r.state = .curing) : ∃ q, (s.addHold k h).recordAt k = some q ∧ q.state = .curing := by
  rw [addHold_curing s k h r hr hc]
  split
  · exact ⟨r, hr, hc⟩
  · have changed := recordAt_changeRecord s k fun r => { r with holds := withHold r.holds h }
    rw [hr] at changed
    exact ⟨_, changed, hc⟩

/-- The four steps for one CURING lot (R81 to R85). -/
theorem lotsKept_treatLot (s : State) (k : Nat) (r : LotRecord) (y : Int) (m : Nat) (hr : s.recordAt k = some r)
    (hc : r.state = .curing) : lotsKept s (s.treatLot k r y m).1 := by
  let s1 := s.changeRecord k fun r => stepFrost y (accumulate y (applyPending r))
  let s2 := if completesFrost y r then s1.addHold k .frost else s1
  have kept1 : lotsKept s s1 := lotsKept_of _ _ (fun hs => collectionsSound_changeAlike s k _ hs (sampled_alike y))
    (ashExcess_changeRecord s k _ fun q _ => (sampled_alike y q).1)
  have curing1 : ∃ q, s1.recordAt k = some q ∧ q.state = .curing := by
    have changed := recordAt_changeRecord s k fun r => stepFrost y (accumulate y (applyPending r))
    rw [hr] at changed
    exact ⟨_, changed, (sampled_alike y r).2.2.1.trans hc⟩
  have kept2 : lotsKept s s2 := by
    refine lotsKept_trans _ _ _ kept1 ?_
    unfold s2
    split
    · exact lotsKept_of _ _ (collectionsSound_addHold s1 k .frost) (ashExcess_addHold s1 k .frost)
    · exact lotsKept_refl s1
  have curing2 : ∃ q, s2.recordAt k = some q ∧ q.state = .curing := by
    obtain ⟨q, hq, hqc⟩ := curing1
    unfold s2
    split
    · exact recordAt_addHold_curing s1 k .frost q hq hqc
    · exact ⟨q, hq, hqc⟩
  obtain ⟨q, hq, hqc⟩ := curing2
  have e : s.treatLot k r y m = match s2.recordAt k with
    | some r' => if reachesTarget r' then ((s2.writeLot k (curedRecord r' m)).admitLot k, true) else (s2, false)
    | none => (s2, false) := rfl
  rw [e, hq]
  dsimp only
  split
  · have written : (s2.writeLot k (curedRecord q m)).recordAt k = some (curedRecord q m) := by
      obtain ⟨l, hl, -⟩ := (recordAt_eq s2 k q).mp hq
      exact recordAt_of_lotAt _ _ _ (lotAt_writeLot s2 k (curedRecord q m) (slot_of_lotAt s2 k l hl))
    refine lotsKept_trans _ _ _ kept2 (lotsKept_of _ _ (fun hs => ?_) ?_)
    · have out := (collectionsSound_lotPlaced s2 hs k q hq).not_queued (by simp [hqc])
      refine collectionsSound_admitLot _ k (collectionsSound_cured s2 k q hs hq hqc m) fun x hx => ?_
      rw [written] at hx
      cases hx
      exact ⟨rfl, fun _ => out⟩
    · refine (ashExcess_admitLot _ k).trans ((ashExcess_writeLot s2 k q _ hq).trans ?_)
      rw [figuresOf_mixed q (by simp [hqc]), figuresOf_mixed (curedRecord q m) (by simp [curedRecord])]
      exact add_sub_cancel_right _ _
  · exact kept2

/-- The record that a check finds clean stands in its slot. -/
theorem cleanOf_recordAt (s : State) (n k : Nat) (r : LotRecord) (h : s.cleanOf n = some (k, r)) :
    s.recordAt k = some r := by
  unfold State.cleanOf at h
  obtain ⟨j, -, h⟩ := Option.bind_eq_some_iff.mp h
  obtain ⟨q, hq, e⟩ := Option.map_eq_some_iff.mp h
  cases e
  exact hq

/-- One entry of the lane at a valid reading (R81). -/
theorem lotsKept_sampleLot (c : Nat) (y : Int) (m : Nat) (x : State × Bool) (n : Nat) :
    lotsKept x.1 (sampleLot c y m x n).1 := by
  have checked : lotsKept x.1 (x.1.checkedPlaced n).1 := checkLot_related lotsKept_refl lotsKept_checkSlot x.1 n
  unfold sampleLot
  dsimp only
  split
  · split
    · split
      case h_1 k r h =>
        split
        case isTrue g =>
          exact lotsKept_trans _ _ _ checked (lotsKept_treatLot _ k r y m (cleanOf_recordAt _ n k r h) g.2)
        · exact checked
      · exact checked
    · exact lotsKept_refl x.1
  · exact lotsKept_refl x.1

/-- A sample event with a valid reading (R80 to R86). -/
theorem lotsKept_sampleValid (s : State) (c : Nat) (y : Int) (m : Nat) : lotsKept s (s.sampleValid c y m) := by
  have all (l : List Nat) : ∀ x : State × Bool, lotsKept x.1 (l.foldl (sampleLot c y m) x).1 := by
    induction l with
    | nil => exact fun x => lotsKept_refl x.1
    | cons n l ih => exact fun x => lotsKept_trans _ _ _ (lotsKept_sampleLot c y m x n) (ih _)
  have marked : lotsKept s (s.setCell c (cellValid y m (s.cell c))) :=
    lotsKept_of _ _ (fun hs => collectionsSound_setCell s c _ hs rfl rfl) rfl
  have lane := lotsKept_trans _ _ _ marked (all (s.cell c).lane (s.setCell c (cellValid y m (s.cell c)), false))
  unfold State.sampleValid
  dsimp only
  split
  · exact lotsKept_trans _ _ _ lane (lotsKept_ports _ _)
  · exact lane

/-- A sample event that is a miss (R87). -/
theorem lotsKept_sampleMiss (s : State) (c m : Nat) : lotsKept s (s.sampleMiss c m) := by
  have marked : lotsKept s (s.setCell c (cellMiss m (s.cell c))) :=
    lotsKept_of _ _ (fun hs => collectionsSound_setCell s c _ hs rfl rfl) rfl
  unfold State.sampleMiss
  dsimp only
  split
  · refine lotsKept_trans _ _ _ marked (lotsKept_trans _ _ _ (lotsKept_of _ _ ?_ ?_) (lotsKept_ports _ _))
    · exact collectionsSound_sensorLane _ _
    · exact ashExcess_sensorLane _ _
  · exact marked

theorem lotsKept_endConversion (s : State) (x : Scan) (reading : Option Int) : lotsKept s (s.endConversion x reading) := by
  have ended (t : State) : lotsKept t { t with scan := nextScan x } := lotsKept_congr _ _ rfl rfl rfl rfl rfl rfl rfl
  unfold State.endConversion
  dsimp only
  refine lotsKept_trans _ _ _ ?_ (ended _)
  split
  · split
    · exact lotsKept_sampleValid s x.cell _ x.minute
    · exact lotsKept_sampleMiss s x.cell x.minute
  · exact lotsKept_sampleMiss s x.cell x.minute

theorem lotsKept_completion (s : State) (cell : Nat) (reading : Int) (good : Bool) :
    lotsKept s (s.completion cell reading good) := by
  unfold State.completion
  split
  · split
    · exact lotsKept_endConversion s _ _
    · exact lotsKept_refl s
  · exact lotsKept_refl s

/-! ### Judgements and returns -/

theorem lotsKept_judgePotLife (s : State) : lotsKept s s.judgePotLife :=
  lotsKept_of _ _ (collectionsSound_judgePotLife s) (ashExcess_judgePotLife s)

theorem lotsKept_outageRule (s : State) : lotsKept s s.outageRule :=
  lotsKept_of _ _ (collectionsSound_outageRule s) (ashExcess_outageRule s)

theorem lotsKept_orphanChannels (s : State) (cs : List Nat) : lotsKept s (s.orphanChannels cs) :=
  lotsKept_of _ _ (collectionsSound_orphanChannels s cs) (ashExcess_orphanChannels s cs)

theorem lotsKept_returnBench (s : State) (p : PortName) : lotsKept s (s.returnBench p) := fun hs =>
  lotsKept_of _ _ (fun _ => collectionsSound_returnBench s hs p) (ashExcess_returnBench s hs p) hs

theorem lotsKept_setupInto (s : State) (q : PortName) (r : PortRole) : lotsKept s (s.setupInto q r) := by
  have begun : lotsKept s (setupBegun s q r) := lotsKept_congr _ _ rfl rfl rfl rfl rfl rfl rfl
  rw [setupInto_eq]
  dsimp only
  split
  · exact lotsKept_trans _ _ _ begun (lotsKept_trans _ _ _ (lotsKept_orphanChannels _ _) (lotsKept_returnBench _ q))
  · exact lotsKept_trans _ _ _ begun (lotsKept_orphanChannels _ _)

theorem lotsKept_makeAbsent (s : State) (p : PortName) : lotsKept s (s.makeAbsent p) := by
  have absent : lotsKept s (s.setPort p { s.port p with present := false, idleTimer := none }) := lotsKept_ports s _
  unfold State.makeAbsent
  dsimp only
  refine lotsKept_trans _ _ _ (lotsKept_trans _ _ _ absent ?_) (lotsKept_returnBench _ p)
  split
  · exact lotsKept_orphanChannels _ _
  · exact lotsKept_refl _

/-! ### The starts -/

/-- The fields of lots and account that cutting off work leaves (R183, R184). -/
theorem lotsKept_cutOff (s : State) : lotsKept s s.cutOff := by
  have cut : ∃ z, s.cutCommit = { s with recipes := z, commit := none } := by
    unfold State.cutCommit
    split
    · exact ⟨_, rfl⟩
    case h_2 h => exact ⟨s.recipes, by rw [← h]⟩
  obtain ⟨z, e⟩ := cut
  unfold State.cutOff
  rw [e]
  exact lotsKept_congr _ _ rfl rfl rfl rfl rfl rfl rfl

theorem lotsKept_startStores (s : State) (cold : Bool) : lotsKept s (s.startStores cold) :=
  lotsKept_congr _ _ rfl rfl rfl rfl rfl rfl rfl

theorem lotsKept_raise (s : State) (k : Notice) : lotsKept s (s.raise k) := lotsKept_ports s _

theorem lotsKept_relocate (s : State) (k : Nat) : lotsKept s (s.relocate k) :=
  lotsKept_of _ _ (collectionsSound_relocate s k) (ashExcess_relocate s k)

/-- Slots changed one by one, each keeping what it holds. -/
theorem lotsKept_mapSlots (s : State) (f : Slot → Slot) (hf : ∀ x, (f x).contents = x.contents)
    (hb : f Slot.blank = Slot.blank) : lotsKept s { s with slots := mapVector f s.slots } := by
  have lots (k : Nat) : State.lotAt { s with slots := mapVector f s.slots } k = s.lotAt k :=
    (congrArg Slot.contents (getD_mapVector f s.slots k Slot.blank hb)).trans (hf _)
  exact lotsKept_of _ _ (collectionsSound_congr s _ lots rfl rfl rfl rfl rfl) (ashExcess_mapSlots s _ f rfl rfl hf)

/-- The failing health entries set leave every lot in its slot (R161). -/
theorem contents_startHealth (x : Slot) : (startHealth x).contents = x.contents := by
  unfold startHealth
  split <;> rfl

/-- The health table's start rule moves lots between slots, whole (R161). -/
theorem lotsKept_startAudit (s : State) : lotsKept s s.startAudit := by
  have marked := lotsKept_mapSlots s startHealth contents_startHealth rfl
  unfold State.startAudit
  dsimp only
  generalize ({ s with slots := mapVector startHealth s.slots } : State) = t at marked ⊢
  split
  · exact marked
  · exact lotsKept_trans _ _ _ (lotsKept_trans _ _ _ marked (lotsKept_raise t .worn))
      (foldl_related lotsKept_refl lotsKept_trans State.relocate lotsKept_relocate _ _)

theorem lotsKept_startChannels (s : State) : lotsKept s s.startChannels := lotsKept_orphanChannels s _

theorem lotsKept_withMode (s : State) (m : PlantMode) : lotsKept s { s with mode := m } :=
  lotsKept_congr _ _ rfl rfl rfl rfl rfl rfl rfl

theorem lotsKept_warmStart (s : State) : lotsKept s s.warmStart := by
  have stores := lotsKept_trans _ _ _ (lotsKept_cutOff s) (lotsKept_startStores s.cutOff false)
  have channels := lotsKept_trans _ _ _ stores (lotsKept_startChannels _)
  have audited := lotsKept_trans _ _ _ channels (lotsKept_startAudit _)
  exact lotsKept_trans _ _ _ audited (lotsKept_withMode _ .pause)

/-- A register with no lot and no place held is sound, and an empty account agrees with it (R26). -/
theorem empty_sound (s : State) (h1 : ∀ k, s.lotAt k = none) (h2 : ∀ c, s.cell c = Cell.blank)
    (h3 : ∀ c, s.channel c = none) (h4 : s.queue = []) (h5 : s.bench = []) (h6 : s.account.live = 0)
    (h7 : s.account.reserved = 0) : collectionsSound s ∧ ashAgrees s := by
  have noRecord (k : Nat) (r : LotRecord) : s.recordAt k ≠ some r := by
    unfold State.recordAt
    rw [h1]
    exact fun h => by cases h
  refine ⟨⟨fun k l h => ?_, fun j k q r h => absurd h (noRecord j q), fun k r h => absurd h (noRecord k r), fun n h => ?_,
    fun c => ?_, ?_, ?_, ?_⟩, (ashAgrees_iff s).mpr ?_⟩
  · rw [h1] at h
    cases h
  · rcases h with ⟨c, h | h⟩ | h | h | ⟨c, b, h, -⟩
    · rw [h2] at h
      cases h
    · rw [h2] at h
      cases h
    · rw [h4] at h
      cases h
    · rw [h5] at h
      cases h
    · rw [h3] at h
      cases h
  · rw [h2]
    exact ⟨List.nodup_nil, List.nodup_nil, Nat.zero_le _⟩
  · rw [h4]
    exact List.nodup_nil
  · rw [h5]
    exact List.nodup_nil
  · rw [h4, h5]
    exact Nat.zero_le _
  · have none : lotFigures s = 0 := by
      refine List.sum_eq_zero fun x hx => ?_
      obtain ⟨y, hy, rfl⟩ := List.mem_map.mp hx
      obtain ⟨k, hk, rfl⟩ := List.mem_iff_getElem.mp hy
      have free := slotFigures_free s k (h1 k)
      unfold State.slot at free
      rwa [List.getD_eq_getElem _ _ hk] at free
    unfold ashExcess
    rw [h6, h7, none]
    rfl

/-- A cold start leaves no lot and no place held, and an empty account (R26, R185). -/
theorem coldBegin_sound (s : State) : collectionsSound s.coldBegin ∧ ashAgrees s.coldBegin := by
  obtain ⟨⟨empty, -⟩, -, cells, channels, -, -, e⟩ := coldBegin_facts s
  refine empty_sound _ (fun k => ?_) (fun c => ?_) channels (by rw [e]) (by rw [e]) (by rw [e]) (by rw [e])
  · cases hl : s.coldBegin.lotAt k with
    | none => rfl
    | some l =>
      have := (mem_occupied s.coldBegin k l).mpr hl
      rw [empty] at this
      cases this
  · by_cases hc : c ≤ 95
    · exact cells c hc
    · exact cell_beyond _ c (Nat.lt_of_not_le hc)

theorem lotsKept_coldBegin (s : State) : lotsKept s s.coldBegin := fun _ =>
  ⟨(coldBegin_sound s).1, fun _ => (coldBegin_sound s).2⟩

end Sys2Proof.Machine
end

section
/-! Every step of a command that lists no memory fault keeps the collections sound, and the account in agreement with the
lots (R11, R12, R22, R27, R57 to R59, R96, R97). -/

namespace Sys2Proof.Machine

/-! ### The account beside the lots -/

theorem ashExcess_withAccount (s : State) (a : Account) : ashExcess (s.withAccount a) =
    ashExcess s + ((a.live, a.reserved) - (s.account.live, s.account.reserved)) := by
  show (a.live, a.reserved) - lotFigures s = _
  unfold ashExcess
  abel

/-- Lots past their mix weigh their ash mass (R12). -/
theorem figuresOf_same (q r : LotRecord) (hq : q.state ≠ .mixing) (hr : r.state ≠ .mixing) (h : q.ashMass = r.ashMass) :
    figuresOf q = figuresOf r := by rw [figuresOf_mixed q hq, figuresOf_mixed r hr, h]

/-- A record rewritten with the figures it had. -/
theorem ashExcess_rewrite (s : State) (k : Nat) (r q : LotRecord) (hr : s.recordAt k = some r)
    (h : figuresOf q = figuresOf r) : ashExcess (s.writeLot k q) = ashExcess s := by
  rw [ashExcess_writeLot s k r q hr, h, add_sub_cancel_right]

section
variable (s : State) (k : Nat) (r : LotRecord) (hr : s.recordAt k = some r)
include hr

theorem ashExcess_freed (u : State) (hu : u.slots = s.slots) :
    ashExcess (u.freeSlot k) = ashExcess u + figuresOf r := by
  obtain ⟨l, hl, rfl⟩ := (recordAt_eq s k r).mp hr
  refine ashExcess_freeSlot u k l ?_
  unfold State.lotAt State.slot
  rw [hu]
  exact hl

theorem ashExcess_takeInto (p : PortName) (hc : r.state = .cured) : ashExcess (s.takeInto p k r) = ashExcess s :=
  ashExcess_rewrite (s.leaveQueue r.number) k r _ hr (figuresOf_same _ r (by simp [testingRecord]) (by simp [hc]) rfl)

theorem ashExcess_returnInto (ht : r.state = .testing) : ashExcess (s.returnInto k r) = ashExcess s := by
  have weighs (q : QueueStatus) : figuresOf (returnedRecord r q) = figuresOf r :=
    figuresOf_same _ r (by simp [returnedRecord]) (by simp [ht]) rfl
  unfold State.returnInto
  dsimp only
  split
  · exact ashExcess_rewrite { s.leaveBench r.number with queue := r.number :: s.queue } k r _ hr (weighs .queued)
  · exact (ashExcess_giveRoom _).trans (ashExcess_rewrite (s.leaveBench r.number) k r _ hr (weighs .parked))

theorem ashExcess_judgeInto (ht : r.state = .testing) (x : TestResult) (f : Option FailCause) :
    ashExcess (s.judgeInto k r x f) = ashExcess s := by
  refine (ashExcess_giveRoom _).trans (ashExcess_rewrite (s.leaveBench r.number) k r _ hr
    (figuresOf_same _ r ?_ (by simp [ht]) rfl))
  cases f <;> simp [judgedRecord]

theorem ashExcess_retestInto (ht : r.state = .testing) : ashExcess (s.retestInto k r) = ashExcess s := by
  have written := ashExcess_rewrite (s.leaveBench r.number) k r (retestRecord r) hr
    (figuresOf_same _ r (by simp [retestRecord]) (by simp [ht]) rfl)
  unfold State.retestInto
  dsimp only
  refine (ashExcess_giveRoom _).trans ?_
  split
  · exact (ashExcess_sensorHold _ k _).trans written
  · exact written

theorem ashExcess_placeInto (cell : Nat) (hc : r.state = .sealed) : ashExcess (s.placeInto k cell r) = ashExcess s := by
  have written := ashExcess_rewrite s k r (placedRecord r cell s.clock) hr
    (figuresOf_same _ r (by simp [placedRecord]) (by simp [hc]) rfl)
  unfold State.placeInto
  dsimp only
  refine (ashExcess_sensorHold _ k cell).trans ?_
  split
  · exact written
  · exact written

theorem ashExcess_extractInto (cell : Nat) (hj : r.state = .rejected) : ashExcess (s.extractInto k cell r) = ashExcess s :=
  ashExcess_rewrite (s.frontRemoval r.number cell) k r _ hr
    (figuresOf_same _ r (by simp [extractedRecord]) (by simp [hj]) rfl)

/-- A released lot's ash leaves the live total with its record (R116). -/
theorem ashExcess_releaseInto (cell : Nat) (hj : r.state = .cleared) :
    ashExcess (s.releaseInto k cell r) = ashExcess s := by
  let u := (s.frontRemoval r.number cell).withAccount (releaseAsh s.account (r.ashMass.getD 0))
  refine (ashExcess_freed s k r hr u rfl).trans ?_
  have moved : ashExcess u = ashExcess s + _ := ashExcess_withAccount (s.frontRemoval r.number cell) _
  rw [moved, figuresOf_mixed r (by simp [hj]), add_assoc]
  refine (congrArg (ashExcess s + ·) (Prod.ext ?_ ?_)).trans (add_zero _)
  · show s.account.live - _ - s.account.live + _ = (0 : Int)
    omega
  · show s.account.reserved - s.account.reserved + 0 = (0 : Int)
    omega

/-- A withdrawn lot's ash and reservation leave the totals with its record (R122 to R126). -/
theorem ashExcess_withdrawInto : ashExcess (s.withdrawInto k r) = ashExcess s := by
  let u := (s.withAccount (withdrawAccount s.account r)).giveUpPlaces r.number
  refine (ashExcess_giveRooms _ _).trans ((ashExcess_freed s k r hr u rfl).trans ?_)
  have moved : ashExcess u = ashExcess s + _ := ashExcess_withAccount s (withdrawAccount s.account r)
  rw [moved, add_assoc]
  refine (congrArg (ashExcess s + ·) ?_).trans (add_zero _)
  by_cases hm : r.state = .mixing
  · rw [figuresOf_mixing r hm]
    refine Prod.ext ?_ ?_
    · simp only [withdrawAccount, hm, discardAsh, discardedAsh, settle, if_true, Prod.fst_add, Prod.fst_sub, Prod.fst_zero]
      push_cast
      omega
    · simp only [withdrawAccount, hm, discardAsh, settle, if_true, Prod.snd_add, Prod.snd_sub, Prod.snd_zero]
      omega
  · rw [figuresOf_mixed r hm]
    refine Prod.ext ?_ ?_
    · simp only [withdrawAccount, hm, discardAsh, discardedAsh, if_false, Prod.fst_add, Prod.fst_sub, Prod.fst_zero]
      omega
    · simp only [withdrawAccount, hm, discardAsh, if_false, Prod.snd_add, Prod.snd_sub, Prod.snd_zero]
      omega

/-- An empty lot's reservation returns to the balance as the lot is retired (R41). -/
theorem ashExcess_sealEmpty (hm : r.state = .mixing) (h0 : r.carriedAsh.getD 0 = 0) :
    ashExcess (s.sealEmpty r.number k (r.reservation.getD 0)).1 = ashExcess s := by
  let u := ((s.withAccount (returnReservation s.account (r.reservation.getD 0))).leavePot r.number).freeChannelOf r.number
  refine (ashExcess_freed s k r hr u rfl).trans ?_
  have moved : ashExcess u = ashExcess s + _ := ashExcess_withAccount s (returnReservation s.account (r.reservation.getD 0))
  rw [moved, figuresOf_mixing r hm, h0, add_assoc]
  refine (congrArg (ashExcess s + ·) (Prod.ext ?_ ?_)).trans (add_zero _)
  · show s.account.live - s.account.live + (0 : Int) = 0
    omega
  · show s.account.reserved - _ - s.account.reserved + _ = (0 : Int)
    omega

/-- A settlement moves the dosed ash to the live total and the reservation out of the reserved one, as the lot's record
does (R42, R44). -/
theorem ashExcess_sealInto (cell : Nat) (d : Dosed) (hm : r.state = .mixing) :
    ashExcess (s.sealInto k cell r d) = ashExcess s := by
  let a := settle s.account (r.reservation.getD 0) d.ash
  let q := sealedRecord r (r.carriedAsh.getD 0 + d.ash) cell s.clock
  have written : ashExcess ((s.withAccount a).writeLot k q) = ashExcess s := by
    rw [ashExcess_writeLot (s.withAccount a) k r q hr, ashExcess_withAccount, figuresOf_mixing r hm,
      figuresOf_mixed q (by simp [q, sealedRecord]), add_assoc, add_sub_assoc]
    refine (congrArg (ashExcess s + ·) (Prod.ext ?_ ?_)).trans (add_zero _)
    · show s.account.live + _ - s.account.live + _ - ((r.carriedAsh.getD 0 + d.ash : Nat) : Int) = 0
      push_cast
      omega
    · show s.account.reserved - _ - s.account.reserved + _ - 0 = (0 : Int)
      omega
  have held (u : State) (b : Bool) (x : Band) : ashExcess (u.sealHolds k b x) = ashExcess u := by
    unfold State.sealHolds
    dsimp only
    split_ifs
    · exact ashExcess_addHold u k .intake
    · rfl
    · exact (ashExcess_addHold _ k .dose).trans (ashExcess_addHold u k .intake)
    · exact ashExcess_addHold u k .dose
  exact (held _ _ _).trans written

end

/-- A taken OPEN reserves the planned ash for the new lot, and a remix's child carries the ash of its parent (R34, R35). -/
theorem ashExcess_openInto (s : State) (p : PortName) (slot channel planned : Nat) (ref : RecipeRef) (k : Snapshot)
    (parent : Option Parent) (hf : s.lowestFree = some slot)
    (hp : ∀ x, parent = some x → ∃ r, s.recordAt x.slot = some r ∧ r.state = .extracted ∧ x.ash = r.ashMass.getD 0) :
    ashExcess (s.openInto p slot channel planned ref k parent) = ashExcess s := by
  let q := openedRecord s s.counter.next channel planned ref k parent
  obtain ⟨free, hk⟩ := lowestFree_some s slot hf
  have opened : ashExcess (openedState s p slot channel planned ref k parent) =
      ashExcess s - ((((parent.map (·.ash)).getD 0 : Nat) : Int), 0) := by
    have put : ashExcess ((s.writeLot slot q).withAccount (reserveAsh s.account planned)) = _ :=
      ashExcess_withAccount (s.writeLot slot q) _
    refine (put.trans ?_)
    rw [State.writeLot, ashExcess_putFree s slot (freshLot q) hk free]
    show ashExcess s - figuresOf q + _ = _
    rw [figuresOf_mixing q rfl, sub_add, sub_right_inj]
    refine Prod.ext ?_ ?_
    · show _ - (s.account.live - s.account.live) = _
      rw [sub_self, sub_zero]
      rfl
    · show ((planned : Nat) : Int) - (s.account.reserved + planned - s.account.reserved) = 0
      omega
  rw [openInto_eq, ashExcess_judgePotLife]
  split
  case h_1 x =>
    obtain ⟨r, hr, he, ha⟩ := hp x rfl
    obtain ⟨l, hl, rfl⟩ := (recordAt_eq s x.slot r).mp hr
    have hne : x.slot ≠ slot := fun e => by
      rw [e, free] at hl
      cases hl
    have hl' := (lotAt_openedState s p slot channel planned ref k (some x) hf x.slot).trans (if_neg hne)
    rw [ashExcess_freeSlot _ x.slot l (hl'.trans hl), opened, figuresOf_mixed _ (by simp [he])]
    show ashExcess s - ((x.ash : Int), 0) + _ = _
    rw [ha, sub_add_cancel]
  · exact opened.trans (sub_zero _)

/-! ### Requests on a lot or a channel of sound collections -/

/-- The slot of a number holds the live lot of that number (R12). -/
theorem slotOf_recordAt (s : State) (hs : collectionsSound s) (n k : Nat) (h : s.slotOf n = some k) :
    ∃ r, s.recordAt k = some r ∧ r.number = n := by
  have holds : holdsNumber n (s.slot k) = true :=
    (((findIdx_first (holdsNumber n) Slot.blank s.slots.toList rfl).2 k).mp h).1
  cases hl : s.lotAt k with
  | none =>
    have hc : (s.slot k).contents = none := hl
    simp [holdsNumber, hc] at holds
  | some l =>
    have hc : (s.slot k).contents = some l := hl
    simp only [holdsNumber, hc, lotNumber_agrees l (hs.1 k l hl).1, beq_iff_eq, Option.some.injEq] at holds
    exact ⟨_, recordAt_of_lotAt s k l hl, holds⟩

theorem lotsKept_onLot (s : State) (n : Nat) (body : State → Nat → LotRecord → State × Reply)
    (h : collectionsSound s → ∀ k r, s.recordAt k = some r → r.number = n → lotsKept s (body s k r).1) :
    lotsKept s (s.onLot n body).1 := by
  intro hs
  have found : s.checkedLot n = (s, none) ∨
      ∃ k r, s.recordAt k = some r ∧ r.number = n ∧ s.checkedLot n = (s, some (k, r)) := by
    unfold State.checkedLot
    split
    · exact .inl rfl
    case h_2 k hk =>
      obtain ⟨r, hr, rfl⟩ := slotOf_recordAt s hs n k hk
      have clean := congrArg Prod.snd (checkedPlaced_sound s hs k r hr)
      unfold State.checkedPlaced at clean
      rw [checkLot_clean s _ hs.1] at clean
      rw [checkSlot_clean s k (hs.1 k)]
      exact .inr ⟨k, r, hr, rfl, Prod.ext rfl clean⟩
  unfold State.onLot
  split
  · exact lotsKept_refl s hs
  · rcases found with e | ⟨k, r, hr, hn, e⟩
    · rw [e]
      exact lotsKept_refl s hs
    · rw [e]
      exact h hs k r hr hn hs

theorem lotsKept_onChannel (s : State) (p : PortName) (c : Nat) (active stalled : Bool)
    (body : State → Binding → Nat → LotRecord → State × Reply)
    (h : collectionsSound s → ∀ b k r, s.channel c = some b → s.recordAt k = some r → b.lot = r.number →
      lotsKept s (body s b k r).1) : lotsKept s (s.onChannel p c active stalled body).1 := by
  intro hs
  unfold State.onChannel
  split
  · exact lotsKept_refl s hs
  case h_2 b hb =>
    generalize (if b.stalled then stalled else active) = taken
    obtain ⟨k, r, hr, hn⟩ := collectionsSound_named s hs b.lot (.inr (.inr (.inr ⟨c, b, hb, rfl⟩)))
    split
    · rw [← hn, checkedPlaced_sound s hs k r hr]
      exact h hs b k r hb hr hn.symm hs
    · exact lotsKept_refl s hs

/-- The lot of a bound channel is MIXING, and the channel is one of the part's (R27). -/
theorem bound_mixing (s : State) (hs : collectionsSound s) (c : Nat) (b : Binding) (k : Nat) (r : LotRecord)
    (hb : s.channel c = some b) (hr : s.recordAt k = some r) (hn : b.lot = r.number) : r.state = .mixing :=
  ((collectionsSound_lotPlaced s hs k r hr).2.2.2.2 c b hb hn).1

/-- TAKE considers the front lot, and takes it when it is CURED (R102). -/
theorem lotsKept_takeFront (p : PortName) (fuel : Nat) (s : State) : lotsKept s (takeFront p fuel s).1 := by
  induction fuel generalizing s with
  | zero => exact lotsKept_refl s
  | succ fuel ih =>
    unfold takeFront
    split
    · exact lotsKept_refl s
    case h_2 n rest hq =>
      intro hs
      have queued : n ∈ s.queue := hq ▸ List.mem_cons_self
      obtain ⟨k, r, hr, rfl⟩ := collectionsSound_named s hs n (.inr (.inl queued))
      rw [checkedPlaced_sound s hs k r hr]
      dsimp only
      split
      case isTrue g =>
        exact lotsKept_of s _ (fun hs => collectionsSound_takeInto s k r hs hr p g.2 queued)
          (ashExcess_takeInto s k r hr p g.2) hs
      · exact ih s hs

end Sys2Proof.Machine
end

section
/-! The requests and events over sound collections, and the step (R11, R12, R22, R27, R57 to R59, R96, R97). -/

namespace Sys2Proof.Machine

/-! ### The requests that change lots -/

/-- A record changed in fields that neither the entry nor the collections mirror (R13). -/
theorem lotsKept_changeAlike (s : State) (k : Nat) (f : LotRecord → LotRecord)
    (hf : ∀ r, entryOf (f r) = entryOf r ∧ placedAlike (f r) r) : lotsKept s (s.changeRecord k f) :=
  lotsKept_of _ _ (fun hs => collectionsSound_changeAlike s k f hs hf)
    (ashExcess_changeRecord s k f fun r _ => (hf r).1)

theorem lotsKept_amendTargetBody (part lot target : Nat) (s : State) :
    lotsKept s (amendTargetBody part lot target s).1 := by
  unfold amendTargetBody
  split
  · exact lotsKept_refl s
  · refine lotsKept_onLot s lot _ fun _ k r _ _ => ?_
    have load : lotsKept s (s.changeRecord k fun r => { r with target := some target }) :=
      lotsKept_changeAlike s k _ fun _ => ⟨rfl, rfl, rfl, rfl, rfl, rfl, rfl⟩
    dsimp only
    split
    · exact load
    · split
      case h_5 => exact lotsKept_changeAlike s k _ fun _ => ⟨rfl, rfl, rfl, rfl, rfl, rfl, rfl⟩
      case h_6 => exact lotsKept_refl s
      case h_7 => exact lotsKept_refl s
      case h_8 => exact lotsKept_refl s
      all_goals exact load

theorem lotsKept_amendRecipeBody (part lot bank number : Nat) (s : State) :
    lotsKept s (amendRecipeBody part lot bank number s).1 := by
  unfold amendRecipeBody
  split
  · exact lotsKept_refl s
  · refine lotsKept_onLot s lot _ fun _ k r _ _ => ?_
    split
    · exact lotsKept_refl s
    · split
      · exact lotsKept_refl s
      · split
        · exact lotsKept_refl s
        · exact lotsKept_changeAlike s k _ fun _ => ⟨rfl, rfl, rfl, rfl, rfl, rfl, rfl⟩

theorem lotsKept_amendDosedBody (part lot ash cement water : Nat) (s : State) :
    lotsKept s (amendDosedBody part lot ash cement water s).1 := by
  unfold amendDosedBody
  split
  · exact lotsKept_refl s
  · refine lotsKept_onLot s lot _ fun _ k r _ _ => ?_
    split
    · exact lotsKept_changeAlike s k _ fun _ => ⟨rfl, rfl, rfl, rfl, rfl, rfl, rfl⟩
    · exact lotsKept_refl s

theorem lotsKept_addHold (s : State) (k : Nat) (h : Hold) : lotsKept s (s.addHold k h) :=
  lotsKept_of _ _ (collectionsSound_addHold s k h) (ashExcess_addHold s k h)

/-- A CURED lot whose last hold is removed is given an admission attempt (R7, R99). -/
theorem lotsKept_clearHoldBody (lot reasons : Nat) (s : State) : lotsKept s (clearHoldBody lot reasons s).1 := by
  unfold clearHoldBody
  split
  · exact lotsKept_refl s
  · refine lotsKept_onLot s lot _ fun _ k r hr _ => ?_
    dsimp only
    generalize (BitVec.ofNat 7 reasons : HoldSet) = list
    have cleared : lotsKept s (s.changeRecord k (clearedRecord list)) :=
      lotsKept_changeAlike s k _ fun _ => ⟨rfl, rfl, rfl, rfl, rfl, rfl, rfl⟩
    split
    · exact lotsKept_refl s
    · dsimp only
      split
      case isTrue g =>
        obtain ⟨hc, -, hh⟩ := g
        refine lotsKept_trans _ _ _ cleared (lotsKept_of _ _ (fun hs => ?_) (ashExcess_admitLot _ k))
        refine collectionsSound_admitLot _ k hs fun q hq => ?_
        rw [recordAt_changeRecord, hr] at hq
        cases hq
        exact ⟨hc, fun g => absurd hh g⟩
      · exact cleared

theorem lotsKept_withdrawBody (lot : Nat) (s : State) : lotsKept s (withdrawBody lot s).1 := by
  refine lotsKept_onLot s lot _ fun _ k r hr _ => ?_
  split
  · exact lotsKept_refl s
  · exact lotsKept_of _ _ (fun hs => collectionsSound_withdrawInto s k r hs hr) (ashExcess_withdrawInto s k r hr)

theorem lotsKept_closeBody (mark : Bool) (cell : Nat) (s : State) : lotsKept s (closeBody mark cell s).1 := by
  unfold closeBody
  split
  · exact lotsKept_refl s
  · exact lotsKept_of _ _ (fun hs => collectionsSound_setCell s cell _ hs rfl rfl) rfl

theorem lotsKept_openRecipe (s : State) (p : PortName) (channel planned : Nat) (ref : RecipeRef)
    (parent : Option Parent) (hc : s.channel channel = none)
    (hp : ∀ x, parent = some x → ∃ r, s.recordAt x.slot = some r ∧ r.state = .extracted ∧ x.ash = r.ashMass.getD 0) :
    lotsKept s (s.openRecipe p channel planned ref parent).1 := by
  unfold State.openRecipe
  split
  · exact lotsKept_refl s
  · split
    · exact lotsKept_refl s
    · split
      · exact lotsKept_refl s
      · split
        · exact lotsKept_refl s
        case h_2 slot hf =>
          split
          · exact lotsKept_refl s
          case isFalse hx =>
            exact lotsKept_of _ _ (fun hs => collectionsSound_openInto s hs p slot channel planned ref _ parent hf
              (Bool.eq_false_of_not_eq_true hx) hc fun x h => have ⟨r, hr, he, _⟩ := hp x h; ⟨r, hr, he⟩)
              (ashExcess_openInto s p slot channel planned ref _ parent hf hp)

/-- A bank put in force changes neither lots nor channels (R32). -/
theorem applyPendingBank_frame (s : State) : ∃ b w, s.applyPendingBank = { s with bank := b, bankWrites := w } := by
  unfold State.applyPendingBank State.changeBank
  split
  · split
    · exact ⟨s.bank, s.bankWrites, rfl⟩
    · exact ⟨_, _, rfl⟩
  · exact ⟨s.bank, s.bankWrites, rfl⟩

theorem lotsKept_openBody (p : PortName) (channel recipe planned : Nat) (s : State) :
    lotsKept s (openBody p channel recipe planned s).1 := by
  unfold openBody
  split
  · exact lotsKept_refl s
  · split
    · exact lotsKept_refl s
    case isFalse hc =>
      obtain ⟨b, w, e⟩ := applyPendingBank_frame s
      have applied : lotsKept s s.applyPendingBank := by
        rw [e]
        exact lotsKept_congr _ _ rfl rfl rfl rfl rfl rfl rfl
      have free : s.applyPendingBank.channel channel = none := by
        rw [e]
        exact not_not.mp hc
      exact lotsKept_trans _ _ _ applied (lotsKept_openRecipe _ p channel planned _ none free fun _ h => by cases h)

theorem lotsKept_remixBody (p : PortName) (channel recipe planned parent : Nat) (s : State) :
    lotsKept s (remixBody p channel recipe planned parent s).1 := by
  unfold remixBody
  split
  · exact lotsKept_refl s
  · split
    · exact lotsKept_refl s
    case isFalse hc =>
      refine lotsKept_onLot s parent _ fun _ k r hr _ => ?_
      by_cases he : r.state = .extracted
      · rw [if_neg (not_not.mpr he)]
        split_ifs
        · exact lotsKept_refl s
        · exact lotsKept_refl s
        · exact lotsKept_refl s
        · unfold State.openRemix
          split
          · exact lotsKept_openRecipe s p channel planned _ _ (not_not.mp hc) fun x h => by
              cases h
              exact ⟨r, hr, he, rfl⟩
          · exact lotsKept_refl s
      · rw [if_pos he]
        exact lotsKept_refl s

theorem lotsKept_doseBody (p : PortName) (channel ash cement water : Nat) (s : State) :
    lotsKept s (doseBody p channel ash cement water s).1 := by
  unfold doseBody
  split
  · exact lotsKept_refl s
  · refine lotsKept_onChannel s p channel true false _ fun _ b k r hb hr hn => ?_
    split
    · exact lotsKept_refl s
    case h_2 d hd =>
      dsimp only
      split
      · have dosed : lotsKept s (s.changeRecord k fun r => { r with dosed := some (addDose d ash cement water) }) :=
          lotsKept_changeAlike s k _ fun _ => ⟨rfl, rfl, rfl, rfl, rfl, rfl, rfl⟩
        refine lotsKept_trans _ _ _ dosed (lotsKept_of _ _ (fun hs => ?_) rfl)
        obtain ⟨a, e⟩ := changeRecord_frame s k fun r => { r with dosed := some (addDose d ash cement water) }
        refine collectionsSound_setBinding _ hs channel b (countDose b) ?_ rfl
        rw [e]
        exact hb
      · exact lotsKept_refl s

theorem lotsKept_sealBody (p : PortName) (channel cell : Nat) (s : State) :
    lotsKept s (sealBody p channel cell s).1 := by
  unfold sealBody
  split
  · exact lotsKept_refl s
  case isFalse hcell =>
    refine lotsKept_onChannel s p channel true true _ fun hs b k r hb hr hn => ?_
    have hm := bound_mixing s hs channel b k r hb hr hn
    split
    · exact lotsKept_refl s
    case h_2 d hd =>
      by_cases h0 : r.carriedAsh.getD 0 + d.ash = 0
      · rw [if_pos h0]
        exact lotsKept_of _ _ (fun hs => collectionsSound_sealEmpty s k r hs hr hm _)
          (ashExcess_sealEmpty s k r hr hm (Nat.eq_zero_of_add_eq_zero_right h0))
      · rw [if_neg h0]
        split
        · exact lotsKept_refl s
        · by_cases room : hasRoom (s.cell cell) = true
          · rw [room]
            simp only [Bool.not_true, Bool.false_eq_true, if_false]
            split
            · exact lotsKept_refl s
            · exact lotsKept_of _ _ (fun hs => collectionsSound_sealInto s k r hs hr cell d hm
                (Nat.lt_of_not_le fun h => hcell (Nat.lt_of_lt_of_le (by decide) h)) room)
                (ashExcess_sealInto s k r hr cell d hm)
          · rw [Bool.not_eq_true] at room
            rw [room]
            exact lotsKept_refl s

theorem lotsKept_markStalled (s : State) (c : Nat) (b : Binding) (mark : Bool) (hb : s.channel c = some b) :
    lotsKept s (s.markStalled c b mark).1 :=
  lotsKept_of _ _ (fun hs => collectionsSound_setBinding s hs c b { b with stalled := mark } hb rfl) rfl

theorem lotsKept_rebindBody (p : PortName) (lot channel : Nat) (s : State) :
    lotsKept s (rebindBody p lot channel s).1 := by
  unfold rebindBody
  split
  · exact lotsKept_refl s
  · split
    · exact lotsKept_refl s
    case isFalse hc =>
      refine lotsKept_onLot s lot _ fun _ k r hr hn => ?_
      split
      · exact lotsKept_refl s
      case isFalse h =>
        obtain ⟨hm, ho⟩ := not_or.mp h
        exact lotsKept_of _ _ (fun hs => collectionsSound_bind s k r hs hr channel ⟨false, p, lot, 0⟩ (not_not.mp hm)
          (not_not.mp ho) (not_not.mp hc) hn.symm) (ashExcess_changeRecord s k _ fun _ _ => rfl)

theorem testedBy_testing (r : LotRecord) (p : PortName) (h : testedBy r p = true) : r.state = .testing := by
  unfold testedBy at h
  exact of_decide_eq_true (Bool.and_eq_true_iff.mp h).1

theorem lotsKept_returnBody (p : PortName) (lot : Nat) (s : State) : lotsKept s (returnBody p lot s).1 := by
  refine lotsKept_onLot s lot _ fun _ k r hr _ => ?_
  split
  case isTrue h =>
    have ht := testedBy_testing r p h
    exact lotsKept_of _ _ (fun hs => collectionsSound_returnInto s k r hs hr ht) (ashExcess_returnInto s k r hr ht)
  · exact lotsKept_refl s

theorem lotsKept_resultBody (p : PortName) (lot kind strength leachClass : Nat) (s : State) :
    lotsKept s (resultBody p lot kind strength leachClass s).1 := by
  unfold resultBody
  split
  · exact lotsKept_refl s
  · refine lotsKept_onLot s lot _ fun _ k r hr _ => ?_
    split
    case isTrue h =>
      have ht := testedBy_testing r p h
      split
      · exact lotsKept_of _ _ (fun hs => collectionsSound_judgeInto s k r hs hr ht _ _) (ashExcess_judgeInto s k r hr ht _ _)
      · exact lotsKept_refl s
    · exact lotsKept_refl s

theorem lotsKept_retestBody (p : PortName) (lot kind : Nat) (s : State) : lotsKept s (retestBody p lot kind s).1 := by
  unfold retestBody
  split
  · exact lotsKept_refl s
  · refine lotsKept_onLot s lot _ fun _ k r hr _ => ?_
    split
    case isTrue h =>
      have ht := testedBy_testing r p h
      split
      · exact lotsKept_refl s
      · exact lotsKept_of _ _ (fun hs => collectionsSound_retestInto s k r hs hr ht) (ashExcess_retestInto s k r hr ht)
    · exact lotsKept_refl s

theorem lotsKept_placeBody (lot cell : Nat) (s : State) : lotsKept s (placeBody lot cell s).1 := by
  refine lotsKept_onLot s lot _ fun _ k r hr _ => ?_
  by_cases hc : r.state = .sealed
  · rw [if_neg (not_not.mpr hc)]
    split
    · exact lotsKept_refl s
    · split
      · exact lotsKept_refl s
      case isFalse h =>
        have room : r.targetCell = some cell ∨ hasRoom (s.cell cell) = true := by
          by_cases ht : r.targetCell = some cell
          · exact .inl ht
          · exact .inr (Bool.eq_true_of_not_eq_false fun g => h ⟨ht, g⟩)
        exact lotsKept_of _ _ (fun hs => collectionsSound_placeInto s k r hs hr cell hc room)
          (ashExcess_placeInto s k r hr cell hc)
  · rw [if_pos hc]
    exact lotsKept_refl s

theorem lotsKept_releaseBody (lot cell : Nat) (s : State) : lotsKept s (releaseBody lot cell s).1 := by
  refine lotsKept_onLot s lot _ fun _ k r hr _ => ?_
  by_cases h : r.state ≠ .cleared ∨ r.cell ≠ some cell
  · rw [if_pos h]
    exact lotsKept_refl s
  · rw [if_neg h]
    obtain ⟨hj, hc⟩ := not_or.mp h
    split_ifs
    · exact lotsKept_refl s
    · exact lotsKept_refl s
    · exact lotsKept_of _ _ (fun hs => collectionsSound_releaseInto s k r hs hr cell (not_not.mp hj) (not_not.mp hc))
        (ashExcess_releaseInto s k r hr cell (not_not.mp hj))

theorem lotsKept_extractBody (lot cell : Nat) (s : State) : lotsKept s (extractBody lot cell s).1 := by
  refine lotsKept_onLot s lot _ fun _ k r hr _ => ?_
  by_cases h : r.state ≠ .rejected ∨ r.cell ≠ some cell
  · rw [if_pos h]
    exact lotsKept_refl s
  · rw [if_neg h]
    obtain ⟨hj, hc⟩ := not_or.mp h
    split_ifs
    · exact lotsKept_refl s
    · exact lotsKept_of _ _ (fun hs => collectionsSound_extractInto s k r hs hr cell (not_not.mp hj) (not_not.mp hc))
        (ashExcess_extractInto s k r hr cell (not_not.mp hj))

/-- A reinstated slot is free, and may take in a record that waits (R159). -/
theorem lotsKept_reinstateBody (k : Nat) (s : State) : lotsKept s (reinstateBody k s).1 := by
  unfold reinstateBody
  split
  · exact lotsKept_refl s
  case isFalse hk =>
    have hk : k < Config.slotCount := Nat.lt_succ_of_le (Nat.le_of_not_lt hk)
    split
    · exact lotsKept_refl s
    · split
      · exact lotsKept_refl s
      case isFalse h =>
        have free : s.lotAt k = none := not_not.mp fun g => h (.inl g)
        let t := s.setSlot k { s.slot k with tally := 0, worn := false, reported := false }
        have lots (j : Nat) : t.lotAt j = s.lotAt j := by
          rw [lotAt_setSlot]
          split
          case isTrue g => exact g.1 ▸ rfl
          · rfl
        refine lotsKept_of _ _ (fun hs => ?_) ?_
        · exact collectionsSound_offerSlot t k (collectionsSound_slots s t hs lots rfl) ((lots k).trans free) hk
        · refine (ashExcess_offerSlot t k ((lots k).trans free) hk).trans ?_
          rw [ashExcess_setSlot s k _ hk]
          exact add_sub_cancel_right _ _

/-- INTAKE moves totals that the lots have no part in (R23). -/
theorem lotsKept_intakeBody (amount : Int) (s : State) : lotsKept s (intakeBody amount s).1 := by
  have booked (x : Int) : lotsKept s (s.withAccount (book s.account x)) :=
    lotsKept_of _ _ (collectionsSound_congr s _ (fun _ => rfl) rfl rfl rfl rfl rfl) rfl
  unfold intakeBody
  split_ifs
  · exact lotsKept_refl s
  · exact lotsKept_refl s
  · exact booked amount
  · exact booked _

theorem lotsKept_clockBody (minute : Option Nat) (s : State) : lotsKept s (clockBody minute s).1 := by
  unfold clockBody
  split
  · exact lotsKept_refl s
  case h_2 m =>
    split
    · exact lotsKept_refl s
    · have clocked : lotsKept s { s with clock := m } := lotsKept_congr _ _ rfl rfl rfl rfl rfl rfl rfl
      exact lotsKept_trans _ _ _ clocked (lotsKept_judgePotLife _)

theorem lotsKept_portSetupBody (port role first last : Nat) (s : State) :
    lotsKept s (portSetupBody port role first last s).1 := by
  unfold portSetupBody
  split
  · exact lotsKept_refl s
  · exact lotsKept_refl s
  · exact lotsKept_refl s
  · split
    · exact lotsKept_refl s
    · exact lotsKept_setupInto s _ _

theorem lotsKept_checkLots (l : List Nat) (s : State) : lotsKept s (l.foldl State.checkLot s) :=
  foldl_related lotsKept_refl lotsKept_trans State.checkLot (checkLot_related lotsKept_refl lotsKept_checkSlot) l s

/-- The body of every request keeps the lots. -/
theorem lotsKept_bodyOf (i : Instr) (s : State) : lotsKept s (bodyOf i s).1 := by
  cases i with
  | intake p t amount => exact lotsKept_intakeBody amount s
  | lookup p t lot => exact lotsKept_onLot s lot _ fun _ _ _ _ _ => lotsKept_refl s
  | scan p t filter start =>
    show lotsKept s (scanBody filter start s).1
    unfold scanBody
    split
    · exact lotsKept_refl s
    · exact scanWalk_related lotsKept_refl lotsKept_trans lotsKept_checkSlot _ s []
  | amendTarget p t part lot target => exact lotsKept_amendTargetBody part lot target s
  | amendRecipe p t part lot bank number => exact lotsKept_amendRecipeBody part lot bank number s
  | amendDosed p t part lot ash cement water => exact lotsKept_amendDosedBody part lot ash cement water s
  | holdLot p t lot => exact lotsKept_onLot s lot _ fun _ k _ _ _ => lotsKept_addHold s k .manual
  | clearHold p t lot reasons => exact lotsKept_clearHoldBody lot reasons s
  | withdraw p t lot => exact lotsKept_withdrawBody lot s
  | cellOpen p t cell => exact lotsKept_closeBody false cell s
  | cellClose p t cell => exact lotsKept_closeBody true cell s
  | cellStatus p t cell =>
    show lotsKept s (cellStatusBody cell s).1
    unfold cellStatusBody
    split
    · exact lotsKept_refl s
    · exact lotsKept_checkLots _ s
  | queueStatus p t => exact lotsKept_checkLots _ s
  | recipeRead p t bank number =>
    show lotsKept s (recipeReadBody bank number s).1
    unfold recipeReadBody
    split <;> exact lotsKept_refl s
  | recipeWrite p t bank number form values =>
    show lotsKept s (recipeWriteBody bank number form values s).1
    unfold recipeWriteBody
    split_ifs
    · exact lotsKept_refl s
    · exact lotsKept_refl s
    · exact lotsKept_refl s
    · split <;> exact lotsKept_congr _ _ rfl rfl rfl rfl rfl rfl rfl
  | bankSelect p t bank =>
    show lotsKept s (bankSelectBody bank s).1
    unfold bankSelectBody State.changeBank
    split
    · exact lotsKept_refl s
    · dsimp only
      split <;> exact lotsKept_congr _ _ rfl rfl rfl rfl rfl rfl rfl
  | mode p t code =>
    show lotsKept s (modeBody code s).1
    unfold modeBody
    split <;> exact lotsKept_congr _ _ rfl rfl rfl rfl rfl rfl rfl
  | portSetup p t port role first last => exact lotsKept_portSetupBody port role first last s
  | noticeMask p t port kinds =>
    show lotsKept s (noticeMaskBody port kinds s).1
    unfold noticeMaskBody
    split
    · exact lotsKept_refl s
    · split
      · exact lotsKept_refl s
      · exact lotsKept_ports s _
  | notices p t => exact lotsKept_ports s _
  | slotHealth p t => exact lotsKept_mapSlots s (fun x => { x with reported := false }) (fun _ => rfl) rfl
  | reinstateSlot p t slot => exact lotsKept_reinstateBody slot s
  | clock p t minute => exact lotsKept_clockBody minute s
  | clearRegister p t count =>
    show lotsKept s (clearRegisterBody count s).1
    unfold clearRegisterBody
    split_ifs <;> exact lotsKept_refl s
  | openLot p t channel recipe planned => exact lotsKept_openBody p channel recipe planned s
  | remixOpen p t channel recipe planned parent => exact lotsKept_remixBody p channel recipe planned parent s
  | dose p t channel ash cement water => exact lotsKept_doseBody p channel ash cement water s
  | sealLot p t channel cell => exact lotsKept_sealBody p channel cell s
  | stall p t channel =>
    exact lotsKept_onChannel s p channel true false _ fun _ b _ _ hb _ _ => lotsKept_markStalled s channel b true hb
  | resume p t channel =>
    exact lotsKept_onChannel s p channel false true _ fun _ b _ _ hb _ _ => lotsKept_markStalled s channel b false hb
  | rebind p t lot channel => exact lotsKept_rebindBody p lot channel s
  | channelStatus p t channel =>
    show lotsKept s (match s.channel channel with
      | some b => s.checkLot b.lot
      | none => s)
    split
    · exact checkLot_related lotsKept_refl lotsKept_checkSlot s _
    · exact lotsKept_refl s
  | take p t => exact lotsKept_takeFront p _ s
  | returnLot p t lot => exact lotsKept_returnBody p lot s
  | verdictResult p t lot kind strength leachClass => exact lotsKept_resultBody p lot kind strength leachClass s
  | verdictRetest p t lot kind => exact lotsKept_retestBody p lot kind s
  | place p t lot cell => exact lotsKept_placeBody lot cell s
  | release p t lot cell => exact lotsKept_releaseBody lot cell s
  | extract p t lot cell => exact lotsKept_extractBody lot cell s
  | _ => exact lotsKept_refl s

/-! ### The events -/

/-- The fields of a start in progress are no part of the lots. -/
theorem lotsKept_restarted (s : State) (x : Phase) (w c r : Bool) :
    lotsKept s { s with phase := x, warmDue := w, coldDue := c, resetLine := r } :=
  lotsKept_congr _ _ rfl rfl rfl rfl rfl rfl rfl

/-- The state at a completed start, before what it overtook is judged (R183, R185). -/
theorem lotsKept_running (s : State) (g : Bool) (a : Ports) :
    lotsKept s { s with phase := .running, signature := g, ports := a } :=
  lotsKept_congr _ _ rfl rfl rfl rfl rfl rfl rfl

/-- A start that completes judges what it overtook (R49, R90, R183). -/
theorem lotsKept_startComplete (s s' : State) (e : execStartComplete s = .next s') : lotsKept s s' := by
  cases e
  split
  · split
    · exact lotsKept_refl s
    · refine lotsKept_trans _ _ _ ?_ (lotsKept_judgePotLife _)
      split
      · exact lotsKept_trans _ _ _ (lotsKept_running s _ _) (lotsKept_outageRule _)
      · exact lotsKept_running s _ _
  · exact lotsKept_refl s
  · exact lotsKept_refl s

/-- A restart begins a warm start where the part runs (R182). -/
theorem lotsKept_warmRestart (s s' : State) (e : execWarmRestart s = .next s') : lotsKept s s' := by
  cases e
  split
  · split
    · exact lotsKept_trans _ _ _ (lotsKept_warmStart s) (lotsKept_restarted _ _ _ _ _)
    · exact lotsKept_restarted s _ _ _ _
    · exact lotsKept_restarted s _ _ _ _
  · exact lotsKept_refl s

/-- A cold start that falls due begins where the supply is on (R185). -/
theorem lotsKept_coldStart (s s' : State) (e : execColdStart s = .next s') : lotsKept s s' := by
  have begun : lotsKept s { s.coldBegin with coldDue := false } :=
    lotsKept_trans _ _ _ (lotsKept_coldBegin s) (lotsKept_restarted _ _ _ _ _)
  cases e
  split
  · split
    · exact begun
    · exact begun
    · exact lotsKept_restarted s _ _ _ _
  · exact lotsKept_refl s

/-- The reset line begins a warm start where the part runs (R182). -/
theorem lotsKept_resetLineAssert (s s' : State) (e : execResetLineAssert s = .next s') : lotsKept s s' := by
  cases e
  split
  · exact lotsKept_trans _ _ _ (lotsKept_warmStart s) (lotsKept_restarted _ _ _ _ _)
  · exact lotsKept_restarted s _ _ _ _
  · exact lotsKept_restarted s _ _ _ _

/-- The release of the reset line applies the outage rule to the start it held (R90, R182). -/
theorem lotsKept_resetLineRelease (s s' : State) (e : execResetLineRelease s = .next s') : lotsKept s s' := by
  have released : lotsKept s { s with resetLine := false } := lotsKept_restarted s _ _ _ _
  cases e
  split
  · dsimp only
    split
    · split
      · exact released
      · exact lotsKept_trans _ _ _ released (lotsKept_outageRule _)
    · exact released
    · exact released
  · exact lotsKept_refl s

/-- The supply's loss cuts off the work in flight (R184). -/
theorem lotsKept_mainSupplyLoss (s s' : State) (e : execMainSupplyLoss s = .next s') : lotsKept s s' := by
  have cut (x : Phase) : lotsKept s { s.cutOff with phase := x, warmDue := false, coldDue := false } :=
    lotsKept_trans _ _ _ (lotsKept_cutOff s) (lotsKept_restarted _ _ _ _ _)
  cases e
  split
  · exact lotsKept_refl s
  · exact cut .off
  · exact cut .off

/-- The supply's return over undisturbed memory (R184). -/
theorem lotsKept_mainSupplyReturn (s s' : State) (e : execMainSupplyReturn [] s = .next s') : lotsKept s s' := by
  cases e
  split
  · show lotsKept s (if retained s then _ else _)
    split
    · exact lotsKept_trans _ _ _ (lotsKept_trans _ _ _ (lotsKept_warmStart s) (lotsKept_restarted _ _ _ _ _))
        (lotsKept_outageRule _)
    · exact lotsKept_coldBegin s
  · exact lotsKept_refl s
  · exact lotsKept_refl s

/-- Every event that lists no memory fault keeps the lots. -/
theorem lotsKept_event (i : Instr) (hi : isEvent i = true) (hf : listsNoFault i) (s s' : State)
    (e : exec i s = .next s') : lotsKept s s' := by
  cases i with
  | portBusy p t =>
    cases e
    split
    · exact lotsKept_ports s _
    · exact lotsKept_refl s
  | unknownRequestCode p t code length =>
    obtain ⟨a, rfl⟩ := execUnknownRequestCode_ports p t code length s s' e
    exact lotsKept_ports s a
  | frameGapTimeout p =>
    cases e
    split
    · exact lotsKept_ports s _
    · exact lotsKept_refl s
  | bodyLengthAbandon p length =>
    obtain ⟨a, rfl⟩ := execBodyLengthAbandon_ports p length s s' e
    exact lotsKept_ports s a
  | answerSent p =>
    cases e
    split <;> exact lotsKept_congr _ _ rfl rfl rfl rfl rfl rfl rfl
  | clockAdvance =>
    cases e
    split
    · split
      · have begun : lotsKept s { s with clock := s.clock + 1, scan := some ⟨0, s.clock + 1⟩ } :=
          lotsKept_congr _ _ rfl rfl rfl rfl rfl rfl rfl
        exact lotsKept_trans _ _ _ begun (lotsKept_judgePotLife _)
      · exact lotsKept_congr _ _ rfl rfl rfl rfl rfl rfl rfl
    · exact lotsKept_refl s
  | conversionCompletion cell reading =>
    cases e
    exact lotsKept_completion s cell reading true
  | conversionTimeout =>
    cases e
    split
    · exact lotsKept_endConversion s _ none
    · exact lotsKept_refl s
  | strayCompletion cell reading good =>
    cases e
    exact lotsKept_completion s cell reading good
  | potLifeExpiry =>
    cases e
    split
    · exact lotsKept_judgePotLife s
    · exact lotsKept_refl s
  | idleTimerExpiry p =>
    cases e
    split
    · exact lotsKept_makeAbsent s p
    · exact lotsKept_refl s
  | portSetupWriteEnd =>
    cases e
    split <;> exact lotsKept_congr _ _ rfl rfl rfl rfl rfl rfl rfl
  | bankStateWriteEnd =>
    cases e
    split <;> exact lotsKept_congr _ _ rfl rfl rfl rfl rfl rfl rfl
  | auditStep upsets =>
    obtain rfl : upsets = [] := hf
    cases e
    split
    · refine lotsKept_trans _ _ _ (lotsKept_checkSlot s s.cyclePosition) ?_
      exact lotsKept_congr _ _ rfl rfl rfl rfl rfl rfl rfl
    · exact lotsKept_refl s
  | recipeCommitCompletion =>
    cases e
    split <;> exact lotsKept_congr _ _ rfl rfl rfl rfl rfl rfl rfl
  | warmRestart => exact lotsKept_warmRestart s s' e
  | coldStart => exact lotsKept_coldStart s s' e
  | resetLineAssert => exact lotsKept_resetLineAssert s s' e
  | resetLineRelease => exact lotsKept_resetLineRelease s s' e
  | startComplete => exact lotsKept_startComplete s s' e
  | mainSupplyLoss => exact lotsKept_mainSupplyLoss s s' e
  | mainSupplyReturn upsets =>
    obtain rfl : upsets = [] := hf
    exact lotsKept_mainSupplyReturn s s' e
  | _ => cases hi

/-- Every step of a command that lists no memory fault keeps the lots. -/
theorem lotsKept_step (s s' : State) (hf : ∀ c ∈ s.pending.head?, listsNoFault c) (e : step s = .next s') :
    lotsKept s s' := by
  unfold step at e
  split at e
  · cases e
    exact lotsKept_refl s
  case h_2 i rest hp =>
    have taken : lotsKept s { s with pending := rest } := lotsKept_congr _ _ rfl rfl rfl rfl rfl rfl rfl
    refine lotsKept_trans _ _ _ taken (exec_related lotsKept_trans lotsKept_ports lotsKept_bodyOf i _ s' ?_ e)
    exact fun hi => lotsKept_event i hi (hf i (hp ▸ rfl)) _ s'

/-- A number stands in the lane of one cell alone, that of its lot's record (R57). -/
theorem lane_unique (s : State) (hs : collectionsSound s) (c d n : Nat) (hc : n ∈ (s.cell c).lane)
    (hd : n ∈ (s.cell d).lane) : c = d := by
  obtain ⟨k, r, hr, rfl⟩ := collectionsSound_named s hs n (.inl ⟨c, .inl hc⟩)
  have standing := (collectionsSound_lotPlaced s hs k r hr).1
  exact Option.some.inj ((standing c hc).2.symm.trans (standing d hd).2)

/-- Settles O60: each request and event moves lots, places and account together. -/
theorem stepKeepsTheCollections : Obligations.StepKeepsTheCollections := fun s s' hs hf e =>
  have ⟨sound, agrees⟩ := lotsKept_step s s' hf e hs
  ⟨sound, lane_unique s' sound, agrees⟩

end Sys2Proof.Machine
end

section
/-! The plain requests of the Lot Table and the requests that name a lot: INTAKE, ACCOUNT, AMEND and the checks of R4 (R4,
R17 to R20, R23, R24). -/

namespace Sys2Proof.Machine

/-! ### Passing the Port Unit -/

/-- A request of the plant role alone, and taken in every mode, passes the Port Unit's checks (R167, R168, R174). -/
theorem gate_plant (s : State) (p : PortName) (h : ready s p .plant) (q : Request)
    (hq : roleAllows .plant q = true := by rfl) (hm : ∀ m, modeAllows m q = true := by exact fun _ => rfl) :
    s.gate p q none = none :=
  gate_ready s p .plant h q hq (hm s.mode)

/-- A number out of range is refused before any slot is looked at (R4). -/
theorem onLot_range (s : State) (n : Nat) (body : State → Nat → LotRecord → State × Reply)
    (h : n = 0 ∨ Config.maxLot < n) : s.onLot n body = (s, refuse .range []) :=
  if_pos h

/-- A number that no slot stands for is refused, and no slot is checked (R4). -/
theorem onLot_unknown (s : State) (n : Nat) (body : State → Nat → LotRecord → State × Reply) (h1 : 1 ≤ n)
    (h2 : n ≤ Config.maxLot) (h : s.slotOf n = none) : s.onLot n body = (s, refuse .unknown []) := by
  have inRange : ¬(n = 0 ∨ Config.maxLot < n) := not_or.mpr ⟨Nat.ne_of_gt h1, Nat.not_lt_of_le h2⟩
  have missing : s.checkedLot n = (s, none) := by
    unfold State.checkedLot
    rw [h]
  unfold State.onLot
  rw [if_neg inRange, missing]

/-! ### INTAKE and ACCOUNT -/

/-- Settles O6, by the branches of INTAKE: out of range, past the margin, booked, debited. -/
theorem intakeBooksAndDebitsAsh : Obligations.IntakeBooksAndDebitsAsh := by
  intro p t amount s h
  have hg := gate_plant s p h .intake
  obtain ⟨hr, hp, -⟩ := h
  have refused (hb : intakeBody amount (s.received p t) = (s.received p t, refuse .range [])) :
      exec (.intake p t amount) s = .next (repliedWith s p t .range []) :=
    request_next_refused s p t _ none (intakeBody amount) hr hp hg .range [] hb
  have inRange (h1 : amount ≠ 0) (h2 : amount ≤ 200000) (h3 : -200000 ≤ amount) :
      ¬(amount = 0 ∨ 200000 < amount ∨ amount < -200000) := by omega
  refine ⟨fun hb => refused (if_pos hb), fun h1 h2 hm => refused ?_, fun h1 h2 hm => ?_, fun h1 h2 => ?_⟩
  · unfold intakeBody
    rw [if_neg (inRange (by omega) h2 (by omega)), if_pos h1]
    exact if_pos hm
  · refine request_next s p t _ none (intakeBody amount) hr hp hg
      ((s.received p t).withAccount (book s.account amount)) _ (doneWith [massField amount]) ?_ rfl rfl
    unfold intakeBody
    rw [if_neg (inRange (by omega) h2 (by omega)), if_pos h1]
    exact if_neg (Int.not_lt.mpr hm)
  · refine request_next s p t _ none (intakeBody amount) hr hp hg
      ((s.received p t).withAccount (book s.account (-(min (-amount) s.account.balance)))) _
      (doneWith [massField (min (-amount) s.account.balance)]) ?_ rfl rfl
    unfold intakeBody
    rw [if_neg (inRange (by omega) (by omega) h2), if_neg (by omega)]
    rfl

/-- The occupied places of a list of slots, numbered from a place on, are as many as its slots that hold a lot. -/
theorem length_occupiedFrom (l : List Slot) (i : Nat) :
    ((l.zipIdx i).filterMap fun x => x.1.contents.map fun y => (x.2, y)).length =
      (l.filter fun x => x.contents.isSome).length := by
  induction l generalizing i with
  | nil => rfl
  | cons x l ih =>
    rw [List.zipIdx_cons, List.filterMap_cons, List.filter_cons]
    cases h : x.contents with
    | none => exact ih (i + 1)
    | some y => exact congrArg Nat.succ (ih (i + 1))

/-- The live count is the number of slots that hold a lot (R24). -/
theorem liveCount_eq (s : State) : s.liveCount = (s.slots.toList.filter fun x => x.contents.isSome).length :=
  length_occupiedFrom s.slots.toList 0

/-- Settles O7: ACCOUNT reads the totals and the counts. -/
theorem accountReportsTheRegister : Obligations.AccountReportsTheRegister := by
  intro p t s h
  have hg := gate_plant s p h .account
  obtain ⟨hr, hp, -⟩ := h
  refine request_next_refused s p t _ none accountBody hr hp hg .done _ ?_
  have live : (s.received p t).liveCount = _ := liveCount_eq (s.received p t)
  unfold accountBody
  rw [live]
  rfl

/-! ### AMEND -/

/-- An amended record is written with a fresh code and answered as it then stands (R13, R17). -/
theorem amended_changeRecord (s : State) (n k : Nat) (r : LotRecord) (f : LotRecord → LotRecord) (h : liveLot s n k r) :
    (s.changeRecord k f).amended k = (recordNow s k (f r),
      doneWith (recordFields (f r) k (s.lanePosition (f r)) (s.queuePosition (f r)))) := by
  unfold State.amended State.fullRecord
  rw [changeRecord_clean s n k r f h, recordAt_recordNow s n k r (f r) h]
  rfl

/-- A request whose body amends a clean lot's record answers DONE with the record as amended (R17). -/
theorem request_amended (s : State) (p : PortName) (t n k : Nat) (r : LotRecord) (f : LotRecord → LotRecord)
    (body : State → State × Reply) (h : ready s p .plant) (hl : liveLot s n k r)
    (hb : body (s.received p t) = ((s.received p t).changeRecord k f).amended k) :
    Host.Outcome.next (φ := Fault) (ρ := Refusal) (s.takeRequest p t .amend none body) = .next { recordNow s k (f r) with
      ports := replied s p t .done (recordFields (f r) k (s.lanePosition (f r)) (s.queuePosition (f r))) } :=
  request_next s p t .amend none body h.1 h.2.1 (gate_plant s p h .amend) _ _ _
    (hb.trans (amended_changeRecord (s.received p t) n k r f hl)) rfl rfl

/-- A lot without a target, or in a state that takes one, has the target loaded (R18). -/
theorem amendTargetBody_loads (s : State) (n m k : Nat) (r : LotRecord) (h1 : 1000 ≤ m) (h2 : m ≤ 16000000)
    (hl : liveLot s n k r)
    (h : r.target = none ∨ r.state = .mixing ∨ r.state = .sealed ∨ r.state = .cured ∨ r.state = .extracted) :
    amendTargetBody 1 n m s = (s.changeRecord k fun r => { r with target := some m }).amended k := by
  unfold amendTargetBody
  rw [if_neg (by omega), onLot_clean s n k r _ hl]
  dsimp only
  split
  · rfl
  case isFalse ht =>
    rcases h with h | h | h | h | h
    · exact absurd h ht
    all_goals rw [h]

/-- A CURING lot that has a target holds the new one until its next sample (R18). -/
theorem amendTargetBody_holds (s : State) (n m k : Nat) (r : LotRecord) (h1 : 1000 ≤ m) (h2 : m ≤ 16000000)
    (hl : liveLot s n k r) (ht : r.target ≠ none) (h : r.state = .curing) :
    amendTargetBody 1 n m s = (s.changeRecord k fun r => { r with pendingTarget := some m }).amended k := by
  unfold amendTargetBody
  rw [if_neg (by omega), onLot_clean s n k r _ hl]
  dsimp only
  rw [if_neg ht, h]

/-- A lot under test or judged keeps the target it has (R18). -/
theorem amendTargetBody_refuses (s : State) (n m k : Nat) (r : LotRecord) (h1 : 1000 ≤ m) (h2 : m ≤ 16000000)
    (hl : liveLot s n k r) (ht : r.target ≠ none) (h : r.state = .testing ∨ r.state = .cleared ∨ r.state = .rejected) :
    amendTargetBody 1 n m s = (s, refuse .state []) := by
  unfold amendTargetBody
  rw [if_neg (by omega), onLot_clean s n k r _ hl]
  dsimp only
  rw [if_neg ht]
  rcases h with h | h | h <;> rw [h]

/-- Settles O10, by the target the lot has and its state. -/
theorem amendTargetByState : Obligations.AmendTargetByState := by
  intro p t n m s h
  have hg := gate_plant s p h .amend
  have ⟨hr, hp, _⟩ := h
  have refused (part : Nat) (o : OutcomeCode)
      (hb : amendTargetBody part n m (s.received p t) = (s.received p t, refuse o [])) :
      exec (.amendTarget p t part n m) s = .next (repliedWith s p t o []) :=
    request_next_refused s p t _ none (amendTargetBody part n m) hr hp hg o [] hb
  refine ⟨fun part hb => refused part .range (if_pos (.inl hb)), fun hb => refused 1 .range (if_pos (.inr hb)),
    fun k r h1 h2 hl => ?_⟩
  exact ⟨fun hc => request_amended s p t n k r (fun r => { r with target := some m }) _ h hl
      (amendTargetBody_loads (s.received p t) n m k r h1 h2 hl hc),
    fun ht hc => request_amended s p t n k r (fun r => { r with pendingTarget := some m }) _ h hl
      (amendTargetBody_holds (s.received p t) n m k r h1 h2 hl ht hc),
    fun ht hc => refused 1 .state (amendTargetBody_refuses (s.received p t) n m k r h1 h2 hl ht hc)⟩

/-- A lot that has its snapshot is refused another (R19). -/
theorem amendRecipeBody_state (s : State) (n bank number k : Nat) (r : LotRecord) (h1 : bank ≤ 1) (h2 : number ≤ 7)
    (hl : liveLot s n k r) (hr : r.recipe ≠ none) : amendRecipeBody 2 n bank number s = (s, refuse .state []) := by
  unfold amendRecipeBody
  rw [if_neg (by omega), onLot_clean s n k r _ hl]
  exact if_pos hr

/-- An INVALID recipe gives no snapshot (R19). -/
theorem amendRecipeBody_noRecipe (s : State) (n bank number k : Nat) (r : LotRecord) (h1 : bank ≤ 1) (h2 : number ≤ 7)
    (hl : liveLot s n k r) (hr : r.recipe = none) (hv : (s.recipe ⟨bank, number⟩).values = none) :
    amendRecipeBody 2 n bank number s = (s, refuse .noRecipe []) := by
  unfold amendRecipeBody
  rw [if_neg (by omega), onLot_clean s n k r _ hl]
  rw [if_neg (not_not.mpr hr), hv]

/-- A VALID recipe gives its snapshot unless a commit of it is in flight (R19). -/
theorem amendRecipeBody_valid (s : State) (n bank number k : Nat) (r : LotRecord) (h1 : bank ≤ 1) (h2 : number ≤ 7)
    (hl : liveLot s n k r) (hr : r.recipe = none) (v : RecipeValues) (hv : (s.recipe ⟨bank, number⟩).values = some v) :
    amendRecipeBody 2 n bank number s =
      if s.committing ⟨bank, number⟩ then (s, refuse .busy [])
      else (s.changeRecord k fun r => { r with recipe := some ⟨⟨bank, number⟩, snapshotOf v⟩ }).amended k := by
  unfold amendRecipeBody
  rw [if_neg (by omega), onLot_clean s n k r _ hl]
  rw [if_neg (not_not.mpr hr), hv]

/-- Settles O11, by the lot's snapshot, the recipe's validity and the commit in flight. -/
theorem amendRecipeRestoresSnapshot : Obligations.AmendRecipeRestoresSnapshot := by
  intro p t n bank number s h
  have hg := gate_plant s p h .amend
  have ⟨hr, hp, _⟩ := h
  have refused (part : Nat) (o : OutcomeCode)
      (hb : amendRecipeBody part n bank number (s.received p t) = (s.received p t, refuse o [])) :
      exec (.amendRecipe p t part n bank number) s = .next (repliedWith s p t o []) :=
    request_next_refused s p t _ none (amendRecipeBody part n bank number) hr hp hg o [] hb
  refine ⟨fun part hb => refused part .range (if_pos (.inl hb)), fun hb => refused 2 .range (if_pos (.inr hb)),
    fun k r h1 h2 hl => ?_⟩
  refine ⟨fun hs => refused 2 .state (amendRecipeBody_state (s.received p t) n bank number k r h1 h2 hl hs),
    fun hs hv => refused 2 .noRecipe (amendRecipeBody_noRecipe (s.received p t) n bank number k r h1 h2 hl hs hv),
    fun v hs hv => ?_⟩
  have body := amendRecipeBody_valid (s.received p t) n bank number k r h1 h2 hl hs v hv
  exact ⟨fun hc => refused 2 .busy (body.trans (if_pos hc)), fun hc => request_amended s p t n k r
    (fun r => { r with recipe := some ⟨⟨bank, number⟩, snapshotOf v⟩ }) _ h hl
    (body.trans (if_neg (Bool.eq_false_iff.mp hc)))⟩

/-- AMEND DOSED of a clean lot, past the check of its figures (R20). -/
theorem amendDosedBody_clean (s : State) (n a c w k : Nat) (r : LotRecord) (ha : a ≤ 120000) (hc : c ≤ 120000)
    (hw : w ≤ 120000) (hl : liveLot s n k r) : amendDosedBody 3 n a c w s =
      (if r.state = .mixing then (s.changeRecord k fun r => { r with dosed := some ⟨a, c, w⟩ }).amended k
      else (s, refuse .state [])) := by
  unfold amendDosedBody
  rw [if_neg (by omega), onLot_clean s n k r _ hl]

/-- Settles O12, by the state of the lot. -/
theorem amendDosedReplacesFigures : Obligations.AmendDosedReplacesFigures := by
  intro p t n a c w s h
  have hg := gate_plant s p h .amend
  have ⟨hr, hp, _⟩ := h
  have refused (part : Nat) (o : OutcomeCode)
      (hb : amendDosedBody part n a c w (s.received p t) = (s.received p t, refuse o [])) :
      exec (.amendDosed p t part n a c w) s = .next (repliedWith s p t o []) :=
    request_next_refused s p t _ none (amendDosedBody part n a c w) hr hp hg o [] hb
  refine ⟨fun part hb => refused part .range (if_pos (.inl hb)), fun hb => refused 3 .range (if_pos (.inr hb)),
    fun k r h1 h2 h3 hl => ?_⟩
  have body := amendDosedBody_clean (s.received p t) n a c w k r h1 h2 h3 hl
  exact ⟨fun hs => refused 3 .state (body.trans (if_neg hs)), fun hs =>
    request_amended s p t n k r (fun r => { r with dosed := some ⟨a, c, w⟩ }) _ h hl (body.trans (if_pos hs))⟩

end Sys2Proof.Machine
end

section
/-! The requests that name a lot, and the holds a lot is given and freed of: HOLD LOT and CLEAR HOLD (R4 to R7, R99,
R101). -/

namespace Sys2Proof.Machine

/-! ### The number of a lot -/

/-- A request whose body goes on with a lot by its number is refused the number that no live lot has (R4). -/
theorem request_findsLot (s : State) (p : PortName) (t n : Nat) (q : Request) (f : Option Nat)
    (body : State → State × Reply) (rest : State → Nat → LotRecord → State × Reply) (hr : s.phase = .running)
    (hp : (s.port p).request = .ready) (hg : s.gate p q f = none)
    (hb : body (s.received p t) = (s.received p t).onLot n rest) :
    (n = 0 ∨ Config.maxLot < n → Host.Outcome.next (φ := Fault) (ρ := Refusal) (s.takeRequest p t q f body) =
      .next (repliedWith s p t .range [])) ∧
    (1 ≤ n → n ≤ Config.maxLot → s.slotOf n = none →
      Host.Outcome.next (φ := Fault) (ρ := Refusal) (s.takeRequest p t q f body) =
        .next (repliedWith s p t .unknown [])) :=
  ⟨fun h => request_next_refused s p t q f body hr hp hg .range [] (hb.trans (onLot_range _ n rest h)),
    fun h1 h2 h => request_next_refused s p t q f body hr hp hg .unknown []
      (hb.trans (onLot_unknown (s.received p t) n rest h1 h2 h))⟩

/-- REBIND on a FREE channel looks at the lot's number alone (R53). -/
theorem rebindBody_free (p : PortName) (n c : Nat) (s : State) (hc : c ≤ 3) (hf : s.channel c = none) :
    ∃ rest, rebindBody p n c s = s.onLot n rest := by
  unfold rebindBody
  by_cases hn : n = 0 ∨ Config.maxLot < n
  · rw [if_pos (hn.imp_right .inl)]
    exact ⟨fun s _ _ => (s, refuse .range []), (onLot_range s n _ hn).symm⟩
  · rw [if_neg (fun h => hn (h.imp_right fun g => g.resolve_right (Nat.not_lt_of_le hc))), if_neg (not_not.mpr hf)]
    exact ⟨_, rfl⟩

/-- Settles O38: each request's body reaches the checks of R4 before it reads a lot. -/
theorem lotRequestsFindTheirLot : Obligations.LotRequestsFindTheirLot := by
  intro p t n s hr hp
  refine ⟨fun ro target bank number a c w reasons h1 h2 h3 h4 h5 h6 h7 h8 h9 => ?_, fun ro c hw hc hf => ?_,
    fun ro a l ha h1 h2 => ?_, fun ro c hw => ⟨fun hm => ⟨?_, ?_⟩, fun hm => ?_⟩⟩
  · have gate (q : Request) (hq : roleAllows .plant q = true) (hm : ∀ m, modeAllows m q = true) :=
      gate_plant s p ⟨hr, hp, ro⟩ q hq hm
    simp only [List.forall_mem_cons, List.not_mem_nil, IsEmpty.forall_iff, implies_true, and_true]
    refine ⟨?_, ?_, ?_, ?_, ?_, ?_⟩
    · exact request_findsLot s p t n _ none _ _ hr hp (gate .amend rfl fun _ => rfl) (if_neg (by omega))
    · exact request_findsLot s p t n _ none _ _ hr hp (gate .amend rfl fun _ => rfl) (if_neg (by omega))
    · exact request_findsLot s p t n _ none _ _ hr hp (gate .amend rfl fun _ => rfl) (if_neg (by omega))
    · exact request_findsLot s p t n _ none _ _ hr hp (gate .holdLot rfl fun _ => rfl) rfl
    · exact request_findsLot s p t n _ none _ _ hr hp (gate .clearHold rfl fun _ => rfl) (if_neg (by omega))
    · exact request_findsLot s p t n _ none _ _ hr hp (gate .withdraw rfl fun _ => rfl) rfl
  · obtain ⟨rest, hb⟩ := rebindBody_free p n c (s.received p t) hc hf
    exact request_findsLot s p t n _ (some c) _ rest hr hp (gate_ready_windowed s p .mixer c ⟨hr, hp, ro⟩ hw .rebind rfl rfl)
      hb
  · have gate (q : Request) (hq : roleAllows .lab q = true) (hm : modeAllows s.mode q = true) :=
      gate_ready s p .lab ⟨hr, hp, ro⟩ q hq hm
    simp only [List.forall_mem_cons, List.not_mem_nil, IsEmpty.forall_iff, implies_true, and_true]
    refine ⟨?_, ?_, ?_⟩
    · exact request_findsLot s p t n _ none _ _ hr hp (gate .returnLot rfl rfl) rfl
    · exact request_findsLot s p t n _ none _ _ hr hp (gate .verdict rfl rfl) (if_neg (by omega))
    · exact request_findsLot s p t n _ none _ _ hr hp (gate .verdict rfl rfl) (if_neg (by omega))
  · exact request_findsLot s p t n _ (some c) _ _ hr hp
      (gate_ready_windowed s p .yard c ⟨hr, hp, ro⟩ hw .place rfl (bne_iff_ne.mpr hm)) rfl
  · exact request_findsLot s p t n _ (some c) _ _ hr hp
      (gate_ready_windowed s p .yard c ⟨hr, hp, ro⟩ hw .extract rfl (bne_iff_ne.mpr hm)) rfl
  · exact request_findsLot s p t n _ (some c) _ _ hr hp
      (gate_ready_windowed s p .yard c ⟨hr, hp, ro⟩ hw .release rfl (beq_iff_eq.mpr hm)) rfl

/-! ### HOLD LOT -/

/-- HOLD LOT of a clean lot adds MANUAL and answers the hold set of the record it leaves (R6). -/
theorem holdLotBody_clean (s : State) (n k : Nat) (r q : LotRecord) (h : liveLot s n k r)
    (hq : (s.addHold k .manual).recordAt k = some q) :
    holdLotBody n s = (s.addHold k .manual, doneWith [.u24 n, .u8 q.holds.toNat]) := by
  unfold holdLotBody
  rw [onLot_clean s n k r _ h]
  unfold State.holdsAt
  dsimp only
  rw [hq]
  rfl

/-- A HOLD LOT that adds MANUAL: HOLD has been raised before the answer joins the port (R5, R166, R176). -/
theorem request_manualAdded (s u : State) (p : PortName) (t n k : Nat) (r q : LotRecord) (h : ready s p .plant)
    (hl : liveLot s n k r) (ha : (s.received p t).addHold k .manual = { u with ports := ((s.received p t).raise .hold).ports })
    (hq : u.recordAt k = some q) :
    exec (.holdLot p t n) s =
      .next { u with ports := replied (s.raise .hold) p t .done [.u24 n, .u8 q.holds.toNat] } := by
  refine request_next_raised s (s.raise .hold) p t _ none (holdLotBody n) h.1 h.2.1 (gate_plant s p h .holdLot)
    { u with ports := ((s.received p t).raise .hold).ports } _ (doneWith [.u24 n, .u8 q.holds.toNat]) ?_ ?_ rfl
  · have left : ((s.received p t).addHold k .manual).recordAt k = some q := ha ▸ hq
    rw [holdLotBody_clean (s.received p t) n k r q hl left, ha]
  · show ((s.received p t).raise .hold).ports = _
    rw [raise_received]

/-- Settles O13, by what R101 makes of a CURED lot that gains a hold. -/
theorem holdLotAddsManual : Obligations.HoldLotAddsManual := by
  intro p t n k r s h hl
  obtain ⟨l, hk, hc, rfl, hn⟩ := liveLot_lotAt s n k r hl
  have hk' : (s.received p t).lotAt k = some l := hk
  refine ⟨fun held => ?_, fun free => ⟨fun idle => ?_, fun cured queued => ?_, fun cured waiting => ?_⟩⟩
  · have same := addHold_of_held (s.received p t) k l .manual hk' held
    refine request_next_refused s p t _ none (holdLotBody n) h.1 h.2.1 (gate_plant s p h .holdLot) .done _ ?_
    have left : ((s.received p t).addHold k .manual).recordAt k = some l.record.held := by
      rw [same]
      exact recordAt_of_lotAt s k l hk
    rw [holdLotBody_clean (s.received p t) n k _ _ hl left, same]
    rfl
  · exact request_manualAdded s _ p t n k _ _ h hl (addHold_idle (s.received p t) k l .manual hk' hc free idle)
      (recordAt_recordNow s n k _ _ hl)
  · let parked : LotRecord := { l.record.held with
      holds := withHold l.record.held.holds .manual, queueStatus := some .parked }
    have added := addHold_queued (s.received p t) k l .manual hk' hc free cured queued
    rw [hn] at added
    refine request_manualAdded s _ p t n k _ parked h hl (added.trans ?_) ?_
    · exact giveRoom_withPorts { recordNow s k parked with queue := s.queue.filter (· != n) } _
    · exact recordAt_giveRoom _ k parked (recordAt_recordNow s n k _ parked hl) (.inr fun g => by cases g)
  · let parked : LotRecord := { l.record.held with
      holds := withHold l.record.held.holds .manual, queueStatus := some .parked }
    exact request_manualAdded s _ p t n k _ parked h hl
      (addHold_waiting (s.received p t) k l .manual hk' hc free cured waiting) (recordAt_recordNow s n k _ parked hl)

/-! ### CLEAR HOLD -/

/-- CLEAR HOLD of a clean lot answers the hold set of the record it leaves (R7). -/
theorem clearHoldBody_clean (s u : State) (n reasons k : Nat) (r q : LotRecord) (h1 : 1 ≤ reasons) (h2 : reasons ≤ 127)
    (hl : liveLot s n k r)
    (ha : (hasHold (BitVec.ofNat 7 reasons) .audit && hasHold r.holds .audit && !complete r) = false)
    (hu : (if r.state = .cured ∧ r.holds ≠ 0 ∧ withoutHolds r.holds (BitVec.ofNat 7 reasons) = 0 then
      (recordNow s k (clearedRecord (BitVec.ofNat 7 reasons) r)).admitLot k
      else recordNow s k (clearedRecord (BitVec.ofNat 7 reasons) r)) = u) (hq : u.recordAt k = some q) :
    clearHoldBody n reasons s = (u, doneWith [.u8 q.holds.toNat]) := by
  have answer : u.holdsAt k = .u8 q.holds.toNat := by
    unfold State.holdsAt
    rw [hq]
    rfl
  unfold clearHoldBody
  rw [if_neg (by omega), onLot_clean s n k r _ hl]
  dsimp only
  rw [ha, changeRecord_clean s n k r _ hl, hu, answer]
  rfl

/-- The frost run after a cleared hold set, as R7 gives it. -/
theorem clearedRecord_eq (list : HoldSet) (r : LotRecord) : clearedRecord list r = { r with
    holds := r.holds &&& ~~~list
    frostRun := if hasHold list .frost ∧ hasHold r.holds .frost ∧ r.state = .curing then some 0 else r.frostRun } := by
  unfold clearedRecord withoutHolds
  simp only [Bool.and_eq_true, decide_eq_true_eq, and_assoc]

/-- A CURED lot freed of its last hold has no hold left, and its frost run stands (R7). -/
theorem clearedRecord_cured (list : HoldSet) (r : LotRecord) (hs : r.state = .cured) (h0 : r.holds &&& ~~~list = 0) :
    clearedRecord list r = { r with holds := 0 } := by
  rw [clearedRecord_eq, h0, if_neg]
  exact fun h => LotState.noConfusion (hs.symm.trans h.2.2)

/-- Settles O14, by the completeness of the record and the admission a freed CURED lot is given. -/
theorem clearHoldRemovesListedReasons : Obligations.ClearHoldRemovesListedReasons := by
  intro p t n reasons s h
  have hg := gate_plant s p h .clearHold
  obtain ⟨hr, hp, -⟩ := h
  refine ⟨fun hb => request_next_refused s p t _ none (clearHoldBody n reasons) hr hp hg .range [] (if_pos hb),
    fun k r h1 h2 hl => ?_⟩
  obtain ⟨l, hk, hc, rfl, hn⟩ := liveLot_lotAt s n k r hl
  let list : HoldSet := BitVec.ofNat 7 reasons
  let cleared := clearedRecord list l.record.held
  have done (u : State) (q : LotRecord)
      (ha : ¬(hasHold list .audit = true ∧ hasHold l.record.held.holds .audit = true ∧ complete l.record.held = false))
      (hu : (if l.record.held.state = .cured ∧ l.record.held.holds ≠ 0 ∧ l.record.held.holds &&& ~~~list = 0 then
        (recordNow (s.received p t) k cleared).admitLot k else recordNow (s.received p t) k cleared) =
          { u with ports := (s.received p t).ports }) (hq : u.recordAt k = some q) :
      exec (.clearHold p t n reasons) s = .next { u with ports := replied s p t .done [.u8 q.holds.toNat] } := by
    refine request_next s p t _ none (clearHoldBody n reasons) hr hp hg _ _ _
      (clearHoldBody_clean (s.received p t) _ n reasons k _ q h1 h2 hl ?_ hu hq) rfl rfl
    rw [Bool.eq_false_iff]
    intro g
    rw [Bool.and_eq_true, Bool.and_eq_true, Bool.not_eq_true'] at g
    exact ha ⟨g.1.1, g.1.2, g.2⟩
  refine ⟨fun a1 a2 a3 => ?_, fun ha => ⟨fun stays => ?_, fun cured held last parked => ?_⟩⟩
  · refine request_next_refused s p t _ none (clearHoldBody n reasons) hr hp hg .incomplete [] ?_
    unfold clearHoldBody
    rw [if_neg (by omega), onLot_clean (s.received p t) n k _ _ hl]
    exact if_pos (by rw [a1, a2, a3]; rfl)
  · dsimp only
    rw [← clearedRecord_eq]
    exact done (recordNow s k cleared) cleared ha (if_neg stays) (recordAt_recordNow s n k _ cleared hl)
  · let freed : LotRecord := { l.record.held with holds := 0 }
    have ec : cleared = freed := clearedRecord_cured list _ cured last
    have hf : (recordNow (s.received p t) k freed).lotAt k = some { l with record := fresh freed } :=
      lotAt_recordNow (s.received p t) k l freed hk
    have notQueued : freed.queueStatus ≠ some .queued := fun g => by cases parked.symm.trans g
    have admits : (if l.record.held.state = .cured ∧ l.record.held.holds ≠ 0 ∧ l.record.held.holds &&& ~~~list = 0 then
        (recordNow (s.received p t) k cleared).admitLot k else recordNow (s.received p t) k cleared) =
          (recordNow (s.received p t) k freed).admitLot k :=
      ec ▸ if_pos ⟨cured, held, last⟩
    refine ⟨fun room => ?_, fun full => ?_⟩
    · let queued : LotRecord := { freed with queueStatus := some .queued }
      refine done { recordNow s k queued with queue := s.queue ++ [n] } queued ha (admits.trans ?_)
        (recordAt_recordNow s n k _ queued hl)
      have twice := recordNow_recordNow (s.received p t) n k _ freed queued hl
      rw [admit_open _ k _ hf rfl rfl notQueued room]
      show { recordNow (recordNow (s.received p t) k freed) k queued with queue := s.queue ++ [l.record.held.number] } = _
      rw [twice, hn]
      rfl
    · refine done _ { freed with queueStatus := some .waiting } ha (admits.trans ?_) (recordAt_recordNow s n k _ _ hl)
      rw [admit_full _ k _ hf rfl rfl notQueued (Nat.not_lt.mpr full)]
      exact recordNow_recordNow (s.received p t) n k _ _ _ hl

end Sys2Proof.Machine
end

section
/-! Reset, pot lives and the starts (R22, R26, R48, R49, R90, R182 to R185). -/

namespace Sys2Proof.Machine

/-! ### Reset -/

theorem getD_replicate_self {α : Type} (n i : Nat) (x : α) : (Vector.replicate n x).toList.getD i x = x := by
  rw [Vector.toList_replicate, List.getD_eq_getElem?_getD, List.getElem?_replicate]
  split <;> rfl

theorem slot_reset (k : Nat) : State.reset.slot k = Slot.blank :=
  getD_replicate_self _ _ _

theorem cell_reset (c : Nat) : State.reset.cell c = Cell.blank :=
  getD_replicate_self _ _ _

theorem channel_reset (c : Nat) : State.reset.channel c = none :=
  getD_replicate_self _ _ _

theorem recipe_reset (r : RecipeRef) : State.reset.recipe r = StoredRecipe.blank :=
  getD_replicate_self _ _ _

/-- Settles O54, store by store. -/
theorem resetIsAnEmptyRegister : Obligations.ResetIsAnEmptyRegister := by
  have empty : State.reset.occupied = [] := occupied_none _ fun k => congrArg Slot.contents (slot_reset k)
  refine ⟨⟨empty, rfl⟩, rfl, rfl, rfl, rfl, rfl, rfl, rfl, rfl, rfl, rfl, slot_reset, cell_reset, channel_reset,
    recipe_reset, fun p => ?_, rfl, rfl, rfl, rfl, rfl⟩
  cases p <;> exact ⟨rfl, rfl, rfl, rfl, rfl⟩

/-- Settles O55: every rule holds of an empty register with the default setup. -/
theorem standingRulesHoldAtReset : Obligations.StandingRulesHoldAtReset := by
  have default : setupSound SetupRecord.default := by
    refine ⟨?_, ?_, ?_⟩ <;> simp [roleSound, SetupRecord.default, Config.defaultSetup]
  have bank : bankSound ⟨0, none⟩ := ⟨Nat.zero_le 1, fun _ h => by cases h⟩
  have ports : portsSound State.reset := by
    refine ⟨rfl, fun p => ?_, default, fun _ h => (by cases h), fun _ h => (by cases h)⟩
    cases p
    · exact ⟨trivial, rfl⟩
    · exact ⟨default.1, rfl⟩
    · exact ⟨default.2.1, rfl⟩
    · exact ⟨default.2.2, rfl⟩
  have health : healthSound State.reset := by
    intro x hx
    have hx : x ∈ (Vector.replicate Config.slotCount Slot.blank).toList := hx
    rw [Vector.toList_replicate] at hx
    rw [List.eq_of_mem_replicate hx]
    exact ⟨Nat.zero_le _, fun h => absurd h (by decide)⟩
  have lots : collectionsSound State.reset ∧ ashAgrees State.reset :=
    empty_sound State.reset (fun k => congrArg Slot.contents (slot_reset k)) cell_reset channel_reset rfl rfl rfl rfl
  exact ⟨rfl, ports, ⟨bank, bank, fun _ h => by cases h⟩, health, ⟨Nat.zero_le _, Nat.le_refl 1, by decide⟩,
    List.Pairwise.nil, lots.1, lots.2⟩

/-! ### Pot lives -/

/-- The judgement of the pot-life list changes the slots, the queue, the list and the pending sets alone (R49). -/
theorem judgePotLife_eq (s : State) : s.judgePotLife = { s with
    slots := s.judgePotLife.slots, queue := s.judgePotLife.queue, ports := s.judgePotLife.ports
    potLife := s.judgePotLife.potLife } := by
  obtain ⟨a, b, c, h⟩ := judgePotLife_frame s
  rw [h]

/-- A single due entry of a MIXING lot gives the lot POTLIFE, and leaves the list (R49). -/
theorem judgePotLife_single (s : State) (n k d : Nat) (r : LotRecord) (hp : s.potLife = [⟨n, d⟩]) (hd : d ≤ s.clock)
    (hl : liveLot s n k r) (hm : r.state = .mixing) (hh : hasHold r.holds .potLife = false) :
    s.judgePotLife = { recordNow s k { r with holds := withHold r.holds .potLife } with
      potLife := [], ports := ((s.raise .hold).raise .potLife).ports } := by
  obtain ⟨-, -, hk, l, hlot, ⟨hc, -, -⟩, rfl⟩ := hl
  let t : State := { s with potLife := [] }
  have entry : s.judgePotLife = t.expireOne ⟨n, d⟩ := by
    unfold State.judgePotLife
    rw [hp]
    simp only [List.takeWhile_cons, List.dropWhile_cons, hd, decide_true, if_true, List.takeWhile_nil,
      List.dropWhile_nil, List.foldl_cons, List.foldl_nil]
    rfl
  have ht : t.lotAt k = some l := hlot
  have slot : t.slotOf n = some k := hk
  rw [entry]
  unfold State.expireOne State.addHoldTo
  rw [slot]
  dsimp only
  rw [addHold_at t k l .potLife ht hc hh (fun h => by cases hm.symm.trans h)]
  rfl

/-- Settles O25: the judgement of the list, and of the list with one due entry. -/
theorem potLifeExpires : Obligations.PotLifeExpires := by
  intro s hr
  have judged : exec .potLifeExpiry s = .next s.judgePotLife := congrArg Host.Outcome.next (if_pos hr)
  exact ⟨fun hp => ⟨_, judged, potLifeJudged_judgePotLife s hp, judgePotLife_eq s, portsKept_judgePotLife s⟩,
    fun n k d r hp hd hl hm hh => judged.trans (congrArg _ (judgePotLife_single s n k d r hp hd hl hm hh))⟩

/-! ### The starts -/

/-- A cold start that is no longer due is still the cold start. -/
theorem storesLoaded_coldDue (s u : State) (cold d : Bool) (h : storesLoaded s u cold) :
    storesLoaded s { u with coldDue := d } cold := h

/-- Settles O51: a due cold start is the one that `coldBegin` makes. -/
theorem coldStartEmptiesTheRegister : Obligations.ColdStartEmptiesTheRegister := by
  intro s
  refine ⟨fun hd => congrArg Host.Outcome.next (if_neg (by rw [hd]; decide)), fun hp => ?_, fun hd hp => ?_⟩
  · show Host.Outcome.next (if s.coldDue then _ else s) = _
    split
    case isTrue hd =>
      rw [hp]
    case isFalse hd =>
      rw [← Bool.eq_false_iff.mpr hd]
  · have begun : exec .coldStart s = .next { s.coldBegin with coldDue := false } := by
      show Host.Outcome.next (if s.coldDue then _ else s) = _
      rw [if_pos hd]
      cases h : s.phase with
      | running => rfl
      | starting c => rfl
      | off => exact absurd h hp
    obtain ⟨empty, slots, cells, channels, masks, -, frame⟩ := coldBegin_facts s
    have stores := storesLoaded_coldBegin s
    have notices := notices_coldBegin s
    generalize s.coldBegin = u at *
    refine ⟨_, begun, empty, stores, slots, cells, channels, fun p => ⟨(masks p).1, (masks p).2, notices p⟩, ?_⟩
    exact congrArg (fun u : State => { u with coldDue := false }) frame

/-- A start at its completion, before what it overtook is judged (R183, R185). -/
def runningState (s : State) (cause : StartCause) : State := { s with
  phase := .running, signature := s.signature || decide (cause = .cold)
  ports := s.ports.map fun _ x => { x with idleTimer := some 30 } }

theorem port_runningState (s : State) (cause : StartCause) (p : PortName) :
    (runningState s cause).port p = { s.port p with idleTimer := some 30 } := by
  cases p <;> rfl

/-- With no cell reached, the outage rule changes nothing (R90). -/
theorem outageRule_none (s : State) (h : ∀ c, c ≤ 95 → ¬ outageReaches s c) : s.outageRule = s := by
  have none : (List.range Config.cellCount).filter s.outageReaches = [] := by
    rw [List.filter_eq_nil_iff]
    intro c hc hr
    exact h c (Nat.le_of_lt_succ (List.mem_range.mp hc)) (of_decide_eq_true hr)
  unfold State.outageRule
  rw [none]
  rfl

/-- A released start completes (R182, R183). -/
theorem exec_startComplete (s : State) (cause : StartCause) (hp : s.phase = .starting cause) (hr : s.resetLine = false) :
    exec .startComplete s = .next
      (if cause = .resetLine then (runningState s cause).outageRule else runningState s cause).judgePotLife := by
  show execStartComplete s = _
  unfold execStartComplete
  rw [hp]
  exact congrArg Host.Outcome.next (if_neg (by rw [hr]; decide))

/-- The outage rule over a state whose ports differ in their idle timers alone (R90). -/
theorem outageApplied_runningState (s u : State) (cause : StartCause) (h : outageApplied (runningState s cause) u) :
    outageApplied s u := by
  obtain ⟨notices, rest⟩ := h
  refine ⟨fun p => ?_, rest⟩
  have := notices p
  rw [port_runningState] at this
  exact this

/-- Settles O52, by the reset line, what is due and the cause of the start. -/
theorem startCompletesTheWork : Obligations.StartCompletesTheWork := by
  intro s cause hp
  refine ⟨fun hl => ?_, fun hl due reach => ?_, fun hl due hc => ?_, fun hl ordered => ?_⟩
  · show execStartComplete s = _
    unfold execStartComplete
    rw [hp, hl]
    rfl
  · have ruled : (if cause = .resetLine then (runningState s cause).outageRule else runningState s cause) =
        runningState s cause := by
      split
      case isTrue hc => exact outageRule_none _ fun c h => Nat.not_lt.mpr (reach hc c h)
      · rfl
    rw [exec_startComplete s cause hp hl, ruled, judgePotLife_none (runningState s cause) due]
    rfl
  · have done := exec_startComplete s cause hp hl
    rw [if_pos hc] at done
    obtain ⟨applied, slots, cells, ports, frame⟩ := outageApplied_outageRule (runningState s cause)
    have quiet : nothingDue (runningState s cause).outageRule := by
      rw [frame]
      exact due
    rw [judgePotLife_none _ quiet] at done
    refine ⟨_, done, outageApplied_runningState s _ cause applied, fun p => ?_, ?_⟩
    · have kept := portsKept_outageRule (runningState s cause) p
      rw [port_runningState] at kept
      exact kept
    · have signature : (runningState s cause).signature = s.signature := by
        show (s.signature || decide (cause = .cold)) = _
        rw [hc]
        exact Bool.or_false _
      rw [frame]
      show { runningState s cause with slots := slots, cells := cells, ports := ports } = _
      unfold runningState at signature ⊢
      dsimp only at signature
      rw [signature]
  · have done := exec_startComplete s cause hp hl
    let ruled := if cause = .resetLine then (runningState s cause).outageRule else runningState s cause
    have frame : portsKept (runningState s cause) ruled ∧
        ∃ a b c, ruled = { runningState s cause with slots := a, cells := b, ports := c } := by
      show portsKept _ (if cause = .resetLine then _ else _) ∧ ∃ a b c, (if cause = .resetLine then _ else _) = _
      split
      · exact ⟨portsKept_outageRule _, (outageApplied_outageRule _).2⟩
      · exact ⟨portsKept_refl _, _, _, _, rfl⟩
    obtain ⟨kept, a, b, c, hruled⟩ := frame
    have hpot : ruled.potLife = s.potLife := by rw [hruled]; rfl
    have hclock : ruled.clock = s.clock := by rw [hruled]; rfl
    have hphase : ruled.phase = .running := by rw [hruled]; rfl
    have judged := potLifeJudged_judgePotLife ruled (hpot.symm ▸ ordered)
    have keptAll := portsKept_judgePotLife ruled
    refine ⟨ruled.judgePotLife, done, ?_, ?_, fun p => ?_, judged, keptAll, judgePotLife_eq ruled⟩
    · rw [judgePotLife_eq]
      exact hphase
    · rw [← hpot, ← hclock]
      exact judged.1
    · have timer := congrArg Port.idleTimer (portsKept_trans _ _ _ kept keptAll p)
      rw [port_runningState] at timer
      exact timer

end Sys2Proof.Machine
end

section
/-! The main supply's loss and return (R51, R90, R148, R161, R183, R184). -/

namespace Sys2Proof.Machine

/-- A commit cut off leaves its recipe with a failing check, and nothing else changed (R143). -/
theorem cutCommit_eq (s : State) : s.cutCommit = { s with recipes := s.cutCommit.recipes, commit := none } ∧
    (s.commit = none → s.cutCommit.recipes = s.recipes) := by
  unfold State.cutCommit
  cases h : s.commit with
  | none =>
    dsimp only
    rw [← h]
    exact ⟨rfl, fun _ => rfl⟩
  | some c => exact ⟨rfl, fun g => by cases g⟩

/-- What work cut off leaves (R184). -/
theorem cutOff_eq (s : State) : s.cutOff = { s with
    recipes := s.cutOff.recipes, commit := none, ports := s.ports.map fun _ x => quietPort x, scan := none
    setup := cutSetup s.setup, bank := if s.bankWrites = [] then s.bank else s.bankStored, bankWrites := [] } := by
  unfold State.cutOff
  rw [(cutCommit_eq s).1]

/-- The retention check, as R184 states it (R22, R184). -/
theorem retained_iff (s : State) : retained s = true ↔ s.signature = true ∧ s.account.checksGood = true ∧
    s.account.intake + s.account.unbooked = s.account.balance + s.account.reserved + s.account.live +
      s.account.released + s.account.discard + s.account.lost := by
  unfold retained
  rw [Bool.and_eq_true, Bool.and_eq_true, balanced_iff, and_assoc]

/-- The state at a warm power-up, before the outage rule (R184). -/
def poweredUp (s : State) : State := { s.warmStart with phase := .starting .powerUp }

/-- The supply's return over undisturbed memory, by the retention check (R184). -/
theorem exec_mainSupplyReturn (s : State) (hp : s.phase = .off) : exec (.mainSupplyReturn []) s =
    .next (if retained s then (poweredUp s).outageRule else s.coldBegin) := by
  show execMainSupplyReturn [] s = _
  unfold execMainSupplyReturn
  rw [hp]
  rfl

/-- What a warm power-up changes (R184). -/
theorem poweredUp_eq (s : State) : poweredUp s = { s with
    slots := s.warmStart.slots, channels := s.warmStart.channels, ports := s.warmStart.ports
    recipes := s.warmStart.recipes, bank := s.warmStart.bank, bankStored := s.warmStart.bankStored
    bankCheckGood := true, bankWrites := [], commit := none, scan := none, cyclePosition := 0
    setup := cutSetup s.setup, mode := .pause, phase := .starting .powerUp } := by
  obtain ⟨-, -, -, frame⟩ := warmStart_facts s
  unfold poweredUp
  generalize s.warmStart = w at frame ⊢
  exact congrArg (fun u : State => { u with phase := .starting .powerUp }) frame

/-- A warm power-up leaves the cells and the clock (R184). -/
theorem cell_poweredUp (s : State) (c : Nat) : (poweredUp s).cell c = s.cell c ∧ (poweredUp s).clock = s.clock := by
  rw [poweredUp_eq]
  exact ⟨rfl, rfl⟩

theorem outageReaches_poweredUp (s : State) (c : Nat) : outageReaches (poweredUp s) c ↔ outageReaches s c := by
  obtain ⟨hc, hk⟩ := cell_poweredUp s c
  unfold outageReaches
  rw [hc, hk]

/-- The lots, the channels and the slots after a warm power-up are those of the warm start (R51, R161, R184). -/
theorem startedSlots_poweredUp (s : State) : startedSlots s (poweredUp s) := by
  have started := startedSlots_warmStart s
  unfold poweredUp
  generalize s.warmStart = w at started ⊢
  exact started

theorem storesLoaded_poweredUp (s : State) : storesLoaded s (poweredUp s) false := by
  have loaded := storesLoaded_warmStart s
  unfold poweredUp
  generalize s.warmStart = w at loaded ⊢
  exact loaded

theorem liveLot_poweredUp (s : State) (n k : Nat) (r : LotRecord) (h : liveLot s n k r) (hc : r.channel = none)
    (hh : healthChecks s) : liveLot (poweredUp s) n k r := by
  have live := liveLot_warmStart s n k r h hc hh
  unfold poweredUp
  generalize s.warmStart = w at live ⊢
  exact live

/-- The pending sets after a warm power-up and the outage rule (R90, R183, R184). -/
theorem notices_outageRule_poweredUp (s : State) (p : PortName) :
    ((poweredUp s).outageRule.port p).notices = outageNotices s.warmStart ((poweredUp s).outageRule.port p).mask.kinds
      (startNotices s ((poweredUp s).outageRule.port p).mask.kinds) := by
  have mask : ((poweredUp s).outageRule.port p).mask = ((poweredUp s).port p).mask := by
    have kept := congrArg Port.mask (portsKept_outageRule (poweredUp s) p)
    exact kept
  rw [outageNotices_outageRule, mask]
  have started := notices_warmStart s p
  unfold poweredUp
  generalize s.warmStart = w at started ⊢
  exact congrArg (outageNotices w (w.port p).mask.kinds) started

/-- The outage rule at a warm power-up leaves the stores as the start loaded them (R134, R143, R171). -/
theorem storesLoaded_outageRule_poweredUp (s : State) : storesLoaded s (poweredUp s).outageRule false := by
  obtain ⟨-, a, b, c, frame⟩ := outageApplied_outageRule (poweredUp s)
  refine storesLoaded_congr s (poweredUp s) _ false (storesLoaded_poweredUp s) ?_ ?_ ?_ ?_ ?_ ?_ ?_
    (portsKept_outageRule _) <;> rw [frame]

/-- All that a warm power-up with the outage rule changes (R184). -/
theorem outageRule_poweredUp_eq (s : State) : (poweredUp s).outageRule = { s with
    slots := (poweredUp s).outageRule.slots, channels := (poweredUp s).outageRule.channels
    cells := (poweredUp s).outageRule.cells, ports := (poweredUp s).outageRule.ports
    recipes := (poweredUp s).outageRule.recipes, bank := (poweredUp s).outageRule.bank
    bankStored := (poweredUp s).outageRule.bankStored, bankCheckGood := true, bankWrites := [], commit := none
    scan := none, cyclePosition := 0, setup := (poweredUp s).outageRule.setup, mode := .pause
    phase := .starting .powerUp } := by
  obtain ⟨-, a, b, c, frame⟩ := outageApplied_outageRule (poweredUp s)
  rw [frame]
  have started := poweredUp_eq s
  generalize poweredUp s = w at started ⊢
  rw [started]

/-- Every channel is FREE after a warm power-up (R51, R184). -/
theorem channel_outageRule_poweredUp (s : State) (c : Nat) : (poweredUp s).outageRule.channel c = none := by
  have free : (poweredUp s).channel c = none := by
    have freed := (warmStart_facts s).2.1 c
    unfold poweredUp
    generalize s.warmStart = w at freed ⊢
    exact freed
  obtain ⟨-, x, y, z, frame⟩ := outageApplied_outageRule (poweredUp s)
  rw [frame]
  exact free

/-- With no cell reached, a warm power-up leaves the slots as the warm start does (R51, R90, R161). -/
theorem startedSlots_outageRule_poweredUp (s : State) (h : ∀ c, c ≤ 95 → ¬ outageReaches s c) :
    startedSlots s (poweredUp s).outageRule := by
  rw [outageRule_none (poweredUp s) fun c hc => mt (outageReaches_poweredUp s c).mp (h c hc)]
  exact startedSlots_poweredUp s

/-- The cells after a warm power-up are those the outage rule makes of the cells before it (R90). -/
theorem cell_outageRule_poweredUp (s : State) (c : Nat) (hc : c ≤ 95) : (poweredUp s).outageRule.cell c =
    if outageReaches s c then { s.cell c with faulty := true, misses := 5 } else s.cell c := by
  have ruled := (outageRule_facts (poweredUp s)).1 c hc
  rw [(cell_poweredUp s c).1, (cell_poweredUp s c).2] at ruled
  exact ruled

/-- A clean CURING lot of a cell that the outage rule reaches gains SENSOR at a warm power-up (R90). -/
theorem recordAt_outageRule_poweredUp (s : State) (hh : healthChecks s) (c n k : Nat) (r : LotRecord) (hc : c ≤ 95)
    (reach : outageReaches s c) (hn : n ∈ (s.cell c).lane) (hl : liveLot s n k r) (hs : r.state = .curing)
    (hch : r.channel = none) :
    (poweredUp s).outageRule.recordAt k = some { r with holds := withHold r.holds .sensor } := by
  obtain ⟨⟨-, -, -, sensors⟩, -⟩ := outageApplied_outageRule (poweredUp s)
  exact sensors c n k r hc ((outageReaches_poweredUp s c).mpr reach) ((cell_poweredUp s c).1.symm ▸ hn)
    (liveLot_poweredUp s n k r hl hch hh) hs

/-- Settles O53: the loss cuts off, and the retention check decides what the return begins. -/
theorem supplyReturnIsWarmOrCold : Obligations.SupplyReturnIsWarmOrCold := by
  refine ⟨fun s hp => ?_, fun s hp u => ?_, fun s hp u => ?_, fun s hp => ⟨fun good => ?_, fun bad => ?_⟩⟩
  · have lost : exec (.mainSupplyLoss) s =
        .next { s.cutOff with phase := .off, warmDue := false, coldDue := false } := by
      show execMainSupplyLoss s = _
      unfold execMainSupplyLoss
      cases h : s.phase with
      | off => exact absurd h hp
      | running => rfl
      | starting c => rfl
    refine ⟨_, lost, fun p => ?_, fun hc => (cutCommit_eq s).2 hc, fun c hc h1 h2 => ?_, ?_⟩
    · cases p <;> exact ⟨rfl, rfl, rfl, rfl⟩
    · exact (cutOff_recipes s c.recipe ⟨h1, h2⟩).1 c hc rfl
    · have frame := cutOff_eq s
      generalize s.cutOff = u at frame ⊢
      rw [frame]
      rfl
  · show execMainSupplyReturn u s = _
    unfold execMainSupplyReturn
    cases h : s.phase with
    | off => exact absurd h hp
    | running => rfl
    | starting c => rfl
  · show execMainSupplyReturn u s = execMainSupplyReturn [] (s.disturbAll u)
    unfold execMainSupplyReturn
    rw [disturbAll_phase, hp]
    rfl
  · have returned := exec_mainSupplyReturn s hp
    rw [if_pos ((retained_iff s).mpr good)] at returned
    obtain ⟨reached, gains⟩ := outage_warmStart s
    exact ⟨_, returned, storesLoaded_outageRule_poweredUp s, channel_outageRule_poweredUp s,
      cell_outageRule_poweredUp s, startedSlots_outageRule_poweredUp s, recordAt_outageRule_poweredUp s,
      notices_outageRule_poweredUp s, reached, gains, outageRule_poweredUp_eq s⟩
  · have returned := exec_mainSupplyReturn s hp
    rw [if_neg (mt (retained_iff s).mp bad)] at returned
    obtain ⟨empty, -, -, -, -, -, frame⟩ := coldBegin_facts s
    have stores := storesLoaded_coldBegin s
    have notices := notices_coldBegin s
    generalize s.coldBegin = u at *
    refine ⟨u, returned, stores, ?_, ?_, empty, ?_, ?_, ?_, notices⟩ <;> rw [frame]
    rfl

end Sys2Proof.Machine
end

section
/-! The slots: what becomes of a freed one, SLOT HEALTH and REINSTATE SLOT (R9, R156, R158 to R160). -/

namespace Sys2Proof.Machine

/-! ### Freed slots -/

theorem awaits_blank : awaits Slot.blank = false := rfl

/-- No record waits (R9). -/
theorem lowestWaiting_none (s : State) (h : ∀ j, awaits (s.slot j) = false) : s.lowestWaiting = none :=
  (findIdx_first awaits Slot.blank s.slots.toList awaits_blank).1.mpr h

/-- The lowest-numbered slot whose record waits (R9). -/
theorem lowestWaiting_some (s : State) (w : Nat) (hw : awaits (s.slot w) = true)
    (h : ∀ j, j < w → awaits (s.slot j) = false) : s.lowestWaiting = some w :=
  ((findIdx_first awaits Slot.blank s.slots.toList awaits_blank).2 w).mpr ⟨hw, h⟩

theorem awaits_lot (s : State) (w : Nat) (l : Lot) (hl : s.lotAt w = some l) (hw : (s.slot w).waiting = true) :
    awaits (s.slot w) = true := by
  have contents : (s.slot w).contents = some l := hl
  unfold awaits
  rw [contents, hw]
  rfl

/-- A worn slot, and one that no record waits for, stays free (R9). -/
theorem offerSlot_stays (s : State) (k : Nat) (h : (s.slot k).worn = true ∨ ∀ j, awaits (s.slot j) = false) :
    s.offerSlot k = s := by
  unfold State.offerSlot
  rcases h with h | h
  · exact if_pos h
  · rw [lowestWaiting_none s h]
    exact ite_self s

/-- A healthy slot takes the record that waits in the lowest-numbered slot (R9, R158). -/
theorem offerSlot_moves (s : State) (k w : Nat) (l : Lot) (hk : (s.slot k).worn = false) (hne : w ≠ k)
    (hl : s.lotAt w = some l) (hw : (s.slot w).waiting = true) (h : ∀ j, j < w → awaits (s.slot j) = false) :
    s.offerSlot k = (s.setSlot k { s.slot k with contents := some (relocated l) }).setSlot w
      { s.slot w with contents := none, waiting := false } := by
  unfold State.offerSlot
  rw [hk, lowestWaiting_some s w (awaits_lot s w l hl hw) h]
  simp only [Bool.false_eq_true, if_false]
  unfold State.moveLot
  rw [hl]
  show ((s.setSlot k _).setSlot w { (s.setSlot k _).slot w with contents := none, waiting := false }) = _
  rw [slot_setSlot_ne s k w _ hne]

/-- What a freed slot becomes (R9). -/
theorem freeSlot_disposes (s : State) (k : Nat) (hk : k ≤ 511) :
    let emptied := s.setSlot k { s.slot k with contents := none, waiting := false }
    ((s.slot k).worn = true ∨ (∀ j, j ≠ k → awaits (s.slot j) = false) → s.freeSlot k = emptied) ∧
    ∀ w l, (s.slot k).worn = false → w ≠ k → s.lotAt w = some l → (s.slot w).waiting = true →
      (∀ j, j < w → j ≠ k → awaits (s.slot j) = false) →
      s.freeSlot k = (emptied.setSlot k { emptied.slot k with contents := some (relocated l) }).setSlot w
        { s.slot w with contents := none, waiting := false } := by
  intro emptied
  have here : emptied.slot k = { s.slot k with contents := none, waiting := false } :=
    slot_setSlot_same s k _ (Nat.lt_succ_of_le hk)
  have elsewhere (j : Nat) (hj : j ≠ k) : emptied.slot j = s.slot j := slot_setSlot_ne s k j _ hj
  have free : awaits (emptied.slot k) = false := by
    rw [here]
    rfl
  refine ⟨fun h => ?_, fun w l healthy hne hl hw first => ?_⟩
  · refine offerSlot_stays emptied k (h.imp (fun worn => ?_) fun none j => ?_)
    · rw [here]
      exact worn
    · by_cases hj : j = k
      · rw [hj]
        exact free
      · rw [elsewhere j hj]
        exact none j hj
  · rw [← elsewhere w hne]
    refine offerSlot_moves emptied k w l ?_ hne ?_ ?_ fun j hj => ?_
    · rw [here]
      exact healthy
    · unfold State.lotAt
      rw [elsewhere w hne]
      exact hl
    · rw [elsewhere w hne]
      exact hw
    · by_cases hjk : j = k
      · rw [hjk]
        exact free
      · rw [elsewhere j hjk]
        exact first j hj hjk

/-! ### REINSTATE SLOT -/

/-- A slot that is reinstated: healthy, with tally 0 (R159). -/
def reinstated (x : Slot) : Slot := { x with tally := 0, worn := false, reported := false }

/-- A reinstated slot that no record waits for stays free (R159). -/
theorem reinstateInto_stays (s : State) (k : Nat) (hk : k ≤ 511) (hf : (s.slot k).contents = none)
    (h : ∀ j, awaits (s.slot j) = false) : s.reinstateInto k = s.setSlot k (reinstated (s.slot k)) := by
  refine offerSlot_stays _ k (.inr fun j => ?_)
  by_cases hj : j = k
  · rw [hj, slot_setSlot_same s k _ (Nat.lt_succ_of_le hk)]
    unfold awaits
    dsimp only
    rw [hf]
    rfl
  · rw [slot_setSlot_ne s k j _ hj]
    exact h j

/-- A reinstated slot takes the record that waits in the lowest-numbered slot (R159). -/
theorem reinstateInto_moves (s : State) (k w : Nat) (l : Lot) (hk : k ≤ 511) (hf : (s.slot k).contents = none)
    (hl : s.lotAt w = some l) (hw : (s.slot w).waiting = true) (h : ∀ j, j < w → awaits (s.slot j) = false) :
    s.reinstateInto k = { s with
      slots := (s.slots.setIfInBounds k { reinstated (s.slot k) with contents := some (relocated l) }).setIfInBounds w
        { s.slot w with contents := none, waiting := false } } := by
  have hne : w ≠ k := by
    rintro rfl
    cases hl.symm.trans hf
  have elsewhere (j : Nat) (hj : j ≠ k) : (s.setSlot k (reinstated (s.slot k))).slot j = s.slot j :=
    slot_setSlot_ne s k j _ hj
  have here : (s.setSlot k (reinstated (s.slot k))).slot k = reinstated (s.slot k) :=
    slot_setSlot_same s k _ (Nat.lt_succ_of_le hk)
  have healthy : ((s.setSlot k (reinstated (s.slot k))).slot k).worn = false := by
    rw [here]
    rfl
  have moved := offerSlot_moves (s.setSlot k (reinstated (s.slot k))) k w l healthy hne
    (by unfold State.lotAt; rw [elsewhere w hne]; exact hl) (by rw [elsewhere w hne]; exact hw) fun j hj => by
      by_cases hjk : j = k
      · rw [hjk, here]
        unfold awaits reinstated
        dsimp only
        rw [hf]
        rfl
      · rw [elsewhere j hjk]
        exact h j hj
  refine moved.trans ?_
  rw [here, elsewhere w hne]
  show { s with slots := ((s.slots.setIfInBounds k _).setIfInBounds k _).setIfInBounds w _ } = _
  rw [setIfInBounds_twice]

/-- REINSTATE SLOT of a free worn slot in SERVICE (R159). -/
theorem reinstateBody_taken (s : State) (k : Nat) (hk : k ≤ 511) (hm : s.mode = .service)
    (hf : (s.slot k).contents = none) (hw : (s.slot k).worn = true) : reinstateBody k s =
      (s.reinstateInto k, doneWith (.u16 k :: (optField .u16 s.lowestWaiting ++
        [.u16 ((s.reinstateInto k).slots.toList.filter freeHealthy).length]))) := by
  unfold reinstateBody
  rw [if_neg (Nat.not_lt.mpr hk), if_neg (not_not.mpr hm), if_neg]
  rintro (h | h)
  · exact h hf
  · cases hw.symm.trans h

/-- Settles O45: the answered table, the reinstated slot and the freed slot. -/
theorem slotsAreReportedAndReused : Obligations.SlotsAreReportedAndReused := by
  refine ⟨fun p t s h => ?_, freeSlot_disposes⟩
  have gate (q : Request) (hq : roleAllows .plant q = true) (hm : ∀ m, modeAllows m q = true) :=
    gate_plant s p h q hq hm
  obtain ⟨hr, hp, -⟩ := h
  have refused (k : Nat) (o : OutcomeCode) (b : List Machine.Field)
      (hb : reinstateBody k (s.received p t) = (s.received p t, refuse o b)) :
      exec (.reinstateSlot p t k) s = .next (repliedWith s p t o b) :=
    request_next_refused s p t _ none (reinstateBody k) hr hp (gate .reinstateSlot rfl fun _ => rfl) o b hb
  refine ⟨?_, fun k => ⟨fun hk => refused k .range [] (if_pos hk), fun hk hm => refused k .mode _ ?_, fun hk hm =>
    ⟨fun ho => refused k .state [] ?_, fun hf hw => ⟨fun idle => ?_, fun w l hl waits first => ?_⟩⟩⟩⟩
  · refine request_next s p t _ none slotHealthBody hr hp (gate .slotHealth rfl fun _ => rfl) _ _ _ rfl rfl ?_
    show ({ s with slots := _, ports := s.ports.set p (answeredPort (s.port p) t .done s.healthTable none) } : State) = _
    unfold replied State.healthTable listField
    simp only [List.append_assoc]
    rfl
  · unfold reinstateBody
    rw [if_neg (Nat.not_lt.mpr hk)]
    exact if_pos hm
  · unfold reinstateBody
    rw [if_neg (Nat.not_lt.mpr hk), if_neg (not_not.mpr (show (s.received p t).mode = .service from hm))]
    exact if_pos ho
  · refine request_next s p t _ none (reinstateBody k) hr hp (gate .reinstateSlot rfl fun _ => rfl) _ _ _
      (reinstateBody_taken (s.received p t) k hk hm hf hw) ?_ ?_
    · rw [reinstateInto_stays (s.received p t) k hk hf idle]
      rfl
    · rw [reinstateInto_stays (s.received p t) k hk hf idle, lowestWaiting_none (s.received p t) idle]
      rfl
  · refine request_next s p t _ none (reinstateBody k) hr hp (gate .reinstateSlot rfl fun _ => rfl) _ _ _
      (reinstateBody_taken (s.received p t) k hk hm hf hw) ?_ ?_
    · rw [reinstateInto_moves (s.received p t) k w l hk hf hl waits first]
    · rw [reinstateInto_moves (s.received p t) k w l hk hf hl waits first,
        lowestWaiting_some (s.received p t) w (awaits_lot _ w l hl waits) first]
      rfl

end Sys2Proof.Machine
end

section
/-! SCAN over clean lots of different numbers (R15). -/

namespace Sys2Proof.Machine

/-- An entry that SCAN's filter and starting number take (R15). -/
def scanTakes (filter start : Nat) (e : IndexEntry) : Bool := decide (start ≤ e.number) && filterHolds filter e.state

/-- The records of the lots whose entries SCAN takes, in ascending number (R15). -/
def State.scannedLots (s : State) (filter start : Nat) : List LotRecord :=
  sortBy (fun x y => decide (x.number < y.number))
    ((s.occupied.filter fun x => scanTakes filter start x.2.entry.held).map fun x => x.2.record.held)

/-- An occupied slot of a clean register holds a clean lot. -/
theorem occupied_clean (s : State) (hc : allClean s) (x : Nat × Lot) (h : x ∈ s.occupied) : cleanLot x.2 :=
  hc x.1 x.2 ((mem_occupied s x.1 x.2).mp h)

/-- Over clean lots the index in its order is the records in their order (R15, R146). -/
theorem indexFrom_clean (s : State) (hc : allClean s) (filter start : Nat) :
    s.indexFrom filter start = (s.scannedLots filter start).map fun r => ⟨r.number, some r.number⟩ := by
  unfold State.indexFrom State.scannedLots
  rw [← sortBy_map (fun r : LotRecord => (⟨r.number, some r.number⟩ : ScanEntry))
    (fun x y => decide (x.number < y.number)) (fun x y => decide (x.held < y.held)) (fun _ _ => rfl), List.map_map]
  refine congrArg _ (List.map_congr_left fun x hx => ?_)
  obtain ⟨code, -, entry⟩ := occupied_clean s hc x (List.mem_of_mem_filter hx)
  rw [entry, lotNumber_agrees x.2 code]
  rfl

/-- The lots that SCAN takes, by their records (R15). -/
theorem mem_scannedLots (s : State) (hc : allClean s) (filter start : Nat) (r : LotRecord) :
    r ∈ s.scannedLots filter start ↔ (∃ k, s.recordAt k = some r) ∧ start ≤ r.number ∧
      filter.testBit (stateCode r.state - 1) = true := by
  have takes (l : Lot) (h : cleanLot l) : scanTakes filter start l.entry.held = true ↔ start ≤ l.record.held.number ∧
      filter.testBit (stateCode l.record.held.state - 1) = true := by
    unfold scanTakes filterHolds
    rw [h.2.2, Bool.and_eq_true, decide_eq_true_eq]
    rfl
  unfold State.scannedLots
  rw [mem_sortBy, List.mem_map]
  constructor
  · rintro ⟨x, hx, rfl⟩
    obtain ⟨hm, ht⟩ := List.mem_filter.mp hx
    exact ⟨⟨x.1, recordAt_of_lotAt s x.1 x.2 ((mem_occupied s x.1 x.2).mp hm)⟩,
      (takes x.2 (occupied_clean s hc x hm)).mp ht⟩
  · rintro ⟨⟨k, hk⟩, ht⟩
    obtain ⟨l, hl, rfl⟩ := Option.map_eq_some_iff.mp hk
    exact ⟨(k, l), List.mem_filter.mpr ⟨(mem_occupied s k l).mpr hl, (takes l (hc k l hl)).mpr ht⟩, rfl⟩

/-- The lots that SCAN takes are in ascending number (R12, R15). -/
theorem scannedLots_ascending (s : State) (hd : numbersDiffer s) (filter start : Nat) :
    (s.scannedLots filter start).Pairwise fun x y => x.number < y.number := by
  refine sortBy_ascending _ (List.pairwise_map.mpr ?_)
  refine List.Pairwise.imp_of_mem ?_ ((occupied_distinct s).sublist List.filter_sublist)
  intro x y hx hy hne he
  have at_ (z : Nat × Lot) (hz : z ∈ s.occupied.filter fun x => scanTakes filter start x.2.entry.held) :
      s.recordAt z.1 = some z.2.record.held :=
    recordAt_of_lotAt s z.1 z.2 ((mem_occupied s z.1 z.2).mp (List.mem_of_mem_filter hz))
  exact hne (hd x.1 y.1 _ _ (at_ x hx) (at_ y hy) he)

/-- The answer of SCAN over lots taken in ascending number (R15). -/
theorem scanFields_ascending (lots : List LotRecord) (h : lots.Pairwise fun x y => x.number < y.number) :
    scanFields (lots.take 17) = .u8 (lots.take 16).length :: ((lots.take 16).flatMap summaryFields ++
      [.u24 (((lots.drop 16).head?.map (·.number)).getD 0)]) := by
  have shown : (lots.take 17).take 16 = lots.take 16 := List.take_take
  have next : ((lots.take 17).drop 16).head? = (lots.drop 16).head? := by
    rw [List.drop_take]
    cases lots.drop 16 <;> rfl
  unfold scanFields
  rw [shown, next, sortBy_of_ascending _ (h.sublist (List.take_sublist 16 lots))]
  rfl

/-- SCAN over clean lots of different numbers takes the first seventeen and changes nothing (R15). -/
theorem scanBody_clean (s : State) (hc : allClean s) (hd : numbersDiffer s) (filter start : Nat) (h1 : 1 ≤ filter)
    (h2 : filter ≤ 255) (h3 : 1 ≤ start) (h4 : start ≤ Config.maxLot) :
    scanBody filter start s = (s, doneWith (scanFields ((s.scannedLots filter start).take 17))) := by
  have inRange : ¬(filter = 0 ∨ 255 < filter ∨ start = 0 ∨ Config.maxLot < start) := by omega
  have walk := scanWalk_clean s hc hd (s.scannedLots filter start)
    (fun r hr => ((mem_scannedLots s hc filter start r).mp hr).1) []
  unfold scanBody
  rw [if_neg inRange, indexFrom_clean s hc, walk]
  rfl

/-- Settles O9, by the walk over the records in ascending number. -/
theorem scanWalksTheIndex : Obligations.ScanWalksTheIndex := by
  intro p t filter start s hr hp hrole
  have allowed : roleAllows (s.port p).role .scan = true := by
    cases h : (s.port p).role with
    | mixer => exact absurd h hrole
    | plant => rfl
    | lab => rfl
    | yard => rfl
  have hg := gate_none s p .scan allowed rfl
  refine ⟨fun hb => request_next_refused s p t _ none (scanBody filter start) hr hp hg .range [] (if_pos hb),
    fun hc hd h1 h2 h3 h4 => ⟨s.scannedLots filter start, scannedLots_ascending s hd filter start,
      mem_scannedLots s hc filter start, ?_⟩⟩
  rw [← scanFields_ascending _ (scannedLots_ascending s hd filter start)]
  exact request_next_refused s p t _ none (scanBody filter start) hr hp hg .done _
    (scanBody_clean (s.received p t) hc hd filter start h1 h2 h3 h4)

end Sys2Proof.Machine
end

section
/-! SEAL of a lot with ash (R5, R13, R40, R42 to R44). -/

namespace Sys2Proof.Machine

/-! ### Holds that one change adds -/

/-- A slot's record with a hold set, HOLD raised if it was told (R5). -/
def heldWith (u : State) (k : Nat) (q : LotRecord) (h : HoldSet) (raised : Bool) : State :=
  { recordNow u k { q with holds := h } with ports := (if raised then u.raise .hold else u).ports }

theorem heldWith_self (u : State) (k : Nat) (l : Lot) (hl : u.lotAt k = some l) (hc : l.record.code = .agrees) :
    heldWith u k l.record.held l.record.held.holds false = u :=
  recordNow_self u k l hl hc

/-- One more hold of a lot that is not CURED: HOLD is raised if any was new (R5). -/
theorem addHold_heldWith (u : State) (k : Nat) (l : Lot) (q : LotRecord) (h : HoldSet) (raised : Bool) (x : Hold)
    (hl : u.lotAt k = some l) (hs : q.state ≠ .cured) :
    (heldWith u k q h raised).addHold k x = heldWith u k q (withHold h x) (raised || !hasHold h x) := by
  have lot : (heldWith u k q h raised).lotAt k = some { l with record := fresh { q with holds := h } } :=
    lotAt_recordNow u k l _ hl
  have ports : (if hasHold h x then heldWith u k q h raised else (heldWith u k q h raised).raise .hold).ports =
      (if raised || !hasHold h x then u.raise .hold else u).ports := by
    cases raised <;> cases hasHold h x
    · rfl
    · rfl
    · have again := congrArg State.ports (raise_raise u .hold)
      exact again
    · rfl
  have twice := recordNow_twice u k l { q with holds := h } { q with holds := withHold h x } hl
  rw [addHold_clean _ k _ x lot rfl hs]
  show { recordNow (recordNow u k { q with holds := h }) k { q with holds := withHold h x } with
    ports := (if hasHold h x then heldWith u k q h raised else (heldWith u k q h raised).raise .hold).ports } = _
  rw [ports, twice]
  rfl

/-- A hold is new exactly when it changes the set. -/
theorem decide_withHold_ne (h : HoldSet) (x : Hold) : decide (withHold h x ≠ h) = !hasHold h x := by
  revert h
  cases x <;> decide

/-- Two holds leave a set as it was exactly when it has both. -/
theorem decide_intake_dose_ne (h : HoldSet) : decide (withHold (withHold h .intake) .dose ≠ h) =
    (!hasHold h .intake || !hasHold (withHold h .intake) .dose) := by
  revert h
  decide

/-- The hold set after the holds a SEAL may add (R42, R43). -/
def sealedHolds (h : HoldSet) (uncovered : Bool) (band : Band) : HoldSet :=
  let g := if uncovered then withHold h .intake else h
  if band = .inside then g else withHold g .dose

/-- The holds a SEAL adds, with HOLD raised when either is new (R42, R43). -/
theorem sealHolds_eq (u : State) (k : Nat) (l : Lot) (uncovered : Bool) (band : Band) (hl : u.lotAt k = some l)
    (hc : l.record.code = .agrees) (hs : l.record.held.state ≠ .cured) :
    u.sealHolds k uncovered band = heldWith u k l.record.held (sealedHolds l.record.held.holds uncovered band)
      (decide (sealedHolds l.record.held.holds uncovered band ≠ l.record.held.holds)) := by
  have self := heldWith_self u k l hl hc
  have add (h : HoldSet) (raised : Bool) (x : Hold) := addHold_heldWith u k l l.record.held h raised x hl hs
  unfold State.sealHolds sealedHolds
  generalize l.record.held = q at self add
  by_cases hb : band = .inside <;> cases uncovered <;> simp only [hb, if_true, if_false, Bool.false_eq_true]
  · rw [decide_eq_false (not_not.mpr rfl), self]
  · rw [decide_withHold_ne]
    exact (congrArg (State.addHold · k .intake) self).symm.trans (add q.holds false .intake)
  · rw [decide_withHold_ne]
    exact (congrArg (State.addHold · k .dose) self).symm.trans (add q.holds false .dose)
  · rw [decide_intake_dose_ne]
    refine (congrArg (fun v => (State.addHold v k .intake).addHold k .dose) self).symm.trans ?_
    rw [add, add]
    rfl

/-! ### The sealed lot -/

/-- The state after a SEAL before its holds: the record rewritten, the ash settled, the place reserved, the channel and
the pot-life entry given up (R42, R44). -/
def settledState (s : State) (k cell : Nat) (r : LotRecord) (d : Dosed) : State := { s with
  slots := (s.writeLot k (sealedRecord r (r.carriedAsh.getD 0 + d.ash) cell s.clock)).slots
  account := settle s.account (r.reservation.getD 0) d.ash
  cells := s.cells.setIfInBounds cell (reserveIn r.number (s.cell cell))
  channels := mapVector (freeIfBound r.number) s.channels
  potLife := s.potLife.filter (·.lot != r.number) }

/-- What a taken SEAL leaves (R42 to R44). -/
theorem sealInto_eq (s : State) (k cell : Nat) (r : LotRecord) (d : Dosed) (hk : k < Config.slotCount) (h : HoldSet)
    (hh : sealedHolds r.holds (decide (0 < (settlement s.account.balance (r.reservation.getD 0) d.ash).unbooked))
      (bandOf r) = h) :
    let left := { sealedRecord r (r.carriedAsh.getD 0 + d.ash) cell s.clock with holds := h }
    s.sealInto k cell r d = { settledState s k cell r d with
      slots := (s.writeLot k left).slots, ports := (if h = r.holds then s else s.raise .hold).ports } := by
  intro left
  let q := sealedRecord r (r.carriedAsh.getD 0 + d.ash) cell s.clock
  have lot : (settledState s k cell r d).lotAt k = some (freshLot q) := lotAt_writeLot s k q hk
  have holds := sealHolds_eq (settledState s k cell r d) k (freshLot q)
    (decide (0 < (settlement s.account.balance (r.reservation.getD 0) d.ash).unbooked)) (bandOf r) lot rfl
    (fun g => by cases g)
  rw [show sealedHolds (freshLot q).record.held.holds _ _ = h from hh] at holds
  have slots : (recordNow (settledState s k cell r d) k left).slots = (s.writeLot k left).slots := by
    have written := congrArg State.slots (recordNow_writeLot s k q left hk rfl)
    exact written
  have ports : (if decide (h ≠ r.holds) then (settledState s k cell r d).raise .hold else settledState s k cell r d).ports =
      (if h = r.holds then s else s.raise .hold).ports := by
    by_cases g : h = r.holds
    · rw [decide_eq_false (not_not.mpr g), if_pos g]
      rfl
    · rw [decide_eq_true g, if_neg g]
      rfl
  refine Eq.trans (b := heldWith (settledState s k cell r d) k q h (decide (h ≠ r.holds))) holds ?_
  show { recordNow (settledState s k cell r d) k left with
    ports := (if decide (h ≠ r.holds) then (settledState s k cell r d).raise .hold else settledState s k cell r d).ports } = _
  rw [ports]
  show { settledState s k cell r d with
    slots := (recordNow (settledState s k cell r d) k left).slots
    ports := (if h = r.holds then s else s.raise .hold).ports } = _
  rw [slots]

/-- The hold set that a SEAL answers (R44). -/
theorem holdsAt_sealInto (s : State) (k cell : Nat) (r : LotRecord) (d : Dosed) (hk : k < Config.slotCount)
    (h : HoldSet) (hh : sealedHolds r.holds
      (decide (0 < (settlement s.account.balance (r.reservation.getD 0) d.ash).unbooked)) (bandOf r) = h) :
    (s.sealInto k cell r d).holdsAt k = .u8 h.toNat := by
  have left (q : LotRecord) : (s.writeLot k q).recordAt k = some q := recordAt_of_lotAt _ k _ (lotAt_writeLot s k q hk)
  have record : (s.sealInto k cell r d).recordAt k =
      some { sealedRecord r (r.carriedAsh.getD 0 + d.ash) cell s.clock with holds := h } := by
    rw [sealInto_eq s k cell r d hk h hh]
    exact left _
  unfold State.holdsAt
  rw [record]
  rfl

/-- SEAL of a clean lot with ash into an open cell with room, within the account's bound (R40). -/
theorem sealBody_taken (s : State) (p : PortName) (c cell k : Nat) (b : Binding) (r : LotRecord) (d : Dosed)
    (hcell : cell ≤ 95) (hc : s.channel c = some b) (hb : b.holder = p) (hl : liveLot s b.lot k r) (hd : r.dosed = some d)
    (h0 : 0 < r.carriedAsh.getD 0 + d.ash) (hopen : (s.cell cell).closed = false) (hroom : hasRoom (s.cell cell) = true)
    (hpass : settlementPasses s.account (r.reservation.getD 0) d.ash = false) :
    sealBody p c cell s = (s.sealInto k cell r d, doneWith (sealFields s (s.sealInto k cell r d) k r d)) := by
  unfold sealBody
  rw [if_neg (Nat.not_lt.mpr hcell), onChannel_clean s p c true true b k r _ hc hb (ite_self true) hl, hd]
  dsimp only
  rw [if_neg (Nat.ne_of_gt h0), hopen, hroom, hpass]
  rfl

/-- Settles O21: the state that `sealInto` leaves, answered. -/
theorem sealSettlesAndReserves : Obligations.SealSettlesAndReserves := by
  intro p t c cell k b r d s h hw hm hcell hc hb hl hd h0 hopen hroom hpass x h1 h2 mass left
  have hk := liveLot_slot s b.lot k r hl
  have hn := liveLot_number s b.lot k r hl
  have hg := gate_ready_windowed s p .mixer c h hw .sealLot rfl (bne_iff_ne.mpr hm)
  obtain ⟨hr, hp, -⟩ := h
  have holds : sealedHolds r.holds (decide (0 < x.unbooked)) (bandOf r) = h2 := by
    unfold sealedHolds
    simp only [decide_eq_true_eq]
    rfl
  have body := sealBody_taken (s.received p t) p c cell k b r d hcell hc hb hl hd h0 hopen
    (decide_eq_true hroom) (decide_eq_false (Int.not_lt.mpr hpass))
  have into := sealInto_eq (s.received p t) k cell r d hk h2 holds
  have answer : sealFields (s.received p t) ((s.received p t).sealInto k cell r d) k r d =
      [.u24 b.lot, .u32 mass, .u16 ((ratioOf r).getD 0), .u8 (bandCode (bandOf r))] ++ settlementFields x ++
        [.u8 h2.toNat] := by
    unfold sealFields
    rw [holdsAt_sealInto (s.received p t) k cell r d hk h2 holds, hn]
    rfl
  rw [answer] at body
  refine request_next_raised s (if h2 = r.holds then s else s.raise .hold) p t _ (some c) (sealBody p c cell) hr hp hg
    _ _ _ body ?_ ?_
  · rw [into]
    show (if h2 = r.holds then s.received p t else (s.received p t).raise .hold).ports = _
    split
    · rfl
    · rw [raise_received]
  · rw [into]
    unfold settledState
    rw [hn]
    rfl

end Sys2Proof.Machine
end

section
/-! OPEN of a first mix (R10, R11, R30 to R32, R34 to R36, R48, R49). -/

namespace Sys2Proof.Machine

/-- A pending bank becomes the active one, and its write begins (R32). -/
theorem applyPendingBank_eq (s : State) : s.applyPendingBank = { s with
    bank := ⟨s.bank.pending.getD s.bank.active, none⟩
    bankWrites := if s.bank.pending = none then s.bankWrites
      else s.bankWrites ++ [⟨s.bank.pending.getD s.bank.active, none⟩] } := by
  unfold State.applyPendingBank
  cases h : s.bank.pending with
  | none =>
    have bank : s.bank = ⟨s.bank.active, none⟩ := by rw [← h]
    rw [if_pos rfl]
    show s = { s with bank := ⟨s.bank.active, none⟩, bankWrites := s.bankWrites }
    rw [← bank]
  | some b =>
    have changed : (⟨b, none⟩ : BankState) ≠ s.bank := fun g => by
      rw [← g] at h
      cases h
    rw [if_neg (fun g => by cases g)]
    exact if_neg changed

/-- OPEN of a first mix that passes its checks (R30 to R32). -/
theorem openBody_taken (s : State) (p : PortName) (c n P k : Nat) (v : RecipeValues) (hc : c ≤ 3) (hn : n ≤ 7)
    (h1 : 100 ≤ P) (h2 : P ≤ 60000) (hf : s.channel c = none)
    (hv : (s.recipe ⟨s.bank.pending.getD s.bank.active, n⟩).values = some v)
    (hb : s.committing ⟨s.bank.pending.getD s.bank.active, n⟩ = false) (ha : P ≤ s.account.balance)
    (hk : s.lowestFree = some k) (hx : s.counter.exhausted = false) :
    let ref : RecipeRef := ⟨s.bank.pending.getD s.bank.active, n⟩
    openBody p c n P s = (s.applyPendingBank.openInto p k c P ref (snapshotOf v) none,
      doneWith (openFields s.applyPendingBank ref (snapshotOf v) none)) := by
  intro ref
  have inRange : ¬(3 < c ∨ 7 < n ∨ P < 100 ∨ 60000 < P) := by omega
  have applied := applyPendingBank_eq s
  have hv : (s.applyPendingBank.recipe ref).values = some v := by
    rw [applied]
    exact hv
  have hb : s.applyPendingBank.committing ref = false := by
    rw [applied]
    exact hb
  have ha : ¬ s.applyPendingBank.account.balance < P := by
    rw [applied]
    exact Int.not_lt.mpr ha
  have hk : s.applyPendingBank.lowestFree = some k := by
    rw [applied]
    exact hk
  have hx : s.applyPendingBank.counter.exhausted = false := by
    rw [applied]
    exact hx
  have bank : s.applyPendingBank.bank.active = s.bank.pending.getD s.bank.active := by rw [applied]
  unfold openBody
  rw [if_neg inRange, if_neg (not_not.mpr hf)]
  dsimp only
  rw [bank]
  unfold State.openRecipe
  rw [hv]
  dsimp only
  rw [hb, if_neg Bool.false_ne_true, if_neg ha, hk]
  dsimp only
  rw [hx, if_neg Bool.false_ne_true]

/-- With the new entry not yet due either, nothing is due (R48, R49). -/
theorem nothingDue_insertBy (m : Nat) (e : PotEntry) (l : List PotEntry) (h : ∀ x ∈ l, m < x.deadline)
    (he : m < e.deadline) : ∀ x ∈ insertBy potBefore e l, m < x.deadline := fun x hx => by
  rcases (mem_insertBy potBefore e x l).mp hx with rfl | hx
  · exact he
  · exact h x hx

/-- A request whose body judged the pot-life list of `w` last answers as OPEN does: the ports as answered, the list
judged, and nothing else of `w` changed (R49, R166). -/
theorem request_judged (s u w : State) (p : PortName) (t : Nat) (q : Request) (f : Option Nat)
    (body : State → State × Reply) (b : List Machine.Field) (hr : s.phase = .running) (hp : (s.port p).request = .ready)
    (hg : s.gate p q f = none) (hb : body (s.received p t) = (w.judgePotLife, doneWith b))
    (hw : w = { u with ports := (s.received p t).ports }) (hu : u.ports = s.ports) :
    ∃ s', Host.Outcome.next (φ := Fault) (ρ := Refusal) (s.takeRequest p t q f body) = .next s' ∧
      answeredAs s s' p t .done b ∧ (potOrdered u.potLife → potLifeJudged u s') ∧
      s' = { u with slots := s'.slots, queue := s'.queue, potLife := s'.potLife, ports := s'.ports } := by
  refine ⟨w.judgePotLife.answer p t (doneWith b), ?_, ?_, fun ho => ?_, ?_⟩
  · rw [takeRequest_taken s p t q f body hr hp hg, hb]
  · refine answeredAs_answer s _ p t (doneWith b) rfl (portsKept_trans _ w _ (portsKept_of_eq _ _ ?_)
      (portsKept_judgePotLife w))
    rw [hw]
  · exact potLifeJudged_answer s u w p t (doneWith b) (by rw [hw]; exact ho) hw hu
  · have frame := judgePotLife_eq w
    generalize w.judgePotLife = j at frame ⊢
    rw [frame, hw]
    rfl

/-- Settles O15: the opened state, judged and answered. -/
theorem openCreatesMixingLot : Obligations.OpenCreatesMixingLot := by
  intro p t c n P k v s h hw hm hc hn h1 h2 hf hv hb ha hk hx bank deadline record body opened
  have hg := gate_ready_windowed s p .mixer c h hw .openLot rfl (beq_iff_eq.mpr hm)
  obtain ⟨hr, hp, -⟩ := h
  let S := s.received p t
  let w := openedState S.applyPendingBank p k c P ⟨bank, n⟩ (snapshotOf v) none
  have taken : openBody p c n P S = (w.judgePotLife, doneWith body) := by
    have fields : openFields S.applyPendingBank ⟨bank, n⟩ (snapshotOf v) none = body := by
      rw [applyPendingBank_eq S]
      rfl
    rw [← fields]
    exact openBody_taken S p c n P k v hc hn h1 h2 hf hv hb ha hk hx
  have hw : w = { opened with ports := S.ports } := by
    show openedState S.applyPendingBank p k c P ⟨bank, n⟩ (snapshotOf v) none = _
    rw [applyPendingBank_eq S]
    rfl
  obtain ⟨s', answered, ports, judged, frame⟩ :=
    request_judged s opened w p t _ (some c) (openBody p c n P) body hr hp hg taken hw rfl
  refine ⟨fun due hd => ?_, s', answered, ports, fun ho => judged (potOrdered_insertBy _ _ ho), frame⟩
  have quiet : nothingDue w := by
    rw [hw]
    exact nothingDue_insertBy s.clock ⟨s.counter.next, deadline⟩ s.potLife due hd
  rw [judgePotLife_none w quiet, hw] at taken
  exact request_next s p t _ (some c) (openBody p c n P) hr hp hg _ _ _ taken rfl rfl

end Sys2Proof.Machine
end

section
/-! LOOKUP of a clean lot, and of one that its check mends (R4, R14, R148 to R151, R157, R158). -/

namespace Sys2Proof.Machine

/-- The lot that a request goes on with stands in its slot with its record (R4, R148). -/
theorem recordAt_of_checkedLot (s u : State) (n j : Nat) (r : LotRecord) (h : s.checkedLot n = (u, some (j, r))) :
    u.recordAt j = some r := by
  unfold State.checkedLot at h
  split at h
  · cases h
  · rw [Prod.mk.injEq] at h
    obtain ⟨rfl, hc⟩ := h
    exact cleanOf_recordAt _ n j r hc

/-- LOOKUP answers the record that the check of the lot leaves (R4, R14). -/
theorem lookupBody_found (s u : State) (n j : Nat) (r : LotRecord) (h1 : 1 ≤ n) (h2 : n ≤ Config.maxLot)
    (h : s.checkedLot n = (u, some (j, r))) : lookupBody n s =
      (u, doneWith (recordFields r j (u.lanePosition r) (u.queuePosition r))) := by
  have inRange : ¬(n = 0 ∨ Config.maxLot < n) := not_or.mpr ⟨Nat.ne_of_gt h1, Nat.not_lt_of_le h2⟩
  unfold lookupBody State.onLot
  rw [if_neg inRange, h]
  dsimp only
  unfold State.fullRecord
  rw [recordAt_of_checkedLot s u n j r h]

/-- The place of a lot in its lane (R14, R57). -/
theorem lanePosition_eq (s : State) (r : LotRecord) :
    s.lanePosition r = r.cell.bind fun c => positionIn r.number (s.cell c).lane := by
  unfold State.lanePosition
  cases r.cell <;> rfl

/-- A LOOKUP whose check leaves the slots `z` and the ports of `v` (R14, R148). -/
theorem exec_lookup_found (s v : State) (p : PortName) (t n j : Nat) (r : LotRecord) (z : Vector Slot 512)
    (hr : s.phase = .running) (hp : (s.port p).request = .ready) (h1 : 1 ≤ n) (h2 : n ≤ Config.maxLot)
    (hn : r.number = n) (h : (s.received p t).checkedLot n =
      ({ s.received p t with slots := z, ports := (v.received p t).ports }, some (j, r))) :
    exec (.lookup p t n) s = .next { s with
      slots := z
      ports := replied v p t .done (recordFields r j (r.cell.bind fun c => positionIn n (s.cell c).lane)
        (if r.queueStatus = some .queued then positionIn n s.queue else none)) } := by
  have found := lookupBody_found _ _ n j r h1 h2 h
  rw [lanePosition_eq, hn] at found
  unfold State.queuePosition at found
  rw [hn] at found
  refine request_next_raised s v p t .lookup none (lookupBody n) hr hp (gate_none s p .lookup rfl rfl) _ _ _ found rfl rfl

/-- CORRECTED is raised beside the reception of a frame (R150, R164). -/
theorem told_received (s : State) (p : PortName) (t : Nat) (x : Slot) :
    told (s.received p t) x = (told s x).received p t := by
  unfold told
  split
  · rfl
  · exact raise_received s p t .corrected

/-- A mended lot has the number that its slot stands for (R12, R148). -/
theorem mended_number (s : State) (n k : Nat) (l left : Lot) (rise : Nat) (hn : s.slotOf n = some k)
    (hl : s.lotAt k = some l) (hm : mended l left rise) : left.record.held.number = n := by
  obtain ⟨-, hnum⟩ := mended_clean l left rise hm
  have stands : holdsNumber n (s.slot k) = true :=
    (((findIdx_first (holdsNumber n) Slot.blank s.slots.toList rfl).2 k).mp hn).1
  unfold holdsNumber at stands
  rw [slot_lotAt s k l hl] at stands
  dsimp only at stands
  rw [hnum] at stands
  exact Option.some.inj (eq_of_beq stands)

/-- Settles O8, by the check of the lot: none, clean, or mended. -/
theorem lookupAnswersTheRecord : Obligations.LookupAnswersTheRecord := by
  intro p t n s hr hp
  have hg := gate_none s p .lookup rfl rfl
  obtain ⟨range, unknown⟩ := request_findsLot s p t n .lookup none (lookupBody n) _ hr hp hg rfl
  refine ⟨range, unknown, fun k r hl => ?_, ?_⟩
  · exact exec_lookup_found s s p t n k r s.slots hr hp hl.1 hl.2.1 (liveLot_number s n k r hl)
      (checkedLot_clean (s.received p t) n k r hl)
  · intro k l left rise h1 h2 hn ho hl hm x y told' r answered
    have number : r.number = n := mended_number s n k l left rise hn hl hm
    have worn : ((told (s.received p t) x).raise .worn).ports = ((told'.raise .worn).received p t).ports := by
      rw [told_received, raise_received]
      rfl
    obtain ⟨found1, found2⟩ := checkedLot_mended (s.received p t) n k l left rise hn ho hl hm
    obtain ⟨check1, check2⟩ := checkSlot_mended (s.received p t) k l left rise hl hm
    refine ⟨fun h => ?_, fun h3 h4 => ⟨fun f hf => ?_, fun hf => ?_⟩⟩
    · refine exec_lookup_found s told' p t n k r _ hr hp h1 h2 number ((found1 h).trans ?_)
      rw [check1 h, told_received]
      rfl
    · refine exec_lookup_found s (told'.raise .worn) p t n f r _ hr hp h1 h2 number (((found2 h3 h4).1 f hf).trans ?_)
      rw [(check2 h3 h4).1 f hf, ← worn]
      rfl
    · refine exec_lookup_found s (told'.raise .worn) p t n k r _ hr hp h1 h2 number (((found2 h3 h4).2 hf).trans ?_)
      rw [(check2 h3 h4).2 hf, ← worn]
      rfl

end Sys2Proof.Machine
end

section
/-! A valid sample over a lane of clean lots (R13, R76, R80 to R86, R98). -/

namespace Sys2Proof.Machine

/-- A sample event over a lane of clean lots: the cell is marked, the lane treated, and CURED told once (R80, R85). -/
theorem sampleValid_clean (s : State) (c m : Nat) (y : Int) (hc : c ≤ 95) (nd : (s.cell c).lane.Nodup)
    (h : ∀ n ∈ (s.cell c).lane, ∃ k r, liveLot s n k r ∧ (r.state = .curing → r.queueStatus ≠ some .queued)) :
    s.sampleValid c y m = { s with
      cells := s.cells.setIfInBounds c (cellValid y m (s.cell c))
      slots := (s.sampleValid c y m).slots, queue := s.queue ++ admittedBy s y (s.cell c).lane
      ports := tellKind .cured ((s.cell c).lane.any (asCuring s (sampleCures y)))
        (tellKind .hold ((s.cell c).lane.any (asCuring s (sampleFrosts y))) s.ports) } ∧
    (∀ n ∈ (s.cell c).lane, ∀ k l, s.slotOf n = some k → s.lotAt k = some l → (s.sampleValid c y m).slot k =
      if l.record.held.state = .curing then
        { s.slot k with contents := some (sampledLot y m (decide (n ∈ admittedBy s y (s.cell c).lane)) l) }
      else s.slot k) ∧
    ∀ k, (∀ n ∈ (s.cell c).lane, s.slotOf n ≠ some k) → (s.sampleValid c y m).slot k = s.slot k := by
  let marked := s.setCell c (cellValid y m (s.cell c))
  have inLane : ∀ n ∈ (s.cell c).lane, n ∈ (marked.cell c).lane := fun n hn => by
    rw [cell_setCell, if_pos ⟨rfl, Nat.lt_succ_of_le hc⟩]
    exact hn
  obtain ⟨frame, cured, lots, others⟩ := foldl_sampleLot c y m (s.cell c).lane marked false nd inLane h
  have told : s.sampleValid c y m =
      { ((s.cell c).lane.foldl (sampleLot c y m) (marked, false)).1 with
        ports := tellKind .cured ((s.cell c).lane.foldl (sampleLot c y m) (marked, false)).2
          ((s.cell c).lane.foldl (sampleLot c y m) (marked, false)).1.ports } := by
    unfold State.sampleValid
    dsimp only
    rw [← ports_raise_if]
    split <;> rfl
  generalize (s.cell c).lane.foldl (sampleLot c y m) (marked, false) = x at frame cured lots others told
  have slot (k : Nat) : (s.sampleValid c y m).slot k = x.1.slot k := by
    rw [told]
    rfl
  refine ⟨?_, fun n hn k l hk hl => ?_, fun k hk => ?_⟩
  · have slots : (s.sampleValid c y m).slots = x.1.slots := by rw [told]
    rw [slots, told, cured, Bool.false_or, frame]
    rfl
  · rw [slot]
    exact lots n hn k l hk hl
  · rw [slot]
    exact others k hk

/-- A lot that has not reached its target stays CURING, its record rewritten (R82 to R85). -/
theorem sampledLot_uncured (y : Int) (m : Nat) (room : Bool) (l : Lot) (h : sampleCures y l.record.held = false) :
    sampledLot y m room l = { l with record := fresh (sampledRecord y l.record.held) } :=
  if_neg (Bool.eq_false_iff.mp h)

/-- A lot that reaches its target is CURED, and its place in the queue is judged (R85, R98). -/
theorem sampledLot_cured (y : Int) (m : Nat) (room : Bool) (l : Lot) (h : sampleCures y l.record.held = true) :
    sampledLot y m room l = freshLot { sampledRecord y l.record.held with
      state := .cured, frostRun := none, cured := some m
      queueStatus := some (if (sampledRecord y l.record.held).holds ≠ 0 then .parked
        else if room then .queued else .waiting) } :=
  if_pos h

/-- Settles O29, by the treatment of each lot of the lane. -/
theorem validSampleTreatsCuringLots : Obligations.ValidSampleTreatsCuringLots := by
  intro c m y s hscan hc h1 h2 cell scan lane curing admitted frosted told nd h
  obtain ⟨frame, lots, others⟩ := sampleValid_clean s c m y hc nd h
  have taken : exec (.conversionCompletion c y) s = .next { s.sampleValid c y m with scan := nextScan ⟨c, m⟩ } := by
    show Host.Outcome.next (s.completion c y true) = _
    unfold State.completion
    rw [hscan]
    dsimp only
    rw [if_pos ⟨rfl, rfl⟩]
    unfold State.endConversion
    dsimp only
    rw [if_pos (by unfold validReading; simp [h1, h2])]
  have ports : told.ports = tellKind .cured (lane.any (asCuring s (sampleCures y)))
      (tellKind .hold (lane.any (asCuring s (sampleFrosts y))) s.ports) :=
    (ports_raise_if frosted .cured _).trans (congrArg _ (ports_raise_if s .hold _))
  refine ⟨_, taken, ?_, fun n hn k r hl => ?_, others⟩
  · generalize s.sampleValid c y m = u at frame ⊢
    rw [ports, frame]
    rfl
  · obtain ⟨l, hlot, -, rfl, -⟩ := liveLot_lotAt s n k r hl
    have slot := lots n hn k l hl.2.2.1 hlot
    refine ⟨fun hs => slot.trans (if_neg hs), fun hs hcu => ?_, fun hs hcu => ?_⟩
    · refine (slot.trans (if_pos hs)).trans ?_
      rw [sampledLot_uncured y m _ l hcu, slot_recordNow s k _ (slot_of_lotAt s k l hlot), slot_lotAt s k l hlot]
      rfl
    · refine (slot.trans (if_pos hs)).trans ?_
      rw [sampledLot_cured y m _ l hcu]
      simp only [decide_eq_true_eq]
      rfl

end Sys2Proof.Machine
end

section
/-! The arithmetic of a mix: the band test and the settlement (R38, R42). -/

namespace Sys2Proof.Machine

/-! ### The band test (R38) -/

/-- The model's test of the band, over natural numbers, is the exact one over the integers. -/
theorem bandTest_iff (k : Snapshot) (A c : Nat) :
    1000 * ((1000 * c : Int) - k.cementRatio * A).natAbs ≤ k.cementRatio * k.doseTolerance * A ↔
      1000 * |(1000 * c : Int) - k.cementRatio * A| ≤ k.cementRatio * k.doseTolerance * A := by
  rw [Int.abs_eq_natAbs]
  exact_mod_cast Iff.rfl

theorem bandOver_empty (k : Snapshot) (A c : Nat) (h : A = 0) : bandOver k A c = .none := if_pos h

/-- A mix with ash is judged by the test, and outside the band by the side it lies on (R38). -/
theorem bandOver_ash (k : Snapshot) (A c : Nat) (h : 0 < A) : bandOver k A c =
    if 1000 * |(1000 * c : Int) - k.cementRatio * A| ≤ k.cementRatio * k.doseTolerance * A then .inside
    else if 1000 * c < k.cementRatio * A then .low
    else .high := by
  unfold bandOver
  simp only [if_neg (Nat.ne_of_gt h), bandTest_iff]

/-! ### The settlement (R42) -/

theorem settlement_covered (balance : Int) (R D : Nat) (h : D ≤ R) : settlement balance R D = ⟨(R : Int) - D, 0, 0⟩ :=
  if_pos h

theorem settlement_drawn (balance : Int) (R D : Nat) (h : R < D) (hb : (D : Int) - R ≤ balance) :
    settlement balance R D = ⟨0, (D : Int) - R, 0⟩ :=
  (if_neg (Nat.not_le_of_lt h)).trans (if_pos hb)

theorem settlement_uncovered (balance : Int) (R D : Nat) (h : R < D) (hb : balance < (D : Int) - R) :
    settlement balance R D = ⟨0, balance, (D : Int) - R - balance⟩ :=
  (if_neg (Nat.not_le_of_lt h)).trans (if_neg (Int.not_le_of_gt hb))

/-- Settles O20: the test of the band and the three settlements. -/
theorem bandAndSettlementAreExact : Obligations.BandAndSettlementAreExact := by
  refine ⟨fun k A c => ⟨bandOver_empty k A c, fun hA inside => ?_, fun hA outside => ⟨fun low => ?_, fun high => ?_⟩⟩,
    fun a R D => ⟨fun h => ?_, fun h hb => ?_, fun h hb => ?_⟩⟩
  · rw [bandOver_ash k A c hA, if_pos inside]
  · rw [bandOver_ash k A c hA, if_neg (Int.not_le_of_gt outside), if_pos low]
  · rw [bandOver_ash k A c hA, if_neg (Int.not_le_of_gt outside), if_neg (Nat.lt_asymm high)]
  · simp only [settle, settlement_covered a.balance R D h, Int.sub_zero, Int.add_zero]
  · simp only [settle, settlement_drawn a.balance R D h hb, Int.add_zero]
  · simp only [settle, settlement_uncovered a.balance R D h hb, Int.add_zero, Int.sub_self]

end Sys2Proof.Machine
end

section
/-! The requests on a channel: the refusal CHANNEL, DOSE, STALL, RESUME, REBIND, and SEAL but for a lot that is sealed
(R25, R27 to R29, R37 to R41, R46, R47, R53, R59 to R61). -/

namespace Sys2Proof.Machine

/-! ### The channel (R28) -/

theorem refuseChannel_free (s : State) (c : Nat) (hc : s.channel c = none) :
    s.refuseChannel c = (s, refuse .channel [.u8 0, .u8 0, .u8 0]) := by
  unfold State.refuseChannel
  rw [hc]
  rfl

/-- A request to a channel that is taken is refused as the channel stands (R28). -/
theorem refuseChannel_bound (s : State) (c : Nat) (b : Binding) (hb : s.channel c = some b) : s.refuseChannel c =
    (s, refuse .channel [.u8 (if b.stalled then 2 else 1), .u8 1, .u8 (portCode b.holder)]) := by
  unfold State.refuseChannel
  rw [hb]
  rfl

theorem onChannel_free (s : State) (p : PortName) (c : Nat) (active stalled : Bool)
    (body : State → Binding → Nat → LotRecord → State × Reply) (hc : s.channel c = none) :
    s.onChannel p c active stalled body = (s, refuse .channel [.u8 0, .u8 0, .u8 0]) := by
  unfold State.onChannel
  rw [hc]
  exact refuseChannel_free s c hc

/-- A channel that another port holds, or that is not in the state the request is for, is refused as it stands (R28). -/
theorem onChannel_barred (s : State) (p : PortName) (c : Nat) (active stalled : Bool) (b : Binding)
    (body : State → Binding → Nat → LotRecord → State × Reply) (hc : s.channel c = some b)
    (h : b.holder ≠ p ∨ (if b.stalled then stalled else active) = false) : s.onChannel p c active stalled body =
      (s, refuse .channel [.u8 (if b.stalled then 2 else 1), .u8 1, .u8 (portCode b.holder)]) := by
  have barred : ¬(b.holder = p ∧ (if b.stalled then stalled else active) = true) := fun ⟨holds, fits⟩ =>
    h.elim (fun g => g holds) (fun g => Bool.false_ne_true (g.symm.trans fits))
  unfold State.onChannel
  rw [hc]
  dsimp only
  rw [if_neg barred, refuseChannel_bound s c b hc]

/-- A request whose body goes on with a channel is refused a FREE channel, and one that is barred to it (R28). -/
theorem request_findsChannel (s : State) (p : PortName) (t c : Nat) (q : Request) (active stalled : Bool)
    (body : State → State × Reply) (rest : State → Binding → Nat → LotRecord → State × Reply) (hr : s.phase = .running)
    (hp : (s.port p).request = .ready) (hg : s.gate p q (some c) = none)
    (hb : body (s.received p t) = (s.received p t).onChannel p c active stalled rest) :
    (s.channel c = none → Host.Outcome.next (φ := Fault) (ρ := Refusal) (s.takeRequest p t q (some c) body) =
      .next (repliedWith s p t .channel [.u8 0, .u8 0, .u8 0])) ∧
    ∀ b, s.channel c = some b → b.holder ≠ p ∨ (if b.stalled then stalled else active) = false →
      Host.Outcome.next (φ := Fault) (ρ := Refusal) (s.takeRequest p t q (some c) body) =
        .next (repliedWith s p t .channel [.u8 (if b.stalled then 2 else 1), .u8 1, .u8 (portCode b.holder)]) :=
  ⟨fun hc => request_next_refused s p t q (some c) body hr hp hg .channel _
      (hb.trans (onChannel_free (s.received p t) p c active stalled rest hc)),
    fun b hc h => request_next_refused s p t q (some c) body hr hp hg .channel _
      (hb.trans (onChannel_barred (s.received p t) p c active stalled b rest hc h))⟩

/-- Settles O18: each request's body reaches the checks of R28 before it looks at the lot. -/
theorem channelIsCheckedFirst : Obligations.ChannelIsCheckedFirst := by
  refine ⟨fun p t c a m w cell s h hw ha hm hwater hcell => ?_, fun p t n c s h hw hc h1 h2 b hb => ?_⟩
  · have gate := gate_ready_windowed s p .mixer c h hw
    obtain ⟨hr, hp, -⟩ := h
    have figures : ¬(20000 < a ∨ 20000 < m ∨ 20000 < w) := by omega
    intro i hi mode
    simp only [List.mem_cons, List.not_mem_nil, or_false] at hi
    rcases hi with rfl | rfl | rfl | rfl
    · obtain ⟨free, barred⟩ := request_findsChannel s p t c .dose true false (doseBody p c a m w) _ hr hp
        (gate .dose rfl rfl) (if_neg figures)
      refine ⟨free, fun b hb why => barred b hb (why.imp_right ?_)⟩
      rintro (⟨stalled, -⟩ | ⟨-, other⟩)
      · rw [stalled]; rfl
      · cases other
    · obtain ⟨free, barred⟩ := request_findsChannel s p t c .sealLot true true (sealBody p c cell) _ hr hp
        (gate .sealLot rfl (bne_iff_ne.mpr (mode rfl)))
        (if_neg (Nat.not_lt.mpr hcell))
      refine ⟨free, fun b hb why => barred b hb (why.imp_right ?_)⟩
      rintro (⟨-, other | other⟩ | ⟨-, other⟩) <;> cases other
    · obtain ⟨free, barred⟩ := request_findsChannel s p t c .stall true false (stallBody p c) _ hr hp
        (gate .stall rfl rfl) rfl
      refine ⟨free, fun b hb why => barred b hb (why.imp_right ?_)⟩
      rintro (⟨stalled, -⟩ | ⟨-, other⟩)
      · rw [stalled]; rfl
      · cases other
    · obtain ⟨free, barred⟩ := request_findsChannel s p t c .resume false true (resumeBody p c) _ hr hp
        (gate .resume rfl rfl) rfl
      refine ⟨free, fun b hb why => barred b hb (why.imp_right ?_)⟩
      rintro (⟨-, other | other⟩ | ⟨active, -⟩)
      · cases other
      · cases other
      · rw [active]; rfl
  · refine request_next_refused s p t .rebind (some c) (rebindBody p n c) h.1 h.2.1
      (gate_ready_windowed s p .mixer c h hw .rebind rfl rfl) .channel _ ?_
    have taken : (s.received p t).channel c = some b := hb
    unfold rebindBody
    rw [if_neg (by omega), if_pos (by rw [taken]; exact Option.some_ne_none b)]
    exact refuseChannel_bound _ c b taken

/-! ### DOSE (R37) -/

/-- DOSE by the holder of an ACTIVE channel goes on with the bound lot's dosed figures (R37, R39). -/
theorem doseBody_bound (s : State) (p : PortName) (c a m w k : Nat) (b : Binding) (r : LotRecord) (ha : a ≤ 20000)
    (hm : m ≤ 20000) (hw : w ≤ 20000) (hc : s.channel c = some b) (hp : b.holder = p) (hs : b.stalled = false)
    (hl : liveLot s b.lot k r) : doseBody p c a m w s = match r.dosed with
      | none => (s, refuse .state [])
      | some d =>
        if doseFits (addDose d a m w) then
          ((s.changeRecord k fun r => { r with dosed := some (addDose d a m w) }).setChannel c (some (countDose b)),
            doneWith (doseFields r (addDose d a m w) (countDose b)))
        else (s, refuse .range []) := by
  have figures : ¬(20000 < a ∨ 20000 < m ∨ 20000 < w) := by omega
  exact (if_neg figures).trans (onChannel_clean s p c true false b k r _ hc hp (by rw [hs]; rfl) hl)

/-- Settles O19, by the dosed figures that the bound lot has and those it would have. -/
theorem doseAddsToTheBoundLot : Obligations.DoseAddsToTheBoundLot := by
  refine ⟨fun p t c a m w s h hw high => ?_, fun p t c a m w k b r s h hw ha hm hwater hc hb hs hl => ?_⟩
  · exact request_next_refused s p t .dose (some c) (doseBody p c a m w) h.1 h.2.1
      (gate_ready_windowed s p .mixer c h hw .dose rfl rfl) .range [] (if_pos high)
  have hg := gate_ready_windowed s p .mixer c h hw .dose rfl rfl
  obtain ⟨hr, hp, -⟩ := h
  have body := doseBody_bound (s.received p t) p c a m w k b r ha hm hwater hc hb hs hl
  refine ⟨fun hd => ?_, fun d hd => ⟨fun high => ?_, fun h1 h2 h3 => ?_⟩⟩
  · rw [hd] at body
    exact request_next_refused s p t .dose (some c) (doseBody p c a m w) hr hp hg .state [] body
  · have brim : ¬ doseFits (addDose d a m w) = true := fun fits => by
      obtain ⟨f1, f2, f3⟩ := of_decide_eq_true fits
      dsimp only [addDose] at f1 f2 f3
      omega
    rw [hd] at body
    exact request_next_refused s p t .dose (some c) (doseBody p c a m w) hr hp hg .range [] (body.trans (if_neg brim))
  · have fits : doseFits (addDose d a m w) = true := decide_eq_true ⟨h1, h2, h3⟩
    rw [hd] at body
    have taken := body.trans (if_pos fits)
    rw [changeRecord_clean (s.received p t) b.lot k r _ hl] at taken
    exact request_next s p t .dose (some c) (doseBody p c a m w) hr hp hg _ _ _ taken rfl rfl

/-! ### STALL, RESUME and REBIND (R46, R47, R53) -/

/-- REBIND of a clean lot to a FREE channel is decided by the lot's state and channel field (R53). -/
theorem rebindBody_clean (s : State) (p : PortName) (n c k : Nat) (r : LotRecord) (hc : c ≤ 3) (hf : s.channel c = none)
    (hl : liveLot s n k r) : rebindBody p n c s =
      if r.state ≠ .mixing ∨ r.channel ≠ none then (s, refuse .state [])
      else ((recordNow s k { r with channel := some c }).setChannel c (some ⟨false, p, n, 0⟩),
        doneWith (channelFields (some ⟨false, p, n, 0⟩) ++ dosedFields r ++ ratioFields r ++
          optField .u32 r.mixDeadline)) := by
  have inRange : ¬(n = 0 ∨ Config.maxLot < n ∨ 3 < c) := by
    obtain ⟨h1, h2, -⟩ := hl
    omega
  unfold rebindBody
  rw [if_neg inRange, if_neg (not_not.mpr hf), onLot_clean s n k r _ hl]
  dsimp only
  rw [changeRecord_clean s n k r _ hl]

/-- Settles O24: the marked channel, and the bound orphan. -/
theorem stallResumeAndRebind : Obligations.StallResumeAndRebind := by
  intro p t n c k r s h hw hc hl
  have gate := gate_ready_windowed s p .mixer c h hw
  obtain ⟨hr, hp, -⟩ := h
  refine ⟨fun b hb holder lot => ?_, fun free => ?_⟩
  · subst lot holder
    have bound (active stalled : Bool) (fits : (if b.stalled then stalled else active) = true)
        (rest : State → Binding → Nat → LotRecord → State × Reply) :=
      onChannel_clean (s.received b.holder t) b.holder c active stalled b k r rest hb rfl fits hl
    exact ⟨fun active => request_next s b.holder t .stall (some c) (stallBody b.holder c) hr hp (gate .stall rfl rfl)
        _ _ _ (bound true false (by rw [active]; rfl) _) rfl rfl,
      fun stalled => request_next s b.holder t .resume (some c) (resumeBody b.holder c) hr hp (gate .resume rfl rfl)
        _ _ _ (bound false true (by rw [stalled]; rfl) _) rfl rfl⟩
  · have body := rebindBody_clean (s.received p t) p n c k r hc free hl
    have hg := gate .rebind rfl rfl
    exact ⟨fun unfit => request_next_refused s p t .rebind (some c) (rebindBody p n c) hr hp hg .state []
        (body.trans (if_pos unfit)),
      fun mixing orphan => request_next s p t .rebind (some c) (rebindBody p n c) hr hp hg _ _ _
        (body.trans (if_neg (not_or.mpr ⟨not_not.mpr mixing, not_not.mpr orphan⟩))) rfl rfl⟩

/-! ### SEAL that seals no lot (R40, R41) -/

/-- SEAL by the holder goes on with the bound lot's dosed figures, then with its ash and the target cell (R40). -/
theorem sealBody_bound (s : State) (p : PortName) (c cell k : Nat) (b : Binding) (r : LotRecord) (hcell : cell ≤ 95)
    (hc : s.channel c = some b) (hb : b.holder = p) (hl : liveLot s b.lot k r) :
    sealBody p c cell s = match r.dosed with
      | none => (s, refuse .state [])
      | some d =>
        if r.carriedAsh.getD 0 + d.ash = 0 then s.sealEmpty r.number k (r.reservation.getD 0)
        else if (s.cell cell).closed then (s, refuse .cellClosed (laneFields (s.cell cell)))
        else if !hasRoom (s.cell cell) then (s, refuse .laneFull (laneFields (s.cell cell)))
        else if settlementPasses s.account (r.reservation.getD 0) d.ash then (s, refuse .range [])
        else (s.sealInto k cell r d, doneWith (sealFields s (s.sealInto k cell r d) k r d)) :=
  (if_neg (Nat.not_lt.mpr hcell)).trans
    (onChannel_clean s p c true true b k r _ hc hb (ite_self true) hl)

/-- Settles O22, by the target cell, the lot's figures and the account's bound. -/
theorem sealIsRefusedInOrder : Obligations.SealIsRefusedInOrder := by
  intro p t c cell s h hw mode
  have hg := gate_ready_windowed s p .mixer c h hw .sealLot rfl (bne_iff_ne.mpr mode)
  obtain ⟨hr, hp, -⟩ := h
  have refused (o : OutcomeCode) (f : List Machine.Field)
      (hb : sealBody p c cell (s.received p t) = (s.received p t, refuse o f)) :
      exec (.sealLot p t c cell) s = .next (repliedWith s p t o f) :=
    request_next_refused s p t .sealLot (some c) (sealBody p c cell) hr hp hg o f hb
  refine ⟨fun beyond => refused .range [] (if_pos beyond), fun b k r hcell hc hb hl => ?_⟩
  have body := sealBody_bound (s.received p t) p c cell k b r hcell hc hb hl
  refine ⟨fun hd => refused .state [] ?_, fun d hd ash => ?_⟩
  · rw [body, hd]
  rw [hd] at body
  have ashy := body.trans (if_neg (Nat.ne_of_gt ash))
  refine ⟨fun closed => refused .cellClosed _ (ashy.trans (if_pos closed)), fun opened full => refused .laneFull _ ?_,
    fun opened room beyond => refused .range [] ?_⟩
  · have noRoom : hasRoom ((s.received p t).cell cell) = false := decide_eq_false (Nat.not_lt.mpr full)
    rw [ashy, if_neg (by rw [show ((s.received p t).cell cell).closed = false from opened]; decide), noRoom]
    rfl
  · have hasRoom : hasRoom ((s.received p t).cell cell) = true := decide_eq_true room
    have passes : settlementPasses (s.received p t).account (r.reservation.getD 0) d.ash = true := decide_eq_true beyond
    rw [ashy, if_neg (by rw [show ((s.received p t).cell cell).closed = false from opened]; decide), hasRoom, passes]
    rfl

/-- What SEAL of a lot without ash leaves (R41). -/
theorem sealEmpty_eq (s : State) (n k R : Nat) : s.sealEmpty n k R = ({ s with
      slots := (s.freeSlot k).slots, account := returnReservation s.account R
      channels := mapVector (freeIfBound n) s.channels, potLife := s.potLife.filter (·.lot != n) },
    refuse .emptyLot [.u24 n, .u32 R]) := by
  let given := ((s.withAccount (returnReservation s.account R)).leavePot n).freeChannelOf n
  have freed : given.freeSlot k = { given with slots := (s.freeSlot k).slots } := by
    rw [freeSlot_eq, freeSlot_slots given s k rfl]
  exact congrArg (fun u : State => (u, refuse .emptyLot [.u24 n, .u32 R])) freed

/-- Settles O23: the retirement that `sealEmpty` makes, answered. -/
theorem sealOfEmptyLotRetiresIt : Obligations.SealOfEmptyLotRetiresIt := by
  intro p t c cell k R b r d s h hw mode hcell hc hb hl hd empty hres
  have hg := gate_ready_windowed s p .mixer c h hw .sealLot rfl (bne_iff_ne.mpr mode)
  obtain ⟨hr, hp, -⟩ := h
  have body := sealBody_bound (s.received p t) p c cell k b r hcell hc hb hl
  rw [hd] at body
  have retired := body.trans (if_pos empty)
  have slots := freeSlot_slots (s.received p t) s k rfl
  rw [hres, liveLot_number s b.lot k r hl, sealEmpty_eq, slots] at retired
  exact request_next s p t .sealLot (some c) (sealBody p c cell) hr hp hg _ _ _ retired rfl rfl

end Sys2Proof.Machine
end

section
/-! The refusals of OPEN in their order, and the remix OPEN that is taken (R30 to R36, R128, R136). -/

namespace Sys2Proof.Machine

/-! ### The checks from the recipe on (R31) -/

section

variable (s : State) (p : PortName) (c P : Nat) (ref : RecipeRef) (parent : Option Parent) (v : RecipeValues)

theorem openRecipe_noRecipe (hv : (s.recipe ref).values = none) :
    s.openRecipe p c P ref parent = (s, refuse .noRecipe []) := by
  unfold State.openRecipe
  rw [hv]

theorem openRecipe_busy (hv : (s.recipe ref).values = some v) (busy : s.committing ref = true) :
    s.openRecipe p c P ref parent = (s, refuse .busy []) := by
  unfold State.openRecipe
  rw [hv]
  dsimp only
  rw [if_pos busy]

theorem openRecipe_short (hv : (s.recipe ref).values = some v) (idle : s.committing ref = false)
    (short : s.account.balance < P) : s.openRecipe p c P ref parent = (s, refuse .short []) := by
  unfold State.openRecipe
  rw [hv]
  dsimp only
  rw [idle, if_neg Bool.false_ne_true, if_pos short]

theorem openRecipe_noSlot (hv : (s.recipe ref).values = some v) (idle : s.committing ref = false)
    (enough : P ≤ s.account.balance) (full : s.lowestFree = none) :
    s.openRecipe p c P ref parent = (s, refuse .noSlot []) := by
  unfold State.openRecipe
  rw [hv]
  dsimp only
  rw [idle, if_neg Bool.false_ne_true, if_neg (Int.not_lt.mpr enough), full]

/-- With a slot for the lot, the last check is that a number is left (R11, R31). -/
theorem openRecipe_slot (k : Nat) (hv : (s.recipe ref).values = some v) (idle : s.committing ref = false)
    (enough : P ≤ s.account.balance) (hk : s.lowestFree = some k) : s.openRecipe p c P ref parent =
      if s.counter.exhausted then (s, refuse .numbers [])
      else (s.openInto p k c P ref (snapshotOf v) parent, doneWith (openFields s ref (snapshotOf v) parent)) := by
  unfold State.openRecipe
  rw [hv]
  dsimp only
  rw [idle, if_neg Bool.false_ne_true, if_neg (Int.not_lt.mpr enough), hk]

/-- Steps 8 to 12 of R31: each check that fails gives its refusal, where the ones before it passed. `Q` is what follows
from a refusal that changes nothing. -/
theorem openRecipe_refusals (Q : OutcomeCode → Prop)
    (hQ : ∀ o, s.openRecipe p c P ref parent = (s, refuse o []) → Q o) :
    ((s.recipe ref).values = none → Q .noRecipe) ∧
    ∀ v, (s.recipe ref).values = some v →
      (s.committing ref = true → Q .busy) ∧
      (s.committing ref = false →
        (s.account.balance < P → Q .short) ∧
        (P ≤ s.account.balance →
          (s.lowestFree = none → Q .noSlot) ∧
          (s.lowestFree ≠ none → s.counter.exhausted = true → Q .numbers))) := by
  refine ⟨fun hv => hQ _ (openRecipe_noRecipe s p c P ref parent hv), fun v hv =>
    ⟨fun busy => hQ _ (openRecipe_busy s p c P ref parent v hv busy), fun idle =>
    ⟨fun short => hQ _ (openRecipe_short s p c P ref parent v hv idle short), fun enough =>
    ⟨fun full => hQ _ (openRecipe_noSlot s p c P ref parent v hv idle enough full), fun room exhausted => hQ _ ?_⟩⟩⟩⟩
  obtain ⟨k, hk⟩ := Option.ne_none_iff_exists'.mp room
  exact (openRecipe_slot s p c P ref parent v k hv idle enough hk).trans (if_pos exhausted)

end

/-! ### A first mix and a remix up to the recipe (R31 to R33) -/

/-- A first mix on a FREE channel goes on to its recipe with the pending bank applied (R31, R32). -/
theorem openBody_free (s : State) (p : PortName) (c n P : Nat) (hc : c ≤ 3) (hn : n ≤ 7) (h1 : 100 ≤ P) (h2 : P ≤ 60000)
    (hf : s.channel c = none) : openBody p c n P s =
      State.openRecipe { s with
        bank := ⟨s.bank.pending.getD s.bank.active, none⟩
        bankWrites := if s.bank.pending = none then s.bankWrites
          else s.bankWrites ++ [⟨s.bank.pending.getD s.bank.active, none⟩] }
        p c P ⟨s.bank.pending.getD s.bank.active, n⟩ none := by
  unfold openBody
  rw [if_neg (by omega), if_neg (not_not.mpr hf)]
  dsimp only
  rw [applyPendingBank_eq]

/-- What a remix does with its parent, once the parent has been checked (R33). -/
def remixParent (p : PortName) (c n P : Nat) (s : State) (k : Nat) (r : LotRecord) : State × Reply :=
  if r.state ≠ .extracted then (s, refuse .state [])
  else if hasHold r.holds .audit then (s, refuse .held [holdsField r.holds])
  else if 1 < r.generation then (s, refuse .limit [])
  else if 60000 < r.ashMass.getD 0 then (s, refuse .range [])
  else s.openRemix p c n P k r

/-- A remix on a FREE channel goes on to its parent (R31, R33). -/
theorem remixBody_free (s : State) (p : PortName) (c n P m : Nat) (hc : c ≤ 3) (hn : n ≤ 7) (h2 : P ≤ 60000)
    (h3 : 1 ≤ m) (h4 : m ≤ Config.maxLot) (hf : s.channel c = none) :
    remixBody p c n P m s = s.onLot m (remixParent p c n P) := by
  unfold remixBody
  rw [if_neg (by omega), if_neg (not_not.mpr hf)]
  rfl

/-- A parent that passes the checks of R33, and has a recipe, gives its bank to the recipe of the remix (R33, R136). -/
theorem remixParent_fit (s : State) (p : PortName) (c n P k : Nat) (r : LotRecord) (x : LotRecipe)
    (extracted : r.state = .extracted) (sound : hasHold r.holds .audit = false) (generation : r.generation ≤ 1)
    (mass : r.ashMass.getD 0 ≤ 60000) (hx : r.recipe = some x) : remixParent p c n P s k r =
      s.openRecipe p c P ⟨x.ref.bank, n⟩ (some ⟨k, r.number, r.generation, r.ashMass.getD 0⟩) := by
  unfold remixParent State.openRemix
  rw [if_neg (not_not.mpr extracted), sound, if_neg Bool.false_ne_true, if_neg (Nat.not_lt.mpr generation),
    if_neg (Nat.not_lt.mpr mass), hx]

/-- Settles O16: the ranges and the channel, then for a first mix the recipe, and for a remix the parent before it. -/
theorem openIsRefusedInOrder : Obligations.OpenIsRefusedInOrder := by
  intro p t c n P s h hw mode bank refused
  have hg := gate_ready_windowed s p .mixer c h hw .openLot rfl (beq_iff_eq.mpr mode)
  obtain ⟨hr, hp, -⟩ := h
  let S := s.received p t
  have first (o : OutcomeCode) (f : List Machine.Field) (hb : openBody p c n P S = (S, refuse o f)) :
      exec (.openLot p t c n P) s = .next (repliedWith s p t o f) :=
    request_next_refused s p t .openLot (some c) (openBody p c n P) hr hp hg o f hb
  have remix (m : Nat) (o : OutcomeCode) (f : List Machine.Field) (hb : remixBody p c n P m S = (S, refuse o f)) :
      exec (.remixOpen p t c n P m) s = .next (repliedWith s p t o f) :=
    request_next_refused s p t .openLot (some c) (remixBody p c n P m) hr hp hg o f hb
  have bound (b : Binding) (hb : S.channel c = some b) : S.channel c ≠ none := by
    rw [hb]
    exact Option.some_ne_none b
  refine ⟨fun beyond => first .range [] (if_pos beyond), fun hc hn h1 h2 => ⟨fun b hb => first _ _ ?_, fun hf => ?_⟩,
    fun m beyond => remix m .range [] (if_pos beyond),
    fun hc hn h2 m h3 h4 => ⟨fun b hb => remix m _ _ ?_, fun hf => ?_⟩⟩
  · have taken : S.channel c ≠ none := bound b hb
    unfold openBody
    rw [if_neg (by omega), if_pos taken]
    exact refuseChannel_bound S c b hb
  · have body := openBody_free S p c n P hc hn h1 h2 hf
    let applied : State := { S with
      bank := ⟨bank, none⟩
      bankWrites := if s.bank.pending = none then s.bankWrites else s.bankWrites ++ [⟨bank, none⟩] }
    exact openRecipe_refusals applied p c P ⟨bank, n⟩ none (fun o => exec (.openLot p t c n P) s = .next (refused o))
      fun o ho => request_next s p t .openLot (some c) (openBody p c n P) hr hp hg _ _ _ (body.trans ho) rfl rfl
  · have taken : S.channel c ≠ none := bound b hb
    unfold remixBody
    rw [if_neg (by omega), if_pos taken]
    exact refuseChannel_bound S c b hb
  · have body := remixBody_free S p c n P m hc hn h2 h3 h4 hf
    refine ⟨fun unknown => remix m .unknown [] (body.trans (onLot_unknown S m _ h3 h4 unknown)), fun k r hl => ?_⟩
    have parent := body.trans (onLot_clean S m k r (remixParent p c n P) hl)
    refine ⟨fun other => remix m .state [] (parent.trans (if_pos other)), fun extracted => ?_⟩
    have checked := parent.trans (if_neg (not_not.mpr extracted))
    refine ⟨fun held => remix m .held _ (checked.trans (if_pos held)), fun sound => ?_⟩
    have unheld := checked.trans (if_neg (by rw [sound]; exact Bool.false_ne_true))
    refine ⟨fun late => remix m .limit [] (unheld.trans (if_pos late)),
      fun early heavy => remix m .range [] (unheld.trans ((if_neg (Nat.not_lt.mpr early)).trans (if_pos heavy))),
      fun early light => ⟨fun bare => remix m .noRecipe [] ?_, fun x hx => ?_⟩⟩
    · rw [unheld, if_neg (Nat.not_lt.mpr early), if_neg (Nat.not_lt.mpr light)]
      unfold State.openRemix
      rw [bare]
    · have fit := parent.trans (remixParent_fit S p c n P k r x extracted sound early light hx)
      exact openRecipe_refusals S p c P ⟨x.ref.bank, n⟩ _
        (fun o => exec (.remixOpen p t c n P m) s = .next (repliedWith s p t o []))
        fun o ho => remix m o [] (fit.trans ho)

/-! ### The remix that is taken (R33 to R36, R128) -/

/-- A remix with no pot life due: the child stands opened, and then the parent's slot is freed (R35, R128). -/
theorem openInto_remix (s : State) (p : PortName) (k c P : Nat) (ref : RecipeRef) (K : Snapshot) (x : Parent)
    (due : nothingDue s) (hd : s.clock < deadlineOf s.clock K.potLife) :
    s.openInto p k c P ref K (some x) = (openedState s p k c P ref K (some x)).freeSlot x.slot := by
  have quiet : nothingDue ((openedState s p k c P ref K (some x)).freeSlot x.slot) := by
    rw [freeSlot_eq]
    exact nothingDue_insertBy s.clock ⟨s.counter.next, deadlineOf s.clock K.potLife⟩ s.potLife due hd
  exact (openInto_eq s p k c P ref K (some x)).trans (judgePotLife_none _ quiet)

/-- Settles O17: the opened state without the parent, answered. -/
theorem remixPassesAshToChild : Obligations.RemixPassesAshToChild := by
  intro p t c n P m k kp M q x v s h hw mode hc hn h2 hf hl extracted sound generation hM mass hx hv idle enough hk hnum
    due hd deadline child
  have hg := gate_ready_windowed s p .mixer c h hw .openLot rfl (beq_iff_eq.mpr mode)
  obtain ⟨hr, hp, -⟩ := h
  let S := s.received p t
  let ref : RecipeRef := ⟨x.ref.bank, n⟩
  let parent : Parent := ⟨kp, m, q.generation, M⟩
  have ash : q.ashMass.getD 0 = M := by
    rw [hM]
    rfl
  have given : ¬ S.counter.exhausted = true := by
    rw [show S.counter.exhausted = false from hnum]
    exact Bool.false_ne_true
  have recipe : remixBody p c n P m S = S.openRecipe p c P ref (some parent) := by
    rw [remixBody_free S p c n P m hc hn h2 hl.1 hl.2.1 hf, onLot_clean S m kp q _ hl,
      remixParent_fit S p c n P kp q x extracted sound generation (ash.trans_le mass) hx, ash,
      liveLot_number s m kp q hl]
  let opened := openedState S p k c P ref (snapshotOf v) (some parent)
  have freed : opened.freeSlot kp = { opened with slots := ((s.writeLot k child).freeSlot kp).slots } := by
    rw [freeSlot_eq, freeSlot_slots opened (s.writeLot k child) kp rfl]
  have taken := recipe.trans ((openRecipe_slot S p c P ref (some parent) v k hv idle enough hk).trans (if_neg given))
  rw [openInto_remix S p k c P ref (snapshotOf v) parent due hd,
    show opened.freeSlot parent.slot = _ from freed] at taken
  exact request_next s p t .openLot (some c) (remixBody p c n P m) hr hp hg _ _ _ taken rfl rfl

end Sys2Proof.Machine
end

section
/-! CHANNEL STATUS, CELL STATUS and QUEUE STATUS over clean lots (R38, R55, R71, R72, R113). -/

namespace Sys2Proof.Machine

/-! ### CHANNEL STATUS (R55) -/

/-- The check of a clean bound lot leaves the channel to be answered as it stands (R55). -/
theorem channelStatusBody_clean (s : State) (c : Nat) (clean : allClean s) : channelStatusBody c s =
    (s, doneWith (channelFields (s.channel c) ++ boundFields s ((s.channel c).bind fun b => s.recordOf b.lot) ++
      s.orphanFields)) := by
  have checked : (match s.channel c with
      | some b => s.checkLot b.lot
      | none => s) = s := by
    cases s.channel c with
    | none => rfl
    | some b => exact checkLot_clean s b.lot clean
  have bound : (match s.channel c with
      | some b => s.recordOf b.lot
      | none => none) = (s.channel c).bind fun b => s.recordOf b.lot := by
    cases s.channel c <;> rfl
  rw [← bound]
  exact congrArg (fun u : State => (u, doneWith (channelFields (u.channel c) ++
    boundFields u (match u.channel c with
      | some b => u.recordOf b.lot
      | none => none) ++ u.orphanFields))) checked

/-! ### CELL STATUS (R71) -/

/-- The answer of CELL STATUS, field by field (R71). -/
theorem cellFields_eq (s : State) (c : Nat) : let x := s.cell c
    s.cellFields c =
      [Field.u8 c, Field.u8 (if x.closed then 1 else 0), Field.u8 (if x.faulty then 1 else 0), Field.u16 x.lane.length,
        Field.u16 x.reservations.length, Field.u16 (6 - (x.lane.length + x.reservations.length)),
        Field.u16 x.reservations.length] ++ x.reservations.map (fun n => Field.u24 n) ++
        [Field.u8 (if x.lastValid.isSome then 1 else 0), Field.i16 (x.lastValid.getD 0), Field.u32 x.lastStamp,
          Field.u8 x.misses, Field.u16 x.lane.length] ++ x.lane.zipIdx.flatMap (laneEntryFields s) ++
        s.blockingFields c := by
  intro x
  have lane : listField (laneEntryFields s) x.lane.zipIdx =
      .u16 x.lane.length :: x.lane.zipIdx.flatMap (laneEntryFields s) := by
    unfold listField
    rw [List.length_zipIdx]
  have reserved : listField (fun n => [Machine.Field.u24 n]) x.reservations =
      .u16 x.reservations.length :: x.reservations.map .u24 := by
    unfold listField
    rw [List.map_eq_flatMap]
  unfold State.cellFields
  dsimp only
  rw [show s.cell c = x from rfl, lane, reserved]
  cases x.lastValid <;>
    simp only [flag, laneFields, Option.isSome, Option.getD, if_true, Bool.false_eq_true, if_false, List.append_assoc,
      List.cons_append, List.nil_append]

/-- CELL STATUS over clean lots reads the cell (R71). -/
theorem cellStatusBody_clean (s : State) (c : Nat) (hc : c ≤ 95) (clean : allClean s) :
    cellStatusBody c s = (s, doneWith (s.cellFields c)) := by
  unfold cellStatusBody
  rw [if_neg (Nat.not_lt.mpr hc), foldl_checkLot_clean _ s clean]

/-! ### QUEUE STATUS (R113) -/

/-- The answer of QUEUE STATUS, field by field (R113). -/
theorem queueFields_eq (s : State) : s.queueFields =
    [Field.u8 s.queue.length, Field.u8 s.bench.length, Field.u16 (64 - (s.queue.length + s.bench.length)),
      Field.u16 s.queue.length] ++ s.queue.zipIdx.flatMap (queuedFields s) ++ [Field.u16 s.bench.length] ++
      s.bench.flatMap (benchFields s) ++
      [Field.u16 s.waitingLots.length, Field.u16 (s.waitingLots.take 16).length] ++
      (s.waitingLots.take 16).flatMap (fun w => [Field.u24 w.number, Field.u32 w.stamp]) ++
      [Field.u16 s.parkedLots.length, Field.u16 (s.parkedLots.take 16).length] ++
      (s.parkedLots.take 16).flatMap fun r => [Field.u24 r.number, Field.u8 r.holds.toNat] := by
  have queued : listField (queuedFields s) s.queue.zipIdx =
      .u16 s.queue.length :: s.queue.zipIdx.flatMap (queuedFields s) := by
    unfold listField
    rw [List.length_zipIdx]
  unfold State.queueFields
  rw [queued]
  simp only [listField, holdsField, State.queueRoom, State.queueCount, List.append_assoc, List.cons_append,
    List.nil_append]

/-- QUEUE STATUS over clean lots reads the queue and the bench list (R113). -/
theorem queueStatusBody_clean (s : State) (clean : allClean s) : queueStatusBody s = (s, doneWith s.queueFields) := by
  unfold queueStatusBody
  rw [foldl_checkLot_clean _ s clean]

/-- Settles O26: the checks of clean lots change nothing, and each answer is read from the state. -/
theorem statusRequestsReadOnly : Obligations.StatusRequestsReadOnly := by
  refine ⟨fun p t c s h hw clean => ?_, fun p t c s h clean => ?_, fun p t s h clean => ?_⟩
  · have hg := gate_ready_windowed s p .mixer c h hw .channelStatus rfl rfl
    have body := channelStatusBody_clean (s.received p t) c clean
    refine ⟨fun free => ?_, fun b hb => ?_⟩
    · rw [show (s.received p t).channel c = none from free] at body
      exact request_next_refused s p t .channelStatus (some c) (channelStatusBody c) h.1 h.2.1 hg .done _ body
    · rw [show (s.received p t).channel c = some b from hb] at body
      exact request_next_refused s p t .channelStatus (some c) (channelStatusBody c) h.1 h.2.1 hg .done _ body
  · have hr : s.phase = .running := h.elim (·.1) (·.1.1)
    have hp : (s.port p).request = .ready := h.elim (·.2.1) (·.1.2.1)
    have hg : s.gate p .cellStatus (some c) = none := by
      rcases h with plant | ⟨yard, hw⟩
      · exact gate_open s p _ _ (inWindow_plant _ plant.2.2) (by rw [plant.2.2]; rfl) rfl
      · exact gate_ready_windowed s p .yard c yard hw .cellStatus rfl rfl
    refine ⟨fun beyond => ?_, fun hc => ?_⟩
    · exact request_next_refused s p t .cellStatus (some c) (cellStatusBody c) hr hp hg .range [] (if_pos beyond)
    · intro x
      have body := cellStatusBody_clean (s.received p t) c hc clean
      rw [cellFields_eq] at body
      exact request_next_refused s p t .cellStatus (some c) (cellStatusBody c) hr hp hg .done _ body
  · have hr : s.phase = .running := h.elim (·.1) (·.1)
    have hp : (s.port p).request = .ready := h.elim (·.2.1) (·.2.1)
    have hg : s.gate p .queueStatus none = none :=
      h.elim (fun plant => gate_ready s p .plant plant .queueStatus rfl rfl)
        (fun lab => gate_ready s p .lab lab .queueStatus rfl rfl)
    have body := queueStatusBody_clean (s.received p t) clean
    rw [queueFields_eq] at body
    exact request_next_refused s p t .queueStatus none queueStatusBody hr hp hg .done _ body

end Sys2Proof.Machine
end

section
/-! The clock: its advance, CLOCK, and the pot lives they reach (R49, R75, R181). -/

namespace Sys2Proof.Machine

/-- The state in which a minute has ended while the part is at work, before the pot lives are judged (R75, R181). -/
def roundBegun (s : State) : State := { s with clock := s.clock + 1, scan := some ⟨0, s.clock + 1⟩ }

theorem exec_clockAdvance (s : State) : exec .clockAdvance s = .next (if s.clock < Config.maxClock then
    if s.phase = .running then (roundBegun s).judgePotLife else { s with clock := s.clock + 1 }
    else s) := rfl

/-- The round that begins with the minute has no part in the judgement (R49, R75). -/
theorem potLifeJudged_roundBegun (s : State) (ordered : potOrdered s.potLife) :
    potLifeJudged { s with clock := s.clock + 1 } (roundBegun s).judgePotLife :=
  potLifeJudged_congr { s with clock := s.clock + 1 } (roundBegun s) _ _ rfl rfl rfl rfl (fun _ => ⟨rfl, rfl⟩) rfl
    (fun _ => rfl) (potLifeJudged_judgePotLife (roundBegun s) ordered)

/-- CLOCK with a value that is not behind the clock sets it, and judges the list (R181). -/
theorem clockBody_forward (s : State) (m : Nat) (h1 : s.clock ≤ m) (h2 : m ≤ 4294967295) : clockBody (some m) s =
    (State.judgePotLife { s with clock := m }, doneWith [.u32 s.clock, .u32 m]) :=
  if_neg (not_or.mpr ⟨Nat.not_lt.mpr h1, Nat.not_lt.mpr h2⟩)

/-- Settles O31: the minute that ends, at work or not, and the value that CLOCK is given. -/
theorem clockMovesForward : Obligations.ClockMovesForward := by
  refine ⟨fun s => ⟨fun greatest => ?_, fun below idle => ?_, fun below work => ?_⟩, fun p t s h => ?_⟩
  · rw [exec_clockAdvance, if_neg (Nat.not_lt.mpr greatest.ge)]
  · rw [exec_clockAdvance, if_pos below, if_neg idle]
  · have advanced := exec_clockAdvance s
    rw [if_pos below, if_pos work] at advanced
    refine ⟨_, advanced, judgePotLife_eq (roundBegun s), portsKept_judgePotLife (roundBegun s),
      potLifeJudged_roundBegun s, fun early => ?_⟩
    rw [judgePotLife_none (roundBegun s) early]
    exact ⟨rfl, rfl, rfl⟩
  · have hg := gate_plant s p h .clock
    obtain ⟨hr, hp, -⟩ := h
    refine ⟨request_next_refused s p t .clock none (clockBody none) hr hp hg .done _ rfl, fun m => ⟨fun back => ?_,
      fun h1 h2 => ?_⟩⟩
    · exact request_next_refused s p t .clock none (clockBody (some m)) hr hp hg .range [] (if_pos back)
    · have body := clockBody_forward (s.received p t) m h1 h2
      refine ⟨?_, fun early => ?_⟩
      · obtain ⟨s', taken, answered, judged, frame⟩ := request_judged s { s with clock := m } _ p t .clock none
          (clockBody (some m)) _ hr hp hg body rfl rfl
        exact ⟨s', taken, frame, answered, judged⟩
      · rw [judgePotLife_none _ early] at body
        exact request_next s p t .clock none (clockBody (some m)) hr hp hg _ _ _ body rfl rfl

end Sys2Proof.Machine
end

section
/-! A port that falls silent (R50, R100, R110, R114, R148, R172). -/

namespace Sys2Proof.Machine

/-! ### Channels that are freed (R50) -/

/-- Channels that are freed, one at least: ORPHAN is raised, and beside it the slots and the channels alone change. -/
theorem orphanChannels_some (s : State) (cs : List Nat) (h : cs ≠ []) : s.orphanChannels cs = { s with
    slots := (s.orphanChannels cs).slots, channels := (s.orphanChannels cs).channels
    ports := (s.raise .orphan).ports } := by
  obtain ⟨a, b, freed⟩ := foldl_orphanChannel_frame cs s
  unfold State.orphanChannels
  rw [if_neg h, freed]
  rfl

/-- The lots of the channels that meet a condition become orphans (R50). -/
theorem orphansMade_where (s : State) (q : Nat → Binding → Bool) (freed : Nat → Prop)
    (h : ∀ c, (∃ b, s.channel c = some b ∧ q c b = true) ↔ freed c) :
    orphansMade s (s.orphanChannels (s.channelsWhere q)) freed := by
  have freed : (fun c => c ∈ s.channelsWhere q) = freed :=
    funext fun c => propext ((mem_channelsWhere s q c).trans (h c))
  rw [← freed]
  exact orphansMade_orphanChannels (s.channelsWhere q) s

/-- The channels that meet a condition are FREE, and the others as they were (R50). -/
theorem channel_orphans_where (s : State) (q : Nat → Binding → Bool) (c : Nat) :
    (s.orphanChannels (s.channelsWhere q)).channel c = (s.channel c).filter fun b => !q c b := by
  rw [channel_orphans]
  cases h : s.channel c with
  | none => exact ite_self none
  | some b =>
    rw [Option.filter_some]
    cases hq : q c b with
    | false =>
      refine (if_neg fun listed => ?_).trans (if_pos rfl).symm
      obtain ⟨b', hb', hq'⟩ := (mem_channelsWhere s q c).mp listed
      rw [Option.some.inj (h.symm.trans hb'), hq'] at hq
      cases hq
    | true => exact (if_pos ((mem_channelsWhere s q c).mpr ⟨b, h, hq⟩)).trans (if_neg Bool.false_ne_true).symm

/-! ### The port that is ABSENT (R172) -/

/-- The state in which the port is ABSENT and has handed nothing back yet (R172). -/
def silenced (s : State) (p : PortName) : State :=
  s.setPort p { s.port p with present := false, idleTimer := none }

/-- The channels of a mixer port that falls silent are freed (R50). -/
def silencedChannels (s : State) (p : PortName) : State :=
  (silenced s p).orphanChannels (s.channelsWhere fun _ b => decide (b.holder = p))

theorem makeAbsent_eq (s : State) (p : PortName) : s.makeAbsent p =
    (if (s.port p).role = .mixer then silencedChannels s p else silenced s p).returnBench p := rfl

theorem makeAbsent_mixer (s : State) (p : PortName) (h : (s.port p).role = .mixer) :
    s.makeAbsent p = (silencedChannels s p).returnBench p := by
  rw [makeAbsent_eq, if_pos h]

/-- A port that holds no channel as mixer has its bench lots alone to hand back (R110, R172). -/
theorem makeAbsent_unheld (s : State) (p : PortName)
    (h : (s.port p).role ≠ .mixer ∨ ∀ c b, s.channel c = some b → b.holder ≠ p) :
    s.makeAbsent p = (silenced s p).returnBench p := by
  by_cases mixer : (s.port p).role = .mixer
  · have none : (s.channelsWhere fun _ b => decide (b.holder = p)) = [] := by
      rw [List.eq_nil_iff_forall_not_mem]
      intro c hc
      obtain ⟨b, hb, holder⟩ := (mem_channelsWhere s _ c).mp hc
      exact (h.resolve_left (not_not.mpr mixer)) c b hb (of_decide_eq_true holder)
    rw [makeAbsent_mixer s p mixer]
    unfold silencedChannels
    rw [none]
    rfl
  · rw [makeAbsent_eq, if_neg mixer]

/-- The bench lots that a state hands back, as the slots, the queue and the bench list show it (R110). -/
theorem returnBench_eq (s : State) (p : PortName) : s.returnBench p = { s with
    slots := (s.returnBench p).slots, queue := (s.returnBench p).queue, bench := (s.returnBench p).bench } := by
  obtain ⟨a, b, c, frame⟩ := returnBench_frame s p
  rw [frame]

theorem exec_idleTimerExpiry (s : State) (p : PortName) (hr : s.phase = .running) (hp : (s.port p).present = true)
    (ht : (s.port p).idleTimer ≠ none) : exec (.idleTimerExpiry p) s = .next (s.makeAbsent p) :=
  congrArg Host.Outcome.next (if_pos ⟨hr, hp, ht⟩)

/-- Settles O48, by the channels that the port holds and the lots it tests. -/
theorem silentPortBecomesAbsent : Obligations.SilentPortBecomesAbsent := by
  refine fun p s hr => ⟨fun idle => ?_, fun hp ht => ?_⟩
  · refine congrArg Host.Outcome.next (if_neg fun ⟨_, present, timer⟩ => ?_)
    exact idle.elim (fun h => Bool.false_ne_true (h.symm.trans present)) timer
  intro absent holds tests
  have expired := exec_idleTimerExpiry s p hr hp ht
  refine ⟨fun unheld => ?_, fun mixer held => ?_⟩
  · rw [makeAbsent_unheld s p unheld] at expired
    refine ⟨fun idle => ?_, _, expired, ?_, returnBench_eq (silenced s p) p⟩
    · rw [expired, returnBench_none (silenced s p) p fun e he tester => idle ⟨e, he, tester⟩]
      rfl
    · exact benchReturned_congr (silenced s p) s _ p rfl rfl rfl (benchReturned_returnBench (silenced s p) p)
  · rw [makeAbsent_mixer s p mixer] at expired
    have some : (s.channelsWhere fun _ b => decide (b.holder = p)) ≠ [] := by
      obtain ⟨c, b, hb, holder⟩ := held
      exact List.ne_nil_of_mem ((mem_channelsWhere s _ c).mpr ⟨b, hb, decide_eq_true holder⟩)
    have frame : silencedChannels s p = { s with
        slots := (silencedChannels s p).slots, channels := (silencedChannels s p).channels
        ports := (State.raise { s with ports := absent } .orphan).ports } :=
      orphanChannels_some (silenced s p) _ some
    have channels (u : State) (h : u.channels = (silencedChannels s p).channels) (c : Nat) :
        u.channel c = match s.channel c with
          | .some b => if b.holder = p then none else .some b
          | none => none := by
      refine (congrArg (fun v : Vector Channel 4 => v.toList.getD c none) h).trans
        ((channel_orphans_where (silenced s p) (fun _ b => decide (b.holder = p)) c).trans ?_)
      show (s.channel c).filter _ = _
      cases s.channel c with
      | none => rfl
      | some b => by_cases holder : b.holder = p <;> simp [holder]
    have orphans : orphansMade s (silencedChannels s p) fun c => ∃ b, s.channel c = .some b ∧ holds b :=
      orphansMade_where (silenced s p) (fun _ b => decide (b.holder = p)) _ fun c =>
        exists_congr fun b => and_congr_right fun _ => decide_eq_true_iff
    have queue : s.queue = (silencedChannels s p).queue := by rw [frame]
    have bench : s.bench = (silencedChannels s p).bench := by rw [frame]
    have freed : ((silencedChannels s p).returnBench p).channels = (silencedChannels s p).channels :=
      (returnBench_bench (silencedChannels s p) p).2
    refine ⟨fun idle => ⟨silencedChannels s p, ?_, channels _ rfl, orphans, frame⟩,
      { s with slots := (silencedChannels s p).slots, channels := ((silencedChannels s p).returnBench p).channels },
      _, expired, channels _ freed, rfl, orphans, ?_, ?_⟩
    · rw [expired, returnBench_none (silencedChannels s p) p fun e he tester => idle ⟨e, bench ▸ he, tester⟩]
    · exact benchReturned_congr (silencedChannels s p) _ _ p rfl queue bench
        (benchReturned_returnBench (silencedChannels s p) p)
    · have returned := returnBench_eq (silencedChannels s p) p
      generalize (silencedChannels s p).returnBench p = u at returned freed ⊢
      rw [freed, returned]
      generalize silencedChannels s p = v at frame ⊢
      rw [frame]

end Sys2Proof.Machine
end

section
/-! The warm restart and the reset line (R51, R79, R90, R114, R134, R143, R161, R171, R173, R177, R182, R183). -/

namespace Sys2Proof.Machine

/-- A warm start with its cause, whether a restart is still due, and the level of the reset line (R182). -/
def restarted (s : State) (cause : StartCause) (due line : Bool) : State :=
  { s.warmStart with phase := .starting cause, warmDue := due, resetLine := line }

/-- A warm start keeps what is due and the level of the line (R183). -/
theorem warmStart_due (s : State) : s.warmStart.warmDue = s.warmDue ∧ s.warmStart.resetLine = s.resetLine := by
  obtain ⟨-, -, -, frame⟩ := warmStart_facts s
  generalize s.warmStart = w at frame ⊢
  rw [frame]
  exact ⟨rfl, rfl⟩

/-- What a warm restart makes of the register, whatever began it (R51, R161, R183). -/
theorem restarted_facts (s : State) (cause : StartCause) (due line : Bool) : let s' := restarted s cause due line
    (∀ c, s'.channel c = none) ∧ storesLoaded s s' false ∧ startedSlots s s' ∧
      (∀ p, (s'.port p).present = true ∧ (s'.port p).request = .ready ∧ (s'.port p).answer = none ∧
        (s'.port p).idleTimer = none ∧ hasNotice (s'.port p).notices .restart = true ∧
        (s'.port p).notices = startNotices s (s'.port p).mask.kinds) ∧
      s' = { s with
        slots := s'.slots, channels := s'.channels, ports := s'.ports, recipes := s'.recipes, bank := s'.bank
        bankStored := s'.bankStored, bankCheckGood := true, bankWrites := [], commit := none, scan := none
        cyclePosition := 0, setup := s'.setup, mode := .pause, phase := .starting cause, warmDue := due
        resetLine := line } := by
  obtain ⟨-, channels, ports, frame⟩ := warmStart_facts s
  have stores := storesLoaded_warmStart s
  have slots := startedSlots_warmStart s
  have notices := notices_warmStart s
  unfold restarted
  generalize s.warmStart = w at *
  refine ⟨channels, stores, slots, fun p => ?_, ?_⟩
  · obtain ⟨present, request, answer, timer, restart⟩ := ports p
    exact ⟨present, request, answer, timer, restart, notices p⟩
  · rw [frame]

/-- A reset line that falls at work begins a warm restart (R182). -/
theorem exec_resetLineAssert (s : State) (hr : s.phase = .running) :
    exec .resetLineAssert s = .next (restarted s .resetLine s.warmDue true) := by
  have due := (warmStart_due s).1
  show execResetLineAssert s = _
  unfold execResetLineAssert restarted
  rw [hr, ← due]

/-- A warm restart that is due at work begins (R182). -/
theorem exec_warmRestart (s : State) (hr : s.phase = .running) (due : s.warmDue = true) :
    exec .warmRestart s = .next (restarted s .restart false s.resetLine) := by
  have line := (warmStart_due s).2
  show execWarmRestart s = _
  unfold execWarmRestart restarted
  rw [if_pos due, hr, ← line]

/-- A released line, during a start that is not cold, has the outage rule applied (R90, R182). -/
theorem exec_resetLineRelease (s : State) (cause : StartCause) (line : s.resetLine = true)
    (hp : s.phase = .starting cause) : exec .resetLineRelease s =
      .next (if cause = .cold then { s with resetLine := false }
        else State.outageRule { s with resetLine := false }) := by
  show execResetLineRelease s = _
  unfold execResetLineRelease
  rw [if_pos line, hp]

/-- Settles O50: the restart that is due or that the line begins, and the line's level in each phase. -/
theorem warmRestartKeepsTheRegister : Obligations.WarmRestartKeepsTheRegister := by
  refine ⟨fun s hr i cause begun => ?_, fun s idle => ?_, fun s hp => ?_, fun s cause hp => ?_, fun s hp => ?_,
    fun s released => ?_, fun s cause line hp => ⟨fun cold => ?_, fun warm => ?_⟩⟩
  · rcases begun with ⟨rfl, due, rfl⟩ | ⟨rfl, rfl⟩
    · exact ⟨_, exec_warmRestart s hr due, restarted_facts s .restart false s.resetLine⟩
    · exact ⟨_, exec_resetLineAssert s hr, restarted_facts s .resetLine s.warmDue true⟩
  · exact congrArg Host.Outcome.next (if_neg (by rw [idle]; exact Bool.false_ne_true))
  · show execWarmRestart s = _
    unfold execWarmRestart
    cases due : s.warmDue with
    | false => rw [if_neg Bool.false_ne_true, ← due]
    | true =>
      rw [if_pos rfl]
      cases h : s.phase with
      | running => exact absurd h hp
      | starting c => rfl
      | off => rfl
  · show execResetLineAssert s = _
    unfold execResetLineAssert
    rw [hp]
    rfl
  · show execResetLineAssert s = _
    unfold execResetLineAssert
    rw [hp]
  · exact congrArg Host.Outcome.next (if_neg (by rw [released]; exact Bool.false_ne_true))
  · rw [exec_resetLineRelease s cause line hp, if_pos cold]
  · have ruled := exec_resetLineRelease s cause line hp
    rw [if_neg warm] at ruled
    obtain ⟨applied, a, b, c, frame⟩ := outageApplied_outageRule { s with resetLine := false }
    have kept := portsKept_outageRule { s with resetLine := false }
    refine ⟨_, ruled, applied, kept, ?_⟩
    rw [frame]

end Sys2Proof.Machine
end

section
/-! PORT SETUP (R50, R52, R100, R110, R111, R148, R170, R171, R177). -/

namespace Sys2Proof.Machine

/-! ### The role and window of a setup (R170) -/

/-- The fields of a PORT SETUP are in range for the role (R170). -/
def setupFits (r : Role) (first last : Nat) : Prop :=
  (r = .mixer → first ≤ last ∧ last ≤ 3) ∧ (r = .yard → first ≤ last ∧ last ≤ 95) ∧
    (r = .plant ∨ r = .lab → first = 0 ∧ last = 0)

/-- The role and window that a PORT SETUP in range gives a port (R163, R170). -/
def setupRole (r : Role) (first last : Nat) : PortRole :=
  ⟨r, if r = .mixer ∨ r = .yard then some ⟨first, last⟩ else none⟩

theorem setupOf_fits (r : Role) (first last : Nat) (h : setupFits r first last) :
    setupOf r first last = some (setupRole r first last) := by
  obtain ⟨mixer, yard, unwindowed⟩ := h
  cases r with
  | plant => exact if_pos (unwindowed (.inl rfl))
  | mixer => exact if_pos (mixer rfl)
  | lab => exact if_pos (unwindowed (.inr rfl))
  | yard => exact if_pos (yard rfl)

theorem setupOf_unfit (r : Role) (first last : Nat) (h : ¬ setupFits r first last) : setupOf r first last = none := by
  cases r with
  | plant => exact if_neg fun fits => h ⟨nofun, nofun, fun _ => fits⟩
  | mixer => exact if_neg fun fits => h ⟨fun _ => fits, nofun, by rintro (other | other) <;> cases other⟩
  | lab => exact if_neg fun fits => h ⟨nofun, nofun, fun _ => fits⟩
  | yard => exact if_neg fun fits => h ⟨nofun, fun _ => fits, by rintro (other | other) <;> cases other⟩

/-- Port A, an unknown port and an unknown role are refused before the window is looked at (R170). -/
theorem portSetupBody_range (port role first last : Nat) (s : State) (h : port = 0 ∨ 3 < port ∨ 3 < role) :
    portSetupBody port role first last s = (s, refuse .range []) := by
  have unknownRole (hr : 3 < role) : roleOfCode role = none := by
    obtain ⟨n, rfl⟩ := Nat.exists_eq_add_of_lt hr
    rw [show 3 + n + 1 = n + 4 by omega]
    rfl
  unfold portSetupBody
  rcases h with rfl | hp | hr
  · rfl
  · obtain ⟨n, rfl⟩ := Nat.exists_eq_add_of_lt hp
    rw [show 3 + n + 1 = n + 4 by omega]
    rfl
  · rw [unknownRole hr]
    match portOfCode port with
    | none => rfl
    | some .a => rfl
    | some .b => rfl
    | some .c => rfl
    | some .d => rfl

/-! ### The channels that a setup frees (R52) -/

/-- The channel is held by the port, and its new role and window exclude it (R52). -/
def setupExcludes (q : PortName) (r : Role) (first last c : Nat) (b : Binding) : Bool :=
  decide (b.holder = q ∧ ¬ (r = .mixer ∧ first ≤ c ∧ c ≤ last))

/-- A port may hold a channel under its new role and window (R52, R163). -/
theorem mayHold_assigned (x : Port) (r : Role) (first last c : Nat) :
    (decide ((assignRole x (setupRole r first last)).role = .mixer) &&
      inWindow (assignRole x (setupRole r first last)) c) = decide (r = .mixer ∧ first ≤ c ∧ c ≤ last) := by
  cases r with
  | mixer =>
    show (decide (first ≤ c) && decide (c ≤ last)) = _
    simp only [true_and, Bool.decide_and]
  | plant => exact (decide_eq_false fun h => by cases h.1).symm
  | lab => exact (decide_eq_false fun h => by cases h.1).symm
  | yard => exact (decide_eq_false fun h => by cases h.1).symm

theorem channelsWhere_setPort (s : State) (p : PortName) (v : Port) (f : Nat → Binding → Bool) :
    (s.setPort p v).channelsWhere f = s.channelsWhere f := rfl

theorem excludedChannels_assigned (s : State) (q : PortName) (r : Role) (first last : Nat) :
    (s.setPort q (assignRole (s.port q) (setupRole r first last))).excludedChannels q =
      s.channelsWhere (setupExcludes q r first last) := by
  unfold State.excludedChannels
  rw [port_setPort_same, channelsWhere_setPort]
  refine congrArg s.channelsWhere (funext fun c => funext fun b => ?_)
  rw [mayHold_assigned]
  simp only [setupExcludes, Bool.decide_and, decide_not]

/-! ### The ports after a setup (R170, R177) -/

/-- A setup changes the role, window and mask of its port, and ORPHAN reaches every port by its mask (R50, R170,
R177; log entry 21). -/
theorem port_setupInto (s : State) (q : PortName) (x : PortRole) (y : PortName) :
    let assigned := (s.setPort q (assignRole (s.port q) x)).port y
    (s.setupInto q x).port y = { assigned with
      notices := heard assigned.mask.kinds .orphan
        (!((s.setPort q (assignRole (s.port q) x)).excludedChannels q).isEmpty) (s.port y).notices } := by
  intro assigned
  obtain ⟨-, kept, -⟩ := setupInto_facts s q x
  let begun := setupBegun s q x
  have ports : (s.setupInto q x).ports = (begun.orphanChannels (begun.excludedChannels q)).ports := by
    rw [setupInto_eq]
    dsimp only
    split
    · rw [returnBench_eq]
    · rfl
  have before : assigned.notices = (s.port y).notices := by
    show ((s.setPort q (assignRole (s.port q) x)).port y).notices = _
    by_cases hy : y = q
    · rw [hy, port_setPort_same]
      rfl
    · rw [port_setPort_ne _ _ _ _ hy]
  have notices : ((s.setupInto q x).port y).notices = heard assigned.mask.kinds .orphan
      (!((s.setPort q (assignRole (s.port q) x)).excludedChannels q).isEmpty) (s.port y).notices := by
    rw [← before]
    exact (congrArg (fun z : Ports => (z.get y).notices) ports).trans
      (notices_orphanChannels begun (begun.excludedChannels q) y).1
  rw [← notices]
  exact congrArg (fun z : Port => { z with notices := ((s.setupInto q x).port y).notices }) (kept y)

/-- A port once the request on port `p` has been answered (R166). -/
def portAnswered (s : State) (p : PortName) (t : Nat) (body : List Machine.Field) (y : PortName) : Port :=
  if y = p then answeredPort (s.port y) t .done body none else s.port y

/-- A port once a setup of port `q`, asked for on port `p`, has been answered, but for its pending set (R166, R170). -/
def portAssigned (s : State) (p q : PortName) (t : Nat) (x : PortRole) (body : List Machine.Field)
    (y : PortName) : Port :=
  if y = q then assignRole (portAnswered s p t body y) x else portAnswered s p t body y

/-- `portAssigned` with ORPHAN pending where a channel was freed and the mask holds the kind (R50, R176). -/
def portAfterSetup (s : State) (p q : PortName) (t : Nat) (x : PortRole) (body : List Machine.Field) (freed : Bool)
    (y : PortName) : Port :=
  { portAssigned s p q t x body y with
    notices := heard (portAssigned s p q t x body y).mask.kinds .orphan freed (s.port y).notices }

/-- The port that a setup leaves, with the answer formed, is as the answered port that the setup is then made for. -/
theorem port_setupAnswered (s : State) (p q : PortName) (t : Nat) (x : PortRole) (body : List Machine.Field)
    (y : PortName) : (((s.received p t).setupInto q x).answer p t (doneWith body)).port y =
      portAfterSetup s p q t x body (!((s.received p t).setupFrees q x).isEmpty) y := by
  unfold State.answer portAfterSetup portAssigned portAnswered State.setupFrees
  by_cases hp : y = p
  · subst hp
    rw [port_setPort_same, port_setupInto, if_pos rfl]
    by_cases hq : y = q
    · subst hq
      rw [port_setPort_same, port_received_same, if_pos rfl]
      rfl
    · rw [port_setPort_ne _ q y _ hq, port_received_same, if_neg hq]
      rfl
  · rw [port_setPort_ne _ p y _ hp, port_setupInto, if_neg hp]
    by_cases hq : y = q
    · subst hq
      rw [port_setPort_same, port_received_ne s p y t hp, if_pos rfl]
    · rw [port_setPort_ne _ q y _ hq, port_received_ne s p y t hp, if_neg hq]

/-- A port that is not set up keeps all but its pending set, and the answer it may have been given (R166, R170). -/
theorem portAfterSetup_other (s : State) (p q : PortName) (t : Nat) (x : PortRole) (body : List Machine.Field)
    (freed : Bool) (y : PortName) (h : y ≠ q) :
    { portAfterSetup s p q t x body freed y with notices := (s.port y).notices } = portAnswered s p t body y := by
  have kept : portAssigned s p q t x body y = portAnswered s p t body y := if_neg h
  unfold portAfterSetup
  rw [kept]
  unfold portAnswered
  split <;> rfl

/-- The port that is set up has the role and window, the default mask of a role that is new, and keeps the rest (R170,
R177). -/
theorem portAfterSetup_same (s : State) (p q : PortName) (t : Nat) (x : PortRole) (body : List Machine.Field)
    (freed : Bool) : let y := portAfterSetup s p q t x body freed q
    (⟨y.role, y.window⟩ : PortRole) = x ∧
    (x.role ≠ (s.port q).role → y.mask = ⟨defaultMask x.role, x.role, true⟩) ∧
    (x.role = (s.port q).role → y.mask = (s.port q).mask) ∧
    { y with
        role := (s.port q).role, window := (s.port q).window, mask := (s.port q).mask, notices := (s.port q).notices } =
      portAnswered s p t body q := by
  have assigned : portAssigned s p q t x body q = assignRole (portAnswered s p t body q) x := if_pos rfl
  unfold portAfterSetup
  rw [assigned]
  unfold portAnswered
  split
  · exact ⟨rfl, fun other => if_neg other, fun same => if_pos same, rfl⟩
  · exact ⟨rfl, fun other => if_neg other, fun same => if_pos same, rfl⟩

/-! ### The record and the answer of a setup (R170, R171) -/

theorem beginSetupWrite_idle (x : SetupStore) (r : SetupRecord) (h : x.writing = none) :
    beginSetupWrite x r = { x with writing := some r } := by
  unfold beginSetupWrite
  rw [h]

theorem beginSetupWrite_waits (x : SetupStore) (r : SetupRecord) (h : x.writing ≠ none) :
    beginSetupWrite x r = { x with next := some r } := by
  unfold beginSetupWrite
  split
  case h_1 idle => exact absurd idle h
  case h_2 => rfl

theorem setupRecordOf_answer (u : State) (p : PortName) (t : Nat) (r : Reply) :
    setupRecordOf (u.answer p t r).ports = setupRecordOf u.ports := by
  cases p <;> rfl

theorem setupList_answer (u : State) (p : PortName) (t : Nat) (r : Reply) :
    (u.answer p t r).setupList = u.setupList := by
  cases p <;> rfl

theorem role_received (s : State) (p : PortName) (t : Nat) (y : PortName) :
    ((s.received p t).port y).role = (s.port y).role := by
  by_cases h : y = p
  · rw [h, port_received_same]
  · rw [port_received_ne s p y t h]

/-- The record that a setup writes, or has wait, is the one of the ports as it leaves them (R171). -/
theorem setup_setupInto (s : State) (q : PortName) (x : PortRole) :
    (s.setupInto q x).setup = beginSetupWrite s.setup (setupRecordOf (s.setupInto q x).ports) := by
  let assigned := s.setPort q (assignRole (s.port q) x)
  have now (y : PortName) : (⟨((s.setupInto q x).port y).role, ((s.setupInto q x).port y).window⟩ : PortRole) =
      ⟨(assigned.port y).role, (assigned.port y).window⟩ := by
    rw [port_setupInto]
  have record : setupRecordOf (s.setupInto q x).ports = setupRecordOf assigned.ports := by
    show SetupRecord.mk _ _ _ = SetupRecord.mk _ _ _
    rw [SetupRecord.mk.injEq]
    exact ⟨now .b, now .c, now .d⟩
  obtain ⟨a, b, c, freed⟩ := orphanChannels_frame (setupBegun s q x) ((setupBegun s q x).excludedChannels q)
  rw [record, setupInto_eq]
  dsimp only
  split
  · rw [returnBench_eq, freed]
    rfl
  · rw [freed]
    rfl

/-- The lots that a setup returns are those of a lab port that is lab no longer (R111). -/
theorem setupReturns_setupInto (s : State) (p q : PortName) (t : Nat) (x : PortRole) :
    (s.received p t).setupReturns ((s.received p t).setupInto q x) q =
      if (s.port q).role = .lab ∧ x.role ≠ .lab then s.benchOf q else [] := by
  unfold State.setupReturns
  rw [port_setupInto, port_setPort_same, role_received]
  rfl

/-! ### The channels and lots after a setup (R50, R52, R111) -/

/-- The channels that the port may hold no longer are FREE after a setup, and the others as they were (R52). -/
theorem channel_setupInto (s : State) (q : PortName) (r : Role) (first last c : Nat) :
    (s.setupInto q (setupRole r first last)).channel c =
      (s.channel c).filter fun b => !setupExcludes q r first last c b := by
  obtain ⟨-, -, channels, -⟩ := setupInto_facts s q (setupRole r first last)
  rw [channels, excludedChannels_assigned, ← channel_orphans, channel_orphans_where]

/-- The state in which a setup has freed its channels, before bench lots are returned (R50, R52). -/
def setupFreed (s : State) (q : PortName) (x : PortRole) : State :=
  (setupBegun s q x).orphanChannels ((setupBegun s q x).excludedChannels q)

theorem setupFreed_orphans (s : State) (q : PortName) (r : Role) (first last : Nat) :
    orphansMade s (setupFreed s q (setupRole r first last)) fun c =>
      ∃ b, s.channel c = some b ∧ b.holder = q ∧ ¬ (r = .mixer ∧ first ≤ c ∧ c ≤ last) := by
  have excluded : (setupBegun s q (setupRole r first last)).excludedChannels q =
      s.channelsWhere (setupExcludes q r first last) := excludedChannels_assigned s q r first last
  unfold setupFreed
  rw [excluded]
  exact orphansMade_where (setupBegun s q (setupRole r first last)) (setupExcludes q r first last) _ fun c =>
    exists_congr fun b => and_congr_right fun _ => decide_eq_true_iff

theorem setupFreed_frame (s : State) (q : PortName) (x : PortRole) :
    (setupFreed s q x).queue = s.queue ∧ (setupFreed s q x).bench = s.bench := by
  obtain ⟨a, b, c, frame⟩ := orphanChannels_frame (setupBegun s q x) ((setupBegun s q x).excludedChannels q)
  unfold setupFreed
  rw [frame]
  exact ⟨rfl, rfl⟩

/-- A setup that takes no port out of the lab frees channels alone (R111). -/
theorem setupInto_stays (s : State) (q : PortName) (x : PortRole) (h : ¬((s.port q).role = .lab ∧ x.role ≠ .lab)) :
    s.setupInto q x = setupFreed s q x := by
  rw [setupInto_eq]
  exact if_neg h

/-- A setup that takes a port out of the lab returns its bench lots too (R111). -/
theorem setupInto_leaves (s : State) (q : PortName) (x : PortRole) (h : (s.port q).role = .lab ∧ x.role ≠ .lab) :
    s.setupInto q x = (setupFreed s q x).returnBench q := by
  rw [setupInto_eq]
  exact if_pos h

/-! ### The setup that is taken and answered (R170) -/

section

variable (s : State) (p q : PortName) (t : Nat) (r : Role) (first last : Nat)

/-- The answer of a PORT SETUP taken: the setup of the four ports, the channels freed and the lots returned (R170). -/
def setupAnswer : List Machine.Field :=
  ((s.received p t).setupInto q (setupRole r first last)).setupList ++
    listField (fun c => [Field.u8 c]) (s.channelsWhere (setupExcludes q r first last)) ++
    listField (fun n => [Field.u24 n]) (if (s.port q).role = .lab ∧ r ≠ .lab then s.benchOf q else [])

/-- The state after a PORT SETUP taken. -/
def setupTaken : State :=
  ((s.received p t).setupInto q (setupRole r first last)).answer p t (doneWith (setupAnswer s p q t r first last))

theorem exec_portSetup (port role : Nat) (h : ready s p .plant) (mode : s.mode = .service)
    (hp : portOfCode port = some q) (hq : q ≠ .a) (hr : roleOfCode role = some r) (fits : setupFits r first last) :
    exec (.portSetup p t port role first last) s = .next (setupTaken s p q t r first last) := by
  have body : portSetupBody port role first last (s.received p t) =
      ((s.received p t).setupInto q (setupRole r first last), doneWith (setupAnswer s p q t r first last)) := by
    rw [portSetupBody_eq port role first last _ q r hp hq hr, setupOf_fits r first last fits]
    dsimp only
    rw [setupReturns_setupInto]
    unfold State.setupFrees
    rw [excludedChannels_assigned]
    rfl
  have taken := takeRequest_taken s p t .portSetup none (portSetupBody port role first last) h.1 h.2.1
    (gate_ready s p .plant h .portSetup rfl (beq_iff_eq.mpr mode))
  rw [body] at taken
  exact congrArg Host.Outcome.next taken

theorem port_setupTaken (y : PortName) : (setupTaken s p q t r first last).port y =
    portAfterSetup s p q t (setupRole r first last) (setupAnswer s p q t r first last)
      (!(s.channelsWhere (setupExcludes q r first last)).isEmpty) y := by
  have after := port_setupAnswered s p q t (setupRole r first last) (setupAnswer s p q t r first last) y
  unfold State.setupFrees at after
  rw [excludedChannels_assigned] at after
  exact after

/-- The record that a setup writes, or has wait, is the one of the ports as the answered request leaves them (R171). -/
theorem setup_setupTaken : (setupTaken s p q t r first last).setup =
    beginSetupWrite s.setup (setupRecordOf (setupTaken s p q t r first last).ports) := by
  unfold setupTaken
  rw [setupRecordOf_answer]
  exact setup_setupInto (s.received p t) q (setupRole r first last)

theorem channel_setupTaken (c : Nat) : (setupTaken s p q t r first last).channel c =
    (s.channel c).filter fun b => !setupExcludes q r first last c b :=
  channel_setupInto (s.received p t) q r first last c

/-- A setup that takes no port out of the lab makes orphans of the lots that the freed channels bound, and leaves the
queue and the bench list (R50, R52). -/
theorem setupTaken_stays (h : ¬((s.port q).role = .lab ∧ r ≠ .lab)) :
    (orphansMade s (setupTaken s p q t r first last) fun c =>
      ∃ b, s.channel c = some b ∧ b.holder = q ∧ ¬ (r = .mixer ∧ first ≤ c ∧ c ≤ last)) ∧
    (setupTaken s p q t r first last).queue = s.queue ∧ (setupTaken s p q t r first last).bench = s.bench := by
  have kept := setupInto_stays (s.received p t) q (setupRole r first last) (by rw [role_received]; exact h)
  unfold setupTaken
  rw [kept]
  exact ⟨setupFreed_orphans (s.received p t) q r first last,
    setupFreed_frame (s.received p t) q (setupRole r first last)⟩

/-- A setup that takes a port out of the lab makes the orphans first, and then returns the bench lots (R52, R111). -/
theorem setupTaken_leaves (h : (s.port q).role = .lab ∧ r ≠ .lab) :
    ∃ v : State, v = { s with slots := v.slots, channels := (setupTaken s p q t r first last).channels } ∧
      (orphansMade s v fun c =>
        ∃ b, s.channel c = some b ∧ b.holder = q ∧ ¬ (r = .mixer ∧ first ≤ c ∧ c ≤ last)) ∧
      benchReturned v (setupTaken s p q t r first last) q := by
  let freed := setupFreed (s.received p t) q (setupRole r first last)
  obtain ⟨queue, bench⟩ := setupFreed_frame (s.received p t) q (setupRole r first last)
  have left := setupInto_leaves (s.received p t) q (setupRole r first last) (by rw [role_received]; exact h)
  have returned : benchReturned freed (setupTaken s p q t r first last) q := by
    have handed := benchReturned_returnBench freed q
    rw [← left] at handed
    exact handed
  exact ⟨{ s with slots := freed.slots, channels := (setupTaken s p q t r first last).channels }, rfl,
    setupFreed_orphans (s.received p t) q r first last,
    benchReturned_congr freed _ _ q rfl queue.symm bench.symm returned⟩

theorem setupTaken_frame : setupTaken s p q t r first last = { s with
    slots := (setupTaken s p q t r first last).slots, channels := (setupTaken s p q t r first last).channels
    queue := (setupTaken s p q t r first last).queue, bench := (setupTaken s p q t r first last).bench
    setup := (setupTaken s p q t r first last).setup, ports := (setupTaken s p q t r first last).ports } := by
  obtain ⟨-, -, -, -, frame⟩ := setupInto_facts (s.received p t) q (setupRole r first last)
  unfold setupTaken
  generalize setupAnswer s p q t r first last = body
  generalize (s.received p t).setupInto q (setupRole r first last) = u at frame ⊢
  rw [frame]
  rfl

end

/-- Settles O47: the refusals, the setup that is taken part by part, and the end of its writing. -/
theorem portSetupTakesEffectAtOnce : Obligations.PortSetupTakesEffectAtOnce := by
  refine ⟨fun p t port role first last s h mode => ?_, fun s => ⟨fun idle => ?_, fun x writing => ?_⟩⟩
  · have refused (hb : portSetupBody port role first last (s.received p t) = (s.received p t, refuse .range [])) :
        exec (.portSetup p t port role first last) s = .next (repliedWith s p t .range []) :=
      request_next_refused s p t .portSetup none (portSetupBody port role first last) h.1 h.2.1
        (gate_ready s p .plant h .portSetup rfl (beq_iff_eq.mpr mode)) .range [] hb
    refine ⟨fun beyond => refused (portSetupBody_range port role first last _ beyond), fun q r hport hrole => ?_⟩
    obtain ⟨hport, hq⟩ := port_codes port q hport
    have hrole := role_codes role r hrole
    intro window fits freed frees leaves
    refine ⟨fun unfit => refused ?_, fun fit => ?_⟩
    · rw [portSetupBody_eq port role first last _ q r hport hq hrole, setupOf_unfit r first last unfit]
    have taken := exec_portSetup s p q t r first last port role h mode hport hq hrole fit
    have ports := port_setupTaken s p q t r first last
    obtain ⟨now, changed, same, rest⟩ := portAfterSetup_same s p q t (setupRole r first last)
      (setupAnswer s p q t r first last) (!frees.isEmpty)
    have record := setup_setupTaken s p q t r first last
    have channels := channel_setupTaken s p q t r first last
    refine ⟨_, setupAnswer s p q t r first last, taken, ?_, ?_, ?_, ?_, ?_, fun y hy hyp => ?_, fun hpq => ?_, ?_,
      ⟨fun idle => record.trans (beginSetupWrite_idle s.setup _ idle),
        fun writing => record.trans (beginSetupWrite_waits s.setup _ writing)⟩,
      fun y => ?_, ?_, fun c hc => ?_, fun c b hc => ?_, setupTaken_stays s p q t r first last,
      setupTaken_leaves s p q t r first last, setupTaken_frame s p q t r first last⟩
    · rw [ports]
      exact congrArg PortRole.role now
    · rw [ports]
      exact congrArg PortRole.window now
    · rw [ports]
      exact changed
    · rw [ports]
      exact same
    · exact congrArg Port.answer (port_setPort_same _ p _)
    · rw [ports]
      exact (portAfterSetup_other s p q t _ _ _ y hy).trans (if_neg hyp)
    · rw [ports]
      exact (portAfterSetup_other s p q t _ _ _ p hpq).trans (if_pos rfl)
    · rw [ports]
      exact rest
    · rw [ports]
      rfl
    · unfold setupTaken
      rw [setupList_answer]
      rfl
    · rw [channels, hc]
      rfl
    · rw [channels, hc, Option.filter_some]
      unfold setupExcludes
      by_cases out : b.holder = q ∧ ¬ (r = .mixer ∧ first ≤ c ∧ c ≤ last)
      · rw [if_pos out, decide_eq_true out]
        rfl
      · rw [if_neg out, decide_eq_false out]
        rfl
  · show execPortSetupWriteEnd s = _
    unfold execPortSetupWriteEnd
    rw [idle]
  · show execPortSetupWriteEnd s = _
    unfold execPortSetupWriteEnd
    rw [writing]

end Sys2Proof.Machine
end

section
/-! The requests that name one cell: CELL OPEN and CELL CLOSE, RELEASE and EXTRACT, PLACE (R5, R13, R57, R60, R62 to
R68, R115 to R119). -/

namespace Sys2Proof.Machine

/-! ### CELL OPEN and CELL CLOSE (R60) -/

/-- A request that marks a cell is refused for a number out of range, and otherwise answers the marked cell (R60). -/
theorem request_marks (s : State) (p : PortName) (t c : Nat) (q : Request) (mark : Bool) (hr : s.phase = .running)
    (hp : (s.port p).request = .ready) (hg : s.gate p q none = none) :
    (95 < c → s.takeRequest p t q none (closeBody mark c) = repliedWith s p t .range []) ∧
    (c ≤ 95 → s.takeRequest p t q none (closeBody mark c) = { s with
      cells := s.cells.setIfInBounds c { s.cell c with closed := mark }
      ports := replied s p t .done ([.u8 c, flag mark, flag (s.cell c).faulty] ++ laneFields (s.cell c)) }) :=
  ⟨fun beyond => request_eq s _ p t q none (closeBody mark c) _ hr hp hg (if_pos beyond) rfl,
    fun hc => request_eq s _ p t q none (closeBody mark c) _ hr hp hg (if_neg (Nat.not_lt.mpr hc)) rfl⟩

/-- Settles O27, by `request_marks` for either mark. -/
theorem cellOpenAndCloseSetTheFlag : Obligations.CellOpenAndCloseSetTheFlag := by
  intro p t c s h
  have opens := request_marks s p t c .cellOpen false h.1 h.2.1 (gate_ready s p .plant h .cellOpen rfl rfl)
  have closes := request_marks s p t c .cellClose true h.1 h.2.1 (gate_ready s p .plant h .cellClose rfl rfl)
  exact ⟨fun beyond => ⟨congrArg Host.Outcome.next (opens.1 beyond), congrArg Host.Outcome.next (closes.1 beyond)⟩,
    fun hc => ⟨congrArg Host.Outcome.next (opens.2 hc), congrArg Host.Outcome.next (closes.2 hc)⟩⟩

/-! ### RELEASE and EXTRACT (R68, R115 to R119) -/

/-- RELEASE of a clean lot is decided by its state, its holds and its place (R115). -/
theorem releaseBody_clean (s : State) (n c k : Nat) (r : LotRecord) (hl : liveLot s n k r) : releaseBody n c s =
    if r.state ≠ .cleared ∨ r.cell ≠ some c then (s, refuse .state (stateRefusal r))
    else if r.holds ≠ 0 then (s, refuse .held [holdsField r.holds])
    else if !s.atFront n c then (s, refuse .blocked (s.blockedFields c r))
    else (s.releaseInto k c r, doneWith (releaseFields (s.releaseInto k c r) c r)) := by
  rw [← liveLot_number s n k r hl]
  exact onLot_clean s r.number k r _ (liveLot_number s n k r hl ▸ hl)

/-- EXTRACT of a clean lot is decided by its state and its place (R118). -/
theorem extractBody_clean (s : State) (n c k : Nat) (r : LotRecord) (hl : liveLot s n k r) : extractBody n c s =
    if r.state ≠ .rejected ∨ r.cell ≠ some c then (s, refuse .state (stateRefusal r))
    else if !s.atFront n c then (s, refuse .blocked (s.blockedFields c r))
    else (s.extractInto k c r, doneWith (extractFields (s.extractInto k c r) c r)) := by
  rw [← liveLot_number s n k r hl]
  exact onLot_clean s r.number k r _ (liveLot_number s n k r hl ▸ hl)

theorem atFront_iff (s : State) (n c : Nat) : s.atFront n c = true ↔ (s.cell c).lane.head? = some n := beq_iff_eq

/-- What a taken RELEASE leaves: the front removed, the ash moved and the slot freed (R116). -/
theorem releaseInto_eq (s : State) (k c : Nat) (r : LotRecord) : s.releaseInto k c r = { s with
    slots := (s.freeSlot k).slots
    cells := s.cells.setIfInBounds c (leaveLane r.number (s.cell c))
    account := releaseAsh s.account (r.ashMass.getD 0) } := by
  let moved := (s.frontRemoval r.number c).withAccount (releaseAsh s.account (r.ashMass.getD 0))
  have slots : (moved.freeSlot k).slots = (s.freeSlot k).slots := freeSlot_slots moved s k rfl
  show moved.freeSlot k = _
  rw [freeSlot_eq, slots]
  rfl

/-- Settles O36, by the checks in their order; what is left is the front removal with the lot's own change. -/
theorem releaseAndExtractFromTheFront : Obligations.ReleaseAndExtractFromTheFront := by
  intro p t n c k r s h hw hl wrong cells
  have gate := gate_ready_windowed s p .yard c h hw
  have hn := liveLot_number s n k r hl
  obtain ⟨hr, hp, -⟩ := h
  let S := s.received p t
  have behind (other : (s.cell c).lane.head? ≠ some n) : (!S.atFront n c) = true :=
    (Bool.not_eq_true' _).mpr (Bool.eq_false_iff.mpr (mt (atFront_iff S n c).mp other))
  have ahead (front : (s.cell c).lane.head? = some n) : ¬ (!S.atFront n c) = true := by
    rw [(atFront_iff S n c).mpr front]
    exact Bool.false_ne_true
  refine ⟨fun mode => ?_, fun mode => ?_⟩
  · have hg := gate .release rfl (beq_iff_eq.mpr mode)
    have body := releaseBody_clean S n c k r hl
    have refused := request_next_refused s p t .release (some c) (releaseBody n c) hr hp hg
    refine ⟨fun unfit => refused .state _ (body.trans (if_pos unfit)), fun cleared stands => ?_⟩
    have fit := body.trans (if_neg (not_or.mpr ⟨not_not.mpr cleared, not_not.mpr stands⟩))
    refine ⟨fun held => refused .held _ (fit.trans (if_pos held)), fun free other => ?_, fun x M free front hx hM => ?_⟩
    · exact refused .blocked _ (fit.trans ((if_neg (not_not.mpr free)).trans (if_pos (behind other))))
    · have taken := fit.trans ((if_neg (not_not.mpr free)).trans (if_neg (ahead front)))
      have mass : r.ashMass.getD 0 = M := by rw [hM]; rfl
      have ref : refFields r = [.u8 x.ref.bank, .u8 x.ref.number] := by
        unfold refFields
        rw [hx]
        rfl
      have slots : (S.freeSlot k).slots = (s.freeSlot k).slots := freeSlot_slots S s k rfl
      unfold releaseFields at taken
      rw [releaseInto_eq, slots, mass, ref, hn] at taken
      exact request_next s p t .release (some c) (releaseBody n c) hr hp hg _ _ _ taken rfl rfl
  · have hg := gate .extract rfl (bne_iff_ne.mpr mode)
    have body := extractBody_clean S n c k r hl
    have refused := request_next_refused s p t .extract (some c) (extractBody n c) hr hp hg
    refine ⟨fun unfit => refused .state _ (body.trans (if_pos unfit)), fun rejected stands => ?_⟩
    have fit := body.trans (if_neg (not_or.mpr ⟨not_not.mpr rejected, not_not.mpr stands⟩))
    refine ⟨fun other => refused .blocked _ (fit.trans (if_pos (behind other))), fun front => ?_⟩
    have taken := fit.trans (if_neg (ahead front))
    unfold State.extractInto extractFields at taken
    rw [hn] at taken
    exact request_next s p t .extract (some c) (extractBody n c) hr hp hg _ _ _ taken rfl rfl

/-! ### PLACE (R63 to R66) -/

/-- A lot leaves the reservation set of its target cell, where it has one (R64). -/
def State.leaveTarget (s : State) (n : Nat) (target : Option Nat) : State :=
  match target with
  | some c => s.setCell c (leaveReservation n (s.cell c))
  | none => s

/-- A lot leaves its target cell's reservation set and joins the back of a lane (R57, R64, R65). -/
def State.joinLane (s : State) (n c : Nat) (target : Option Nat) : State :=
  (s.leaveTarget n target).setCell c (appendLane n ((s.leaveTarget n target).cell c))

/-- Joining a lane reads and writes the cells alone. -/
theorem joinLane_writeLot (s : State) (n c k : Nat) (target : Option Nat) (q : LotRecord) :
    (s.writeLot k q).joinLane n c target = { s with
      slots := (s.writeLot k q).slots, cells := (s.joinLane n c target).cells } := by
  cases target <;> rfl

theorem cell_leaveTarget (s : State) (n d : Nat) (target : Option Nat) (hd : d ≤ 95) :
    (s.leaveTarget n target).cell d = { s.cell d with
      reservations := if target = some d then (s.cell d).reservations.filter (· != n) else (s.cell d).reservations } := by
  cases target with
  | none => rfl
  | some c =>
    have inside : d < Config.cellCount := Nat.lt_succ_of_le hd
    show (s.setCell c _).cell d = _
    rw [cell_setCell]
    by_cases e : c = d
    · subst e
      rw [if_pos ⟨rfl, inside⟩, if_pos rfl]
      rfl
    · rw [if_neg (fun g => e g.1), if_neg (fun g => e (Option.some.inj g))]

/-- Each cell once a lot has moved from its target cell's reservation set into a lane (R57, R64, R65). -/
theorem cell_joinLane (s : State) (n c d : Nat) (target : Option Nat) (hc : c ≤ 95) (hd : d ≤ 95) :
    (s.joinLane n c target).cell d = { s.cell d with
      lane := if d = c then (s.cell c).lane ++ [n] else (s.cell d).lane
      reservations := if target = some d then (s.cell d).reservations.filter (· != n) else (s.cell d).reservations } := by
  have inside : c < Config.cellCount := Nat.lt_succ_of_le hc
  unfold State.joinLane
  rw [cell_setCell]
  by_cases e : c = d
  · subst e
    rw [if_pos ⟨rfl, inside⟩, cell_leaveTarget s n c target hc, if_pos rfl]
    rfl
  · rw [if_neg (fun g => e g.1), cell_leaveTarget s n d target hd, if_neg (Ne.symm e)]

/-- The hold set of a lot that becomes CURING in a cell (R62). -/
def curingHolds (x : Cell) (h : HoldSet) : HoldSet := if x.faulty then withHold h .sensor else h

/-- SENSOR in a faulty cell joins a lot that is not CURED, with HOLD raised when it is new (R5, R62). -/
theorem sensorHold_eq (u : State) (k c : Nat) (l : Lot) (hl : u.lotAt k = some l) (hc : l.record.code = .agrees)
    (hs : l.record.held.state ≠ .cured) : let h := curingHolds (u.cell c) l.record.held.holds
    u.sensorHold k c = heldWith u k l.record.held h (decide (h ≠ l.record.held.holds)) := by
  have self := heldWith_self u k l hl hc
  unfold State.sensorHold curingHolds
  cases (u.cell c).faulty
  · show u = heldWith u k l.record.held l.record.held.holds (decide (l.record.held.holds ≠ l.record.held.holds))
    rw [decide_eq_false (not_not.mpr rfl), self]
  · have added := addHold_heldWith u k l l.record.held l.record.held.holds false .sensor hl hs
    rw [self] at added
    simp only [if_true, decide_withHold_ne]
    exact added

/-- PLACE of a clean lot is decided by its state, then by the cell and its room (R63). -/
theorem placeBody_clean (s : State) (n c k : Nat) (r : LotRecord) (hl : liveLot s n k r) : placeBody n c s =
    if r.state ≠ .sealed then (s, refuse .state (stateRefusal r))
    else if (s.cell c).closed then (s, refuse .cellClosed (cellRefusal (s.cell c)))
    else if r.targetCell ≠ some c ∧ hasRoom (s.cell c) = false then (s, refuse .laneFull (cellRefusal (s.cell c)))
    else (s.placeInto k c r, doneWith (placeFields (s.placeInto k c r) k c r)) :=
  onLot_clean s n k r _ hl

theorem placeInto_joinLane (s : State) (k c : Nat) (r : LotRecord) : s.placeInto k c r =
    ((s.writeLot k (placedRecord r c s.clock)).joinLane r.number c r.targetCell).sensorHold k c := by
  unfold State.placeInto State.joinLane State.leaveTarget
  cases r.targetCell <;> rfl

/-- What a taken PLACE leaves: the lot CURING with its holds, the cells, and HOLD raised when SENSOR is new (R62 to
R66). -/
theorem placeInto_eq (s : State) (k c : Nat) (r : LotRecord) (hk : k < Config.slotCount) (hc : c ≤ 95) :
    let h := curingHolds (s.cell c) r.holds
    s.placeInto k c r = { s with
      slots := (s.writeLot k { placedRecord r c s.clock with holds := h }).slots
      cells := (s.joinLane r.number c r.targetCell).cells
      ports := (if h = r.holds then s else s.raise .hold).ports } := by
  intro h
  let q := placedRecord r c s.clock
  let u : State := { s with slots := (s.writeLot k q).slots, cells := (s.joinLane r.number c r.targetCell).cells }
  have lot : u.lotAt k = some (freshLot q) := lotAt_writeLot s k q hk
  have faulty : (u.cell c).faulty = (s.cell c).faulty := by
    have joined := congrArg Cell.faulty (cell_joinLane s r.number c c r.targetCell hc hc)
    exact joined
  have holds : curingHolds (u.cell c) q.holds = h := by
    unfold curingHolds
    rw [faulty]
    rfl
  have sensed := sensorHold_eq u k c (freshLot q) lot rfl (fun g => by cases g)
  rw [show curingHolds (u.cell c) (freshLot q).record.held.holds = h from holds] at sensed
  have slots : (recordNow u k { q with holds := h }).slots = (s.writeLot k { q with holds := h }).slots := by
    have written := congrArg State.slots (recordNow_writeLot s k q { q with holds := h } hk rfl)
    exact written
  have ports : (if decide (h ≠ r.holds) then u.raise .hold else u).ports =
      (if h = r.holds then s else s.raise .hold).ports := by
    by_cases g : h = r.holds
    · rw [decide_eq_false (not_not.mpr g), if_pos g]
      rfl
    · rw [decide_eq_true g, if_neg g]
      rfl
  rw [placeInto_joinLane, joinLane_writeLot]
  refine Eq.trans (b := heldWith u k q h (decide (h ≠ r.holds))) sensed ?_
  show { u with
    slots := (recordNow u k { q with holds := h }).slots
    ports := (if decide (h ≠ r.holds) then u.raise .hold else u).ports } = _
  rw [slots, ports]

/-- The answer of a taken PLACE, read from the cell that the lot has joined (R66). -/
theorem placeFields_placeInto (s : State) (k c : Nat) (r : LotRecord) (hk : k < Config.slotCount) (hc : c ≤ 95) :
    placeFields (s.placeInto k c r) k c r =
      [.u24 r.number, .u8 c, .u8 ((s.cell c).lane.length + 1), .u16 ((s.cell c).lane.length + 1),
        .u16 ((s.joinLane r.number c r.targetCell).cell c).reservations.length] ++
        optField .u8 (r.targetCell.filter (· != c)) ++ [.u8 (curingHolds (s.cell c) r.holds).toNat] := by
  have into := placeInto_eq s k c r hk hc
  have joined : (s.placeInto k c r).cell c = (s.joinLane r.number c r.targetCell).cell c := by
    rw [into]
    rfl
  have lane : ((s.joinLane r.number c r.targetCell).cell c).lane.length = (s.cell c).lane.length + 1 := by
    rw [cell_joinLane s r.number c c r.targetCell hc hc, if_pos rfl]
    exact List.length_append
  have written (q : LotRecord) : (s.writeLot k q).recordAt k = some q :=
    recordAt_of_lotAt _ k _ (lotAt_writeLot s k q hk)
  have record : (s.placeInto k c r).recordAt k =
      some { placedRecord r c s.clock with holds := curingHolds (s.cell c) r.holds } := by
    rw [into]
    exact written _
  unfold placeFields laneFields State.holdsAt
  rw [joined, lane, record]
  rfl

/-- Settles O28, by the checks in their order and the state that `placeInto` leaves, answered. -/
theorem placeJoinsTheLane : Obligations.PlaceJoinsTheLane := by
  intro p t n c k r s h hw mode hl x refusal
  have hk := liveLot_slot s n k r hl
  have hn := liveLot_number s n k r hl
  have hg := gate_ready_windowed s p .yard c h hw .place rfl (bne_iff_ne.mpr mode)
  obtain ⟨hr, hp, -⟩ := h
  let S := s.received p t
  have body := placeBody_clean S n c k r hl
  have refused := request_next_refused s p t .place (some c) (placeBody n c) hr hp hg
  refine ⟨fun other => refused .state _ (body.trans (if_pos other)), fun isSealed => ?_⟩
  have fit := body.trans (if_neg (not_not.mpr isSealed))
  have unbarred (opened : x.closed = false) : ¬ (S.cell c).closed = true := by
    rw [show (S.cell c).closed = false from opened]
    exact Bool.false_ne_true
  refine ⟨fun closed => refused .cellClosed _ (fit.trans (if_pos closed)), fun opened elsewhere full => ?_,
    fun opened place hc => ?_⟩
  · have noRoom : hasRoom (S.cell c) = false := decide_eq_false (Nat.not_lt.mpr full)
    exact refused .laneFull _ (fit.trans ((if_neg (unbarred opened)).trans (if_pos ⟨elsewhere, noRoom⟩)))
  · intro holds left
    have room : ¬ (r.targetCell ≠ some c ∧ hasRoom (S.cell c) = false) := fun ⟨elsewhere, noRoom⟩ =>
      of_decide_eq_false noRoom (place.resolve_left elsewhere)
    have taken := fit.trans ((if_neg (unbarred opened)).trans (if_neg room))
    have into := placeInto_eq S k c r hk hc
    rw [placeFields_placeInto S k c r hk hc, hn] at taken
    refine ⟨{ s with
      slots := (s.writeLot k left).slots
      cells := (S.joinLane n c r.targetCell).cells
      ports := replied (if holds = r.holds then s else s.raise .hold) p t .done
        ([.u24 n, .u8 c, .u8 (x.lane.length + 1), .u16 (x.lane.length + 1),
          .u16 ((S.joinLane n c r.targetCell).cell c).reservations.length] ++
          optField .u8 (r.targetCell.filter (· != c)) ++ [.u8 holds.toNat]) }, ?_, fun d hd => ?_, rfl⟩
    · refine request_next_raised s (if holds = r.holds then s else s.raise .hold) p t .place (some c) (placeBody n c)
        hr hp hg _ _ _ taken ?_ ?_
      · rw [into]
        show (if holds = r.holds then S else S.raise .hold).ports = _
        split
        · rfl
        · rw [raise_received]
      · rw [into, hn]
        rfl
    · exact cell_joinLane S n c d r.targetCell hc hd

end Sys2Proof.Machine
end

section
/-! A miss: a timeout or a reading out of range, the fifth miss, and a completion that is not taken (R76, R77, R87). -/

namespace Sys2Proof.Machine

/-! ### The conversion that ends, and the completion that is not taken (R76, R77) -/

/-- A conversion that times out ends in a miss, and the next one is requested (R76, R77). -/
theorem exec_conversionTimeout_inFlight (s : State) (c m : Nat) (h : s.scan = some ⟨c, m⟩) :
    exec .conversionTimeout s = .next { s.sampleMiss c m with scan := nextScan ⟨c, m⟩ } := by
  show execConversionTimeout s = _
  unfold execConversionTimeout
  rw [h]
  rfl

/-- A timeout with no conversion in flight changes nothing (log entry 4). -/
theorem exec_conversionTimeout_idle (s : State) (h : s.scan = none) : exec .conversionTimeout s = .next s := by
  show execConversionTimeout s = _
  unfold execConversionTimeout
  rw [h]

/-- A completion that carries another cell's number, or whose check fails, is not taken (R76, R77). -/
theorem completion_not_taken (s : State) (c : Nat) (y : Int) (good : Bool)
    (h : (∀ m, s.scan ≠ some ⟨c, m⟩) ∨ good = false) : s.completion c y good = s := by
  unfold State.completion
  cases hs : s.scan with
  | none => rfl
  | some x =>
    refine if_neg fun ⟨same, agrees⟩ => ?_
    rcases h with other | bad
    · exact other x.minute (by rw [hs, ← same])
    · rw [bad] at agrees
      exact Bool.false_ne_true agrees

/-- The completion that was asked for, with a reading out of range, ends the conversion in a miss (R76). -/
theorem completion_invalid (s : State) (c m : Nat) (y : Int) (h : s.scan = some ⟨c, m⟩) (hy : y < -400 ∨ 900 < y) :
    s.completion c y true = { s.sampleMiss c m with scan := nextScan ⟨c, m⟩ } := by
  have invalid : validReading y = false := by
    unfold validReading
    rw [Bool.and_eq_false_iff, decide_eq_false_iff_not, decide_eq_false_iff_not, Int.not_le, Int.not_le]
    exact hy
  unfold State.completion
  rw [h]
  dsimp only
  rw [if_pos ⟨rfl, rfl⟩]
  unfold State.endConversion
  dsimp only
  rw [invalid]
  rfl

/-! ### The miss (R87) -/

/-- A miss that is not the fifth leaves the fault flag as it stands (R87). -/
theorem cellMiss_other (m : Nat) (x : Cell) (h : x.misses ≠ 4) :
    cellMiss m x = { x with lastStamp := m, misses := min 255 (x.misses + 1) } := by
  unfold cellMiss
  rw [beq_false_of_ne h, Bool.or_false]

/-- The fifth miss sets the fault flag (R87). -/
theorem cellMiss_fifth (m : Nat) (x : Cell) (h : x.misses = 4) :
    cellMiss m x = { x with lastStamp := m, misses := 5, faulty := true } := by
  unfold cellMiss
  rw [h, beq_self_eq_true, Bool.or_true]
  rfl

/-- A miss that is not the fifth changes its cell alone (R87). -/
theorem sampleMiss_other (s : State) (c m : Nat) (h : (s.cell c).misses ≠ 4) : s.sampleMiss c m =
    s.setCell c { s.cell c with lastStamp := m, misses := min 255 ((s.cell c).misses + 1) } := by
  rw [← cellMiss_other m _ h]
  exact if_neg h

/-- The fifth miss marks its cell, treats its lane and tells CELLFAULT (R87). -/
theorem sampleMiss_fifth (s : State) (c m : Nat) (h : (s.cell c).misses = 4) : s.sampleMiss c m =
    ((s.setCell c { s.cell c with lastStamp := m, misses := 5, faulty := true }).sensorLane
      (s.cell c).lane).raise .cellFault := by
  rw [← cellMiss_fifth m _ h]
  exact if_pos h

/-- The fifth miss over a lane of clean lots: the cell is marked, the CURING lots hold SENSOR, and HOLD is told before
CELLFAULT when one did not hold it (R87). -/
theorem sampleMiss_fifth_clean (s : State) (c m : Nat) (h : (s.cell c).misses = 4)
    (clean : ∀ n ∈ (s.cell c).lane, ∃ k r, liveLot s n k r) :
    s.sampleMiss c m = { s with
      cells := s.cells.setIfInBounds c { s.cell c with lastStamp := m, misses := 5, faulty := true }
      slots := (s.sampleMiss c m).slots
      ports := ((if laneGains s (s.cell c).lane then s.raise .hold else s).raise .cellFault).ports } ∧
    (∀ n ∈ (s.cell c).lane, ∀ k r, liveLot s n k r → (s.sampleMiss c m).slot k =
      if r.state = .curing then (recordNow s k { r with holds := withHold r.holds .sensor }).slot k else s.slot k) ∧
    ∀ k, (∀ n ∈ (s.cell c).lane, s.slotOf n ≠ some k) → (s.sampleMiss c m).slot k = s.slot k := by
  let marked := s.setCell c { s.cell c with lastStamp := m, misses := 5, faulty := true }
  let told := if laneGains s (s.cell c).lane then s.raise .hold else s
  obtain ⟨frame, lots, others⟩ := sensorLane_clean marked (s.cell c).lane clean
  have ports : (if laneGains s (s.cell c).lane then marked.raise .hold else marked).ports = told.ports :=
    (ports_raise_if marked .hold _).trans (ports_raise_if s .hold _).symm
  have lane : marked.sensorLane (s.cell c).lane =
      { marked with slots := (marked.sensorLane (s.cell c).lane).slots, ports := told.ports } :=
    frame.trans (congrArg (fun x : Ports =>
      { marked with slots := (marked.sensorLane (s.cell c).lane).slots, ports := x }) ports)
  rw [sampleMiss_fifth s c m h]
  exact ⟨congrArg (State.raise · .cellFault) lane, lots, others⟩

/-- Settles O30: a conversion ends in a miss, which is the fifth or another, or a completion is not taken. -/
theorem missIsCounted : Obligations.MissIsCounted := by
  refine ⟨?_, fun c y good s => ⟨fun h => ?_, fun h => ?_, exec_conversionTimeout_idle s⟩⟩
  · intro c m s hscan _ x scan fifth
    have timeout := exec_conversionTimeout_inFlight s c m hscan
    refine ⟨fun y hy => ?_, fun other => ?_, fun isFifth empty => ?_, fun isFifth clean => ?_⟩
    · rw [timeout, ← completion_invalid s c m y hscan hy]
      rfl
    · rw [timeout, sampleMiss_other s c m other]
      rfl
    · rw [timeout, sampleMiss_fifth s c m isFifth, show (s.cell c).lane = [] from empty]
      rfl
    · obtain ⟨frame, lots, others⟩ := sampleMiss_fifth_clean s c m isFifth clean
      refine ⟨_, timeout, ?_, lots, others⟩
      exact congrArg (fun u : State => { u with scan := scan }) frame
  · exact congrArg Host.Outcome.next (completion_not_taken s c y good h)
  · exact congrArg Host.Outcome.next (completion_not_taken s c y true (.inl h))

end Sys2Proof.Machine
end

section
/-! VERDICT: the judgement of a RESULT, the RETEST, and the lot that leaves its tester (R88, R105 to R108). -/

namespace Sys2Proof.Machine

/-! ### The lot that leaves its tester (R108) -/

/-- A lot leaves the bench list with its record rewritten, and its place is given (R100, R108). -/
def State.leaveTest (s : State) (k n : Nat) (q : LotRecord) : State := ((s.leaveBench n).writeLot k q).giveRoom

/-- Leaving the test reads and writes nothing of the ports. -/
theorem leaveTest_withPorts (s : State) (k n : Nat) (q : LotRecord) (x : Ports) :
    State.leaveTest { s with ports := x } k n q = { s.leaveTest k n q with ports := x } :=
  giveRoom_withPorts ((s.leaveBench n).writeLot k q) x

theorem leaveTest_cells (s : State) (k n : Nat) (q : LotRecord) : (s.leaveTest k n q).cells = s.cells := by
  obtain ⟨slots, queue, frame⟩ := giveRoom_frame ((s.leaveBench n).writeLot k q)
  unfold State.leaveTest
  rw [frame]
  rfl

/-- The place given is another lot's, so the lot that has left keeps the record written (R100). -/
theorem leaveTest_recordAt (s : State) (k n : Nat) (q : LotRecord) (hk : k < Config.slotCount) (hq : q.state ≠ .cured) :
    (s.leaveTest k n q).recordAt k = some q :=
  recordAt_giveRoom _ k q (recordAt_of_lotAt _ k _ (lotAt_writeLot (s.leaveBench n) k q hk)) (.inl hq)

/-- The end of the answer of a VERDICT, once the lot has left its tester with the record `q` (R108). -/
theorem verdictTail_leaveTest (s : State) (k n : Nat) (q w : LotRecord) (x : Ports) (hk : k < Config.slotCount)
    (hq : q.state ≠ .cured) : verdictTail { s.leaveTest k n q with ports := x } k w =
      [.u8 w.retests, .u32 (w.target.getD 0), .u8 q.holds.toNat, .u8 (w.cell.getD 0),
        .u8 ((s.lanePosition w).getD 0)] := by
  have record : State.recordAt { s.leaveTest k n q with ports := x } k = some q := leaveTest_recordAt s k n q hk hq
  have place : State.lanePosition { s.leaveTest k n q with ports := x } w = s.lanePosition w := by
    unfold State.lanePosition State.cell
    rw [leaveTest_cells]
  unfold verdictTail State.holdsAt
  rw [record, place]
  rfl

/-- A VERDICT by which a lot leaves its tester, with the notices of `v` told, is answered (R108, R166). -/
theorem request_leavesTest (s v : State) (p : PortName) (t k n : Nat) (q : LotRecord) (body : State → State × Reply)
    (b : List Machine.Field) (h : ready s p .lab) (hb : body (s.received p t) =
      ({ (s.received p t).leaveTest k n q with ports := (v.received p t).ports }, doneWith b)) :
    Host.Outcome.next (φ := Fault) (ρ := Refusal) (s.takeRequest p t .verdict none body) =
      .next { State.giveRoom { s.writeLot k q with bench := s.bench.filter (·.lot != n) } with
        ports := replied v p t .done b } := by
  refine request_next_raised s v p t .verdict none body h.1 h.2.1 (gate_ready s p .lab h .verdict rfl rfl)
    _ _ _ hb rfl ?_
  have left : (s.received p t).leaveTest k n q = { s.leaveTest k n q with ports := (s.received p t).ports } :=
    leaveTest_withPorts s k n q _
  rw [left]
  rfl

/-! ### The holder (R105) -/

theorem testedBy_iff (r : LotRecord) (p : PortName) : testedBy r p = true ↔ r.state = .testing ∧ r.tester = some p := by
  unfold testedBy
  rw [Bool.and_eq_true, decide_eq_true_iff, decide_eq_true_iff]

/-- A RESULT on a lot that the port does not test (R105). -/
theorem resultBody_unheld (s : State) (p : PortName) (n a l k : Nat) (r : LotRecord) (hl : liveLot s n k r)
    (ha : a ≤ 65535) (h1 : 1 ≤ l) (h4 : l ≤ 4) (unheld : ¬ testedBy r p = true) :
    resultBody p n 1 a l s = (s, refuse .notHolder (notHolderFields r)) := by
  unfold resultBody
  rw [if_neg (by omega), onLot_clean s n k r _ hl, if_neg unheld]

/-- A RETEST goes on with the lot it names (R105). -/
theorem retestBody_clean (s : State) (p : PortName) (n k : Nat) (r : LotRecord) (hl : liveLot s n k r) :
    retestBody p n 2 s =
      if testedBy r p then
        if 2 ≤ r.retests then (s, refuse .limit [])
        else
          let t := s.retestInto k r
          (t, doneWith ([.u24 n, .u8 (stateCode .curing)] ++ optField .u8 none ++ optField .u8 none ++
            verdictTail t k (retestRecord r)))
      else (s, refuse .notHolder (notHolderFields r)) :=
  (if_neg (not_not.mpr rfl)).trans (onLot_clean s n k r _ hl)

/-! ### RESULT (R106) -/

theorem judge_passes (x : Snapshot) (a l : Nat) (strong : x.minStrength ≤ a) (tight : l ≤ x.maxLeach) :
    judge x ⟨a, l⟩ = none :=
  (if_pos strong).trans (if_pos tight)

/-- A RESULT fails by its strength, by its leach class, or by both (R106). -/
theorem judge_fails (x : Snapshot) (a l : Nat) (f : FailCause)
    (h : (¬ x.minStrength ≤ a ∧ l ≤ x.maxLeach ∧ f = .strength) ∨ (x.minStrength ≤ a ∧ ¬ l ≤ x.maxLeach ∧ f = .leach) ∨
      (¬ x.minStrength ≤ a ∧ ¬ l ≤ x.maxLeach ∧ f = .both)) : judge x ⟨a, l⟩ = some f := by
  rcases h with ⟨weak, tight, rfl⟩ | ⟨strong, loose, rfl⟩ | ⟨weak, loose, rfl⟩
  · exact (if_neg weak).trans (if_pos tight)
  · exact (if_pos strong).trans (if_neg loose)
  · exact (if_neg weak).trans (if_neg loose)

/-- The notice that a judgement tells (R106). -/
def judgementNotice (f : Option FailCause) : Notice := if f = none then .cleared else .rejected

/-- What a taken RESULT leaves (R106, R108). -/
theorem judgeInto_eq (s : State) (k : Nat) (r : LotRecord) (x : TestResult) (f : Option FailCause) :
    s.judgeInto k r x f =
      { s.leaveTest k r.number (judgedRecord r x f) with ports := (s.raise (judgementNotice f)).ports } :=
  giveRoom_withPorts ((s.leaveBench r.number).writeLot k (judgedRecord r x f)) _

theorem judgedRecord_uncured (r : LotRecord) (x : TestResult) (f : Option FailCause) :
    (judgedRecord r x f).state ≠ .cured := by
  cases f <;> exact fun g => by cases g

/-- A RESULT by the lot's tester is judged against the lot's snapshot (R106, R108). -/
theorem resultBody_judged (s : State) (p : PortName) (n a l k : Nat) (r : LotRecord) (x : LotRecipe)
    (hl : liveLot s n k r) (ha : a ≤ 65535) (h1 : 1 ≤ l) (h4 : l ≤ 4) (held : testedBy r p = true)
    (hx : r.recipe = some x) (f : Option FailCause) (hf : judge x.snapshot ⟨a, l⟩ = f) :
    let q := judgedRecord r ⟨a, l⟩ f
    resultBody p n 1 a l s = (s.judgeInto k r ⟨a, l⟩ f, doneWith
      ([.u24 n, .u8 (stateCode q.state), .u8 1, .u8 (Config.judgementCode (decide (f = none)))] ++
        optField .u8 (f.map failCauseCode) ++ verdictTail (s.judgeInto k r ⟨a, l⟩ f) k q)) := by
  unfold resultBody
  rw [if_neg (by omega), onLot_clean s n k r _ hl, if_pos held, hx]
  dsimp only
  rw [hf]

/-- A RESULT by the lot's tester, judged against the lot's snapshot and answered (R106, R108). -/
theorem exec_verdictResult_judged (s : State) (p : PortName) (t n k a l : Nat) (r : LotRecord) (x : LotRecipe)
    (h : ready s p .lab) (hl : liveLot s n k r) (ha : a ≤ 65535) (h1 : 1 ≤ l) (h4 : l ≤ 4)
    (held : testedBy r p = true) (hx : r.recipe = some x) (f : Option FailCause) (hf : judge x.snapshot ⟨a, l⟩ = f) :
    exec (.verdictResult p t n 1 a l) s = .next
      { State.giveRoom { s.writeLot k (judgedRecord r ⟨a, l⟩ f) with bench := s.bench.filter (·.lot != n) } with
        ports := replied (s.raise (judgementNotice f)) p t .done
          ([.u24 n, .u8 (stateCode (judgedRecord r ⟨a, l⟩ f).state), .u8 1,
              .u8 (Config.judgementCode (decide (f = none)))] ++ optField .u8 (f.map failCauseCode) ++
            [.u8 r.retests, .u32 (r.target.getD 0), .u8 r.holds.toNat, .u8 (r.cell.getD 0),
              .u8 ((s.lanePosition r).getD 0)]) } := by
  let S := s.received p t
  refine request_leavesTest s _ p t k n _ (resultBody p n 1 a l) _ h ?_
  have tail := verdictTail_leaveTest S k r.number (judgedRecord r ⟨a, l⟩ f) (judgedRecord r ⟨a, l⟩ f)
    (S.raise (judgementNotice f)).ports (liveLot_slot s n k r hl) (judgedRecord_uncured r _ f)
  rw [resultBody_judged S p n a l k r x hl ha h1 h4 held hx f hf, judgeInto_eq, tail,
    liveLot_number s n k r hl, raise_received]
  rfl

/-! ### RETEST (R88, R107) -/

/-- The lot's cell has its fault flag set (R88). -/
def cellFaulty (s : State) (r : LotRecord) : Bool := (r.cell.map fun c => (s.cell c).faulty).getD false

/-- The record of a lot sent back to cure, with SENSOR where its cell is faulty (R88, R107). -/
def recuringRecord (r : LotRecord) (faulty : Bool) : LotRecord :=
  { retestRecord r with holds := if faulty then withHold r.holds .sensor else r.holds }

/-- SENSOR is new in a faulty cell, for a lot that did not hold it (R5, R62, R88). -/
theorem decide_curingHolds_ne (x : Cell) (h : HoldSet) :
    decide (curingHolds x h ≠ h) = (x.faulty && !hasHold h .sensor) := by
  unfold curingHolds
  cases x.faulty
  · exact decide_eq_false (not_not.mpr rfl)
  · exact decide_withHold_ne h .sensor

/-- SENSOR joins a lot sent back to cure in a faulty cell (R88, R107). -/
theorem sensorHold_recuring (s : State) (k c : Nat) (r : LotRecord) (hk : k < Config.slotCount) :
    (s.writeLot k (retestRecord r)).sensorHold k c = { s.writeLot k (recuringRecord r (s.cell c).faulty) with
      ports := tellKind .hold ((s.cell c).faulty && !hasHold r.holds .sensor) s.ports } := by
  let u := s.writeLot k (retestRecord r)
  let holds := curingHolds (s.cell c) r.holds
  have sensed : u.sensorHold k c = heldWith u k (retestRecord r) holds (decide (holds ≠ r.holds)) :=
    sensorHold_eq u k c (freshLot (retestRecord r)) (lotAt_writeLot s k (retestRecord r) hk) rfl (fun g => by cases g)
  have written : recordNow u k { retestRecord r with holds := holds } =
      s.writeLot k (recuringRecord r (s.cell c).faulty) :=
    recordNow_writeLot s k (retestRecord r) _ hk rfl
  refine sensed.trans ?_
  unfold heldWith
  rw [decide_curingHolds_ne, written, ports_raise_if]
  rfl

/-- What a taken RETEST leaves, HOLD told when SENSOR is new (R88, R107, R108). -/
theorem retestInto_eq (s : State) (k : Nat) (r : LotRecord) (hk : k < Config.slotCount) : s.retestInto k r =
    { s.leaveTest k r.number (recuringRecord r (cellFaulty s r)) with
      ports := tellKind .hold (cellFaulty s r && !hasHold r.holds .sensor) s.ports } := by
  have given (faulty : Bool) := giveRoom_withPorts ((s.leaveBench r.number).writeLot k (recuringRecord r faulty))
    (tellKind .hold (faulty && !hasHold r.holds .sensor) s.ports)
  unfold State.retestInto cellFaulty
  cases r.cell with
  | none => exact given false
  | some c => exact (congrArg State.giveRoom (sensorHold_recuring (s.leaveBench r.number) k c r hk)).trans (given _)

/-- A RETEST by the lot's tester that sends the lot back to cure, answered (R107, R108). -/
theorem exec_verdictRetest_taken (s : State) (p : PortName) (t n k : Nat) (r : LotRecord) (h : ready s p .lab)
    (hl : liveLot s n k r) (held : testedBy r p = true) (hr : r.retests < 2) :
    let q := recuringRecord r (cellFaulty s r)
    exec (.verdictRetest p t n 2) s = .next
      { State.giveRoom { s.writeLot k q with bench := s.bench.filter (·.lot != n) } with
        ports := replied (if cellFaulty s r && !hasHold r.holds .sensor then s.raise .hold else s) p t .done
          ([.u24 n, .u8 (stateCode .curing), .u8 0, .u8 0, .u8 0, .u8 0] ++
            [.u8 q.retests, .u32 (q.target.getD 0), .u8 q.holds.toNat, .u8 (r.cell.getD 0),
              .u8 ((s.lanePosition r).getD 0)]) } := by
  intro q
  let S := s.received p t
  let gained := cellFaulty s r && !hasHold r.holds .sensor
  let v := if gained then s.raise .hold else s
  have hk := liveLot_slot s n k r hl
  have told : tellKind .hold gained S.ports = (v.received p t).ports := by
    rw [← ports_raise_if]
    show _ = ((if gained then s.raise .hold else s).received p t).ports
    split
    · rw [raise_received]
    · rfl
  have into : S.retestInto k r = { S.leaveTest k n q with ports := (v.received p t).ports } := by
    rw [← told, ← liveLot_number s n k r hl]
    exact retestInto_eq S k r hk
  have tail := verdictTail_leaveTest S k n q (retestRecord r) (v.received p t).ports hk (fun g => by cases g)
  refine request_leavesTest s v p t k n q (retestBody p n 2) _ h ?_
  rw [retestBody_clean S p n k r hl, if_pos held, if_neg (Nat.not_le.mpr hr)]
  dsimp only
  rw [into, tail]
  rfl

/-- Settles O34: the checks in their order, then the lot that leaves its tester judged or sent back to cure. -/
theorem verdictJudgesOrRetests : Obligations.VerdictJudgesOrRetests := by
  intro p t n s h
  have refused (body : State → State × Reply) := request_next_refused s p t .verdict none body h.1 h.2.1
    (gate_ready s p .lab h .verdict rfl rfl)
  refine ⟨fun kind a l out => ?_, fun kind other => ?_, fun k r a l hl ha h1 h4 => ⟨fun other i hi => ?_, ?_⟩⟩
  · exact refused (resultBody p n kind a l) .range [] (if_pos (out.imp_right (Or.imp_right .inl)))
  · exact refused (retestBody p n kind) .range [] (if_pos other)
  · have unheld : ¬ testedBy r p = true := fun held => by
      obtain ⟨hs, ht⟩ := (testedBy_iff r p).mp held
      exact other.elim (· hs) (· ht)
    rcases List.mem_cons.mp hi with rfl | hi
    · exact refused (resultBody p n 1 a l) .notHolder _
        (resultBody_unheld (s.received p t) p n a l k r hl ha h1 h4 unheld)
    · rw [List.mem_singleton.mp hi]
      exact refused (retestBody p n 2) .notHolder _
        ((retestBody_clean (s.received p t) p n k r hl).trans (if_neg unheld))
  · intro hs ht bench answer
    have held := (testedBy_iff r p).mpr ⟨hs, ht⟩
    refine ⟨?_, fun limit => ?_, fun again => ?_⟩
    · intro x hx strong tight judged
      have taken := exec_verdictResult_judged s p t n k a l r x h hl ha h1 h4 held hx
      exact ⟨fun pass1 pass2 => taken none (judge_passes x.snapshot a l pass1 pass2),
        fun f fails => taken (some f) (judge_fails x.snapshot a l f fails)⟩
    · exact refused (retestBody p n 2) .limit []
        ((retestBody_clean (s.received p t) p n k r hl).trans ((if_pos held).trans (if_pos limit)))
    · exact exec_verdictRetest_taken s p t n k r h hl held again

end Sys2Proof.Machine
end

section
/-! The test queue: the place that is given, TAKE, and RETURN (R100, R102, R104). -/

namespace Sys2Proof.Machine

/-! ### The place that is given (R100) -/

/-- A WAITING lot is among the lots of the choice (R100). -/
theorem waitingLot_mem (s : State) (k : Nat) (l : Lot) (hl : s.lotAt k = some l) (hs : l.record.held.state = .cured)
    (hq : l.record.held.queueStatus = some .waiting) :
    (⟨k, l.record.held.cured.getD 0, l.record.held.number⟩ : WaitingLot) ∈ s.waitingLots := by
  unfold State.waitingLots
  rw [mem_sortBy, List.mem_filterMap]
  exact ⟨(k, l), (mem_occupied s k l).mpr hl, if_pos ⟨hs, hq⟩⟩

theorem waitsBefore_iff (x y : WaitingLot) :
    waitsBefore x y = true ↔ x.stamp < y.stamp ∨ x.stamp = y.stamp ∧ x.number < y.number := by
  simp [waitsBefore]

/-- The WAITING lot that comes before every other is the one chosen (R100). -/
theorem waitingLots_head (s : State) (w : WaitingLot) (hw : w ∈ s.waitingLots)
    (first : ∀ x ∈ s.waitingLots, x ≠ w → w.stamp < x.stamp ∨ w.stamp = x.stamp ∧ w.number < x.number) :
    s.waitingLots.head? = some w := by
  unfold State.waitingLots at hw first ⊢
  refine head_sortBy waitsBefore w _ ((mem_sortBy _ w _).mp hw) (fun x hx hne => ?_) fun x hx hne => ?_
  · exact (waitsBefore_iff w x).mpr (first x ((mem_sortBy _ x _).mpr hx) hne)
  · have before := first x ((mem_sortBy _ x _).mpr hx) hne
    rw [← Bool.not_eq_true, waitsBefore_iff]
    omega

theorem giveRoom_full (s : State) (h : ¬ queueOpen s) : s.giveRoom = s := if_neg h

/-- A place is given to a clean lot that comes before every other WAITING lot (R100). -/
theorem giveRoom_chosen (s : State) (n k stamp number : Nat) (r : LotRecord) (ho : queueOpen s) (hl : liveLot s n k r)
    (first : s.waitingLots.head? = some ⟨k, stamp, number⟩) :
    s.giveRoom = { recordNow s k { r with queueStatus := some .queued } with queue := s.queue ++ [n] } := by
  obtain ⟨l, at_k, agrees, held, number_eq⟩ := liveLot_lotAt s n k r hl
  have named : s.numberAt k = n := by
    rw [numberAt_agrees s k l at_k agrees, held, number_eq]
  let joined : State := { s with queue := s.queue ++ [n] }
  have given : s.giveRoom = joined.setStatus k .queued := by
    unfold State.giveRoom
    rw [if_pos (show s.queueCount < Config.queueLimit from ho), first]
    show State.setStatus { s with queue := s.queue ++ [s.numberAt k] } k .queued = _
    rw [named]
  exact given.trans (changeRecord_clean joined n k r (fun q => { q with queueStatus := some .queued }) hl)

/-- Settles O35: the earliest WAITING lot is the head of the list in the order of the choice. -/
theorem roomGoesToTheEarliest : Obligations.RoomGoesToTheEarliest := by
  intro s
  refine ⟨fun h => h.elim (giveRoom_full s) (giveRoom_noneWaiting s), fun n k r ho hl hs hq first => ?_⟩
  obtain ⟨l, at_k, -, rfl, number_eq⟩ := liveLot_lotAt s n k r hl
  refine giveRoom_chosen s n k _ _ _ ho hl (waitingLots_head s _ (waitingLot_mem s k l at_k hs hq) ?_)
  intro x hx hne
  obtain ⟨m, at_x, cured, waiting, stamp_eq, x_number⟩ := mem_waitingLots s x hx
  have other : x.slot ≠ k := by
    rintro rfl
    obtain rfl : l = m := Option.some.inj (at_k.symm.trans at_x)
    obtain ⟨slot, stamp, number⟩ := x
    exact hne (WaitingLot.mk.injEq .. ▸ ⟨rfl, stamp_eq, x_number⟩)
  have before := first x.slot _ other (recordAt_of_lotAt s x.slot m at_x) cured waiting
  rw [number_eq, stamp_eq, x_number]
  exact before

/-! ### TAKE (R102) -/

/-- TAKE passes the Port Unit on a lab port while the mode is not SERVICE (R168, R174). -/
theorem gate_take (s : State) (p : PortName) (h : ready s p .lab) (hm : s.mode ≠ .service) :
    s.gate p .take none = none :=
  gate_ready s p .lab h .take rfl (bne_iff_ne.mpr hm)

theorem takeBody_empty (s : State) (p : PortName) (h : s.queue = []) : takeBody p s = (s, refuse .empty []) := by
  unfold takeBody takeFront
  rw [h]

/-- TAKE of a clean CURED front lot takes it at the first try (R102). -/
theorem takeBody_front (s : State) (p : PortName) (n k : Nat) (rest : List Nat) (r : LotRecord)
    (hq : s.queue = n :: rest) (hl : liveLot s n k r) (hs : r.state = .cured) :
    takeBody p s = (s.takeInto p k r, doneWith (takeFields (s.takeInto p k r) (testingRecord r p))) := by
  have front : s.queue.head? = some n := by rw [hq]; rfl
  unfold takeBody takeFront
  rw [hq]
  dsimp only
  rw [checkedPlaced_clean s n k r hl]
  exact if_pos ⟨front, hs⟩

/-- What the taken front lot leaves (R102). -/
theorem takeInto_front (s : State) (p : PortName) (k : Nat) (rest : List Nat) (r : LotRecord)
    (hq : s.queue = r.number :: rest) : s.takeInto p k r = { s.writeLot k (testingRecord r p) with
      queue := rest.filter (· != r.number), bench := s.bench ++ [⟨r.number, p⟩] } := by
  have shorter : s.queue.filter (· != r.number) = rest.filter (· != r.number) := by
    rw [hq]
    exact List.filter_cons_of_neg (by simp)
  rw [← shorter]
  rfl

/-- The answer of a TAKE, once the front lot has been taken (R102). -/
theorem takeFields_front (s : State) (p : PortName) (k : Nat) (rest : List Nat) (r : LotRecord)
    (hq : s.queue = r.number :: rest) : takeFields (s.takeInto p k r) (testingRecord r p) =
      summaryFields (testingRecord r p) ++
        [.u8 (r.cell.getD 0), .u8 ((r.cell.bind fun c => positionIn r.number (s.cell c).lane).getD 0),
          .u32 (r.maturity.getD 0), .u32 (r.target.getD 0), .u32 (r.cured.getD 0),
          .u16 ((r.recipe.map fun x => x.snapshot.minStrength).getD 0),
          .u8 ((r.recipe.map fun x => x.snapshot.maxLeach).getD 0), .u8 r.retests,
          .u8 (rest.filter (· != r.number)).length, .u8 (s.bench.length + 1)] := by
  have benched : (s.bench ++ [(⟨r.number, p⟩ : BenchEntry)]).length = s.bench.length + 1 :=
    List.length_append.trans rfl
  unfold takeFields
  rw [lanePosition_eq, takeInto_front s p k rest r hq]
  dsimp only
  rw [benched]
  rfl

/-- Settles O32: an empty queue, or a clean CURED front lot, which is taken at the first try. -/
theorem takeTakesTheFront : Obligations.TakeTakesTheFront := by
  intro p t s h hm
  have hg := gate_take s p h hm
  refine ⟨fun hq => ?_, fun n rest k r hq hl hs => ?_⟩
  · exact request_next_refused s p t .take none (takeBody p) h.1 h.2.1 hg .empty []
      (takeBody_empty (s.received p t) p hq)
  · let S := s.received p t
    have taken := takeBody_front S p n k rest r hq hl hs
    obtain rfl := liveLot_number s n k r hl
    rw [takeFields_front S p k rest r hq, takeInto_front S p k rest r hq] at taken
    exact request_next s p t .take none (takeBody p) h.1 h.2.1 hg _ _ _ taken rfl rfl

/-! ### RETURN (R104) -/

/-- RETURN goes on with the lot it names (R104). -/
theorem returnBody_clean (s : State) (p : PortName) (n k : Nat) (r : LotRecord) (hl : liveLot s n k r) :
    returnBody p n s =
      if testedBy r p then
        (s.returnInto k r, doneWith
          ([.u24 n, .u8 (queueStatusCode (some (if r.holds = 0 then QueueStatus.queued else .parked)))] ++
            optField .u8 (if r.holds = 0 then some 1 else none)))
      else (s, refuse .notHolder (notHolderFields r)) :=
  onLot_clean s n k r _ hl

/-- A lot without a hold goes to the front of the queue (R104). -/
theorem returnBody_queued (s : State) (p : PortName) (n k : Nat) (r : LotRecord) (hl : liveLot s n k r)
    (held : testedBy r p = true) (free : r.holds = 0) : returnBody p n s =
      ({ s.writeLot k (returnedRecord r .queued) with queue := n :: s.queue, bench := s.bench.filter (·.lot != n) },
        doneWith [.u24 n, .u8 1, .u8 1, .u8 1]) := by
  rw [returnBody_clean s p n k r hl, if_pos held, if_pos free, if_pos free]
  unfold State.returnInto
  dsimp only
  rw [if_pos free, liveLot_number s n k r hl]
  rfl

/-- A lot with a hold is PARKED, and its place is given (R100, R104). -/
theorem returnBody_parked (s : State) (p : PortName) (n k : Nat) (r : LotRecord) (hl : liveLot s n k r)
    (held : testedBy r p = true) (onHold : r.holds ≠ 0) : returnBody p n s =
      (s.leaveTest k n (returnedRecord r .parked), doneWith [.u24 n, .u8 3, .u8 0, .u8 0]) := by
  rw [returnBody_clean s p n k r hl, if_pos held, if_neg onHold, if_neg onHold]
  unfold State.returnInto
  dsimp only
  rw [if_neg onHold, liveLot_number s n k r hl]
  rfl

/-- Settles O33: the holder, and then the hold set of the lot handed back. -/
theorem returnGoesToTheFront : Obligations.ReturnGoesToTheFront := by
  intro p t n k r s h hl
  let S := s.received p t
  have hg := gate_ready s p .lab h .returnLot rfl rfl
  refine ⟨fun other => ?_, fun hs ht => ?_⟩
  · have unheld : ¬ testedBy r p = true := fun held => by
      obtain ⟨hs, ht⟩ := (testedBy_iff r p).mp held
      exact other.elim (· hs) (· ht)
    exact request_next_refused s p t .returnLot none (returnBody p n) h.1 h.2.1 hg .notHolder (notHolderFields r)
      ((returnBody_clean S p n k r hl).trans (if_neg unheld))
  · intro bench returned
    have held := (testedBy_iff r p).mpr ⟨hs, ht⟩
    have left := leaveTest_withPorts s k n (returnedRecord r .parked) S.ports
    refine ⟨fun free => ?_, fun onHold => ?_⟩
    · exact request_next s p t .returnLot none (returnBody p n) h.1 h.2.1 hg _ _ _
        (returnBody_queued S p n k r hl held free) rfl rfl
    · exact request_next s p t .returnLot none (returnBody p n) h.1 h.2.1 hg _ _ _
        ((returnBody_parked S p n k r hl held onHold).trans (congrArg (·, _) left)) rfl rfl

end Sys2Proof.Machine
end

section
/-! The loss of a lot (R100, R154 to R157). -/

namespace Sys2Proof.Machine

/-! ### The slot of the lost lot (R155, R157) -/

/-- A rebuild or a loss brings the tally to the wear threshold (R153, R155). -/
theorem tallyRebuild_worn (t : Nat) : Config.wearTally ≤ tallyRebuild t := by
  unfold tallyRebuild Config.wearTally Config.maxTally
  split <;> omega

/-- The slot of a lost lot: emptied and worn, its tally raised (R155, R157). -/
def lostSlot (y : Slot) : Slot :=
  { y with contents := none, waiting := false, worn := true, tally := tallyRebuild y.tally }

/-- What a lost lot leaves of its slot, WORN told when the slot was not worn (R155, R157). -/
theorem loseSlot_eq (s : State) (k : Nat) (hk : k < Config.slotCount) : s.loseSlot k = { s with
    slots := s.slots.setIfInBounds k (lostSlot (s.slot k))
    ports := (if (s.slot k).worn then s else s.raise .worn).ports } := by
  have emptied : (s.emptySlot k).slot k = { s.slot k with contents := none, waiting := false } :=
    slot_setSlot_same s k _ hk
  have reached := tallyRebuild_worn (s.slot k).tally
  have counted : countedSlot { s.slot k with contents := none, waiting := false } (tallyRebuild (s.slot k).tally) =
      lostSlot (s.slot k) := by
    simp [countedSlot, lostSlot, reached]
  have told : countedPorts (s.emptySlot k) { s.slot k with contents := none, waiting := false }
      (tallyRebuild (s.slot k).tally) = (if (s.slot k).worn then s else s.raise .worn).ports := by
    unfold countedPorts
    cases (s.slot k).worn
    · exact if_pos ⟨rfl, reached⟩
    · exact if_neg (fun g => Bool.noConfusion g.1)
  unfold State.loseSlot
  rw [countFault_eq (s.emptySlot k) k tallyRebuild hk, emptied]
  dsimp only
  rw [counted, told]
  simp only [State.emptySlot, State.setSlot, setIfInBounds_twice]

/-! ### The places of the lost numbers (R154, R155) -/

theorem mem_namedNumbers (s : State) (n : Nat) : n ∈ s.namedNumbers ↔
    (∃ c ∈ s.cells.toList, n ∈ c.lane ∨ n ∈ c.reservations) ∨ n ∈ s.queue ∨ (∃ e ∈ s.bench, e.lot = n) ∨
      (∃ b, some b ∈ s.channels.toList ∧ b.lot = n) ∨ ∃ e ∈ s.potLife, e.lot = n := by
  simp [State.namedNumbers, List.mem_flatMap, List.mem_filterMap]

theorem mapVector_congr {α : Type} {n : Nat} (f g : α → α) (v : Vector α n) (h : ∀ x ∈ v.toList, f x = g x) :
    mapVector f v = mapVector g v := by
  apply Vector.toList_inj.mp
  rw [mapVector_toList, mapVector_toList]
  exact List.map_congr_left h

/-- The state once every place has been left by the numbers that meet a condition (R155). -/
def leftBy (s : State) (gone : Nat → Bool) : State := { s with
  cells := mapVector (fun c => { c with
    lane := c.lane.filter (!gone ·), reservations := c.reservations.filter (!gone ·) }) s.cells
  channels := mapVector (fun c => c.filter fun b => !gone b.lot) s.channels
  queue := s.queue.filter (!gone ·)
  bench := s.bench.filter (fun e => !gone e.lot)
  potLife := s.potLife.filter (fun e => !gone e.lot) }

/-- Numbers lost one after another leave every place that names them (R155). -/
theorem foldl_loseNumber_leftBy (ns : List Nat) (gone : Nat → Bool) (s : State)
    (h : ∀ n ∈ s.namedNumbers, ns.contains n = gone n) : ns.foldl State.loseNumber s = leftBy s gone := by
  have listed {m : Nat} (hm : m ∈ s.namedNumbers) : (!ns.contains m) = !gone m := congrArg _ (h m hm)
  have named (m : Nat) := (mem_namedNumbers s m).mpr
  have cells : mapVector (leaveCell ns) s.cells = (leftBy s gone).cells := by
    refine mapVector_congr _ _ _ fun c hc => ?_
    have lane : c.lane.filter (!ns.contains ·) = c.lane.filter (!gone ·) :=
      List.filter_congr fun m hm => listed (named m (.inl ⟨c, hc, .inl hm⟩))
    have reservations : c.reservations.filter (!ns.contains ·) = c.reservations.filter (!gone ·) :=
      List.filter_congr fun m hm => listed (named m (.inl ⟨c, hc, .inr hm⟩))
    unfold leaveCell
    rw [lane, reservations]
  have channels : mapVector (freeIfAmong ns) s.channels = (leftBy s gone).channels := by
    refine mapVector_congr _ _ _ fun c hc => ?_
    cases c with
    | none => rfl
    | some b =>
      have bound := h b.lot (named _ (.inr (.inr (.inr (.inl ⟨b, hc, rfl⟩)))))
      simp only [freeIfAmong, bound, Option.filter_some]
      cases gone b.lot <;> rfl
  have queue : s.queue.filter (!ns.contains ·) = (leftBy s gone).queue :=
    List.filter_congr fun m hm => listed (named m (.inr (.inl hm)))
  have bench : s.bench.filter (fun e => !ns.contains e.lot) = (leftBy s gone).bench :=
    List.filter_congr fun e he => listed (named _ (.inr (.inr (.inl ⟨e, he, rfl⟩))))
  have potLife : s.potLife.filter (fun e => !ns.contains e.lot) = (leftBy s gone).potLife :=
    List.filter_congr fun e he => listed (named _ (.inr (.inr (.inr (.inr ⟨e, he, rfl⟩)))))
  rw [foldl_loseNumber_eq, cells, channels, queue, bench, potLife]
  rfl

/-- The queue places that lost numbers held (R96). -/
theorem placesHeld_sum_gone (s : State) (ns : List Nat) (gone : Nat → Bool) (hn : ns.Nodup)
    (h : ∀ n ∈ s.namedNumbers, ns.contains n = gone n) : (ns.map s.placesHeld).sum =
      (s.queue.filter gone).length + (s.bench.filter fun e => gone e.lot).length := by
  have queued : s.queue.filter (ns.contains ·) = s.queue.filter gone :=
    List.filter_congr fun n hm => h n ((mem_namedNumbers s n).mpr (.inr (.inl hm)))
  have benched : s.bench.filter (fun e => ns.contains e.lot) = s.bench.filter fun e => gone e.lot :=
    List.filter_congr fun e hm => h e.lot ((mem_namedNumbers s _).mpr (.inr (.inr (.inl ⟨e, hm, rfl⟩))))
  rw [placesHeld_sum s ns hn, queued, benched]

/-! ### The retirement of one lost lot (R155, R156) -/

/-- A loss leaves the live and the reserved totals at what the other lots hold (R155). -/
theorem loseAsh_remaining (a : Account) (live reserved : Int) : loseAsh a (a.live - live) (a.reserved - reserved) =
    { a with live := live, reserved := reserved, lost := a.lost + (a.live - live) + (a.reserved - reserved) } := by
  unfold loseAsh
  rw [sub_sub_self, sub_sub_self]

/-- The account once the lot of a slot is lost (R155). -/
def lossAccount (s : State) (k : Nat) : Account := loseAsh s.account (s.lostAsh [k]) (s.lostReservation [k])

/-- The loss record of a slot (R156). -/
def lossRecord (s : State) (k : Nat) : LossRecord :=
  { minute := s.clock, slots := s.attributed [k], ash := s.lostAsh [k], reservation := s.lostReservation [k],
    lostTotal := (lossAccount s k).lost }

/-- The loss of a slot of `s` is recorded in a later state, and told (R156). -/
def recordLoss (s : State) (k : Nat) (u : State) : State :=
  let entry : LossRecord :=
    { minute := u.clock, slots := s.attributed [k], ash := s.lostAsh [k], reservation := s.lostReservation [k],
      lostTotal := u.account.lost }
  State.raise { u with losses := appendLoss u.losses entry } .lost

/-- The state once the lot of a slot has left it and every place, before the freed places are given (R155). -/
def lossLeft (s : State) (k : Nat) (l : Lot) : State :=
  leftBy { s with slots := s.slots.setIfInBounds k (lostSlot (s.slot k)), account := lossAccount s k } (lostWith s k l)

/-- The retirement of one lost lot: it leaves its slot and its places, these are given, and the loss is recorded
(R100, R155, R156). -/
theorem retireLost_one (s : State) (k : Nat) (l : Lot) (hl : s.lotAt k = some l) :
    let gone := lostWith s k l
    let freed := (s.queue.filter gone).length + (s.bench.filter fun e => gone e.lot).length
    s.retireLost [k] = { (lossLeft s k l).giveRooms freed with
      losses := appendLoss s.losses (lossRecord s k)
      ports := ((if (s.slot k).worn then s else s.raise .worn).raise .lost).ports } := by
  intro gone freed
  let v := if (s.slot k).worn then s else s.raise .worn
  let moved := s.withAccount (lossAccount s k)
  have matched : ∀ n ∈ s.namedNumbers, (s.lostNumbers [k]).contains n = gone n := fun n => lostNumbers_one s k l n hl
  have worn : (if (s.slot k).worn then moved else moved.raise .worn).ports = v.ports := by
    show _ = (if (s.slot k).worn then s else s.raise .worn).ports
    cases (s.slot k).worn <;> rfl
  have emptied : moved.loseSlot k = { moved with
      slots := s.slots.setIfInBounds k (lostSlot (s.slot k)), ports := v.ports } := by
    rw [← worn]
    exact loseSlot_eq moved k (slot_of_lotAt s k l hl)
  have left : (s.lostNumbers [k]).foldl State.loseNumber (moved.loseSlot k) =
      { lossLeft s k l with ports := v.ports } := by
    rw [emptied]
    exact foldl_loseNumber_leftBy _ gone _ matched
  have places : ((s.lostNumbers [k]).map s.placesHeld).sum = freed :=
    placesHeld_sum_gone s _ gone (List.nodup_dedup _) matched
  have given : State.giveRooms ((s.lostNumbers [k]).foldl State.loseNumber (moved.loseSlot k))
      ((s.lostNumbers [k]).map s.placesHeld).sum = { (lossLeft s k l).giveRooms freed with ports := v.ports } := by
    rw [left, places, giveRooms_withPorts]
  obtain ⟨slots, queue, frame⟩ := giveRooms_frame freed (lossLeft s k l)
  refine (congrArg (recordLoss s k) given : s.retireLost [k] = _).trans ?_
  rw [frame]
  rfl

/-! ### The check that finds a loss (R149, R154) -/

/-- A check of a slot whose record and entry are both damaged is the beginning of a loss (R149). -/
theorem checkItems_damaged (s : State) (k : Nat) (l : Lot) (hl : s.lotAt k = some l) (hr : l.record.code = .beyond)
    (he : l.entry.code = .beyond) : s.checkItems k = none := by
  have record : findingOf l.record = .damaged := by simp [findingOf, hr]
  have entry : entryFinding l = .damaged := by simp [entryFinding, findingOf, hr, he]
  unfold State.checkItems
  rw [hl]
  dsimp only
  rw [record, entry]

/-- The check of a slot whose lot is lost, among clean ones, retires that lot alone (R154). -/
theorem checkSlot_lost (s : State) (k : Nat) (l : Lot) (hl : s.lotAt k = some l) (hr : l.record.code = .beyond)
    (he : l.entry.code = .beyond) (others : ∀ j m, j ≠ k → s.lotAt j = some m → cleanLot m) :
    s.checkSlot k = s.retireLost [k] := by
  unfold State.checkSlot
  rw [checkItems_damaged s k l hl hr he]
  dsimp only
  rw [lossCheck_clean s k others]

/-- An audit step that reports no disturbance checks the slot at the cycle position (R147). -/
theorem exec_auditStep_quiet (s : State) (h : s.phase = .running) : exec (.auditStep []) s =
    .next { s.checkSlot s.cyclePosition with cyclePosition := (s.cyclePosition + 1) % 512 } :=
  congrArg Host.Outcome.next (if_pos h)

/-- Settles O44: the check finds one lost lot, whose retirement moves the totals and frees its places. -/
theorem lossMovesAshToTheLostTotal : Obligations.LossMovesAshToTheLostTotal := by
  intro s l h hl hr he others kept ash reserved lost k y gone freed left
  have moved : lossAccount s k = { s.account with live := ash, reserved := reserved, lost := lost } := by
    unfold lossAccount State.lostAsh State.lostReservation
    rw [mem_keptLots_one]
    exact loseAsh_remaining s.account ash reserved
  have fallen : s.lostAsh [k] = s.account.live - ash := by
    unfold State.lostAsh
    rw [mem_keptLots_one]
  have returned : s.lostReservation [k] = s.account.reserved - reserved := by
    unfold State.lostReservation
    rw [mem_keptLots_one]
  have emptied : lossLeft s k l = left := by
    unfold lossLeft
    rw [moved]
    rfl
  refine ⟨lossRecord s k, rfl, fallen, returned, congrArg Account.lost moved, ?_, ?_⟩
  · exact attributed_one s k l hl
  · rw [exec_auditStep_quiet s h, checkSlot_lost s k l hl hr he others, retireLost_one s k l hl, emptied]

end Sys2Proof.Machine
end

section
/-! WITHDRAW: the settlement of a MIXING lot and the lot that leaves every place it held (R54, R69, R112, R122 to
R126). -/

namespace Sys2Proof.Machine

/-! ### The account (R122 to R126) -/

/-- A MIXING lot's dosed ash enters the live total by its settlement and leaves it again with the carried ash, so the
live total falls by the carried ash alone (R42, R123). -/
theorem withdrawAccount_mixing (a : Account) (r : LotRecord) (mixing : r.state = .mixing) :
    let x := settlement a.balance (r.reservation.getD 0) (settledAsh r)
    let C : Nat := r.carriedAsh.getD 0
    withdrawAccount a r = { a with
      balance := a.balance + x.returned - x.drawn, unbooked := a.unbooked + x.unbooked
      reserved := a.reserved - (r.reservation.getD 0 : Nat), live := a.live - C
      discard := a.discard + C + settledAsh r } := by
  intro x C
  have live : a.live + settledAsh r - ((C + settledAsh r : Nat) : Int) = a.live - C := by omega
  have discard : a.discard + ((C + settledAsh r : Nat) : Int) = a.discard + C + settledAsh r := by omega
  unfold withdrawAccount discardedAsh
  rw [if_pos mixing, if_pos mixing, ← live, ← discard]
  rfl

/-- The ash mass of a lot that is not MIXING goes from the live total to the discard total (R122). -/
theorem withdrawAccount_ne_mixing (a : Account) (r : LotRecord) (unmixed : r.state ≠ .mixing) :
    withdrawAccount a r = { a with
      live := a.live - (r.ashMass.getD 0 : Nat), discard := a.discard + (r.ashMass.getD 0 : Nat) } := by
  unfold withdrawAccount discardedAsh
  rw [if_neg unmixed, if_neg unmixed]
  rfl

/-- The bound on what the account has booked, that no settlement may pass (R25). -/
theorem settlementPasses_iff (a : Account) (R D : Nat) :
    settlementPasses a R D = true ↔ 1000000000000 < a.intake + a.unbooked + (settlement a.balance R D).unbooked :=
  decide_eq_true_iff

/-! ### The lot that leaves -/

/-- A retirement reads and writes nothing of the ports (R3). -/
theorem freeSlot_giveUpPlaces_received (s : State) (p : PortName) (t n k : Nat) (a : Account) :
    (((s.received p t).withAccount a).giveUpPlaces n).freeSlot k =
      { ((s.withAccount a).giveUpPlaces n).freeSlot k with ports := (s.received p t).ports } := by
  rw [freeSlot_giveUpPlaces, freeSlot_giveUpPlaces, freeSlot_slots (s.received p t) s k rfl]
  rfl

/-- A withdrawal takes the lot away as it would before the frame was received: neither the retirement nor the places
given read the ports (R112, R122). -/
theorem withdrawInto_received (s : State) (p : PortName) (t k : Nat) (r : LotRecord) :
    (s.received p t).withdrawInto k r = { s.withdrawInto k r with ports := (s.received p t).ports } := by
  have retired := freeSlot_giveUpPlaces_received s p t r.number k (withdrawAccount s.account r)
  exact (congrArg (State.giveRooms · (s.placesHeld r.number)) retired).trans (giveRooms_withPorts _ _ _)

/-- WITHDRAW of a clean lot is refused at most for its settlement (R122, R123). -/
theorem withdrawBody_clean (s : State) (n k : Nat) (r : LotRecord) (hl : liveLot s n k r) : withdrawBody n s =
    if r.state = .mixing ∧ settlementPasses s.account (r.reservation.getD 0) (settledAsh r) = true then
      (s, refuse .range [])
    else (s.withdrawInto k r, doneWith (withdrawFields s (s.withdrawInto k r) r)) :=
  onLot_clean s n k r _ hl

/-- WITHDRAW of a clean lot that the account can settle takes the lot away and answers DONE (R122). -/
theorem exec_withdraw_taken (s : State) (p : PortName) (t n k : Nat) (r : LotRecord) (h : ready s p .plant)
    (hl : liveLot s n k r)
    (settles : ¬(r.state = .mixing ∧ settlementPasses s.account (r.reservation.getD 0) (settledAsh r) = true)) :
    exec (.withdraw p t n) s = .next { s.withdrawInto k r with
      ports := replied s p t .done (withdrawFields s (s.withdrawInto k r) r) } := by
  have taken := (withdrawBody_clean (s.received p t) n k r hl).trans (if_neg settles)
  rw [withdrawInto_received] at taken
  exact request_next s p t .withdraw none (withdrawBody n) h.1 h.2.1 (gate_plant s p h .withdraw) _ _ _ taken rfl rfl

/-- Settles O37: the account of either case, in the state that `withdrawInto` leaves. -/
theorem withdrawRetiresInAnyState : Obligations.WithdrawRetiresInAnyState := by
  intro p t n k r s h hl D x C gone
  have retired (a : Account) (moved : withdrawAccount s.account r = a) :
      s.withdrawInto k r = (gone a).giveRooms (s.placesHeld n) := by
    unfold State.withdrawInto
    rw [moved, liveLot_number s n k r hl, freeSlot_giveUpPlaces]
  have passes := settlementPasses_iff s.account (r.reservation.getD 0) D
  refine ⟨fun mixing beyond => ?_, fun mixing bounded => ?_, fun unmixed => ?_⟩
  · have refused := (withdrawBody_clean (s.received p t) n k r hl).trans (if_pos ⟨mixing, passes.mpr beyond⟩)
    exact request_next_refused s p t .withdraw none (withdrawBody n) h.1 h.2.1 (gate_plant s p h .withdraw) _ _ refused
  · have taken := exec_withdraw_taken s p t n k r h hl fun both => Int.not_lt.mpr bounded (passes.mp both.2)
    rw [retired _ (withdrawAccount_mixing s.account r mixing)] at taken
    exact taken
  · have taken := exec_withdraw_taken s p t n k r h hl fun both => unmixed both.1
    rw [retired _ (withdrawAccount_ne_mixing s.account r unmixed)] at taken
    exact taken

end Sys2Proof.Machine
end

section
/-! The Recipe Store: RECIPE READ, RECIPE WRITE and the end of its commit, BANK SELECT and the end of a write of the bank
state (R134, R135, R137 to R141). -/

namespace Sys2Proof.Machine

/-! ### RECIPE READ (R137) -/

/-- A RECIPE READ answer, from the committing mark and the form of the commit marked (R137, section 11.4). -/
def recipeReadFields (s : State) (b n mark form : Nat) : List Field :=
  let x := (s.recipe ⟨b, n⟩).values
  [.u8 b, .u8 n, flag x.isSome] ++ valueFields x ++ [.u8 mark, .u8 form, .u8 s.bank.active, pendingField s.bank.pending]

/-- The form of a RECIPE WRITE that writes the values: CONTENTS 1, RETIRE 2 (R138, section 11.5). -/
def formOf : Option RecipeValues → Nat
  | some _ => 1
  | none => 2

theorem committing_of_commit (s : State) (r : RecipeRef) (v : Option RecipeValues) (h : s.commit = some ⟨r, v⟩) :
    s.committing r = true := by
  unfold State.committing
  rw [h]
  exact beq_self_eq_true r

theorem recipeReadBody_range (s : State) (b n : Nat) (beyond : 1 < b ∨ 7 < n) :
    recipeReadBody b n s = (s, refuse .range []) :=
  if_pos beyond

/-- A record that no commit is writing is answered unmarked, whatever other record is being written (R137, R140). -/
theorem recipeReadBody_idle (s : State) (b n : Nat) (named : ¬(1 < b ∨ 7 < n)) (idle : s.committing ⟨b, n⟩ = false) :
    recipeReadBody b n s = (s, doneWith (recipeReadFields s b n 0 0)) := by
  unfold recipeReadBody
  rw [if_neg named, idle]
  cases s.commit <;> rfl

/-- A record being written is answered as it stands, with the mark and the form of its commit (R137, R140). -/
theorem recipeReadBody_committing (s : State) (b n : Nat) (v : Option RecipeValues) (named : ¬(1 < b ∨ 7 < n))
    (writing : s.commit = some ⟨⟨b, n⟩, v⟩) :
    recipeReadBody b n s = (s, doneWith (recipeReadFields s b n 1 (formOf v))) := by
  unfold recipeReadBody
  rw [if_neg named, committing_of_commit s ⟨b, n⟩ v writing, writing]
  cases v <;> rfl

/-- Settles O39, by whether a commit is writing the record. -/
theorem recipeReadAnswersTheRecord : Obligations.RecipeReadAnswersTheRecord := by
  intro p t b n s h
  have gate : s.gate p .recipeRead none = none := by
    rcases h with h | h
    · exact gate_ready s p .plant h .recipeRead rfl rfl
    · exact gate_ready s p .mixer h .recipeRead rfl rfl
  obtain ⟨hr, hp⟩ : s.phase = .running ∧ (s.port p).request = .ready := by
    rcases h with ⟨hr, hp, -⟩ | ⟨hr, hp, -⟩ <;> exact ⟨hr, hp⟩
  have answers (o : OutcomeCode) (fields : List Field)
      (hb : recipeReadBody b n (s.received p t) = (s.received p t, ⟨o, fields, none⟩)) :
      exec (.recipeRead p t b n) s = .next (repliedWith s p t o fields) :=
    request_next_refused s p t .recipeRead none (recipeReadBody b n) hr hp gate o fields hb
  refine ⟨fun beyond => answers _ _ (recipeReadBody_range _ b n beyond), fun hb hn => ?_⟩
  have named : ¬(1 < b ∨ 7 < n) := by omega
  refine ⟨fun idle => ?_, fun retired => ?_, fun v written => ?_⟩
  · exact answers .done _ (recipeReadBody_idle (s.received p t) b n named idle)
  · exact answers .done _ (recipeReadBody_committing (s.received p t) b n none named retired)
  · exact answers .done _ (recipeReadBody_committing (s.received p t) b n (some v) named written)

/-! ### RECIPE WRITE (R138, R139) -/

theorem writeForm_iff (form : Nat) (v : Option RecipeValues) : writeForm form v = true ↔
    (∃ x, v = some x ∧ form = 1 ∧ valuesInRange x = true) ∨ (v = none ∧ form = 2) := by
  cases v <;> simp [writeForm]

section

variable (s : State) (b n form : Nat) (v : Option RecipeValues)

theorem recipeWriteBody_range (beyond : 1 < b ∨ 7 < n) : recipeWriteBody b n form v s = (s, refuse .range []) :=
  if_pos beyond

theorem recipeWriteBody_mode (named : ¬(1 < b ∨ 7 < n)) (barred : b = s.bank.active ∧ s.mode ≠ .service) :
    recipeWriteBody b n form v s = (s, refuse .mode [.u8 (modeCode s.mode)]) := by
  unfold recipeWriteBody
  rw [if_neg named, if_pos barred]

theorem recipeWriteBody_form (named : ¬(1 < b ∨ 7 < n)) (writable : ¬(b = s.bank.active ∧ s.mode ≠ .service))
    (misfit : writeForm form v = false) : recipeWriteBody b n form v s = (s, refuse .range []) := by
  unfold recipeWriteBody
  rw [if_neg named, if_neg writable, misfit, Bool.not_false, if_pos rfl]

theorem recipeWriteBody_busy (named : ¬(1 < b ∨ 7 < n)) (writable : ¬(b = s.bank.active ∧ s.mode ≠ .service))
    (fits : writeForm form v = true) (c : Commit) (writing : s.commit = some c) :
    recipeWriteBody b n form v s = (s, refuse .busy [.u8 c.recipe.bank, .u8 c.recipe.number]) := by
  unfold recipeWriteBody
  rw [if_neg named, if_neg writable, fits, Bool.not_true, if_neg Bool.false_ne_true, writing]

/-- A write that passes its checks begins a commit, and every record stays (R139). -/
theorem recipeWriteBody_taken (named : ¬(1 < b ∨ 7 < n)) (writable : ¬(b = s.bank.active ∧ s.mode ≠ .service))
    (fits : writeForm form v = true) (idle : s.commit = none) : recipeWriteBody b n form v s =
      ({ s with commit := some ⟨⟨b, n⟩, v⟩ }, doneWith [.u8 b, .u8 n, .u8 form, flag true]) := by
  unfold recipeWriteBody
  rw [if_neg named, if_neg writable, fits, Bool.not_true, if_neg Bool.false_ne_true, idle]

end

/-! ### The end of a commit (R141) -/

theorem exec_recipeCommitCompletion_idle (s : State) (idle : s.commit = none) :
    exec .recipeCommitCompletion s = .next s := by
  show execRecipeCommitCompletion s = _
  unfold execRecipeCommitCompletion
  rw [idle]

/-- The completion puts what was being written in the record's place, with a good check (R133, R141). -/
theorem exec_recipeCommitCompletion_writing (s : State) (c : Commit) (writing : s.commit = some c) :
    exec .recipeCommitCompletion s =
      .next { s.setRecipe c.recipe { values := c.values, checkGood := true } with commit := none } := by
  show execRecipeCommitCompletion s = _
  unfold execRecipeCommitCompletion
  rw [writing]

/-- Settles O40, by the checks of R138 in their order and the two cases of the completion. -/
theorem recipeWriteCommits : Obligations.RecipeWriteCommits := by
  refine ⟨fun p t b n form v s h => ?_, fun s => ⟨exec_recipeCommitCompletion_idle s, fun b n v writing =>
    exec_recipeCommitCompletion_writing s ⟨⟨b, n⟩, v⟩ writing⟩⟩
  have gate := gate_plant s p h .recipeWrite
  obtain ⟨hr, hp, -⟩ := h
  have refused (o : OutcomeCode) (fields : List Field)
      (hb : recipeWriteBody b n form v (s.received p t) = (s.received p t, refuse o fields)) :
      exec (.recipeWrite p t b n form v) s = .next (repliedWith s p t o fields) :=
    request_next_refused s p t .recipeWrite none (recipeWriteBody b n form v) hr hp gate o fields hb
  have named (hb : b ≤ 1) (hn : n ≤ 7) : ¬(1 < b ∨ 7 < n) := by omega
  refine ⟨fun beyond => refused _ _ (recipeWriteBody_range _ b n form v beyond), fun hb hn active mode =>
    refused _ _ (recipeWriteBody_mode _ b n form v (named hb hn) ⟨active, mode⟩), fun hb hn either => ?_⟩
  have writable : ¬(b = s.bank.active ∧ s.mode ≠ .service) := fun barred => either.elim (· barred.1) barred.2
  refine ⟨fun misfit => ?_, fun wellFormed => ?_⟩
  · have misfits := Bool.eq_false_iff.mpr fun fits => misfit ((writeForm_iff form v).mp fits)
    exact refused _ _ (recipeWriteBody_form (s.received p t) b n form v (named hb hn) writable misfits)
  · have fits := (writeForm_iff form v).mpr wellFormed
    refine ⟨fun c writing => ?_, fun idle => ?_⟩
    · exact refused _ _ (recipeWriteBody_busy (s.received p t) b n form v (named hb hn) writable fits c writing)
    · have taken := recipeWriteBody_taken (s.received p t) b n form v (named hb hn) writable fits idle
      exact request_next s p t .recipeWrite none (recipeWriteBody b n form v) hr hp gate _ _ _ taken rfl rfl

/-! ### BANK SELECT (R134, R135) -/

/-- A change of the bank state is in force at once and begins to be written; a bank state that is as it was is not
written (R134). -/
theorem changeBank_eq (s : State) (b : BankState) : s.changeBank b =
    { s with bank := b, bankWrites := if b = s.bank then s.bankWrites else s.bankWrites ++ [b] } := by
  unfold State.changeBank
  split
  case isTrue same =>
    rw [same]
  case isFalse => rfl

/-- BANK SELECT leaves the active bank, so it changes the bank state where it changes the pending bank (R135). -/
theorem selectedBank_eq_iff (b : BankState) (bank : Nat) :
    selectedBank b bank = b ↔ (if bank = b.active then none else some bank) = b.pending :=
  ⟨fun same => congrArg BankState.pending same, fun same => congrArg (BankState.mk b.active) same⟩

theorem bankSelectBody_range (s : State) (b : Nat) (beyond : 1 < b) : bankSelectBody b s = (s, refuse .range []) :=
  if_pos beyond

/-- The bank state that BANK SELECT leaves, and the answer from the records as they stand (R135). -/
theorem bankSelectBody_taken (s : State) (b : Nat) (hb : b ≤ 1) :
    let pending := if b = s.bank.active then none else some b
    bankSelectBody b s = ({ s with
        bank := ⟨s.bank.active, pending⟩
        bankWrites := if pending = s.bank.pending then s.bankWrites else s.bankWrites ++ [⟨s.bank.active, pending⟩] },
      doneWith [.u8 s.bank.active, pendingField pending, .u8 (s.validIn b)]) := by
  intro pending
  unfold bankSelectBody
  rw [if_neg (Nat.not_lt.mpr hb), changeBank_eq]
  simp only [selectedBank_eq_iff]
  rfl

/-! ### The end of a write of the bank state (R134) -/

theorem exec_bankStateWriteEnd_idle (s : State) (idle : s.bankWrites = []) :
    exec .bankStateWriteEnd s = .next s := by
  show execBankStateWriteEnd s = _
  unfold execBankStateWriteEnd
  rw [idle]

/-- The write begun first ends first, and its bank state is stored with a good check (R134). -/
theorem exec_bankStateWriteEnd_writing (s : State) (b : BankState) (rest : List BankState)
    (begun : s.bankWrites = b :: rest) : exec .bankStateWriteEnd s =
      .next { s with bankStored := b, bankCheckGood := true, bankWrites := rest } := by
  show execBankStateWriteEnd s = _
  unfold execBankStateWriteEnd
  rw [begun]

/-- Settles O41, by the bank named and by the writes that stand begun. -/
theorem bankSelectSetsThePendingBank : Obligations.BankSelectSetsThePendingBank := by
  refine ⟨fun p t b s h => ?_, fun s => ⟨exec_bankStateWriteEnd_idle s, exec_bankStateWriteEnd_writing s⟩⟩
  have gate := gate_plant s p h .bankSelect
  obtain ⟨hr, hp, -⟩ := h
  refine ⟨fun beyond => ?_, fun hb => ?_⟩
  · have refused := bankSelectBody_range (s.received p t) b beyond
    exact request_next_refused s p t .bankSelect none (bankSelectBody b) hr hp gate .range [] refused
  · have taken := bankSelectBody_taken (s.received p t) b hb
    exact request_next s p t .bankSelect none (bankSelectBody b) hr hp gate _ _ _ taken rfl rfl

end Sys2Proof.Machine
end

section
/-! The tally and wear of the slots (R150, R157). A lot that is written, moved, taken out or made to wait changes neither:
they change where a fault is counted, where a slot is reinstated and where a start finds a failing health entry. -/

namespace Sys2Proof.Machine

/-! ### Tally and wear, slot by slot -/

/-- The tally of a slot, and whether it is worn. -/
def wearOf (x : Slot) : Nat × Bool := (x.tally, x.worn)

/-- The tallies and the wear of all slots. -/
def wears (v : Vector Slot Config.slotCount) : List (Nat × Bool) := v.toList.map wearOf

theorem wears_setSlot (s : State) (k : Nat) (x : Slot) (h : wearOf x = wearOf (s.slot k)) :
    wears (s.setSlot k x).slots = wears s.slots := by
  have set : wears (s.setSlot k x).slots = (wears s.slots).set k (wearOf x) := by
    simp only [wears, slots_setSlot, Vector.toList_setIfInBounds, List.map_set]
  rw [set, h, State.slot]
  by_cases hk : k < s.slots.toList.length
  · have here : wearOf (s.slots.toList.getD k Slot.blank) = (wears s.slots)[k]'(by simpa [wears] using hk) := by
      simp only [wears, List.getElem_map, List.getD_eq_getElem?_getD, List.getElem?_eq_getElem hk, Option.getD_some]
    rw [here, List.set_getElem_self]
  · exact List.set_eq_of_length_le (by simpa [wears] using hk)

/-! ### Lots written, moved and taken out -/

@[simp] theorem wears_putLot (s : State) (k : Nat) (l : Lot) : wears (s.putLot k l).slots = wears s.slots :=
  wears_setSlot s k _ rfl

@[simp] theorem wears_writeLot (s : State) (k : Nat) (r : LotRecord) : wears (s.writeLot k r).slots = wears s.slots :=
  wears_putLot s k _

@[simp] theorem wears_emptySlot (s : State) (k : Nat) : wears (s.emptySlot k).slots = wears s.slots :=
  wears_setSlot s k _ rfl

@[simp] theorem wears_changeRecord (s : State) (k : Nat) (f : LotRecord → LotRecord) :
    wears (s.changeRecord k f).slots = wears s.slots := by
  unfold State.changeRecord
  split
  · exact wears_putLot s k _
  · rfl

@[simp] theorem wears_changeEntry (s : State) (k : Nat) (f : IndexEntry → IndexEntry) :
    wears (s.changeEntry k f).slots = wears s.slots := by
  unfold State.changeEntry
  split
  · exact wears_putLot s k _
  · rfl

@[simp] theorem wears_moveLot (s : State) (w k : Nat) : wears (s.moveLot w k).slots = wears s.slots := by
  unfold State.moveLot
  split
  · simp
  · rfl

@[simp] theorem wears_offerSlot (s : State) (k : Nat) : wears (s.offerSlot k).slots = wears s.slots := by
  unfold State.offerSlot
  split
  · rfl
  · split
    · exact wears_moveLot s _ k
    · rfl

@[simp] theorem wears_freeSlot (s : State) (k : Nat) : wears (s.freeSlot k).slots = wears s.slots := by
  simp [State.freeSlot]

@[simp] theorem wears_relocate (s : State) (k : Nat) : wears (s.relocate k).slots = wears s.slots := by
  unfold State.relocate
  split
  · rfl
  · split
    · exact wears_moveLot s k _
    · exact wears_setSlot s k _ rfl

/-- Steps over a list leave tally and wear where each of them does. -/
theorem wears_foldl {α : Type} (f : State → α → State) (h : ∀ s x, wears (f s x).slots = wears s.slots) (l : List α)
    (s : State) : wears (l.foldl f s).slots = wears s.slots := by
  induction l generalizing s with
  | nil => rfl
  | cons x l ih => exact (ih (f s x)).trans (h s x)

/-! ### The test queue and holds -/

@[simp] theorem wears_setStatus (s : State) (k : Nat) (q : QueueStatus) : wears (s.setStatus k q).slots = wears s.slots :=
  wears_changeRecord s k _

@[simp] theorem wears_giveRoom (s : State) : wears s.giveRoom.slots = wears s.slots := by
  unfold State.giveRoom
  split
  · split
    · simp
    · rfl
  · rfl

@[simp] theorem wears_giveRooms (n : Nat) (s : State) : wears (s.giveRooms n).slots = wears s.slots := by
  induction n generalizing s with
  | zero => rfl
  | succ n ih => exact (ih s.giveRoom).trans (wears_giveRoom s)

@[simp] theorem wears_admitLot (s : State) (k : Nat) : wears (s.admitLot k).slots = wears s.slots := by
  unfold State.admitLot
  split
  · rfl
  · split_ifs <;> simp

@[simp] theorem wears_leaveQueue (s : State) (n : Nat) : wears (s.leaveQueue n).slots = wears s.slots := rfl

@[simp] theorem wears_leaveBench (s : State) (n : Nat) : wears (s.leaveBench n).slots = wears s.slots := rfl

@[simp] theorem wears_giveUpQueue (s : State) (n : Nat) : wears (s.giveUpQueue n).slots = wears s.slots := by
  simp [State.giveUpQueue]

@[simp] theorem wears_parkHeld (s : State) (k : Nat) : wears (s.parkHeld k).slots = wears s.slots := by
  unfold State.parkHeld
  split
  · rfl
  · split_ifs <;> simp

@[simp] theorem wears_addHold (s : State) (k : Nat) (h : Hold) : wears (s.addHold k h).slots = wears s.slots := by
  unfold State.addHold
  split
  · rfl
  · split_ifs <;> simp

@[simp] theorem wears_addHoldTo (s : State) (n : Nat) (h : Hold) : wears (s.addHoldTo n h).slots = wears s.slots := by
  unfold State.addHoldTo
  split
  · exact wears_addHold s _ h
  · rfl

@[simp] theorem wears_sensorHold (s : State) (k c : Nat) : wears (s.sensorHold k c).slots = wears s.slots := by
  unfold State.sensorHold
  split
  · exact wears_addHold s k .sensor
  · rfl

@[simp] theorem wears_sealHolds (s : State) (k : Nat) (u : Bool) (b : Band) :
    wears (s.sealHolds k u b).slots = wears s.slots := by
  unfold State.sealHolds
  cases u <;> by_cases hb : b = .inside <;> simp [hb]

/-! ### Pot lives, lanes and channels -/

@[simp] theorem wears_judgePotLife (s : State) : wears s.judgePotLife.slots = wears s.slots :=
  wears_foldl State.expireOne (fun s e => wears_addHoldTo s e.lot .potLife) _ _

@[simp] theorem wears_sensorLane (s : State) (l : List Nat) : wears (s.sensorLane l).slots = wears s.slots := by
  refine wears_foldl sensorOne (fun s n => ?_) l s
  unfold sensorOne
  split
  · split_ifs <;> simp
  · rfl

@[simp] theorem wears_outageRule (s : State) : wears s.outageRule.slots = wears s.slots := by
  unfold State.outageRule
  dsimp only
  split
  · rfl
  · exact wears_foldl State.outageCell (fun s c => wears_sensorLane _ _) _ s

@[simp] theorem wears_orphanChannels (s : State) (cs : List Nat) : wears (s.orphanChannels cs).slots = wears s.slots := by
  have one (s : State) (c : Nat) : wears (s.orphanChannel c).slots = wears s.slots := by
    unfold State.orphanChannel State.clearChannelField
    split
    · split
      · exact wears_changeRecord _ _ _
      · rfl
    · rfl
  unfold State.orphanChannels
  split
  · rfl
  · exact wears_foldl State.orphanChannel one cs s

@[simp] theorem wears_returnBench (s : State) (p : PortName) : wears (s.returnBench p).slots = wears s.slots := by
  have one (s : State) (n : Nat) : wears (s.uncheckedReturn n).slots = wears s.slots := by
    unfold State.uncheckedReturn
    split
    · simp
    · rfl
  exact (wears_giveRooms _ _).trans (wears_foldl State.uncheckedReturn one _ _)

@[simp] theorem wears_setupInto (s : State) (q : PortName) (r : PortRole) : wears (s.setupInto q r).slots = wears s.slots := by
  have orphaned := wears_orphanChannels (setupBegun s q r) ((setupBegun s q r).excludedChannels q)
  rw [setupInto_eq]
  dsimp only
  split
  · exact (wears_returnBench _ q).trans orphaned
  · exact orphaned

@[simp] theorem wears_makeAbsent (s : State) (p : PortName) : wears (s.makeAbsent p).slots = wears s.slots := by
  unfold State.makeAbsent
  dsimp only
  rw [wears_returnBench]
  split
  · exact wears_orphanChannels _ _
  · rfl

/-! ### The requests on one lot -/

theorem wears_openInto (s : State) (p : PortName) (slot channel planned : Nat) (ref : RecipeRef) (k : Snapshot)
    (parent : Option Parent) : wears (s.openInto p slot channel planned ref k parent).slots = wears s.slots := by
  have written := wears_writeLot s slot (openedRecord s s.counter.next channel planned ref k parent)
  unfold State.openInto
  dsimp only
  rw [wears_judgePotLife]
  split
  · exact (wears_freeSlot _ _).trans written
  · exact written

theorem wears_sealInto (s : State) (k cell : Nat) (r : LotRecord) (d : Dosed) :
    wears (s.sealInto k cell r d).slots = wears s.slots :=
  (wears_sealHolds _ k _ _).trans (wears_writeLot _ k _)

theorem wears_withdrawInto (s : State) (k : Nat) (r : LotRecord) : wears (s.withdrawInto k r).slots = wears s.slots := by
  unfold State.withdrawInto
  rw [wears_giveRooms, wears_freeSlot, giveUpPlaces_eq, slots_withAccount]

theorem wears_returnInto (s : State) (k : Nat) (r : LotRecord) : wears (s.returnInto k r).slots = wears s.slots := by
  unfold State.returnInto
  dsimp only
  split <;> simp

theorem wears_judgeInto (s : State) (k : Nat) (r : LotRecord) (x : TestResult) (f : Option FailCause) :
    wears (s.judgeInto k r x f).slots = wears s.slots := by
  simp [State.judgeInto]

theorem wears_retestInto (s : State) (k : Nat) (r : LotRecord) : wears (s.retestInto k r).slots = wears s.slots := by
  unfold State.retestInto
  dsimp only
  rw [wears_giveRoom]
  split <;> simp

theorem wears_placeInto (s : State) (k cell : Nat) (r : LotRecord) : wears (s.placeInto k cell r).slots = wears s.slots := by
  unfold State.placeInto
  dsimp only
  rw [wears_sensorHold, slots_setCell]
  split <;> exact wears_writeLot s k _

/-- The four steps of a valid reading leave tally and wear (R82 to R85). -/
theorem wears_treatLot (s : State) (k : Nat) (r : LotRecord) (y : Int) (m : Nat) :
    wears (s.treatLot k r y m).1.slots = wears s.slots := by
  have held : wears (if completesFrost y r then
      (s.changeRecord k fun r => stepFrost y (accumulate y (applyPending r))).addHold k .frost
      else s.changeRecord k fun r => stepFrost y (accumulate y (applyPending r))).slots = wears s.slots := by
    split <;> simp
  unfold State.treatLot
  dsimp only
  split
  · split
    · simpa using held
    · exact held
  · exact held

end Sys2Proof.Machine
end

section
/-! The check of a slot keeps the health table sound: where a fault is counted the tally stops at 15, and the slot is worn
once it has reached 4 (R150, R153, R155, R157). -/

namespace Sys2Proof.Machine

/-! ### The health table -/

/-- A sound health table stays sound. -/
def wearKept (s u : State) : Prop := healthSound s → healthSound u

theorem wearKept_refl (s : State) : wearKept s s := id

theorem wearKept_trans (s u v : State) (h : wearKept s u) (g : wearKept u v) : wearKept s v := g ∘ h

theorem healthSound_iff (s : State) : healthSound s ↔
    ∀ w ∈ wears s.slots, w.1 ≤ Config.maxTally ∧ (Config.wearTally ≤ w.1 → w.2 = true) := by
  unfold wears
  rw [List.forall_mem_map]
  rfl

theorem wearKept_of_wears (s u : State) (h : wears u.slots = wears s.slots) : wearKept s u := fun sound => by
  rw [healthSound_iff, h]
  exact (healthSound_iff s).mp sound

theorem wearKept_of_slots (s u : State) (h : u.slots = s.slots) : wearKept s u :=
  wearKept_of_wears s u (congrArg wears h)

theorem healthSound_slot (s : State) (k : Nat) (h : healthSound s) : wearSound (s.slot k) := by
  by_cases hk : k < s.slots.toList.length
  · have here : s.slot k = s.slots.toList[k] := by
      simp only [State.slot, List.getD_eq_getElem?_getD, List.getElem?_eq_getElem hk, Option.getD_some]
    rw [here]
    exact h _ (List.getElem_mem hk)
  · rw [slot_beyond s k (by simpa using hk)]
    exact ⟨Nat.zero_le _, fun g => absurd g (by decide)⟩

/-- A slot rewritten with a sound entry keeps the table sound. -/
theorem wearKept_setSlot (s u : State) (k : Nat) (x : Slot) (hu : u.slots = s.slots.setIfInBounds k x)
    (h : wearSound (s.slot k) → wearSound x) : wearKept s u := fun sound y hy => by
  rw [hu, Vector.toList_setIfInBounds] at hy
  rcases List.mem_or_eq_of_mem_set hy with hy | rfl
  · exact sound y hy
  · exact h (healthSound_slot s k sound)

/-- Slots changed one by one, each entry staying sound. -/
theorem wearKept_mapSlots (s u : State) (f : Slot → Slot) (hu : u.slots = mapVector f s.slots)
    (h : ∀ x, wearSound x → wearSound (f x)) : wearKept s u := fun sound y hy => by
  rw [hu, mapVector_toList] at hy
  obtain ⟨x, hx, rfl⟩ := List.mem_map.mp hy
  exact h x (sound x hx)

/-- Steps over a list that carry a second result keep the table sound where each of them does. -/
theorem wearKept_foldl {α β : Type} (f : State × β → α → State × β) (h : ∀ x a, wearKept x.1 (f x a).1) (l : List α)
    (x : State × β) : wearKept x.1 (l.foldl f x).1 := by
  induction l generalizing x with
  | nil => exact wearKept_refl x.1
  | cons a l ih => exact wearKept_trans _ _ _ (h x a) (ih (f x a))

/-! ### A fault counted (R150, R153, R155, R157) -/

theorem tallyRepair_le (t : Nat) : tallyRepair t ≤ Config.maxTally := Nat.min_le_left _ _

theorem tallyRebuild_le (t : Nat) : tallyRebuild t ≤ Config.maxTally := by
  unfold tallyRebuild
  split
  · decide
  · exact Nat.min_le_left _ _

/-- A slot whose wear has been judged on a tally in its range is sound (R157). -/
theorem wearSound_countedSlot (x : Slot) (t : Nat) (h : t ≤ Config.maxTally) : wearSound (countedSlot x t) :=
  ⟨h, fun reached => by simp [countedSlot, show Config.wearTally ≤ t from reached]⟩

/-- A fault counted in a slot that the table does not have changes no slot. -/
theorem countFault_beyond (s : State) (k : Nat) (f : Nat → Nat) (hk : Config.slotCount ≤ k) :
    (s.countFault k f).slots = s.slots := by
  have none (x : Slot) : s.slots.setIfInBounds k x = s.slots := Vector.setIfInBounds_eq_of_size_le hk
  unfold State.countFault State.judgeWear
  dsimp only
  split <;> simp [none]

theorem wearKept_countFault (s : State) (k : Nat) (f : Nat → Nat) (hf : ∀ t, f t ≤ Config.maxTally) :
    wearKept s (s.countFault k f) := by
  by_cases hk : k < Config.slotCount
  · rw [countFault_eq s k f hk]
    exact wearKept_setSlot s _ k _ rfl fun _ => wearSound_countedSlot _ _ (hf _)
  · exact wearKept_of_slots _ _ (countFault_beyond s k f (Nat.le_of_not_lt hk))

theorem wearKept_reportRepair (s : State) (k : Nat) : wearKept s (s.reportRepair k) := by
  unfold State.reportRepair
  dsimp only
  split
  · exact wearKept_refl s
  · exact wearKept_of_wears _ _ (wears_setSlot s k _ rfl)

/-- A lot put into a slot whose repair is then counted (R150). -/
theorem wearKept_putRepaired (s : State) (k : Nat) (l : Lot) : wearKept s ((s.putLot k l).countRepair k) :=
  wearKept_trans _ _ _ (wearKept_of_wears s _ (wears_putLot s k l))
    (wearKept_trans _ _ _ (wearKept_reportRepair _ k) (wearKept_countFault _ k _ tallyRepair_le))

/-! ### The check of one slot (R149) -/

theorem wearKept_mendRecord (s : State) (k : Nat) (f : Finding) : wearKept s (s.mendRecord k f) := by
  unfold State.mendRecord State.repairRecord
  split
  · split
    · exact wearKept_putRepaired s k _
    · exact wearKept_refl s
  · exact wearKept_refl s

theorem wearKept_mendEntry (s : State) (k : Nat) (f : Finding) : wearKept s (s.mendEntry k f) := by
  unfold State.mendEntry State.repairEntry
  split
  · split
    · exact wearKept_putRepaired s k _
    · exact wearKept_refl s
  · exact wearKept_refl s

theorem wearKept_rebuildEntry (s : State) (k : Nat) : wearKept s (s.rebuildEntry k) := by
  unfold State.rebuildEntry
  split
  · exact wearKept_putRepaired s k _
  · exact wearKept_refl s

theorem wearKept_rebuildRecord (s : State) (k : Nat) : wearKept s (s.rebuildRecord k) := by
  unfold State.rebuildRecord
  split
  · exact wearKept_refl s
  · dsimp only
    refine wearKept_trans _ _ _ ?_
      (wearKept_trans _ _ _ (wearKept_reportRepair _ k) (wearKept_countFault _ k _ tallyRebuild_le))
    refine wearKept_of_wears _ _ ?_
    split <;> simp

theorem wearKept_relocateNewlyWorn (s before : State) (k : Nat) : wearKept s (s.relocateNewlyWorn before k) := by
  unfold State.relocateNewlyWorn
  split
  · exact wearKept_of_wears _ _ (wears_relocate s k)
  · exact wearKept_refl s

theorem wearKept_checkItems (s t : State) (k : Nat) (h : s.checkItems k = some t) : wearKept s t := by
  have relocated (u : State) (kept : wearKept s u) : wearKept s (u.relocateNewlyWorn s k) :=
    wearKept_trans _ _ _ kept (wearKept_relocateNewlyWorn u s k)
  unfold State.checkItems at h
  split at h
  · cases h
    exact wearKept_refl s
  · split at h
    · cases h
    · cases h
      exact relocated _ (wearKept_trans _ _ _ (wearKept_mendEntry s k _) (wearKept_rebuildRecord _ k))
    · cases h
      exact relocated _ (wearKept_trans _ _ _ (wearKept_mendRecord s k _) (wearKept_rebuildEntry _ k))
    · cases h
      exact relocated _ (wearKept_trans _ _ _ (wearKept_mendRecord s k _) (wearKept_mendEntry _ k _))

/-! ### A loss (R154, R155) -/

theorem wearKept_lossCheck (s : State) (k : Nat) : wearKept s (s.lossCheck k).1 := by
  have one (x : State × List Nat) (j : Nat) : wearKept x.1 (lossCheckOne x j).1 := by
    unfold lossCheckOne
    split
    case h_1 t ht => exact wearKept_checkItems _ _ _ ht
    case h_2 => exact wearKept_refl x.1
  unfold State.lossCheck
  generalize (List.range Config.slotCount).filter (· != k) = others
  exact wearKept_foldl lossCheckOne one others (s, [])

theorem wearKept_loseSlot (s : State) (k : Nat) : wearKept s (s.loseSlot k) :=
  wearKept_trans _ _ _ (wearKept_of_wears s _ (wears_emptySlot s k)) (wearKept_countFault _ k _ tallyRebuild_le)

theorem wearKept_retireLost (s : State) (lost : List Nat) : wearKept s (s.retireLost lost) := by
  let moved := s.withAccount (loseAsh s.account (s.lostAsh lost) (s.lostReservation lost))
  have emptied : wearKept s (lost.foldl State.loseSlot moved) := wearKept_trans _ _ _ (wearKept_of_slots s moved rfl)
    (foldl_related wearKept_refl wearKept_trans State.loseSlot wearKept_loseSlot lost moved)
  have left (u : State) (numbers : List Nat) : (numbers.foldl State.loseNumber u).slots = u.slots := by
    rw [foldl_loseNumber_eq]
  refine wearKept_trans _ _ _ emptied (wearKept_of_wears _ _ ?_)
  unfold State.retireLost
  dsimp only
  rw [slots_raise, wears_giveRooms, left]

/-- The check of a slot, with any loss it finds, keeps the health table sound. -/
theorem wearKept_checkSlot (s : State) (k : Nat) : wearKept s (s.checkSlot k) := by
  unfold State.checkSlot
  split
  case h_1 t ht => exact wearKept_checkItems s t k ht
  case h_2 => exact wearKept_trans _ _ _ (wearKept_lossCheck s k) (wearKept_retireLost _ _)

end Sys2Proof.Machine
end

section
/-! Every request keeps the health table sound: it checks slots, or writes, moves and takes out lots, or reinstates one
free slot (R148, R159). -/

namespace Sys2Proof.Machine

/-! ### Requests on a lot or a channel -/

/-- A request on a lot whose body leaves tally and wear. -/
theorem wearKept_onLot (s : State) (n : Nat) (body : State → Nat → LotRecord → State × Reply)
    (h : ∀ u k r, wears (body u k r).1.slots = wears u.slots) : wearKept s (s.onLot n body).1 :=
  onLot_related wearKept_refl wearKept_trans wearKept_checkSlot s n body fun u k r => wearKept_of_wears _ _ (h u k r)

/-- A request on a channel whose body leaves tally and wear. -/
theorem wearKept_onChannel (s : State) (p : PortName) (c : Nat) (active stalled : Bool)
    (body : State → Binding → Nat → LotRecord → State × Reply)
    (h : ∀ u b k r, wears (body u b k r).1.slots = wears u.slots) : wearKept s (s.onChannel p c active stalled body).1 :=
  onChannel_related wearKept_refl wearKept_trans wearKept_checkSlot s p c active stalled body fun u b k r =>
    wearKept_of_wears _ _ (h u b k r)

/-- A list of checks keeps the health table sound (R71, R113). -/
theorem wearKept_checkLots (l : List Nat) (s : State) : wearKept s (l.foldl State.checkLot s) :=
  foldl_related wearKept_refl wearKept_trans State.checkLot (checkLot_related wearKept_refl wearKept_checkSlot) l s

/-! ### The Lot Table -/

theorem wearKept_scanBody (filter start : Nat) (s : State) : wearKept s (scanBody filter start s).1 := by
  unfold scanBody
  split
  · exact wearKept_refl s
  · exact scanWalk_related wearKept_refl wearKept_trans wearKept_checkSlot _ s []

theorem wearKept_amendTargetBody (part lot target : Nat) (s : State) :
    wearKept s (amendTargetBody part lot target s).1 := by
  unfold amendTargetBody
  split
  · exact wearKept_refl s
  · refine wearKept_onLot s lot _ fun u k r => ?_
    dsimp only
    split
    · exact wears_changeRecord u k _
    · cases r.state
      case testing | cleared | rejected => rfl
      all_goals exact wears_changeRecord u k _

theorem wearKept_amendRecipeBody (part lot bank number : Nat) (s : State) :
    wearKept s (amendRecipeBody part lot bank number s).1 := by
  unfold amendRecipeBody
  split
  · exact wearKept_refl s
  · refine wearKept_onLot s lot _ fun u k r => ?_
    split
    · rfl
    · split
      · rfl
      · split
        · rfl
        · exact wears_changeRecord u k _

theorem wearKept_amendDosedBody (part lot ash cement water : Nat) (s : State) :
    wearKept s (amendDosedBody part lot ash cement water s).1 := by
  unfold amendDosedBody
  split
  · exact wearKept_refl s
  · refine wearKept_onLot s lot _ fun u k r => ?_
    split
    · exact wears_changeRecord u k _
    · rfl

theorem wearKept_clearHoldBody (lot reasons : Nat) (s : State) : wearKept s (clearHoldBody lot reasons s).1 := by
  unfold clearHoldBody
  split
  · exact wearKept_refl s
  · refine wearKept_onLot s lot _ fun u k r => ?_
    dsimp only
    split
    · rfl
    · dsimp only
      split <;> simp

/-! ### The Batch Channel Unit -/

theorem wears_openRecipe (s : State) (p : PortName) (channel planned : Nat) (ref : RecipeRef) (parent : Option Parent) :
    wears (s.openRecipe p channel planned ref parent).1.slots = wears s.slots := by
  unfold State.openRecipe
  split
  · rfl
  · split
    · rfl
    · split
      · rfl
      · split
        · rfl
        · split
          · rfl
          · exact wears_openInto s p _ channel planned ref _ parent

theorem wearKept_openBody (p : PortName) (channel recipe planned : Nat) (s : State) :
    wearKept s (openBody p channel recipe planned s).1 := by
  unfold openBody
  split
  · exact wearKept_refl s
  · split
    · exact wearKept_refl s
    · obtain ⟨bank, writes, banked⟩ := applyPendingBank_frame s
      refine wearKept_of_wears _ _ ((wears_openRecipe _ p channel planned _ none).trans ?_)
      rw [banked]

theorem wearKept_remixBody (p : PortName) (channel recipe planned parent : Nat) (s : State) :
    wearKept s (remixBody p channel recipe planned parent s).1 := by
  unfold remixBody
  split
  · exact wearKept_refl s
  · split
    · exact wearKept_refl s
    · refine wearKept_onLot s parent _ fun u k r => ?_
      split_ifs
      · rfl
      · rfl
      · rfl
      · rfl
      · unfold State.openRemix
        split
        · exact wears_openRecipe u p channel planned _ _
        · rfl

theorem wearKept_doseBody (p : PortName) (channel ash cement water : Nat) (s : State) :
    wearKept s (doseBody p channel ash cement water s).1 := by
  unfold doseBody
  split
  · exact wearKept_refl s
  · refine wearKept_onChannel s p channel true false _ fun u b k r => ?_
    split
    · rfl
    · dsimp only
      split
      · exact wears_changeRecord u k _
      · rfl

theorem wearKept_sealBody (p : PortName) (channel cell : Nat) (s : State) :
    wearKept s (sealBody p channel cell s).1 := by
  unfold sealBody
  split
  · exact wearKept_refl s
  · refine wearKept_onChannel s p channel true true _ fun u b k r => ?_
    split
    · rfl
    · split_ifs
      · exact wears_freeSlot _ k
      · rfl
      · rfl
      · rfl
      · exact wears_sealInto u k cell r _

theorem wearKept_rebindBody (p : PortName) (lot channel : Nat) (s : State) :
    wearKept s (rebindBody p lot channel s).1 := by
  unfold rebindBody
  split
  · exact wearKept_refl s
  · split
    · exact wearKept_refl s
    · refine wearKept_onLot s lot _ fun u k r => ?_
      split
      · rfl
      · exact wears_changeRecord u k _

theorem wearKept_channelStatusBody (channel : Nat) (s : State) : wearKept s (channelStatusBody channel s).1 := by
  unfold channelStatusBody
  dsimp only
  split
  · exact checkLot_related wearKept_refl wearKept_checkSlot s _
  · exact wearKept_refl s

/-! ### The Test Queue Unit -/

theorem wearKept_takeBody (p : PortName) (s : State) : wearKept s (takeBody p s).1 :=
  takeFront_related wearKept_refl wearKept_trans wearKept_checkSlot p
    (fun u k _ => wearKept_of_wears u _ (wears_writeLot _ k _)) _ s

theorem wearKept_returnBody (p : PortName) (lot : Nat) (s : State) : wearKept s (returnBody p lot s).1 :=
  wearKept_onLot s lot _ fun u k r => by
    split
    · exact wears_returnInto u k r
    · rfl

theorem wearKept_resultBody (p : PortName) (lot kind strength leachClass : Nat) (s : State) :
    wearKept s (resultBody p lot kind strength leachClass s).1 := by
  unfold resultBody
  split
  · exact wearKept_refl s
  · refine wearKept_onLot s lot _ fun u k r => ?_
    split
    · split
      · exact wears_judgeInto u k r _ _
      · rfl
    · rfl

theorem wearKept_retestBody (p : PortName) (lot kind : Nat) (s : State) : wearKept s (retestBody p lot kind s).1 := by
  unfold retestBody
  split
  · exact wearKept_refl s
  · refine wearKept_onLot s lot _ fun u k r => ?_
    split
    · split
      · rfl
      · exact wears_retestInto u k r
    · rfl

/-! ### The Cell Map and the Release Unit -/

theorem wearKept_placeBody (lot cell : Nat) (s : State) : wearKept s (placeBody lot cell s).1 :=
  wearKept_onLot s lot _ fun u k r => by
    split_ifs
    · rfl
    · rfl
    · rfl
    · exact wears_placeInto u k cell r

theorem wearKept_releaseBody (lot cell : Nat) (s : State) : wearKept s (releaseBody lot cell s).1 :=
  wearKept_onLot s lot _ fun u k r => by
    split_ifs
    · rfl
    · rfl
    · rfl
    · exact wears_freeSlot _ k

theorem wearKept_extractBody (lot cell : Nat) (s : State) : wearKept s (extractBody lot cell s).1 :=
  wearKept_onLot s lot _ fun u k r => by
    split_ifs
    · rfl
    · rfl
    · exact wears_writeLot _ k _

theorem wearKept_withdrawBody (lot : Nat) (s : State) : wearKept s (withdrawBody lot s).1 :=
  wearKept_onLot s lot _ fun u k r => by
    split_ifs
    · rfl
    · exact wears_withdrawInto u k r

theorem wearKept_cellStatusBody (cell : Nat) (s : State) : wearKept s (cellStatusBody cell s).1 := by
  unfold cellStatusBody
  split
  · exact wearKept_refl s
  · exact wearKept_checkLots _ s

theorem wearKept_closeBody (mark : Bool) (cell : Nat) (s : State) : wearKept s (closeBody mark cell s).1 := by
  unfold closeBody
  split <;> exact wearKept_of_slots _ _ rfl

/-! ### The Record Audit, the Port Unit, the Recipe Store and the clock -/

/-- A reinstated slot has tally 0 and is healthy (R159). -/
theorem wearKept_reinstateBody (k : Nat) (s : State) : wearKept s (reinstateBody k s).1 := by
  unfold reinstateBody
  split_ifs
  · exact wearKept_refl s
  · exact wearKept_refl s
  · exact wearKept_refl s
  · let t := s.setSlot k { s.slot k with tally := 0, worn := false, reported := false }
    have healthy : wearKept s t :=
      wearKept_setSlot s t k _ rfl fun _ => ⟨Nat.zero_le _, fun reached : Config.wearTally ≤ 0 => absurd reached (by decide)⟩
    exact wearKept_trans _ _ _ healthy (wearKept_of_wears t _ (wears_offerSlot t k))

theorem wearKept_portSetupBody (port role first last : Nat) (s : State) :
    wearKept s (portSetupBody port role first last s).1 := by
  unfold portSetupBody
  split
  · exact wearKept_refl s
  · exact wearKept_refl s
  · exact wearKept_refl s
  · split
    · exact wearKept_refl s
    · exact wearKept_of_wears _ _ (wears_setupInto s _ _)

theorem wearKept_clockBody (minute : Option Nat) (s : State) : wearKept s (clockBody minute s).1 := by
  unfold clockBody
  split
  · exact wearKept_refl s
  · split
    · exact wearKept_refl s
    · exact wearKept_of_wears _ _ (wears_judgePotLife _)

/-! ### Requests that leave the slots (R23, R135, R137, R139, R173, R178, R185) -/

theorem slots_intakeBody (amount : Int) (s : State) : (intakeBody amount s).1.slots = s.slots := by
  unfold intakeBody
  split_ifs <;> rfl

theorem slots_modeBody (code : Nat) (s : State) : (modeBody code s).1.slots = s.slots := by
  unfold modeBody
  split <;> rfl

theorem slots_noticeMaskBody (port kinds : Nat) (s : State) : (noticeMaskBody port kinds s).1.slots = s.slots := by
  unfold noticeMaskBody
  split
  · rfl
  · split <;> rfl

theorem slots_recipeReadBody (bank number : Nat) (s : State) : (recipeReadBody bank number s).1.slots = s.slots := by
  unfold recipeReadBody
  split <;> rfl

theorem slots_recipeWriteBody (bank number form : Nat) (values : Option RecipeValues) (s : State) :
    (recipeWriteBody bank number form values s).1.slots = s.slots := by
  unfold recipeWriteBody
  split_ifs
  · rfl
  · rfl
  · rfl
  · split <;> rfl

theorem slots_bankSelectBody (bank : Nat) (s : State) : (bankSelectBody bank s).1.slots = s.slots := by
  unfold bankSelectBody
  dsimp only
  rw [changeBank_eq]
  split <;> rfl

theorem slots_clearRegisterBody (count : Nat) (s : State) : (clearRegisterBody count s).1.slots = s.slots := by
  unfold clearRegisterBody
  split_ifs <;> rfl

/-! ### All requests -/

/-- The body of every request keeps the health table sound. -/
theorem wearKept_bodyOf (i : Instr) (s : State) : wearKept s (bodyOf i s).1 := by
  cases i with
  | intake p t amount => exact wearKept_of_slots _ _ (slots_intakeBody amount s)
  | lookup p t lot => exact wearKept_onLot s lot _ fun _ _ _ => rfl
  | scan p t filter start => exact wearKept_scanBody filter start s
  | amendTarget p t part lot target => exact wearKept_amendTargetBody part lot target s
  | amendRecipe p t part lot bank number => exact wearKept_amendRecipeBody part lot bank number s
  | amendDosed p t part lot ash cement water => exact wearKept_amendDosedBody part lot ash cement water s
  | holdLot p t lot => exact wearKept_onLot s lot _ fun u k _ => wears_addHold u k .manual
  | clearHold p t lot reasons => exact wearKept_clearHoldBody lot reasons s
  | withdraw p t lot => exact wearKept_withdrawBody lot s
  | cellOpen p t cell => exact wearKept_closeBody false cell s
  | cellClose p t cell => exact wearKept_closeBody true cell s
  | cellStatus p t cell => exact wearKept_cellStatusBody cell s
  | queueStatus p t => exact wearKept_checkLots _ s
  | recipeRead p t bank number => exact wearKept_of_slots _ _ (slots_recipeReadBody bank number s)
  | recipeWrite p t bank number form values =>
    exact wearKept_of_slots _ _ (slots_recipeWriteBody bank number form values s)
  | bankSelect p t bank => exact wearKept_of_slots _ _ (slots_bankSelectBody bank s)
  | mode p t code => exact wearKept_of_slots _ _ (slots_modeBody code s)
  | portSetup p t port role first last => exact wearKept_portSetupBody port role first last s
  | noticeMask p t port kinds => exact wearKept_of_slots _ _ (slots_noticeMaskBody port kinds s)
  | slotHealth p t => exact wearKept_mapSlots s _ _ rfl fun _ sound => sound
  | reinstateSlot p t slot => exact wearKept_reinstateBody slot s
  | clock p t minute => exact wearKept_clockBody minute s
  | clearRegister p t count => exact wearKept_of_slots _ _ (slots_clearRegisterBody count s)
  | openLot p t channel recipe planned => exact wearKept_openBody p channel recipe planned s
  | remixOpen p t channel recipe planned parent => exact wearKept_remixBody p channel recipe planned parent s
  | dose p t channel ash cement water => exact wearKept_doseBody p channel ash cement water s
  | sealLot p t channel cell => exact wearKept_sealBody p channel cell s
  | stall p t channel => exact wearKept_onChannel s p channel true false _ fun _ _ _ _ => rfl
  | resume p t channel => exact wearKept_onChannel s p channel false true _ fun _ _ _ _ => rfl
  | rebind p t lot channel => exact wearKept_rebindBody p lot channel s
  | channelStatus p t channel => exact wearKept_channelStatusBody channel s
  | take p t => exact wearKept_takeBody p s
  | returnLot p t lot => exact wearKept_returnBody p lot s
  | verdictResult p t lot kind strength leachClass => exact wearKept_resultBody p lot kind strength leachClass s
  | verdictRetest p t lot kind => exact wearKept_retestBody p lot kind s
  | place p t lot cell => exact wearKept_placeBody lot cell s
  | release p t lot cell => exact wearKept_releaseBody lot cell s
  | extract p t lot cell => exact wearKept_extractBody lot cell s
  | _ => exact wearKept_of_slots _ _ rfl

end Sys2Proof.Machine
end

section
/-! Every event, and so every step, keeps the health table sound: the samples and the audit check slots, and a start sets
the entries that fail their check to tally 4 and worn (R81, R147, R150, R157, R161). -/

namespace Sys2Proof.Machine

/-! ### The conversions of a round (R76, R80 to R87) -/

theorem wearKept_sampleLot (c : Nat) (y : Int) (m : Nat) (x : State × Bool) (n : Nat) :
    wearKept x.1 (sampleLot c y m x n).1 := by
  have checked : wearKept x.1 (x.1.checkedPlaced n).1 := checkLot_related wearKept_refl wearKept_checkSlot x.1 n
  unfold sampleLot
  dsimp only
  split
  · split
    · split
      · split
        · exact wearKept_trans _ _ _ checked (wearKept_of_wears _ _ (wears_treatLot _ _ _ y m))
        · exact checked
      · exact checked
    · exact wearKept_refl x.1
  · exact wearKept_refl x.1

theorem wearKept_sampleValid (s : State) (c : Nat) (y : Int) (m : Nat) : wearKept s (s.sampleValid c y m) := by
  let marked := s.setCell c (cellValid y m (s.cell c))
  have lane : wearKept s ((s.cell c).lane.foldl (sampleLot c y m) (marked, false)).1 :=
    wearKept_trans _ _ _ (wearKept_of_slots s marked rfl)
      (wearKept_foldl (sampleLot c y m) (wearKept_sampleLot c y m) (s.cell c).lane (marked, false))
  unfold State.sampleValid
  dsimp only
  split
  · exact wearKept_trans _ _ _ lane (wearKept_of_slots _ _ rfl)
  · exact lane

theorem wearKept_sampleMiss (s : State) (c m : Nat) : wearKept s (s.sampleMiss c m) := by
  unfold State.sampleMiss
  dsimp only
  split
  · exact wearKept_of_wears _ _ (wears_sensorLane _ _)
  · exact wearKept_of_slots _ _ rfl

theorem wearKept_endConversion (s : State) (x : Scan) (reading : Option Int) :
    wearKept s (s.endConversion x reading) := by
  have ended (t : State) : wearKept t { t with scan := nextScan x } := wearKept_of_slots _ _ rfl
  unfold State.endConversion
  dsimp only
  refine wearKept_trans _ _ _ ?_ (ended _)
  split
  · split
    · exact wearKept_sampleValid s x.cell _ x.minute
    · exact wearKept_sampleMiss s x.cell x.minute
  · exact wearKept_sampleMiss s x.cell x.minute

theorem wearKept_completion (s : State) (cell : Nat) (reading : Int) (good : Bool) :
    wearKept s (s.completion cell reading good) := by
  unfold State.completion
  split
  · split
    · exact wearKept_endConversion s _ _
    · exact wearKept_refl s
  · exact wearKept_refl s

/-! ### Disturbances (R161) -/

/-- A disturbance may spoil the check of a health entry, and leaves its tally and wear (log entry 5). -/
theorem wears_disturb (s : State) (u : Upset) : wears (s.disturb u).slots = wears s.slots := by
  have lot (k : Nat) (f : Lot → Lot) : wears (s.disturbLot k f).slots = wears s.slots := by
    unfold State.disturbLot
    split
    · exact wears_putLot s k _
    · rfl
  cases u with
  | recordWord k r => exact lot k _
  | recordWords k r => exact lot k _
  | numberCopy k => exact lot k _
  | entryWord k e => exact lot k _
  | entryWords k e => exact lot k _
  | entryDisagrees k e => exact lot k _
  | health k => exact wears_setSlot s k _ rfl
  | _ => rfl

theorem wears_disturbAll (s : State) (us : List Upset) : wears (s.disturbAll us).slots = wears s.slots :=
  wears_foldl State.disturb wears_disturb us s

/-! ### The starts (R161, R183 to R185) -/

theorem slots_cutOff (s : State) : s.cutOff.slots = s.slots := by rw [cutOff_eq]

/-- An entry that a start sets is worn, with tally 4 (R161). -/
theorem wearSound_startHealth (x : Slot) (h : wearSound x) : wearSound (startHealth x) := by
  unfold startHealth
  split
  · exact h
  · exact ⟨(by decide : Config.wearTally ≤ Config.maxTally), fun _ => rfl⟩

theorem wearKept_startAudit (s : State) : wearKept s s.startAudit := by
  have set : wearKept s { s with slots := mapVector startHealth s.slots } :=
    wearKept_mapSlots s _ startHealth rfl wearSound_startHealth
  unfold State.startAudit
  dsimp only
  split
  · exact set
  · exact wearKept_trans _ _ _ set (wearKept_of_wears _ _ (wears_foldl State.relocate wears_relocate _ _))

theorem wearKept_startChannels (s : State) : wearKept s s.startChannels :=
  wearKept_of_wears _ _ (wears_orphanChannels s _)

/-- The fields of a start in progress are no part of the slots. -/
theorem wearKept_restarted (s : State) (x : Phase) (w c r : Bool) :
    wearKept s { s with phase := x, warmDue := w, coldDue := c, resetLine := r } := wearKept_of_slots _ _ rfl

theorem wearKept_withMode (s : State) (m : PlantMode) : wearKept s { s with mode := m } := wearKept_of_slots _ _ rfl

theorem wearKept_warmStart (s : State) : wearKept s s.warmStart := by
  have stored : wearKept s (s.cutOff.startStores false) := wearKept_of_slots s _ (slots_cutOff s)
  have freed := wearKept_trans _ _ _ stored (wearKept_startChannels _)
  have audited := wearKept_trans _ _ _ freed (wearKept_startAudit _)
  exact wearKept_trans _ _ _ audited (wearKept_withMode _ .pause)

/-- A cold start empties the slots and keeps their tally and wear, but for the failing entries (R161). -/
theorem wearKept_coldBegin (s : State) : wearKept s s.coldBegin := by
  refine wearKept_mapSlots s s.coldBegin coldSlot ?_ wearSound_startHealth
  unfold State.coldBegin
  dsimp only
  split <;> rfl

theorem wearKept_startComplete (s s' : State) (e : execStartComplete s = .next s') : wearKept s s' := by
  cases e
  split
  · split
    · exact wearKept_refl s
    · refine wearKept_of_wears _ _ ((wears_judgePotLife _).trans ?_)
      split
      · exact wears_outageRule _
      · rfl
  · exact wearKept_refl s
  · exact wearKept_refl s

theorem wearKept_warmRestart (s s' : State) (e : execWarmRestart s = .next s') : wearKept s s' := by
  cases e
  split
  · split
    · exact wearKept_trans _ _ _ (wearKept_warmStart s) (wearKept_restarted _ _ _ _ _)
    · exact wearKept_of_slots _ _ rfl
    · exact wearKept_of_slots _ _ rfl
  · exact wearKept_refl s

theorem wearKept_coldStart (s s' : State) (e : execColdStart s = .next s') : wearKept s s' := by
  cases e
  split
  · split
    · exact wearKept_coldBegin s
    · exact wearKept_coldBegin s
    · exact wearKept_of_slots _ _ rfl
  · exact wearKept_refl s

theorem wearKept_resetLineAssert (s s' : State) (e : execResetLineAssert s = .next s') : wearKept s s' := by
  cases e
  split
  · exact wearKept_trans _ _ _ (wearKept_warmStart s) (wearKept_restarted _ _ _ _ _)
  · exact wearKept_of_slots _ _ rfl
  · exact wearKept_of_slots _ _ rfl

theorem wearKept_resetLineRelease (s s' : State) (e : execResetLineRelease s = .next s') : wearKept s s' := by
  cases e
  split
  · dsimp only
    split
    · split
      · exact wearKept_of_slots _ _ rfl
      · exact wearKept_of_wears _ _ (wears_outageRule _)
    · exact wearKept_of_slots _ _ rfl
    · exact wearKept_of_slots _ _ rfl
  · exact wearKept_refl s

theorem wearKept_mainSupplyLoss (s s' : State) (e : execMainSupplyLoss s = .next s') : wearKept s s' := by
  cases e
  split
  · exact wearKept_refl s
  · exact wearKept_of_slots _ _ (slots_cutOff s)
  · exact wearKept_of_slots _ _ (slots_cutOff s)

theorem wearKept_mainSupplyReturn (upsets : List Upset) (s s' : State) (e : execMainSupplyReturn upsets s = .next s') :
    wearKept s s' := by
  have disturbed : wearKept s (s.disturbAll upsets) := wearKept_of_wears _ _ (wears_disturbAll s upsets)
  cases e
  split
  · dsimp only
    refine wearKept_trans _ _ _ disturbed ?_
    split
    · exact wearKept_trans _ _ _ (wearKept_trans _ _ _ (wearKept_warmStart _) (wearKept_restarted _ _ _ _ _))
        (wearKept_of_wears _ _ (wears_outageRule _))
    · exact wearKept_coldBegin _
  · exact wearKept_refl s
  · exact wearKept_refl s

/-! ### The step -/

/-- Every event keeps the health table sound. -/
theorem wearKept_event (i : Instr) (hi : isEvent i = true) (s s' : State) (e : exec i s = .next s') :
    wearKept s s' := by
  cases i with
  | portBusy p t =>
    cases e
    split <;> exact wearKept_of_slots _ _ rfl
  | unknownRequestCode p t code length =>
    obtain ⟨a, rfl⟩ := execUnknownRequestCode_ports p t code length s s' e
    exact wearKept_of_slots _ _ rfl
  | frameGapTimeout p =>
    cases e
    split <;> exact wearKept_of_slots _ _ rfl
  | bodyLengthAbandon p length =>
    obtain ⟨a, rfl⟩ := execBodyLengthAbandon_ports p length s s' e
    exact wearKept_of_slots _ _ rfl
  | answerSent p =>
    cases e
    split <;> exact wearKept_of_slots _ _ rfl
  | clockAdvance =>
    cases e
    split
    · split
      · exact wearKept_of_wears _ _ (wears_judgePotLife _)
      · exact wearKept_of_slots _ _ rfl
    · exact wearKept_refl s
  | conversionCompletion cell reading =>
    cases e
    exact wearKept_completion s cell reading true
  | conversionTimeout =>
    cases e
    split
    · exact wearKept_endConversion s _ none
    · exact wearKept_refl s
  | strayCompletion cell reading good =>
    cases e
    exact wearKept_completion s cell reading good
  | potLifeExpiry =>
    cases e
    split
    · exact wearKept_of_wears _ _ (wears_judgePotLife s)
    · exact wearKept_refl s
  | idleTimerExpiry p =>
    cases e
    split
    · exact wearKept_of_wears _ _ (wears_makeAbsent s p)
    · exact wearKept_refl s
  | portSetupWriteEnd =>
    cases e
    split <;> exact wearKept_of_slots _ _ rfl
  | bankStateWriteEnd =>
    cases e
    split <;> exact wearKept_of_slots _ _ rfl
  | auditStep upsets =>
    cases e
    split
    · exact wearKept_trans _ _ _ (wearKept_of_wears _ _ (wears_disturbAll s upsets)) (wearKept_checkSlot _ _)
    · exact wearKept_refl s
  | recipeCommitCompletion =>
    cases e
    split <;> exact wearKept_of_slots _ _ rfl
  | warmRestart => exact wearKept_warmRestart s s' e
  | coldStart => exact wearKept_coldStart s s' e
  | resetLineAssert => exact wearKept_resetLineAssert s s' e
  | resetLineRelease => exact wearKept_resetLineRelease s s' e
  | startComplete => exact wearKept_startComplete s s' e
  | mainSupplyLoss => exact wearKept_mainSupplyLoss s s' e
  | mainSupplyReturn upsets => exact wearKept_mainSupplyReturn upsets s s' e
  | _ => cases hi

/-- Settles O58: a fault counted judges the slot's wear, and nothing else raises a tally but a start, which wears its
slot. -/
theorem stepKeepsWearSound : Obligations.StepKeepsWearSound := by
  intro s s' sound e
  unfold step at e
  split at e
  · cases e
    exact sound
  case h_2 i rest _ =>
    exact exec_related wearKept_trans (fun u a => wearKept_of_slots u _ rfl) wearKept_bodyOf i { s with pending := rest }
      s' (fun hi => wearKept_event i hi _ s') e sound

end Sys2Proof.Machine
end

section
/-! The audit step: the slot at the cycle position is left as it is, mended, or rebuilt (R147, R149 to R153, R157,
R158). -/

namespace Sys2Proof.Machine

/-- Settles O42: an audit step is the check of one slot, which leaves a clean slot and mends another. -/
theorem auditStepChecksOneSlot : Obligations.AuditStepChecksOneSlot := by
  intro s h k after
  have checks : exec (.auditStep []) s = .next { s.checkSlot k with cyclePosition := (k + 1) % 512 } :=
    exec_auditStep_quiet s h
  refine ⟨fun clean => ?_, fun l left rise hl hm => ?_⟩
  · rw [checks, checkSlot_clean s k clean]
  · obtain ⟨stays, wears⟩ := checkSlot_mended s k l left rise hl hm
    refine ⟨fun healthy => ?_, fun healthy worn => ⟨fun f hf => ?_, fun hf => ?_⟩⟩
    · rw [checks, stays healthy]
      rfl
    · rw [checks, (wears healthy worn).1 f hf]
      rfl
    · rw [checks, (wears healthy worn).2 hf]
      rfl

end Sys2Proof.Machine
end

section
/-! A record damaged beyond its code while its entry is good: the check that rebuilds it as a skeleton, and what becomes
of its slot, its lot and its queue places (R100, R152, R153, R157, R158). -/

namespace Sys2Proof.Machine

/-- Which slots have newly become worn depends on the wear alone of the slot as it stood (R158). -/
theorem relocateNewlyWorn_congr (u s b : State) (k : Nat) (h : (b.slot k).worn = (s.slot k).worn) :
    u.relocateNewlyWorn s k = u.relocateNewlyWorn b k := by
  unfold State.relocateNewlyWorn
  rw [h]

/-- The ports once a slot that was worn has had a fault counted: WORN is not told again (R157). -/
theorem countedPorts_worn (s : State) (x : Slot) (t : Nat) (h : x.worn = true) : countedPorts s x t = s.ports :=
  if_neg fun g => Bool.noConfusion (h.symm.trans g.1)

/-- The ports once a slot has become worn: WORN is told (R157). -/
theorem countedPorts_wears (s : State) (x : Slot) (t : Nat) (h : x.worn = false) (ht : Config.wearTally ≤ t) :
    countedPorts s x t = (s.raise .worn).ports := if_pos ⟨h, ht⟩

/-- A rebuilt record and its queue places change the slots, the queue and the bench list alone (R153). -/
theorem rebuiltState_eq (s : State) (k : Nat) (e : IndexEntry) : rebuiltState s k e = { s with
    slots := (rebuiltState s k e).slots
    queue := (rebuiltState s k e).queue
    bench := (rebuiltState s k e).bench } := by
  unfold rebuiltState
  split
  · obtain ⟨slots, queue, bench, frame⟩ := giveUpQueue_frame (s.putLot k (rebuiltLot s e)) e.number
    rw [frame]
    rfl
  · rfl

section
variable (s : State) (k : Nat) (l : Lot) (hl : s.lotAt k = some l) (hr : l.record.code = .beyond)
  (he : l.entry.code = .agrees)
include hl hr he

/-- The check of a damaged record with a good entry, once the record is rebuilt and the fault counted: the slot is
relocated where it has become worn (R152, R153, R158). -/
theorem checkSlot_rebuilds :
    let x := s.slot k
    let b := rebuiltState s k l.entry.held
    s.checkSlot k = State.relocateNewlyWorn { b with
      slots := b.slots.setIfInBounds k (countedSlot
        { b.slot k with contents := some (rebuiltLot s l.entry.held), reported := true } (tallyRebuild x.tally))
      ports := countedPorts (told (s.raise .hold) x) x (tallyRebuild x.tally) } b k := by
  intro x b
  obtain ⟨rebuilt, -⟩ := rebuiltState_slots s k l.entry.held (slot_of_lotAt s k l hl) (Option.isSome_of_mem hl)
  have wear : (b.slot k).worn = x.worn := by simp only [b, x, rebuilt]
  have checked := checkItems_rebuilt s k l hl hr he
  rw [relocateNewlyWorn_congr _ s b k wear] at checked
  simp only [State.checkSlot, checked, b, x, rebuilt]

/-- The check of a slot whose record is damaged beyond its code while its entry is good: the record is rebuilt and its
queue places are given; then the slot stays worn, or becomes worn and its lot moves or waits (R152, R153, R157,
R158). -/
theorem checkSlot_rebuilt :
    let x := s.slot k
    let b := rebuiltState s k l.entry.held
    let m := rebuiltLot s l.entry.held
    let y := { x with contents := some m, tally := tallyRebuild x.tally, reported := true }
    let v := told (s.raise .hold) x
    (x.worn = true → s.checkSlot k = { b with slots := b.slots.setIfInBounds k y, ports := v.ports }) ∧
    (x.worn = false →
      (∀ f, s.lowestFree = some f → s.checkSlot k = { b with
        slots := (b.slots.setIfInBounds f { s.slot f with contents := some m }).setIfInBounds k
          { y with worn := true, contents := none, waiting := false }
        ports := (v.raise .worn).ports }) ∧
      (s.lowestFree = none → s.checkSlot k = { b with
        slots := b.slots.setIfInBounds k { y with worn := true, waiting := true }
        ports := (v.raise .worn).ports })) := by
  intro x b m y v
  have hk := slot_of_lotAt s k l hl
  obtain ⟨rebuilt, lowest, free⟩ := rebuiltState_slots s k l.entry.held hk (Option.isSome_of_mem hl)
  have reached := tallyRebuild_worn x.tally
  obtain ⟨stays, wears⟩ := relocateNewlyWorn_cases b _ { b with ports := countedPorts v x (tallyRebuild x.tally) } k m
    (tallyRebuild x.tally) hk rfl rfl (by simp only [b, rebuilt]; rfl)
  simp only [b, rebuilt] at stays wears
  rw [checkSlot_rebuilds s k l hl hr he]
  simp only [rebuilt]
  refine ⟨fun worn => ?_, fun healthy => ⟨fun f hf => ?_, fun hf => ?_⟩⟩
  · rw [← countedPorts_worn v x _ worn]
    exact stays (.inl worn)
  · rw [← countedPorts_wears v x _ healthy reached, ← free f hf]
    exact (wears healthy reached).1 f (lowest.trans hf)
  · rw [← countedPorts_wears v x _ healthy reached]
    exact (wears healthy reached).2 (lowest.trans hf)

end

/-- Settles O43: the check rebuilds the record as the skeleton of R152, whose places are given and whose slot is worn. -/
theorem damagedRecordIsRebuilt : Obligations.DamagedRecordIsRebuilt := by
  intro s l h hl hr he k x n state skeleton built y rebuilt given held told after
  have written : rebuiltLot s l.entry.held = built := by
    unfold rebuiltLot
    rw [skeleton_eq]
    rfl
  have placed : rebuiltState s k l.entry.held = given := by
    unfold rebuiltState
    rw [written, skeleton_eq]
    rfl
  have frame := rebuiltState_eq s k l.entry.held
  obtain ⟨stays, wears⟩ := checkSlot_rebuilt s k l hl hr he
  rw [placed] at frame
  rw [written, placed] at stays wears
  rw [exec_auditStep_quiet s h]
  refine ⟨fun worn => ?_, fun healthy => ⟨fun f hf => ?_, fun hf => ?_⟩⟩
  · rw [stays worn, frame]
    rfl
  · rw [(wears healthy).1 f hf, frame]
    rfl
  · rw [(wears healthy).2 hf, frame]
    rfl

end Sys2Proof.Machine
end

section
/-! The standing of the ports and the banks: roles, windows and mask kinds, the setup records, and the bank states. A
port's request, its answer, its timer and its pending set are no part of it (R134, R163, R171, R177). -/

namespace Sys2Proof.Machine

/-! ### What the rules of R134, R163 and R177 read -/

/-- A port's role and window, and the kinds of its mask. -/
def portStanding (x : Port) : PortRole × NoticeSet := (⟨x.role, x.window⟩, x.mask.kinds)

/-- The standing of the ports, the setup records stored and being written, and the bank states in force, stored and
being written. -/
def standing (s : State) : (PortName → PortRole × NoticeSet) × (SetupRecord × Option SetupRecord × Option SetupRecord) ×
    BankState × BankState × List BankState :=
  (fun q => portStanding (s.port q), (s.setup.stored, s.setup.writing, s.setup.next),
    s.bank, s.bankStored, s.bankWrites)

/-- Ports that change in their pending sets alone keep their standing. -/
theorem standing_of_portsKept (s u : State) (h : portsKept s u) (hs : u.setup = s.setup) (hb : u.bank = s.bank)
    (hd : u.bankStored = s.bankStored) (hw : u.bankWrites = s.bankWrites) : standing u = standing s := by
  have ports : (fun q => portStanding (u.port q)) = fun q => portStanding (s.port q) := by
    funext q
    rw [← h q]
    rfl
  unfold standing
  rw [ports, hs, hb, hd, hw]

theorem standing_setPort (s : State) (p : PortName) (v : Port) (h : portStanding v = portStanding (s.port p)) :
    standing (s.setPort p v) = standing s := by
  have ports : (fun q => portStanding ((s.setPort p v).port q)) = fun q => portStanding (s.port q) := by
    funext q
    by_cases hq : q = p
    · rw [hq, port_setPort_same, h]
    · rw [port_setPort_ne s p q v hq]
  unfold standing
  rw [ports]
  rfl

/-- Every port changed, each keeping its standing. -/
theorem standing_mapPorts (s : State) (f : PortName → Port → Port) (h : ∀ q x, portStanding (f q x) = portStanding x) :
    standing { s with ports := s.ports.map f } = standing s := by
  have ports : (fun q => portStanding (State.port { s with ports := s.ports.map f } q)) =
      fun q => portStanding (s.port q) := by
    funext q
    exact (congrArg portStanding (get_map f s.ports q)).trans (h q _)
  unfold standing
  rw [ports]

@[simp] theorem standing_raise (s : State) (k : Notice) : standing (s.raise k) = standing s :=
  standing_of_portsKept s _ (portsKept_raise s k) rfl rfl rfl rfl

/-- Steps over a list leave the standing where each of them does. -/
theorem standing_foldl {α : Type} (f : State → α → State) (h : ∀ s x, standing (f s x) = standing s) (l : List α)
    (s : State) : standing (l.foldl f s) = standing s := by
  induction l generalizing s with
  | nil => rfl
  | cons x l ih => exact (ih (f s x)).trans (h s x)

/-! ### Slots, cells, channels and queue -/

@[simp] theorem standing_setSlot (s : State) (k : Nat) (x : Slot) : standing (s.setSlot k x) = standing s := rfl

@[simp] theorem standing_putLot (s : State) (k : Nat) (l : Lot) : standing (s.putLot k l) = standing s := rfl

@[simp] theorem standing_writeLot (s : State) (k : Nat) (r : LotRecord) : standing (s.writeLot k r) = standing s := rfl

@[simp] theorem standing_setCell (s : State) (c : Nat) (x : Cell) : standing (s.setCell c x) = standing s := rfl

@[simp] theorem standing_setChannel (s : State) (c : Nat) (x : Channel) :
    standing (s.setChannel c x) = standing s := rfl

@[simp] theorem standing_withAccount (s : State) (a : Account) : standing (s.withAccount a) = standing s := rfl

@[simp] theorem standing_leaveQueue (s : State) (n : Nat) : standing (s.leaveQueue n) = standing s := rfl

@[simp] theorem standing_leaveBench (s : State) (n : Nat) : standing (s.leaveBench n) = standing s := rfl

/-- An operation that changes the slots alone. -/
theorem standing_of_slots (s u : State) (h : ∃ a, u = { s with slots := a }) : standing u = standing s := by
  obtain ⟨_, rfl⟩ := h
  rfl

/-- An operation that changes the slots and the queue alone. -/
theorem standing_of_queue (s u : State) (h : ∃ a b, u = { s with slots := a, queue := b }) :
    standing u = standing s := by
  obtain ⟨_, _, rfl⟩ := h
  rfl

@[simp] theorem standing_changeRecord (s : State) (k : Nat) (f : LotRecord → LotRecord) :
    standing (s.changeRecord k f) = standing s := standing_of_slots s _ (changeRecord_frame s k f)

@[simp] theorem standing_setStatus (s : State) (k : Nat) (q : QueueStatus) : standing (s.setStatus k q) = standing s :=
  standing_changeRecord s k _

@[simp] theorem standing_offerSlot (s : State) (k : Nat) : standing (s.offerSlot k) = standing s :=
  standing_of_slots s _ (offerSlot_frame s k)

@[simp] theorem standing_freeSlot (s : State) (k : Nat) : standing (s.freeSlot k) = standing s :=
  standing_of_slots s _ (freeSlot_frame s k)

@[simp] theorem standing_relocate (s : State) (k : Nat) : standing (s.relocate k) = standing s :=
  standing_of_slots s _ (relocate_frame s k)

@[simp] theorem standing_giveRoom (s : State) : standing s.giveRoom = standing s :=
  standing_of_queue s _ (giveRoom_frame s)

@[simp] theorem standing_giveRooms (s : State) (n : Nat) : standing (s.giveRooms n) = standing s :=
  standing_of_queue s _ (giveRooms_frame n s)

@[simp] theorem standing_admitLot (s : State) (k : Nat) : standing (s.admitLot k) = standing s :=
  standing_of_queue s _ (admitLot_frame s k)

@[simp] theorem standing_returnBench (s : State) (p : PortName) : standing (s.returnBench p) = standing s := by
  obtain ⟨_, _, _, e⟩ := returnBench_frame s p
  rw [e]
  rfl

/-! ### Holds, pot lives, lanes and freed channels -/

@[simp] theorem standing_addHold (s : State) (k : Nat) (h : Hold) : standing (s.addHold k h) = standing s := by
  obtain ⟨_, _, _, e⟩ := addHold_frame s k h
  refine standing_of_portsKept s _ (portsKept_addHold s k h) ?_ ?_ ?_ ?_ <;> rw [e]

@[simp] theorem standing_sensorHold (s : State) (k c : Nat) : standing (s.sensorHold k c) = standing s := by
  unfold State.sensorHold
  split
  · exact standing_addHold s k .sensor
  · rfl

@[simp] theorem standing_sealHolds (s : State) (k : Nat) (u : Bool) (b : Band) :
    standing (s.sealHolds k u b) = standing s := by
  unfold State.sealHolds
  cases u <;> by_cases hb : b = .inside <;> simp [hb]

@[simp] theorem standing_judgePotLife (s : State) : standing s.judgePotLife = standing s := by
  obtain ⟨_, _, _, e⟩ := judgePotLife_frame s
  refine standing_of_portsKept s _ (portsKept_judgePotLife s) ?_ ?_ ?_ ?_ <;> rw [e]

@[simp] theorem standing_sensorLane (s : State) (l : List Nat) : standing (s.sensorLane l) = standing s := by
  obtain ⟨_, _, _, e⟩ := sensorLane_frame s l
  refine standing_of_portsKept s _ (portsKept_sensorLane l s) ?_ ?_ ?_ ?_ <;> rw [e]

@[simp] theorem standing_outageRule (s : State) : standing s.outageRule = standing s := by
  obtain ⟨_, _, _, _, _, e⟩ := outageRule_facts s
  refine standing_of_portsKept s _ (portsKept_outageRule s) ?_ ?_ ?_ ?_ <;> rw [e]

@[simp] theorem standing_orphanChannels (s : State) (cs : List Nat) : standing (s.orphanChannels cs) = standing s := by
  have one (s : State) (c : Nat) : standing (s.orphanChannel c) = standing s := by
    obtain ⟨_, _, e⟩ := orphanChannel_frame s c
    rw [e]
    rfl
  unfold State.orphanChannels
  split
  · rfl
  · exact (standing_raise _ .orphan).trans (standing_foldl State.orphanChannel one cs s)

theorem standing_makeAbsent (s : State) (p : PortName) : standing (s.makeAbsent p) = standing s := by
  have silent : standing (s.setPort p { s.port p with present := false, idleTimer := none }) = standing s :=
    standing_setPort s p _ rfl
  unfold State.makeAbsent
  dsimp only
  rw [standing_returnBench]
  split
  · rw [standing_orphanChannels, silent]
  · exact silent

/-! ### The check of a slot (R149 to R156) -/

@[simp] theorem standing_countFault (s : State) (k : Nat) (f : Nat → Nat) :
    standing (s.countFault k f) = standing s := by
  unfold State.countFault State.judgeWear
  dsimp only
  split <;> simp

@[simp] theorem standing_reportRepair (s : State) (k : Nat) : standing (s.reportRepair k) = standing s := by
  unfold State.reportRepair
  dsimp only
  split <;> simp

@[simp] theorem standing_countRepair (s : State) (k : Nat) : standing (s.countRepair k) = standing s :=
  (standing_countFault _ k tallyRepair).trans (standing_reportRepair s k)

@[simp] theorem standing_mendRecord (s : State) (k : Nat) (f : Finding) : standing (s.mendRecord k f) = standing s := by
  unfold State.mendRecord State.repairRecord
  split
  · split <;> simp
  · rfl

@[simp] theorem standing_mendEntry (s : State) (k : Nat) (f : Finding) : standing (s.mendEntry k f) = standing s := by
  unfold State.mendEntry State.repairEntry
  split
  · split <;> simp
  · rfl

@[simp] theorem standing_rebuildEntry (s : State) (k : Nat) : standing (s.rebuildEntry k) = standing s := by
  unfold State.rebuildEntry
  split <;> simp

@[simp] theorem standing_rebuildRecord (s : State) (k : Nat) : standing (s.rebuildRecord k) = standing s := by
  unfold State.rebuildRecord
  split
  · rfl
  · dsimp only
    rw [standing_countFault, standing_reportRepair]
    split
    · simp [State.giveUpQueue]
    · simp

@[simp] theorem standing_relocateNewlyWorn (s before : State) (k : Nat) :
    standing (s.relocateNewlyWorn before k) = standing s :=
  standing_of_slots s _ (relocateNewlyWorn_frame s before k)

theorem standing_checkItems (s t : State) (k : Nat) (h : s.checkItems k = some t) : standing t = standing s := by
  unfold State.checkItems at h
  split at h
  · cases h
    rfl
  · split at h <;> cases h <;> simp

theorem standing_lossCheck (s : State) (k : Nat) : standing (s.lossCheck k).1 = standing s := by
  have one (x : State × List Nat) (j : Nat) : standing (lossCheckOne x j).1 = standing x.1 := by
    unfold lossCheckOne
    split
    case h_1 t ht => exact standing_checkItems _ _ _ ht
    case h_2 => rfl
  have all (l : List Nat) (x : State × List Nat) : standing (l.foldl lossCheckOne x).1 = standing x.1 := by
    induction l generalizing x with
    | nil => rfl
    | cons j l ih => exact (ih _).trans (one x j)
  unfold State.lossCheck
  generalize (List.range Config.slotCount).filter (· != k) = others
  exact all others (s, [])

theorem standing_retireLost (s : State) (lost : List Nat) : standing (s.retireLost lost) = standing s := by
  have left (u : State) (numbers : List Nat) : standing (numbers.foldl State.loseNumber u) = standing u :=
    standing_foldl State.loseNumber (fun _ _ => rfl) numbers u
  have emptied (u : State) : standing (lost.foldl State.loseSlot u) = standing u :=
    standing_foldl State.loseSlot (fun v k => standing_countFault (v.emptySlot k) k tallyRebuild) lost u
  unfold State.retireLost
  dsimp only
  rw [standing_raise]
  refine (standing_giveRooms _ _).trans ?_
  rw [left, emptied]
  rfl

@[simp] theorem standing_checkSlot (s : State) (k : Nat) : standing (s.checkSlot k) = standing s := by
  unfold State.checkSlot
  split
  case h_1 t ht => exact standing_checkItems s t k ht
  case h_2 => exact (standing_retireLost _ _).trans (standing_lossCheck s k)

end Sys2Proof.Machine
end

section
/-! The requests that leave the standing of the ports and the banks: all but NOTICE MASK, PORT SETUP, BANK SELECT, and
the OPEN that puts a pending bank in force (R32, R135, R170, R178). -/

namespace Sys2Proof.Machine

/-! ### Requests on a lot or a channel -/

/-- The standing is as it was. -/
def standingKept (s u : State) : Prop := standing u = standing s

theorem standingKept_refl (s : State) : standingKept s s := rfl

theorem standingKept_trans (s u v : State) (h : standingKept s u) (g : standingKept u v) : standingKept s v := g.trans h

theorem standing_checkLot (s : State) (n : Nat) : standing (s.checkLot n) = standing s :=
  checkLot_related standingKept_refl standing_checkSlot s n

theorem standing_checkLots (l : List Nat) (s : State) : standing (l.foldl State.checkLot s) = standing s :=
  standing_foldl State.checkLot standing_checkLot l s

theorem standing_onLot (s : State) (n : Nat) (body : State → Nat → LotRecord → State × Reply)
    (h : ∀ u k r, standing (body u k r).1 = standing u) : standing (s.onLot n body).1 = standing s :=
  onLot_related standingKept_refl standingKept_trans standing_checkSlot s n body h

theorem standing_onChannel (s : State) (p : PortName) (c : Nat) (active stalled : Bool)
    (body : State → Binding → Nat → LotRecord → State × Reply) (h : ∀ u b k r, standing (body u b k r).1 = standing u) :
    standing (s.onChannel p c active stalled body).1 = standing s :=
  onChannel_related standingKept_refl standingKept_trans standing_checkSlot s p c active stalled body h

/-! ### The Lot Table -/

theorem standing_intakeBody (amount : Int) (s : State) : standing (intakeBody amount s).1 = standing s := by
  unfold intakeBody
  split_ifs <;> rfl

theorem standing_scanBody (filter start : Nat) (s : State) : standing (scanBody filter start s).1 = standing s := by
  unfold scanBody
  split
  · rfl
  · exact scanWalk_related standingKept_refl standingKept_trans standing_checkSlot _ s []

theorem standing_amendTargetBody (part lot target : Nat) (s : State) :
    standing (amendTargetBody part lot target s).1 = standing s := by
  unfold amendTargetBody
  split
  · rfl
  · refine standing_onLot s lot _ fun u k r => ?_
    dsimp only
    split
    · exact standing_changeRecord u k _
    · cases r.state
      case testing | cleared | rejected => rfl
      all_goals exact standing_changeRecord u k _

theorem standing_amendRecipeBody (part lot bank number : Nat) (s : State) :
    standing (amendRecipeBody part lot bank number s).1 = standing s := by
  unfold amendRecipeBody
  split
  · rfl
  · refine standing_onLot s lot _ fun u k r => ?_
    split
    · rfl
    · split
      · rfl
      · split
        · rfl
        · exact standing_changeRecord u k _

theorem standing_amendDosedBody (part lot ash cement water : Nat) (s : State) :
    standing (amendDosedBody part lot ash cement water s).1 = standing s := by
  unfold amendDosedBody
  split
  · rfl
  · refine standing_onLot s lot _ fun u k r => ?_
    split
    · exact standing_changeRecord u k _
    · rfl

theorem standing_clearHoldBody (lot reasons : Nat) (s : State) :
    standing (clearHoldBody lot reasons s).1 = standing s := by
  unfold clearHoldBody
  split
  · rfl
  · refine standing_onLot s lot _ fun u k r => ?_
    dsimp only
    split
    · rfl
    · dsimp only
      split <;> simp

/-! ### The Batch Channel Unit -/

theorem standing_openInto (s : State) (p : PortName) (slot channel planned : Nat) (ref : RecipeRef) (k : Snapshot)
    (parent : Option Parent) : standing (s.openInto p slot channel planned ref k parent) = standing s := by
  unfold State.openInto
  dsimp only
  rw [standing_judgePotLife]
  split
  · exact standing_freeSlot _ _
  · rfl

theorem standing_openRecipe (s : State) (p : PortName) (channel planned : Nat) (ref : RecipeRef)
    (parent : Option Parent) : standing (s.openRecipe p channel planned ref parent).1 = standing s := by
  unfold State.openRecipe
  split
  · rfl
  · split
    · rfl
    · split
      · rfl
      · split
        · rfl
        · split
          · rfl
          · exact standing_openInto s p _ channel planned ref _ parent

theorem standing_remixBody (p : PortName) (channel recipe planned parent : Nat) (s : State) :
    standing (remixBody p channel recipe planned parent s).1 = standing s := by
  unfold remixBody
  split
  · rfl
  · split
    · rfl
    · refine standing_onLot s parent _ fun u k r => ?_
      split_ifs
      · rfl
      · rfl
      · rfl
      · rfl
      · unfold State.openRemix
        split
        · exact standing_openRecipe u p channel planned _ _
        · rfl

theorem standing_doseBody (p : PortName) (channel ash cement water : Nat) (s : State) :
    standing (doseBody p channel ash cement water s).1 = standing s := by
  unfold doseBody
  split
  · rfl
  · refine standing_onChannel s p channel true false _ fun u b k r => ?_
    split
    · rfl
    · dsimp only
      split
      · exact standing_changeRecord u k _
      · rfl

theorem standing_sealInto (s : State) (k cell : Nat) (r : LotRecord) (d : Dosed) :
    standing (s.sealInto k cell r d) = standing s := standing_sealHolds _ k _ _

theorem standing_sealBody (p : PortName) (channel cell : Nat) (s : State) :
    standing (sealBody p channel cell s).1 = standing s := by
  unfold sealBody
  split
  · rfl
  · refine standing_onChannel s p channel true true _ fun u b k r => ?_
    split
    · rfl
    · split_ifs
      · exact standing_freeSlot _ k
      · rfl
      · rfl
      · rfl
      · exact standing_sealInto u k cell r _

theorem standing_rebindBody (p : PortName) (lot channel : Nat) (s : State) :
    standing (rebindBody p lot channel s).1 = standing s := by
  unfold rebindBody
  split
  · rfl
  · split
    · rfl
    · refine standing_onLot s lot _ fun u k r => ?_
      split
      · rfl
      · exact standing_changeRecord u k _

theorem standing_channelStatusBody (channel : Nat) (s : State) :
    standing (channelStatusBody channel s).1 = standing s := by
  unfold channelStatusBody
  dsimp only
  split
  · exact standing_checkLot s _
  · rfl

/-! ### The Test Queue Unit -/

theorem standing_takeBody (p : PortName) (s : State) : standing (takeBody p s).1 = standing s :=
  takeFront_related standingKept_refl standingKept_trans standing_checkSlot p
    (fun u k r => standing_writeLot u k (testingRecord r p)) _ s

theorem standing_returnBody (p : PortName) (lot : Nat) (s : State) : standing (returnBody p lot s).1 = standing s :=
  standing_onLot s lot _ fun u k r => by
    split
    · show standing (u.returnInto k r) = standing u
      unfold State.returnInto
      dsimp only
      split
      · rfl
      · simp
    · rfl

theorem standing_resultBody (p : PortName) (lot kind strength leachClass : Nat) (s : State) :
    standing (resultBody p lot kind strength leachClass s).1 = standing s := by
  unfold resultBody
  split
  · rfl
  · refine standing_onLot s lot _ fun u k r => ?_
    split
    · split
      · simp [State.judgeInto]
      · rfl
    · rfl

theorem standing_retestInto (s : State) (k : Nat) (r : LotRecord) : standing (s.retestInto k r) = standing s := by
  unfold State.retestInto
  dsimp only
  rw [standing_giveRoom]
  split <;> simp

theorem standing_retestBody (p : PortName) (lot kind : Nat) (s : State) :
    standing (retestBody p lot kind s).1 = standing s := by
  unfold retestBody
  split
  · rfl
  · refine standing_onLot s lot _ fun u k r => ?_
    split
    · split
      · rfl
      · exact standing_retestInto u k r
    · rfl

/-! ### The Cell Map and the Release Unit -/

theorem standing_placeInto (s : State) (k cell : Nat) (r : LotRecord) :
    standing (s.placeInto k cell r) = standing s := by
  unfold State.placeInto
  dsimp only
  rw [standing_sensorHold, standing_setCell]
  split <;> rfl

theorem standing_placeBody (lot cell : Nat) (s : State) : standing (placeBody lot cell s).1 = standing s :=
  standing_onLot s lot _ fun u k r => by
    split_ifs
    · rfl
    · rfl
    · rfl
    · exact standing_placeInto u k cell r

theorem standing_releaseBody (lot cell : Nat) (s : State) : standing (releaseBody lot cell s).1 = standing s :=
  standing_onLot s lot _ fun u k r => by
    split_ifs
    · rfl
    · rfl
    · rfl
    · exact standing_freeSlot _ k

theorem standing_extractBody (lot cell : Nat) (s : State) : standing (extractBody lot cell s).1 = standing s :=
  standing_onLot s lot _ fun u k r => by
    split_ifs
    · rfl
    · rfl
    · rfl

theorem standing_withdrawBody (lot : Nat) (s : State) : standing (withdrawBody lot s).1 = standing s :=
  standing_onLot s lot _ fun u k r => by
    split_ifs
    · rfl
    · show standing (u.withdrawInto k r) = standing u
      unfold State.withdrawInto
      rw [standing_giveRooms, standing_freeSlot]
      rfl

theorem standing_cellStatusBody (cell : Nat) (s : State) : standing (cellStatusBody cell s).1 = standing s := by
  unfold cellStatusBody
  split
  · rfl
  · exact standing_checkLots _ s

theorem standing_closeBody (mark : Bool) (cell : Nat) (s : State) :
    standing (closeBody mark cell s).1 = standing s := by
  unfold closeBody
  split <;> rfl

/-! ### The Record Audit, the modes and notices, the recipes and the clock -/

theorem standing_reinstateBody (k : Nat) (s : State) : standing (reinstateBody k s).1 = standing s := by
  unfold reinstateBody
  split_ifs
  · rfl
  · rfl
  · rfl
  · exact standing_offerSlot _ k

theorem standing_modeBody (code : Nat) (s : State) : standing (modeBody code s).1 = standing s := by
  unfold modeBody
  split <;> rfl

theorem standing_noticesBody (p : PortName) (s : State) : standing (noticesBody p s).1 = standing s :=
  standing_setPort s p _ rfl

theorem standing_recipeReadBody (bank number : Nat) (s : State) :
    standing (recipeReadBody bank number s).1 = standing s := by
  unfold recipeReadBody
  split <;> rfl

theorem standing_recipeWriteBody (bank number form : Nat) (values : Option RecipeValues) (s : State) :
    standing (recipeWriteBody bank number form values s).1 = standing s := by
  unfold recipeWriteBody
  split_ifs
  · rfl
  · rfl
  · rfl
  · split <;> rfl

theorem standing_clockBody (minute : Option Nat) (s : State) : standing (clockBody minute s).1 = standing s := by
  unfold clockBody
  split
  · rfl
  · split
    · rfl
    · exact standing_judgePotLife _

theorem standing_clearRegisterBody (count : Nat) (s : State) :
    standing (clearRegisterBody count s).1 = standing s := by
  unfold clearRegisterBody
  split_ifs <;> rfl

end Sys2Proof.Machine
end

section
/-! The requests keep the ports and the banks sound, whatever frames they arrive in: NOTICE MASK keeps RESTART in the
mask, PORT SETUP gives a role and the window of R163, and the bank state is changed as R32 and R135 have it. -/

namespace Sys2Proof.Machine

/-! ### What is kept -/

/-- Sound ports stay sound, and sound banks (R134, R163, R177). -/
structure rulesKept (s u : State) : Prop where
  ports : portsSound s → portsSound u
  banks : banksSound s → banksSound u

theorem rulesKept_refl (s : State) : rulesKept s s := ⟨id, id⟩

theorem rulesKept_trans (s u v : State) (h : rulesKept s u) (g : rulesKept u v) : rulesKept s v :=
  ⟨g.ports ∘ h.ports, g.banks ∘ h.banks⟩

/-- The rules read no more of a state than its standing. -/
theorem rulesKept_of_standing (s u : State) (h : standing u = standing s) : rulesKept s u := by
  simp only [standing, Prod.mk.injEq] at h
  obtain ⟨ports, ⟨stored, writing, next⟩, bank, bankStored, bankWrites⟩ := h
  have port (q : PortName) : portStanding (u.port q) = portStanding (s.port q) := congrFun ports q
  refine ⟨fun ⟨plant, each, setup⟩ => ⟨?_, fun q => ?_, ?_⟩, fun sound => ?_⟩
  · exact (congrArg (fun x : PortRole × NoticeSet => x.1.role) (port .a)).trans plant
  · have rule (x : Port) : portSound x ↔ roleSound (portStanding x).1 ∧ hasNotice (portStanding x).2 .restart = true :=
      Iff.rfl
    rw [rule, port q, ← rule]
    exact each q
  · rw [stored, writing, next]
    exact setup
  · unfold banksSound
    rw [bank, bankStored, bankWrites]
    exact sound

/-- Ports whose rules hold beside setup records and banks that stand. -/
theorem rulesKept_of_ports (s u : State) (hs : u.setup = s.setup) (hb : u.bank = s.bank)
    (hd : u.bankStored = s.bankStored) (hw : u.bankWrites = s.bankWrites)
    (h : (s.port .a).role = .plant → (u.port .a).role = .plant)
    (each : (∀ q, portSound (s.port q)) → ∀ q, portSound (u.port q)) : rulesKept s u := by
  refine ⟨fun ⟨plant, sound, setup⟩ => ⟨h plant, each sound, hs ▸ setup⟩, fun sound => ?_⟩
  unfold banksSound
  rw [hb, hd, hw]
  exact sound

/-! ### The banks (R32, R135) -/

/-- A sound bank state put in force, whose write begins. -/
theorem rulesKept_changeBank (s : State) (b : BankState) (h : bankSound s.bank → bankSound b) :
    rulesKept s (s.changeBank b) := by
  rw [changeBank_eq]
  refine ⟨id, fun ⟨active, stored, writes⟩ => ⟨h active, stored, fun x hx => ?_⟩⟩
  dsimp only at hx
  split at hx
  · exact writes x hx
  · rcases List.mem_append.mp hx with hx | hx
    · exact writes x hx
    · exact List.mem_singleton.mp hx ▸ h active

theorem rulesKept_applyPendingBank (s : State) : rulesKept s s.applyPendingBank := by
  unfold State.applyPendingBank
  split
  case h_1 b hb =>
    exact rulesKept_changeBank s _ fun ⟨_, pending⟩ => ⟨(pending b hb).1, fun _ h => by cases h⟩
  case h_2 => exact rulesKept_refl s

theorem rulesKept_bankSelectBody (bank : Nat) (s : State) : rulesKept s (bankSelectBody bank s).1 := by
  unfold bankSelectBody
  split
  · exact rulesKept_refl s
  case isFalse named =>
    refine rulesKept_changeBank s _ fun ⟨active, _⟩ => ⟨active, fun x hx => ?_⟩
    by_cases same : bank = s.bank.active
    · simp [selectedBank, same] at hx
    · have pending : bank = x := by simpa [selectedBank, same] using hx
      exact pending ▸ ⟨Nat.not_lt.mp named, same⟩

theorem rulesKept_openBody (p : PortName) (channel recipe planned : Nat) (s : State) :
    rulesKept s (openBody p channel recipe planned s).1 := by
  unfold openBody
  split
  · exact rulesKept_refl s
  · split
    · exact rulesKept_refl s
    · exact rulesKept_trans _ _ _ (rulesKept_applyPendingBank s)
        (rulesKept_of_standing _ _ (standing_openRecipe _ p channel planned _ none))

/-! ### NOTICE MASK (R178) -/

theorem hasNotice_withNotice (n : NoticeSet) (k : Notice) : hasNotice (withNotice n k) k = true := by
  have bit : noticeBit k < 11 := by cases k <;> decide
  simp [hasNotice, withNotice, bit]

theorem rulesKept_noticeMaskBody (port kinds : Nat) (s : State) : rulesKept s (noticeMaskBody port kinds s).1 := by
  unfold noticeMaskBody
  split
  · exact rulesKept_refl s
  case h_2 q _ =>
    split
    · exact rulesKept_refl s
    · refine rulesKept_of_ports s _ rfl rfl rfl rfl (fun plant => ?_) fun each y => ?_
      · by_cases hq : PortName.a = q
        · subst hq
          exact (congrArg Port.role (port_setPort_same s .a _)).trans plant
        · exact (congrArg Port.role (port_setPort_ne s q .a _ hq)).trans plant
      · by_cases hq : y = q
        · subst hq
          rw [port_setPort_same]
          exact ⟨(each y).1, hasNotice_withNotice _ .restart⟩
        · rw [port_setPort_ne s q y _ hq]
          exact each y

end Sys2Proof.Machine
end

section
/-! PORT SETUP gives a port a role and the window that R163 allows it, and every request keeps the ports and the banks
sound (R163, R170, R171, R177). -/

namespace Sys2Proof.Machine

/-! ### PORT SETUP (R170, R171) -/

theorem restart_defaultMask (r : Role) : hasNotice (defaultMask r) .restart = true := by
  cases r <;> rfl

/-- A setup in range has the window that R163 gives its role. -/
theorem roleSound_setupOf (r : Role) (first last : Nat) (x : PortRole) (h : setupOf r first last = some x) :
    roleSound x := by
  by_cases fits : setupFits r first last
  · rw [setupOf_fits r first last fits] at h
    cases h
    obtain ⟨mixer, yard, -⟩ := fits
    cases r with
    | plant | lab => trivial
    | mixer => exact mixer rfl
    | yard => exact yard rfl
  · rw [setupOf_unfit r first last fits] at h
    cases h

theorem portSound_assignRole (x : Port) (r : PortRole) (hr : roleSound r) (h : portSound x) :
    portSound (assignRole x r) := by
  refine ⟨hr, ?_⟩
  show hasNotice (ite _ _ _ : NoticeMask).kinds .restart = true
  split
  · exact h.2
  · exact restart_defaultMask r.role

/-- The record of sound ports is sound. -/
theorem setupSound_setupRecordOf (s : State) (h : ∀ q, portSound (s.port q)) : setupSound (setupRecordOf s.ports) :=
  ⟨(h .b).1, (h .c).1, (h .d).1⟩

/-- A record that begins to be written, or that waits for the write in progress to end (R171). -/
theorem beginSetupWrite_sound (x : SetupStore) (r : SetupRecord) (hr : setupSound r)
    (hw : ∀ y, x.writing = some y → setupSound y) (hn : ∀ y, x.next = some y → setupSound y) :
    (beginSetupWrite x r).stored = x.stored ∧ (∀ y, (beginSetupWrite x r).writing = some y → setupSound y) ∧
      ∀ y, (beginSetupWrite x r).next = some y → setupSound y := by
  unfold beginSetupWrite
  split
  · exact ⟨rfl, fun y h => Option.some.inj h ▸ hr, hn⟩
  · exact ⟨rfl, hw, fun y h => Option.some.inj h ▸ hr⟩

/-- The role, window and mask of a setup, and the record whose writing begins, follow the rules; port A is never set
up. -/
theorem rulesKept_setupBegun (s : State) (q : PortName) (x : PortRole) (hq : q ≠ .a) (hx : roleSound x) :
    rulesKept s (setupBegun s q x) := by
  refine ⟨fun ⟨plant, each, stored, writing, next⟩ => ?_, id⟩
  have assigned (y : PortName) : portSound ((s.setPort q (assignRole (s.port q) x)).port y) := by
    by_cases hy : y = q
    · rw [hy, port_setPort_same]
      exact portSound_assignRole _ x hx (each q)
    · rw [port_setPort_ne s q y _ hy]
      exact each y
  obtain ⟨kept, written, waits⟩ := beginSetupWrite_sound s.setup _ (setupSound_setupRecordOf _ assigned) writing next
  refine ⟨?_, assigned, ?_, written, waits⟩
  · exact (congrArg Port.role (port_setPort_ne s q .a _ hq.symm)).trans plant
  · exact kept ▸ stored

/-- The channels freed and the lots returned are no part of the standing. -/
theorem standing_setupInto (s : State) (q : PortName) (x : PortRole) :
    standing (s.setupInto q x) = standing (setupBegun s q x) := by
  rw [setupInto_eq]
  dsimp only
  split <;> simp

theorem rulesKept_portSetupBody (port role first last : Nat) (s : State) :
    rulesKept s (portSetupBody port role first last s).1 := by
  unfold portSetupBody
  split
  · exact rulesKept_refl s
  · exact rulesKept_refl s
  · exact rulesKept_refl s
  case h_4 q r notPlant _ _ =>
    split
    · exact rulesKept_refl s
    case h_2 x fits =>
      have begun := rulesKept_setupBegun s q x notPlant (roleSound_setupOf r first last x fits)
      exact rulesKept_trans _ _ _ begun (rulesKept_of_standing _ _ (standing_setupInto s q x))

/-! ### All requests -/

/-- The body of every request keeps the ports and the banks sound. -/
theorem rulesKept_bodyOf (i : Instr) (s : State) : rulesKept s (bodyOf i s).1 := by
  have kept {u : State} (h : standing u = standing s) : rulesKept s u := rulesKept_of_standing s u h
  cases i with
  | intake p t amount => exact kept (standing_intakeBody amount s)
  | lookup p t lot => exact kept (standing_onLot s lot _ fun _ _ _ => rfl)
  | scan p t filter start => exact kept (standing_scanBody filter start s)
  | amendTarget p t part lot target => exact kept (standing_amendTargetBody part lot target s)
  | amendRecipe p t part lot bank number => exact kept (standing_amendRecipeBody part lot bank number s)
  | amendDosed p t part lot ash cement water => exact kept (standing_amendDosedBody part lot ash cement water s)
  | holdLot p t lot => exact kept (standing_onLot s lot _ fun u k _ => standing_addHold u k .manual)
  | clearHold p t lot reasons => exact kept (standing_clearHoldBody lot reasons s)
  | withdraw p t lot => exact kept (standing_withdrawBody lot s)
  | cellOpen p t cell => exact kept (standing_closeBody false cell s)
  | cellClose p t cell => exact kept (standing_closeBody true cell s)
  | cellStatus p t cell => exact kept (standing_cellStatusBody cell s)
  | queueStatus p t => exact kept (standing_checkLots _ s)
  | recipeRead p t bank number => exact kept (standing_recipeReadBody bank number s)
  | recipeWrite p t bank number form values => exact kept (standing_recipeWriteBody bank number form values s)
  | bankSelect p t bank => exact rulesKept_bankSelectBody bank s
  | mode p t code => exact kept (standing_modeBody code s)
  | portSetup p t port role first last => exact rulesKept_portSetupBody port role first last s
  | noticeMask p t port kinds => exact rulesKept_noticeMaskBody port kinds s
  | notices p t => exact kept (standing_noticesBody p s)
  | reinstateSlot p t slot => exact kept (standing_reinstateBody slot s)
  | clock p t minute => exact kept (standing_clockBody minute s)
  | clearRegister p t count => exact kept (standing_clearRegisterBody count s)
  | openLot p t channel recipe planned => exact rulesKept_openBody p channel recipe planned s
  | remixOpen p t channel recipe planned parent => exact kept (standing_remixBody p channel recipe planned parent s)
  | dose p t channel ash cement water => exact kept (standing_doseBody p channel ash cement water s)
  | sealLot p t channel cell => exact kept (standing_sealBody p channel cell s)
  | stall p t channel => exact kept (standing_onChannel s p channel true false _ fun _ _ _ _ => rfl)
  | resume p t channel => exact kept (standing_onChannel s p channel false true _ fun _ _ _ _ => rfl)
  | rebind p t lot channel => exact kept (standing_rebindBody p lot channel s)
  | channelStatus p t channel => exact kept (standing_channelStatusBody channel s)
  | take p t => exact kept (standing_takeBody p s)
  | returnLot p t lot => exact kept (standing_returnBody p lot s)
  | verdictResult p t lot kind strength leachClass =>
    exact kept (standing_resultBody p lot kind strength leachClass s)
  | verdictRetest p t lot kind => exact kept (standing_retestBody p lot kind s)
  | place p t lot cell => exact kept (standing_placeBody lot cell s)
  | release p t lot cell => exact kept (standing_releaseBody lot cell s)
  | extract p t lot cell => exact kept (standing_extractBody lot cell s)
  | _ => exact kept rfl

/-! ### Frames received and answered (R164 to R166) -/

@[simp] theorem standing_goodFrame (s : State) (p : PortName) : standing (s.goodFrame p) = standing s :=
  standing_setPort s p _ rfl

@[simp] theorem standing_answer (s : State) (p : PortName) (t : Nat) (r : Reply) :
    standing (s.answer p t r) = standing s := standing_setPort s p _ rfl

@[simp] theorem standing_answerAtOnce (s : State) (p : PortName) (x : Answer) :
    standing (s.answerAtOnce p x) = standing s := standing_setPort s p _ rfl

@[simp] theorem standing_received (s : State) (p : PortName) (t : Nat) : standing (s.received p t) = standing s :=
  (standing_setPort (s.goodFrame p) p { (s.goodFrame p).port p with request := .busy t } rfl).trans
    (standing_goodFrame s p)

/-- The partial frame of a port is no part of its standing (R164). -/
theorem standing_partialFrame (s : State) (p : PortName) (bytes : List Byte) :
    standing (s.setPort p { s.port p with partialFrame := bytes }) = standing s := standing_setPort s p _ rfl

theorem rulesKept_takeRequest (s : State) (p : PortName) (t : Nat) (q : Request) (f : Option Nat)
    (body : State → State × Reply) (h : ∀ u, rulesKept u (body u).1) : rulesKept s (s.takeRequest p t q f body) := by
  unfold State.takeRequest
  split
  · split
    · exact rulesKept_of_standing _ _ (by simp)
    · dsimp only
      split
      · exact rulesKept_of_standing _ _ (by simp)
      · exact rulesKept_trans _ _ _ (rulesKept_of_standing _ _ (standing_received s p t))
          (rulesKept_trans _ _ _ (h _) (rulesKept_of_standing _ _ (standing_answer _ p t _)))
  · exact rulesKept_refl s

theorem rulesKept_asked (i : Instr) (s s' : State) (h : (askedOf i).isSome = true) (e : exec i s = .next s') :
    rulesKept s s' := by
  obtain ⟨p, t, q, f, hi⟩ := exec_asked i h
  rw [hi s, Host.Outcome.next.injEq] at e
  exact e ▸ rulesKept_takeRequest s p t q f (bodyOf i) (rulesKept_bodyOf i)

theorem rulesKept_unknownRequestCode (p : PortName) (t code length : Nat) (s s' : State)
    (e : execUnknownRequestCode p t code length s = .next s') : rulesKept s s' := by
  cases e
  refine rulesKept_of_standing _ _ ?_
  split
  · split <;> simp
  · rfl

theorem rulesKept_bodyLengthAbandon (p : PortName) (length : Nat) (s s' : State)
    (e : execBodyLengthAbandon p length s = .next s') : rulesKept s s' := by
  cases e
  refine rulesKept_of_standing _ _ ?_
  split
  · exact standing_partialFrame s p []
  · rfl

/-- What a complete frame carries keeps the ports and the banks sound. -/
theorem rulesKept_carryOut (i : Instr) (s s' : State) (e : carryOut i s = .next s') : rulesKept s s' := by
  by_cases h : (askedOf i).isSome = true
  · exact rulesKept_asked i s s' h (carryOut_asked i s h ▸ e)
  · cases i
    case unknownRequestCode p t code length => exact rulesKept_unknownRequestCode p t code length s s' e
    case bodyLengthAbandon p length => exact rulesKept_bodyLengthAbandon p length s s' e
    case frame p bytes =>
      cases e
      exact rulesKept_of_standing _ _ ((standing_answerAtOnce _ p _).trans (standing_partialFrame s p []))
    all_goals first | exact absurd rfl h | (cases e; exact rulesKept_refl s)

theorem standing_assemble (s : State) (p : PortName) (b : Byte) : standing (s.assemble p b).1 = standing s := by
  unfold State.assemble
  dsimp only
  split
  · exact standing_partialFrame s p _
  · exact standing_partialFrame s p _

theorem rulesKept_takeByte (p : PortName) (b : Byte) (s s' : State) (e : takeByte p b s = .next s') :
    rulesKept s s' := by
  have assembled := rulesKept_of_standing _ _ (standing_assemble s p b)
  unfold takeByte at e
  split at e
  · split at e
    case h_1 t c ha =>
      rw [ha] at assembled
      exact rulesKept_trans _ _ _ assembled (rulesKept_carryOut c t s' e)
    case h_2 t ha =>
      rw [ha] at assembled
      cases e
      exact assembled
  · cases e
    exact rulesKept_refl s

/-- The bytes of frames keep the ports and the banks sound, byte by byte (R164). -/
theorem rulesKept_takeBytes (p : PortName) (bytes : List Byte) (s s' : State) (e : takeBytes p bytes s = .next s') :
    rulesKept s s' := by
  induction bytes generalizing s with
  | nil =>
    cases e
    exact rulesKept_refl _
  | cons b bs ih =>
    unfold takeBytes at e
    split at e
    case h_1 t ht => exact rulesKept_trans _ _ _ (rulesKept_takeByte p b s t ht) (ih t e)
    case h_2 ht => exact absurd e (ht s')

end Sys2Proof.Machine
end

section
/-! The events keep the ports and the banks sound: a start loads the setup and the bank state stored, or the default
ones, and a mask that it keeps or the default of the role (R134, R163, R171, R177, R183 to R185). -/

namespace Sys2Proof.Machine

/-! ### The conversions of a round and the disturbances -/

theorem standing_sampleLot (c : Nat) (y : Int) (m : Nat) (x : State × Bool) (n : Nat) :
    standing (sampleLot c y m x n).1 = standing x.1 := by
  have checked : standing (x.1.checkedPlaced n).1 = standing x.1 := standing_checkLot x.1 n
  have treated (u : State) (k : Nat) (r : LotRecord) : standing (u.treatLot k r y m).1 = standing u := by
    have held : standing (if completesFrost y r then
        (u.changeRecord k fun r => stepFrost y (accumulate y (applyPending r))).addHold k .frost
        else u.changeRecord k fun r => stepFrost y (accumulate y (applyPending r))) = standing u := by
      split <;> simp
    unfold State.treatLot
    dsimp only
    split
    · split
      · simpa using held
      · exact held
    · exact held
  unfold sampleLot
  dsimp only
  split
  · split
    · split
      · split
        · exact (treated _ _ _).trans checked
        · exact checked
      · exact checked
    · rfl
  · rfl

theorem standing_sampleValid (s : State) (c : Nat) (y : Int) (m : Nat) :
    standing (s.sampleValid c y m) = standing s := by
  have lane (l : List Nat) (x : State × Bool) : standing (l.foldl (sampleLot c y m) x).1 = standing x.1 := by
    induction l generalizing x with
    | nil => rfl
    | cons n l ih => exact (ih _).trans (standing_sampleLot c y m x n)
  unfold State.sampleValid
  dsimp only
  split
  · exact (standing_raise _ _).trans (lane _ _)
  · exact lane _ _

theorem standing_sampleMiss (s : State) (c m : Nat) : standing (s.sampleMiss c m) = standing s := by
  unfold State.sampleMiss
  dsimp only
  split
  · simp
  · rfl

theorem standing_endConversion (s : State) (x : Scan) (reading : Option Int) :
    standing (s.endConversion x reading) = standing s := by
  have ended (t : State) : standing { t with scan := nextScan x } = standing t := rfl
  unfold State.endConversion
  dsimp only
  rw [ended]
  split
  · split
    · exact standing_sampleValid s x.cell _ x.minute
    · exact standing_sampleMiss s x.cell x.minute
  · exact standing_sampleMiss s x.cell x.minute

theorem standing_completion (s : State) (cell : Nat) (reading : Int) (good : Bool) :
    standing (s.completion cell reading good) = standing s := by
  unfold State.completion
  split
  · split
    · exact standing_endConversion s _ _
    · rfl
  · rfl

/-- A disturbance may spoil the check of a mask, of the setup or of the bank state, and leaves what they hold (log
entry 5). -/
theorem standing_disturb (s : State) (u : Upset) : standing (s.disturb u) = standing s := by
  have lot (k : Nat) (f : Lot → Lot) : standing (s.disturbLot k f) = standing s := by
    unfold State.disturbLot
    split <;> rfl
  cases u with
  | recordWord k r => exact lot k _
  | recordWords k r => exact lot k _
  | numberCopy k => exact lot k _
  | entryWord k e => exact lot k _
  | entryWords k e => exact lot k _
  | entryDisagrees k e => exact lot k _
  | mask p => exact standing_setPort s p _ rfl
  | _ => rfl

theorem standing_disturbAll (s : State) (us : List Upset) : standing (s.disturbAll us) = standing s :=
  standing_foldl State.disturb standing_disturb us s

/-! ### The starts and the loss of supply -/

/-- Work cut off leaves the setup stored, ends the writes, and takes the bank state back to the stored one where a write
of another was in progress (R134, R171). -/
theorem rulesKept_cutOff (s : State) : rulesKept s s.cutOff := by
  rw [cutOff_eq]
  have quiet (q : PortName) :
      portStanding ((s.ports.map fun _ x => quietPort x).get q) = portStanding (s.port q) := by
    rw [get_map]
    rfl
  refine ⟨fun ⟨plant, each, stored, _⟩ => ⟨plant, fun q => ?_, stored, nofun, nofun⟩, fun ⟨active, stored, _⟩ => ?_⟩
  · obtain ⟨window, restart⟩ := each q
    obtain ⟨role, mask⟩ := Prod.mk.inj (quiet q)
    exact ⟨role ▸ window, mask ▸ restart⟩
  · refine ⟨?_, stored, nofun⟩
    show bankSound (if s.bankWrites = [] then s.bank else s.bankStored)
    split
    · exact active
    · exact stored

theorem setupSound_default : setupSound SetupRecord.default := ⟨⟨by decide, by decide⟩, trivial, ⟨by decide, by decide⟩⟩

/-- The setup that a start loads is sound, port by port (R171). -/
theorem roleSound_loadedSetup (x : SetupStore) (h : setupSound x.stored) (p : PortName) :
    roleSound (loadedSetup x p) := by
  have record : setupSound (if x.checkGood then x.stored else SetupRecord.default) := by
    split
    · exact h
    · exact setupSound_default
  obtain ⟨b, c, d⟩ := record
  cases p
  · trivial
  · exact b
  · exact c
  · exact d

/-- The mask that a start gives holds RESTART (R177). -/
theorem restart_startMask (keep : Bool) (m : NoticeMask) (r : Role) (h : hasNotice m.kinds .restart = true) :
    hasNotice (startMask keep m r).kinds .restart = true := by
  unfold startMask
  split
  · exact h
  · exact restart_defaultMask r

/-- The bank state that a start takes is sound (R134). -/
theorem bankSound_startBank (cold : Bool) (s : State) (h : bankSound s.bankStored) : bankSound (startBank cold s) := by
  have loaded : bankSound (if s.bankCheckGood then s.bankStored else { active := 0, pending := none }) := by
    split
    · exact h
    · exact ⟨Nat.zero_le 1, nofun⟩
  unfold startBank
  dsimp only
  split
  · exact ⟨loaded.1, nofun⟩
  · exact loaded

theorem rulesKept_startStores (s : State) (cold : Bool) : rulesKept s (s.startStores cold) := by
  refine ⟨fun ⟨_, each, stored, writes⟩ => ⟨rfl, fun q => ?_, stored, writes⟩, fun ⟨_, stored, writes⟩ => ?_⟩
  · have started : (s.startStores cold).port q = startPort (!cold) (loadedSetup s.setup q) (s.port q) :=
      get_map (fun p x => startPort (!cold) (loadedSetup s.setup p) x) s.ports q
    rw [started]
    exact ⟨roleSound_loadedSetup s.setup stored q, restart_startMask _ _ _ (each q).2⟩
  · exact ⟨bankSound_startBank cold s stored, bankSound_startBank cold s stored, writes⟩

theorem standing_startAudit (s : State) : standing s.startAudit = standing s := by
  obtain ⟨kept, -, _, _, e⟩ := startAudit_facts s
  refine standing_of_portsKept s _ kept ?_ ?_ ?_ ?_ <;> rw [e]

/-- A start begins with the work cut off and the stores loaded. -/
theorem rulesKept_stores (s : State) (cold : Bool) : rulesKept s (s.cutOff.startStores cold) :=
  rulesKept_trans _ _ _ (rulesKept_cutOff s) (rulesKept_startStores _ cold)

theorem rulesKept_warmStart (s : State) : rulesKept s s.warmStart := by
  refine rulesKept_trans _ _ _ (rulesKept_stores s false) (rulesKept_of_standing _ _ ?_)
  exact (standing_startAudit _).trans (standing_orphanChannels _ _)

theorem rulesKept_coldBegin (s : State) : rulesKept s s.coldBegin := by
  refine rulesKept_trans _ _ _ (rulesKept_stores s true) (rulesKept_of_standing _ _ ?_)
  unfold State.coldBegin
  dsimp only
  split
  · rfl
  · exact standing_raise _ .worn

/-- The fields of a start in progress are no part of the standing. -/
theorem rulesKept_restarted (s : State) (x : Phase) (w c r : Bool) :
    rulesKept s { s with phase := x, warmDue := w, coldDue := c, resetLine := r } := rulesKept_of_standing _ _ rfl

theorem rulesKept_warmRestart (s s' : State) (e : execWarmRestart s = .next s') : rulesKept s s' := by
  cases e
  split
  · split
    · exact rulesKept_trans _ _ _ (rulesKept_warmStart s) (rulesKept_restarted _ _ _ _ _)
    · exact rulesKept_of_standing _ _ rfl
    · exact rulesKept_of_standing _ _ rfl
  · exact rulesKept_refl s

theorem rulesKept_coldStart (s s' : State) (e : execColdStart s = .next s') : rulesKept s s' := by
  cases e
  split
  · split
    · exact rulesKept_trans _ _ _ (rulesKept_coldBegin s) (rulesKept_restarted _ _ _ _ _)
    · exact rulesKept_trans _ _ _ (rulesKept_coldBegin s) (rulesKept_restarted _ _ _ _ _)
    · exact rulesKept_of_standing _ _ rfl
  · exact rulesKept_refl s

theorem rulesKept_resetLineAssert (s s' : State) (e : execResetLineAssert s = .next s') : rulesKept s s' := by
  cases e
  split
  · exact rulesKept_trans _ _ _ (rulesKept_warmStart s) (rulesKept_restarted _ _ _ _ _)
  · exact rulesKept_of_standing _ _ rfl
  · exact rulesKept_of_standing _ _ rfl

theorem rulesKept_resetLineRelease (s s' : State) (e : execResetLineRelease s = .next s') : rulesKept s s' := by
  cases e
  refine rulesKept_of_standing _ _ ?_
  split
  · dsimp only
    split
    · split
      · rfl
      · exact standing_outageRule _
    · rfl
    · rfl
  · rfl

theorem rulesKept_startComplete (s s' : State) (e : execStartComplete s = .next s') : rulesKept s s' := by
  have timed : standing { s with ports := s.ports.map fun _ x => startTimer x } = standing s :=
    standing_mapPorts s _ fun _ _ => rfl
  cases e
  refine rulesKept_of_standing _ _ ?_
  split
  · split
    · rfl
    · refine (standing_judgePotLife _).trans ?_
      split
      · exact (standing_outageRule _).trans timed
      · exact timed
  · rfl
  · rfl

theorem rulesKept_mainSupplyLoss (s s' : State) (e : execMainSupplyLoss s = .next s') : rulesKept s s' := by
  cases e
  split
  · exact rulesKept_refl s
  · exact rulesKept_trans _ _ _ (rulesKept_cutOff s) (rulesKept_of_standing _ _ rfl)
  · exact rulesKept_trans _ _ _ (rulesKept_cutOff s) (rulesKept_of_standing _ _ rfl)

theorem rulesKept_mainSupplyReturn (upsets : List Upset) (s s' : State) (e : execMainSupplyReturn upsets s = .next s') :
    rulesKept s s' := by
  have disturbed : rulesKept s (s.disturbAll upsets) := rulesKept_of_standing _ _ (standing_disturbAll s upsets)
  cases e
  split
  · dsimp only
    refine rulesKept_trans _ _ _ disturbed ?_
    split
    · exact rulesKept_trans _ _ _ (rulesKept_trans _ _ _ (rulesKept_warmStart _) (rulesKept_restarted _ _ _ _ _))
        (rulesKept_of_standing _ _ (standing_outageRule _))
    · exact rulesKept_coldBegin _
  · exact rulesKept_refl s
  · exact rulesKept_refl s

/-! ### The ends of writes (R134, R171) -/

theorem rulesKept_portSetupWriteEnd (s s' : State) (e : execPortSetupWriteEnd s = .next s') : rulesKept s s' := by
  cases e
  split
  case h_1 r writing =>
    exact ⟨fun ⟨plant, each, _, written, waits⟩ => ⟨plant, each, written r writing, waits, nofun⟩, id⟩
  case h_2 => exact rulesKept_refl s

theorem rulesKept_bankStateWriteEnd (s s' : State) (e : execBankStateWriteEnd s = .next s') : rulesKept s s' := by
  cases e
  split
  case h_1 b rest begun =>
    refine ⟨id, fun ⟨active, _, writes⟩ => ?_⟩
    rw [begun] at writes
    exact ⟨active, writes b List.mem_cons_self, fun x hx => writes x (List.mem_cons_of_mem b hx)⟩
  case h_2 => exact rulesKept_refl s

/-! ### The step -/

/-- Every event keeps the ports and the banks sound. -/
theorem rulesKept_event (i : Instr) (hi : isEvent i = true) (s s' : State) (e : exec i s = .next s') :
    rulesKept s s' := by
  cases i with
  | portBusy p t =>
    cases e
    refine rulesKept_of_standing _ _ ?_
    split <;> simp
  | unknownRequestCode p t code length => exact rulesKept_unknownRequestCode p t code length s s' e
  | frameGapTimeout p =>
    cases e
    refine rulesKept_of_standing _ _ ?_
    split
    · exact standing_partialFrame s p []
    · rfl
  | bodyLengthAbandon p length => exact rulesKept_bodyLengthAbandon p length s s' e
  | answerSent p =>
    cases e
    refine rulesKept_of_standing _ _ ?_
    split
    · exact standing_setPort s p _ rfl
    · rfl
  | clockAdvance =>
    cases e
    refine rulesKept_of_standing _ _ ?_
    split
    · split
      · exact standing_judgePotLife _
      · rfl
    · rfl
  | conversionCompletion cell reading =>
    cases e
    exact rulesKept_of_standing _ _ (standing_completion s cell reading true)
  | conversionTimeout =>
    cases e
    refine rulesKept_of_standing _ _ ?_
    split
    · exact standing_endConversion s _ none
    · rfl
  | strayCompletion cell reading good =>
    cases e
    exact rulesKept_of_standing _ _ (standing_completion s cell reading good)
  | potLifeExpiry =>
    cases e
    refine rulesKept_of_standing _ _ ?_
    split
    · exact standing_judgePotLife s
    · rfl
  | idleTimerExpiry p =>
    cases e
    refine rulesKept_of_standing _ _ ?_
    split
    · exact standing_makeAbsent s p
    · rfl
  | portSetupWriteEnd => exact rulesKept_portSetupWriteEnd s s' e
  | bankStateWriteEnd => exact rulesKept_bankStateWriteEnd s s' e
  | auditStep upsets =>
    cases e
    refine rulesKept_of_standing _ _ ?_
    split
    · exact (standing_checkSlot _ _).trans (standing_disturbAll s upsets)
    · rfl
  | recipeCommitCompletion =>
    cases e
    refine rulesKept_of_standing _ _ ?_
    split <;> rfl
  | warmRestart => exact rulesKept_warmRestart s s' e
  | coldStart => exact rulesKept_coldStart s s' e
  | resetLineAssert => exact rulesKept_resetLineAssert s s' e
  | resetLineRelease => exact rulesKept_resetLineRelease s s' e
  | startComplete => exact rulesKept_startComplete s s' e
  | mainSupplyLoss => exact rulesKept_mainSupplyLoss s s' e
  | mainSupplyReturn upsets => exact rulesKept_mainSupplyReturn upsets s s' e
  | _ => cases hi

/-- A command that is neither a request nor an event is the bytes of frames. -/
theorem frame_of_neither (i : Instr) (asked : ¬(askedOf i).isSome = true) (event : ¬isEvent i = true) :
    ∃ p bytes, i = .frame p bytes := by
  unfold isEvent at event
  split at event
  · exact ⟨_, _, rfl⟩
  · exact absurd (by simpa using asked) event

/-- Every command keeps the ports and the banks sound: a request by its body, bytes by the frames they complete. -/
theorem rulesKept_exec (i : Instr) (s s' : State) (e : exec i s = .next s') : rulesKept s s' := by
  by_cases asked : (askedOf i).isSome = true
  · exact rulesKept_asked i s s' asked e
  · by_cases event : isEvent i = true
    · exact rulesKept_event i event s s' e
    · obtain ⟨p, bytes, rfl⟩ := frame_of_neither i asked event
      exact rulesKept_takeBytes p bytes s s' e

/-- Settles O57: the requests that change a role, a mask, a setup record or a bank state check what they give it, and a
start loads what is stored or the defaults. -/
theorem stepKeepsPortsAndBanksSound : Obligations.StepKeepsPortsAndBanksSound := by
  intro s s' e
  have kept : rulesKept s s' := by
    unfold step at e
    split at e
    · cases e
      exact rulesKept_refl s
    case h_2 i rest _ =>
      have waiting : rulesKept s { s with pending := rest } := rulesKept_of_standing _ _ rfl
      exact rulesKept_trans _ _ _ waiting (rulesKept_exec i _ s' e)
  exact ⟨kept.ports, kept.banks⟩

end Sys2Proof.Machine
end

section
/-! The step, the end of an answer, the requests that the Port Unit refuses, and the good frames that no block is given
(R164 to R169, R174, R182 to R185). -/

namespace Sys2Proof.Machine

/-! ### The step, and the end of an answer (R166, R182, R185) -/

/-- Settles O1: `step` takes the queue apart at its front. -/
theorem stepTakesFrontCommand : Obligations.StepTakesFrontCommand := by
  intro s c rest front
  unfold step
  rw [front]

/-- Settles O5: while the part is at work the end of an answer is taken. -/
theorem answerSentMakesPortReady : Obligations.AnswerSentMakesPortReady := by
  intro p s running
  show execAnswerSent p s = _
  unfold execAnswerSent
  rw [if_pos running]
  rfl

/-! ### The Port Unit's checks in their order (R167 to R169, R174) -/

/-- The tables of R168, R169 and R174 are those the gate reads: a request is taken on its port with its tag and its
field, and the roles and modes that pass are the listed ones. -/
theorem exec_gated (i : Instr) (a : Asked) (h : askedOf i = some a) : ∃ q body,
    (∀ s, exec i s = .next (s.takeRequest a.port a.tag q a.field body)) ∧
      (∀ r, roleAllows r q = decide (r ∈ a.roles)) ∧ ∀ m, modeAllows m q = decide (m ∈ a.modes) := by
  cases i <;> cases h
  all_goals exact ⟨_, _, fun _ => rfl, fun r => by cases r <;> rfl, fun m => by cases m <;> rfl⟩

theorem gate_role (s : State) (p : PortName) (q : Request) (f : Option Nat)
    (barred : roleAllows (s.port p).role q = false) : s.gate p q f = some (.role, roleFields (s.port p)) := by
  simp [State.gate, barred]

theorem gate_window (s : State) (p : PortName) (q : Request) (v : Nat) (role : roleAllows (s.port p).role q = true)
    (outside : inWindow (s.port p) v = false) : s.gate p q (some v) = some (.window, roleFields (s.port p)) := by
  simp [State.gate, role, outside]

theorem gate_mode (s : State) (p : PortName) (q : Request) (f : Option Nat) (role : roleAllows (s.port p).role q = true)
    (window : ∀ v, f = some v → inWindow (s.port p) v = true) (barred : modeAllows s.mode q = false) :
    s.gate p q f = some (.mode, [.u8 (modeCode s.mode)]) := by
  have inside : f.all (inWindow (s.port p)) = true := by
    cases f with
    | none => rfl
    | some v => exact window v rfl
  simp [State.gate, role, inside, barred]

/-- Settles O2, by the first check of the gate that bars the request. -/
theorem requestsAreGatedInOrder : Obligations.RequestsAreGatedInOrder := by
  intro i a s asked running idle
  obtain ⟨q, body, taken, roles, modes⟩ := exec_gated i a asked
  have refused (o : OutcomeCode) (b : List Field) (gate : s.gate a.port q a.field = some (o, b)) :
      exec i s = .next (repliedWith s a.port a.tag o b) := by
    rw [taken, takeRequest_refused s a.port a.tag q a.field body o b running idle gate]
  have passes (role : (s.port a.port).role ∈ a.roles) : roleAllows (s.port a.port).role q = true := by
    rw [roles, decide_eq_true role]
  refine ⟨fun role => ?_, fun role => ?_, fun role window mode => ?_⟩
  · exact refused _ _ (gate_role s a.port q a.field (by rw [roles, decide_eq_false role]))
  · rintro ⟨v, field, outside⟩
    refine refused _ _ ?_
    rw [field]
    exact gate_window s a.port q v (passes role) outside
  · exact refused _ _ (gate_mode s a.port q a.field (passes role) window (by rw [modes, decide_eq_false mode]))

/-! ### Good frames on a BUSY port, and no frame outside work (R164 to R166, R182 to R184) -/

/-- A good frame on a BUSY port: the timer restarts, the port is PRESENT, and PORTBUSY joins the immediate answers
(R166). -/
def portBusied (s : State) (p : PortName) (t : Nat) : State :=
  { s with ports := s.ports.set p { s.port p with
      present := true, idleTimer := some 30, partialFrame := []
      immediate := (s.port p).immediate ++ [⟨t, .portBusy, []⟩] } }

theorem goodFrame_portBusied (s : State) (p : PortName) (t : Nat) :
    (s.goodFrame p).answerAtOnce p ⟨t, .portBusy, []⟩ = portBusied s p t := by
  unfold State.answerAtOnce State.goodFrame
  rw [port_setPort_same, setPort_setPort]
  rfl

theorem takeRequest_busy (s : State) (p : PortName) (t u : Nat) (q : Request) (f : Option Nat)
    (body : State → State × Reply) (running : s.phase = .running) (busy : (s.port p).request = .busy u) :
    s.takeRequest p t q f body = portBusied s p t := by
  unfold State.takeRequest
  rw [if_pos running, busy]
  exact goodFrame_portBusied s p t

theorem takeRequest_outside (s : State) (p : PortName) (t : Nat) (q : Request) (f : Option Nat)
    (body : State → State × Reply) (outside : s.phase ≠ .running) : s.takeRequest p t q f body = s := if_neg outside

theorem exec_unknownRequestCode_busy (s : State) (p : PortName) (t code n u : Nat) (running : s.phase = .running)
    (unknown : knownRequest code n = false) (busy : (s.port p).request = .busy u) :
    exec (.unknownRequestCode p t code n) s = .next (portBusied s p t) := by
  show execUnknownRequestCode p t code n s = _
  unfold execUnknownRequestCode
  rw [if_pos ⟨running, unknown⟩, busy]
  exact congrArg Host.Outcome.next (goodFrame_portBusied s p t)

/-- A good frame answered on a READY port with no request taken (R165). -/
theorem goodFrame_answer (s : State) (p : PortName) (t : Nat) (o : OutcomeCode) (b : List Field) :
    (s.goodFrame p).answer p t (refuse o b) = repliedWith s p t o b := by
  unfold State.answer State.goodFrame
  rw [port_setPort_same, setPort_setPort]
  rfl

/-- A code or a body length that is not known is answered RANGE on a READY port (R165). -/
theorem exec_unknownRequestCode_ready (s : State) (p : PortName) (t code n : Nat) (running : s.phase = .running)
    (unknown : knownRequest code n = false) (idle : (s.port p).request = .ready) :
    exec (.unknownRequestCode p t code n) s = .next (repliedWith s p t .range []) := by
  show execUnknownRequestCode p t code n s = _
  unfold execUnknownRequestCode
  rw [if_pos ⟨running, unknown⟩, idle]
  exact congrArg Host.Outcome.next (goodFrame_answer s p t .range [])

/-- Settles O3: on a BUSY port every good frame comes to `portBusied`, outside work each of the rows is passed over, and
an unknown code is answered on a READY port. -/
theorem framesThatNoBlockIsGiven : Obligations.FramesThatNoBlockIsGiven := by
  refine ⟨fun i p t u s running busy good => ?_, fun i s outside row => ?_, fun p t code n s running idle unknown => ?_⟩
  · show exec i s = .next (portBusied s p t)
    obtain ⟨a, asked, rfl, rfl⟩ | rfl | ⟨code, n, unknown, rfl⟩ := good
    · obtain ⟨q, body, taken, -, -⟩ := exec_gated i a asked
      rw [taken, takeRequest_busy s a.port a.tag u q a.field body running busy]
    · have inProgress : (s.port p).request ≠ .ready := by
        rw [busy]
        nofun
      rw [← goodFrame_portBusied]
      exact congrArg Host.Outcome.next (if_pos ⟨running, inProgress⟩)
    · exact exec_unknownRequestCode_busy s p t code n u running unknown busy
  · obtain ⟨a, asked⟩ | ⟨p, bytes, rfl⟩ | ⟨p, t, rfl⟩ | ⟨p, t, code, n, rfl⟩ | ⟨p, rfl⟩ | ⟨p, n, rfl⟩ := row
    · obtain ⟨q, body, taken, -, -⟩ := exec_gated i a asked
      rw [taken, takeRequest_outside s a.port a.tag q a.field body outside]
    · exact takeBytes_outside p bytes s outside
    · exact congrArg Host.Outcome.next (if_neg fun work => outside work.1)
    · exact congrArg Host.Outcome.next (if_neg fun work => outside work.1)
    · exact congrArg Host.Outcome.next (if_neg outside)
    · exact congrArg Host.Outcome.next (if_neg fun work => outside work.1)
  · exact exec_unknownRequestCode_ready s p t code n running unknown idle

end Sys2Proof.Machine
end

section
/-! The bytes that arrive on a port: a frame begun, abandoned, answered FRAME, or carried out (R164, R165, R186). -/

namespace Sys2Proof.Machine

/-! ### The partial frame (R164, R186) -/

/-- The partial frame of a port with none is cleared to no effect. -/
theorem setPort_noPartialFrame (s : State) (p : PortName) (empty : (s.port p).partialFrame = []) :
    s.setPort p { s.port p with partialFrame := [] } = s := by
  have same : { s.port p with partialFrame := [] } = s.port p := by rw [← empty]
  rw [same, setPort_port]

/-- Fewer bytes than a start mark, a tag, a code and a body length carry nothing yet (R186). -/
theorem commandOfFrame_short (p : PortName) (bytes : List Byte) (h : bytes.length < 5) :
    commandOfFrame p bytes = none := by
  unfold commandOfFrame
  split
  · simp only [List.length_cons] at h
    omega
  · rfl

/-- One byte on a port with no frame begun begins one where it is a start mark, and is passed over where it is not
(R164). -/
theorem takeByte_first (p : PortName) (b : Byte) (s : State) (running : s.phase = .running)
    (empty : (s.port p).partialFrame = []) : takeByte p b s = .next (s.setPort p { s.port p with
      partialFrame := if b = startMark then [startMark] else [] }) := by
  have begun : commandOfFrame p [b] = none := commandOfFrame_short p [b] (show 1 < 5 by decide)
  unfold takeByte State.assemble
  rw [if_pos running]
  dsimp only
  rw [empty, List.nil_append, begun]
  by_cases mark : b = startMark <;> simp [mark]

/-- A body length above 1,024 abandons the frame at its fifth byte (R186). -/
theorem commandOfFrame_long (p : PortName) (t code h l : Byte) (long : 1024 < numberOf [h, l]) :
    commandOfFrame p [startMark, t, code, h, l] = some (.bodyLengthAbandon p (numberOf [h, l])) := by
  simp [commandOfFrame, long]

/-- A whole frame carries its request where its check agrees, and FRAME where it fails (R164, R165). -/
theorem commandOfFrame_whole (p : PortName) (t code h l : Byte) (rest : List Byte) (short : numberOf [h, l] ≤ 1024)
    (whole : rest.length = numberOf [h, l] + 2) : commandOfFrame p (startMark :: t :: code :: h :: l :: rest) =
      if frameGood (startMark :: t :: code :: h :: l :: rest) = true then
        some (requestOf p t.toNat code.toNat (rest.take (numberOf [h, l])))
      else some (.frame p (startMark :: t :: code :: h :: l :: rest)) := by
  simp [commandOfFrame, Nat.not_lt.mpr short, whole]

theorem exec_bodyLengthAbandon (p : PortName) (n : Nat) (s : State) (running : s.phase = .running) (long : 1024 < n) :
    execBodyLengthAbandon p n s = .next (s.setPort p { s.port p with partialFrame := [] }) :=
  congrArg Host.Outcome.next (if_pos ⟨running, long⟩)

/-! ### Bytes that arrive (R164) -/

/-- The five bytes of a frame that is too long leave the port as it was (R186). -/
theorem takeBytes_long (p : PortName) (t code h l : Byte) (s : State) (running : s.phase = .running)
    (empty : (s.port p).partialFrame = []) (long : 1024 < numberOf [h, l]) :
    takeBytes p [startMark, t, code, h, l] s = .next s := by
  let begun := s.setPort p { s.port p with partialFrame := [startMark] }
  have first : takeByte p startMark s = .next begun := by
    rw [takeByte_first p startMark s running empty, if_pos rfl]
  have short (pre post : List Byte) (e : [t, code, h, l] = pre ++ post) (hpre : pre ≠ []) (hpost : post ≠ []) :
      commandOfFrame p ([startMark] ++ pre) = none := by
    refine commandOfFrame_short p _ ?_
    have all : 4 = pre.length + post.length := by rw [← List.length_append, ← e]; rfl
    have last : 0 < post.length := List.length_pos_iff.mpr hpost
    rw [List.length_append, List.length_singleton]
    omega
  have abandoned := takeBytes_complete p _ [t, code, h, l] [startMark] begun running
    (congrArg Port.partialFrame (port_setPort_same s p _)) (by simp) (by simp) short
    (commandOfFrame_long p t code h l long)
  have cleared : begun.setPort p { begun.port p with partialFrame := [] } = s := by
    rw [port_setPort_same, setPort_setPort]
    exact setPort_noPartialFrame s p empty
  rw [takeBytes, first]
  dsimp only
  rw [abandoned, cleared]
  show execBodyLengthAbandon p _ s = _
  rw [exec_bodyLengthAbandon p _ s running long, setPort_noPartialFrame s p empty]

/-- FRAME joins the immediate answers of a port with no frame begun, and nothing else changes (R164). -/
theorem answerFrame_eq (s : State) (p : PortName) (empty : (s.port p).partialFrame = []) :
    s.answerFrame p = { s with ports := s.ports.set p { s.port p with
      immediate := (s.port p).immediate ++ [⟨0, .frame, []⟩] } } := by
  unfold State.answerFrame
  rw [setPort_noPartialFrame s p empty]
  rfl

/-- Settles O4, by the byte that comes first and by what the bytes of a whole frame carry. -/
theorem framesAreAssembledAndChecked : Obligations.FramesAreAssembledAndChecked := by
  intro p s running
  refine ⟨fun empty => ⟨fun b other => ?_, ?_, fun t code h l long => ?_, fun t code h l rest short whole => ?_⟩, ?_,
    fun n long => exec_bodyLengthAbandon p n s running long⟩
  · show takeBytes p [b] s = _
    rw [takeBytes_one, takeByte_first p b s running empty, if_neg other, setPort_noPartialFrame s p empty]
  · show takeBytes p [startMark] s = _
    rw [takeBytes_one, takeByte_first p startMark s running empty, if_pos rfl]
    rfl
  · exact takeBytes_long p t code h l s running empty long
  · have carried := commandOfFrame_whole p t code h l rest short whole
    refine ⟨fun bad => ?_, fun good => ?_⟩
    · rw [if_neg (Bool.eq_false_iff.mp bad)] at carried
      have answered := takeBytes_frame p _ t code h l rest s running empty short whole carried
      exact answered.trans (congrArg Host.Outcome.next (answerFrame_eq s p empty))
    · rw [if_pos good] at carried
      have taken := takeBytes_frame p _ t code h l rest s running empty short whole carried
      exact taken.trans (carryOut_requestOf p t.toNat code.toNat _ s)
  · exact congrArg Host.Outcome.next (if_pos running)

end Sys2Proof.Machine
end

section
/-! MODE, NOTICE MASK, NOTICES and the attention line (R173, R178 to R180). -/

namespace Sys2Proof.Machine

/-! ### MODE (R173) -/

theorem modeOfCode_beyond (code : Nat) (h : 2 < code) : modeOfCode code = none := by
  obtain ⟨n, rfl⟩ := Nat.exists_eq_add_of_lt h
  rw [show 2 + n + 1 = n + 3 by omega]
  rfl

theorem modeOfCode_named (code : Nat) (m : PlantMode)
    (h : (code, m) ∈ [(0, PlantMode.run), (1, .pause), (2, .service)]) : modeOfCode code = some m := by
  simp only [List.mem_cons, Prod.mk.injEq, List.not_mem_nil, or_false] at h
  obtain ⟨rfl, rfl⟩ | ⟨rfl, rfl⟩ | ⟨rfl, rfl⟩ := h <;> rfl

/-- The four ports of an answer show the roles, the windows and which ports are PRESENT, as the frame just received
leaves them (R172, R173). -/
theorem portList_received (s : State) (p : PortName) (t : Nat) : (s.received p t).portList =
    State.portList { s with ports := s.ports.set p { s.port p with present := true } } := by
  cases p <;> rfl

/-! ### One port changed while a request is answered (R178, R179) -/

/-- A change of one port that a frame just received neither shows nor hides may be made before the frame (R164). -/
theorem ports_setPort_received (s : State) (p q : PortName) (t : Nat) (f : Port → Port)
    (hf : ∀ x : Port, f { x with present := true, idleTimer := some 30, partialFrame := [], request := .busy t } =
      { f x with present := true, idleTimer := some 30, partialFrame := [], request := .busy t }) :
    ((s.received p t).setPort q (f ((s.received p t).port q))).ports =
      ((s.setPort q (f (s.port q))).received p t).ports := by
  refine ports_ext _ _ fun y => ?_
  show ((s.received p t).setPort q _).port y = ((s.setPort q _).received p t).port y
  by_cases hy : y = p
  · subst hy
    rw [port_received_same]
    by_cases hq : y = q
    · subst hq
      rw [port_setPort_same, port_setPort_same, port_received_same, hf]
    · rw [port_setPort_ne _ q y _ hq, port_setPort_ne _ q y _ hq, port_received_same]
  · rw [port_received_ne _ p y t hy]
    by_cases hq : y = q
    · subst hq
      rw [port_setPort_same, port_setPort_same, port_received_ne s p y t hy]
    · rw [port_setPort_ne _ q y _ hq, port_setPort_ne _ q y _ hq, port_received_ne s p y t hy]

/-! ### NOTICE MASK (R178) -/

theorem portOfCode_beyond (port : Nat) (h : 3 < port) : portOfCode port = none := by
  obtain ⟨n, rfl⟩ := Nat.exists_eq_add_of_lt h
  rw [show 3 + n + 1 = n + 4 by omega]
  rfl

theorem portOfCode_named (port : Nat) (q : PortName)
    (h : (port, q) ∈ [(0, PortName.a), (1, .b), (2, .c), (3, .d)]) : portOfCode port = some q := by
  simp only [List.mem_cons, Prod.mk.injEq, List.not_mem_nil, or_false] at h
  obtain ⟨rfl, rfl⟩ | ⟨rfl, rfl⟩ | ⟨rfl, rfl⟩ | ⟨rfl, rfl⟩ := h <;> rfl

theorem noticeMaskBody_range (port kinds : Nat) (s : State) (h : 3 < port ∨ 2047 < kinds) :
    noticeMaskBody port kinds s = (s, refuse .range []) := by
  unfold noticeMaskBody
  split
  · rfl
  case h_2 q named =>
    refine if_pos (h.resolve_left fun beyond => ?_)
    rw [portOfCode_beyond port beyond] at named
    cases named

/-- The mask that NOTICE MASK gives a port: the kinds listed and RESTART, set for the role that the port has (R178). -/
def maskGiven (kinds : Nat) (x : Port) : Port :=
  { x with mask := ⟨withNotice (BitVec.ofNat 11 kinds) .restart, x.role, true⟩ }

theorem noticeMaskBody_taken (port kinds : Nat) (q : PortName) (s : State) (hk : kinds ≤ 2047)
    (hq : portOfCode port = some q) : noticeMaskBody port kinds s = (s.setPort q (maskGiven kinds (s.port q)),
      doneWith [.u8 port, .u8 (roleCode (s.port q).role),
        .u16 (withNotice (BitVec.ofNat 11 kinds) .restart).toNat]) := by
  unfold noticeMaskBody
  rw [hq]
  exact if_neg (Nat.not_lt.mpr hk)

/-! ### The statement -/

/-- Settles O46: each request by its codes, and the attention line by its definition. -/
theorem modesMasksAndNotices : Obligations.ModesMasksAndNotices := by
  refine ⟨fun p t code s h => ?_, fun p t port kinds s h => ?_, fun p t s running idle => ?_, fun p s => ?_⟩
  · have gate := gate_plant s p h .mode
    obtain ⟨running, idle, -⟩ := h
    refine ⟨fun beyond => ?_, fun m named => ?_⟩
    · have refused : modeBody code (s.received p t) = (s.received p t, refuse .range []) := by
        unfold modeBody
        rw [modeOfCode_beyond code beyond]
      exact request_next_refused s p t .mode none (modeBody code) running idle gate .range [] refused
    · have taken : modeBody code (s.received p t) = ({ s.received p t with mode := m },
          doneWith ([.u8 (modeCode s.mode), .u8 code] ++ (s.received p t).portList)) := by
        unfold modeBody
        rw [modeOfCode_named code m named]
        rfl
      rw [portList_received] at taken
      exact request_next s p t .mode none (modeBody code) running idle gate _ _ _ taken rfl rfl
  · have gate := gate_plant s p h .noticeMask
    obtain ⟨running, idle, -⟩ := h
    refine ⟨fun beyond => ?_, fun q hk named => ?_⟩
    · exact request_next_refused s p t .noticeMask none (noticeMaskBody port kinds) running idle gate .range []
        (noticeMaskBody_range port kinds _ beyond)
    · have taken := noticeMaskBody_taken port kinds q (s.received p t) hk (portOfCode_named port q named)
      rw [role_received] at taken
      exact request_next_raised s (s.setPort q (maskGiven kinds (s.port q))) p t .noticeMask none
        (noticeMaskBody port kinds) running idle gate _ _ _ taken
        (ports_setPort_received s p q t (maskGiven kinds) fun _ => rfl) rfl
  · have gate : s.gate p .notices none = none := gate_none s p .notices rfl rfl
    have taken : noticesBody p (s.received p t) =
        ((s.received p t).setPort p { (s.received p t).port p with notices := 0 },
          doneWith [.u16 (s.port p).notices.toNat, .u32 s.clock]) := by
      unfold noticesBody
      rw [port_received_same]
      rfl
    exact request_next_raised s (s.setPort p { s.port p with notices := 0 }) p t .notices none (noticesBody p) running
      idle gate _ _ _ taken (ports_setPort_received s p p t (fun x => { x with notices := 0 }) fun _ => rfl) rfl
  · unfold attention
    rw [Bool.and_eq_true, decide_eq_true_iff, bne_iff_ne]

end Sys2Proof.Machine
end

section
/-! RESTART and CLEAR REGISTER: the requests after whose answer a start begins (R182, R185). -/

namespace Sys2Proof.Machine

/-! ### The answer that asks for a start (R182, R185) -/

/-- A request whose body changes nothing and is answered DONE, with a start to begin once the answer has been sent. -/
theorem request_next_start (s : State) (p : PortName) (t : Nat) (q : Request) (f : Option Nat)
    (body : State → State × Reply) (running : s.phase = .running) (idle : (s.port p).request = .ready)
    (gate : s.gate p q f = none) (b : List Field) (k : StartKind)
    (taken : body (s.received p t) = (s.received p t, ⟨.done, b, some k⟩)) :
    Host.Outcome.next (φ := Fault) (ρ := Refusal) (s.takeRequest p t q f body) =
      .next { s with ports := repliedStart s p t b k } :=
  request_next s p t q f body running idle gate _ _ _ taken rfl rfl

/-! ### The confirmation of CLEAR REGISTER (R185) -/

theorem clearRegisterBody_beyond (count : Nat) (s : State) (beyond : 512 < count) :
    clearRegisterBody count s = (s, refuse .range []) :=
  if_pos beyond

theorem clearRegisterBody_other (count : Nat) (s : State) (within : count ≤ 512) (other : count ≠ s.liveCount) :
    clearRegisterBody count s = (s, refuse .range [.u16 s.liveCount]) := by
  unfold clearRegisterBody
  rw [if_neg (Nat.not_lt.mpr within), if_pos other]

theorem clearRegisterBody_confirmed (count : Nat) (s : State) (within : count ≤ 512) (confirmed : count = s.liveCount) :
    clearRegisterBody count s = (s, ⟨.done, [.u16 count], some .cold⟩) := by
  unfold clearRegisterBody
  rw [if_neg (Nat.not_lt.mpr within), if_neg (not_not.mpr confirmed)]

/-! ### The statement -/

/-- Settles O49: RESTART by its one answer, CLEAR REGISTER by its count. The live lots counted are those from before the
frame was received, which changes the ports alone. -/
theorem restartAndClearAskForStarts : Obligations.RestartAndClearAskForStarts := by
  intro p t s h
  have ⟨running, idle, _⟩ := h
  refine ⟨request_next_start s p t .restart none restartBody running idle (gate_plant s p h .restart) [] .warm rfl,
    fun service count => ?_⟩
  have gate : s.gate p .clearRegister none = none :=
    gate_ready s p .plant h .clearRegister rfl (by rw [service]; rfl)
  have counted : (s.received p t).liveCount = s.liveCount := rfl
  refine ⟨fun beyond => ?_, fun within other => ?_, fun within confirmed => ?_⟩
  · exact request_next_refused s p t .clearRegister none (clearRegisterBody count) running idle gate .range []
      (clearRegisterBody_beyond count _ beyond)
  · rw [← counted] at other ⊢
    exact request_next_refused s p t .clearRegister none (clearRegisterBody count) running idle gate .range _
      (clearRegisterBody_other count _ within other)
  · exact request_next_start s p t .clearRegister none (clearRegisterBody count) running idle gate [.u16 count] .cold
      (clearRegisterBody_confirmed count _ within (confirmed.trans counted.symm))

end Sys2Proof.Machine
end
